-- ==== Sys2Proof/Word.lean ====
section
/-! DEFINITION. The word types of the update-engine block (spec/00_scope.md R12, R16): every register and every
arithmetic value is an unsigned bit vector. Nothing in the block is signed (R12), so there is no sign extension. -/

namespace Sys2Proof

/-- A byte (R16: "Bytes are 8 bits"). -/
abbrev Byte := BitVec 8

/-- A 16-bit length: the wire payload length and the write data length (R16). -/
abbrev Half := BitVec 16

/-- A 32-bit word: addresses, flash words, the checksum, cipher words (R16). -/
abbrev Word := BitVec 32

end Sys2Proof
end

