-- ==== Sys2Proof/Machine/Bytes.lean ====
section
/-! DEFINITION. Byte-string conversions and word operators of the spec's notation
(spec/00_scope.md R13, R14): the one place where a byte order is decided. -/

namespace Sys2Proof.Machine

/-- A vector of `n` entries given by index; the kernel evaluates it entry by entry. -/
def vecOf {α : Type} (n : Nat) (f : Nat → α) : Vector α n :=
  ⟨⟨(List.range n).map f⟩, by simp⟩

/-- R14 `BE16(b0, b1)`: the first byte is the most significant (the wire order of R68). -/
def be16 (b0 b1 : Byte) : Half := b0 ++ b1

/-- R14 `BE32(b0, b1, b2, b3)`: the first byte is the most significant. -/
def be32 (b0 b1 b2 b3 : Byte) : Word := b0 ++ b1 ++ b2 ++ b3

/-- R14 `LE32(b0, b1, b2, b3)`: the first byte is the least significant (cipher words R69, flash words R70). -/
def le32 (b0 b1 b2 b3 : Byte) : Word := b3 ++ b2 ++ b1 ++ b0

/-- The two bytes of a 16-bit number in wire order (R68). -/
def bytesBE16 (h : Half) : List Byte := [h.extractLsb' 8 8, h.extractLsb' 0 8]

/-- R14 `bytesBE32`, the inverse of `be32`. -/
def bytesBE32 (w : Word) : List Byte :=
  [w.extractLsb' 24 8, w.extractLsb' 16 8, w.extractLsb' 8 8, w.extractLsb' 0 8]

/-- R14 `bytesLE32`, the inverse of `le32`. -/
def bytesLE32 (w : Word) : List Byte :=
  [w.extractLsb' 0 8, w.extractLsb' 8 8, w.extractLsb' 16 8, w.extractLsb' 24 8]

/-- R13 `rotl32(w, n)`, for `0 < n < 32`. -/
def rotl32 (w : Word) (n : Nat) : Word := (w <<< n) ||| (w >>> (32 - n))

/-- R62 `phys(a) = a & 0x1FFFFFFF`: the physical form of an address, its top three bits masked off. -/
def phys (a : Word) : Word := a &&& 0x1FFFFFFF#32

/-- The number of bytes in the physical address space (R97: `2^29`). -/
def physSpace : Nat := 2 ^ 29

end Sys2Proof.Machine
end

