-- ==== Sys2Proof/Config.lean ====
section
/-! DEFINITION. The parameters of the update-engine block and of its environment (spec/00_scope.md R10, R11) as plain
data, and the free values. A machine's parameters stand in its state (`State.cfg`), where no step changes them, so that
a statement about every state is a statement about every choice of parameters (log entry 2). -/

namespace Sys2Proof

/-- One range of physical byte addresses that is flash (R10 `FLASH_RANGES`): its base and its length in bytes. -/
structure Range where
  base : Nat
  len : Nat
deriving DecidableEq, Repr

/-- The names of the one-byte replies the source gives (R310): four ACK names, then fourteen NACK names. -/
inductive Reply where
  | pageErased | pageProtected | eraseDone | genericOk
  | checksumMismatch | packetTooLarge | writeWithoutErase | sizeError | alignmentError | wraparound
  | outOfBounds | overConfiguration | missingShim | flashWriteFailed | compareFailed | writesFailed
  | unknownCommand | eraseFailed
deriving DecidableEq, Repr

/-- R310 `RESP`: the reply byte of each name. The source gives none of the bytes. -/
structure RespMap where
  pageErased : Byte
  pageProtected : Byte
  eraseDone : Byte
  genericOk : Byte
  checksumMismatch : Byte
  packetTooLarge : Byte
  writeWithoutErase : Byte
  sizeError : Byte
  alignmentError : Byte
  wraparound : Byte
  outOfBounds : Byte
  overConfiguration : Byte
  missingShim : Byte
  flashWriteFailed : Byte
  compareFailed : Byte
  writesFailed : Byte
  unknownCommand : Byte
  eraseFailed : Byte
deriving DecidableEq, Repr

/-- R311 `STATUS_CODES`: the status byte of each outcome. The source gives none of the values. -/
structure StatusMap where
  skipped : Byte
  success : Byte
  powerExit : Byte
  started : Byte
  hardwareFailed : Byte
  assumptionFailed : Byte
deriving DecidableEq, Repr

/-- Every parameter of R10 (the block) and R11, R282 (its environment) that is data. The two that are functions,
`INFO_TEXT` and `CRC_TEXT`, are `Params.infoText` and `Params.crcText` below (log entry 9). -/
structure Params where
  /-- R10 `CRC_POLY`. -/
  crcPoly : Word
  /-- R10 `N_DOUBLE_ROUNDS`. -/
  nDoubleRounds : Nat
  /-- R10 `KEY`, the pre-shared secret. -/
  key : Vector Byte 32
  /-- R10 `PAGE_SIZE`. -/
  pageSize : Nat
  /-- R10 `ROW_SIZE`. -/
  rowSize : Nat
  /-- R10 `BUF_OVERHEAD`. -/
  bufOverhead : Nat
  /-- R10 `ERASED_BYTE`. -/
  erasedByte : Byte
  /-- R10 `UNLOCK_KEY1`. -/
  unlockKey1 : Word
  /-- R10 `UNLOCK_KEY2`. -/
  unlockKey2 : Word
  /-- R10 `PREDELAY`, in time units: R173 says that it "has no effect on any state", and nothing reads it. -/
  preDelay : Nat
  /-- R10 `DRAIN_OVERSIZE`. -/
  drainOversize : Bool
  /-- R10 `FLASH_RANGES`, physical addresses. -/
  flashRanges : List Range
  /-- R11 `MAX_WRITE_RETRIES`. -/
  maxWriteRetries : Nat
  /-- R11 `HANDSHAKE_WINDOW`, in ticks of the platform's 32-bit tick counter. -/
  handshakeWindow : Word
  /-- R11 `SHIM_SEQ`. -/
  shimSeq : List Byte
  /-- R11 `SHIM_WINDOW_WORDS`. -/
  shimWindowWords : Nat
  /-- R11 `PROG_BASE`. -/
  progBase : Word
  /-- R11 `PROG_SIZE`. -/
  progSize : Nat
  /-- R11 `ERASE_PROGRESS`. -/
  eraseProgress : Bool
  /-- R11 `ENGINE_BASE`. -/
  engineBase : Word
  /-- R11 `ENGINE_SIZE`. -/
  engineSize : Nat
  /-- R11 `BOOT_SECTOR_BASE`. -/
  bootBase : Word
  /-- R11 `BOOT_SECTOR_SIZE`. -/
  bootSize : Nat
  /-- R11 `BOOT_PROTECT`. -/
  bootProtect : Bool
  /-- R11 `CONFIG_BASE`. -/
  configBase : Word
  /-- R11 `CONFIG_SIZE`. -/
  configSize : Nat
  /-- R11 `ENTRY_PAGE`. -/
  entryPage : Word
  /-- R11 `RESP`. -/
  resp : RespMap
  /-- R11 `STATUS_CODES`. -/
  status : StatusMap
deriving DecidableEq, Repr

/-- R10 `BUF_CAP = PAGE_SIZE + BUF_OVERHEAD`. -/
def Params.bufCap (c : Params) : Nat := c.pageSize + c.bufOverhead

/-- The reply byte of a name (R310). -/
def RespMap.get (r : RespMap) : Reply → Byte
  | .pageErased => r.pageErased
  | .pageProtected => r.pageProtected
  | .eraseDone => r.eraseDone
  | .genericOk => r.genericOk
  | .checksumMismatch => r.checksumMismatch
  | .packetTooLarge => r.packetTooLarge
  | .writeWithoutErase => r.writeWithoutErase
  | .sizeError => r.sizeError
  | .alignmentError => r.alignmentError
  | .wraparound => r.wraparound
  | .outOfBounds => r.outOfBounds
  | .overConfiguration => r.overConfiguration
  | .missingShim => r.missingShim
  | .flashWriteFailed => r.flashWriteFailed
  | .compareFailed => r.compareFailed
  | .writesFailed => r.writesFailed
  | .unknownCommand => r.unknownCommand
  | .eraseFailed => r.eraseFailed

/-- DESIGN CHOICE (log entry 2), unsafe if a claim leaned on it: the parameters `State.reset` starts with. They are
`I2` of spec/95_test_vectors.md section 7 (with `I1`), the set of values the spec itself calculates with, and for the
parameters `I2` does not fix (`UNLOCK_KEY1/2`, `PREDELAY`, `HANDSHAKE_WINDOW`, `SHIM_SEQ`, `SHIM_WINDOW_WORDS`, `RESP`,
`STATUS_CODES`) values that keep the constraints of R10, R282, R310 and R311. No statement rests on any of them. -/
def Params.i2 : Params where
  crcPoly := 0x04C11DB7#32
  nDoubleRounds := 10
  key := #v[0x00#8, 0x01#8, 0x02#8, 0x03#8, 0x04#8, 0x05#8, 0x06#8, 0x07#8,
            0x08#8, 0x09#8, 0x0A#8, 0x0B#8, 0x0C#8, 0x0D#8, 0x0E#8, 0x0F#8,
            0x10#8, 0x11#8, 0x12#8, 0x13#8, 0x14#8, 0x15#8, 0x16#8, 0x17#8,
            0x18#8, 0x19#8, 0x1A#8, 0x1B#8, 0x1C#8, 0x1D#8, 0x1E#8, 0x1F#8]
  pageSize := 4096
  rowSize := 512
  bufOverhead := 10
  erasedByte := 0xFF#8
  unlockKey1 := 0xAA996655#32
  unlockKey2 := 0x556699AA#32
  preDelay := 1
  drainOversize := false
  flashRanges := [⟨0x1D000000, 0x4000⟩, ⟨0x1FC00000, 0x3000⟩]
  maxWriteRetries := 2
  handshakeWindow := 0x01000000#32
  shimSeq := [0xDE#8, 0xAD#8, 0xBE#8, 0xEF#8]
  shimWindowWords := 4
  progBase := 0x1D000000#32
  progSize := 0x4000
  eraseProgress := false
  engineBase := 0x1D000000#32
  engineSize := 0x1000
  bootBase := 0x1FC00000#32
  bootSize := 0x3000
  bootProtect := true
  configBase := 0x1FC02FF0#32
  configSize := 16
  entryPage := 0x1FC00000#32
  resp :=
    { pageErased := 0xF0#8, pageProtected := 0xF1#8, eraseDone := 0xF2#8, genericOk := 0xF3#8
      checksumMismatch := 0xE0#8, packetTooLarge := 0xE1#8, writeWithoutErase := 0xE2#8, sizeError := 0xE3#8
      alignmentError := 0xE4#8, wraparound := 0xE5#8, outOfBounds := 0xE6#8, overConfiguration := 0xE7#8
      missingShim := 0xE8#8, flashWriteFailed := 0xE9#8, compareFailed := 0xEA#8, writesFailed := 0xEB#8
      unknownCommand := 0xEC#8, eraseFailed := 0xED#8 }
  status :=
    { skipped := 1#8, success := 2#8, powerExit := 3#8, started := 4#8, hardwareFailed := 5#8, assumptionFailed := 6#8 }

/-! ### The texts (R11, R313; log entry 9): parameter functions that make uninterpreted byte strings. -/

/-- R11, R313 `INFO_TEXT()`: the text of the Info command. Nothing constrains it. DESIGN CHOICE
(log entry 9): its arguments are `ERASE_ATT`, `ERASE_FAIL` and `WRITE_FAIL`, which R313 calls the natural diagnostic fields,
so that it may show them. -/
opaque Params.infoText : Params → (eraseAtt eraseFail writeFail : Word) → List Byte

/-- How four bytes are written out as a text, one-to-one (R313). Nothing else constrains it. -/
opaque Config.crcRendering : Params → (List Byte ≃ List Byte)

/-- R11, R313 `CRC_TEXT(ACC)`: the text of the CRC command. It is injective in `ACC`, as R313 requires
(`Params.crcText_injective`), and otherwise uninterpreted: every injective function of `ACC` has this form. -/
def Params.crcText (c : Params) (acc : Word) : List Byte :=
  Config.crcRendering c [acc.extractLsb' 24 8, acc.extractLsb' 16 8, acc.extractLsb' 8 8, acc.extractLsb' 0 8]

/-! ### Free values (log entry 3). Each is applied to the draw counter of the state (`Draws.count`); nothing constrains
it, so a claim proved of the model holds whatever the hardware supplies (R15 `draw`). -/

/-- A drawn byte: what a failed, interrupted or repeated flash operation leaves (R175, R360 d), an unspecified register
byte after a reset (R51, R360), the status byte after a power cycle (R362). -/
opaque Config.freeByte : Nat → Byte

/-- The drawn `HW_LVDERR` of a completing flash hardware operation (R174) or of a reset (R51). -/
opaque Config.freeLowVoltage : Nat → Bool

/-- The drawn `HW_WRERR` of a completing flash hardware operation (R174) or of a reset (R51). -/
opaque Config.freeWriteError : Nat → Bool

end Sys2Proof
end

