-- ==== Sys2Proof/Machine/State.lean ====
section
/-! DEFINITION. The state of the update-engine block, of the memories and channels it touches and of its controller, as
plain data (spec/10_state.md, spec/20_memory.md R60 to R67, spec/47_environment.md R281), with the reasons a step can
stop and the state after reset. Fields marked MODEL are the model's own and are listed in INVENTORY.md. -/

namespace Sys2Proof.Machine

/-- Why the machine stops with a fault. -/
inductive Fault where
  /-- Raised by `CIPH.BLOCK`, and by `CIPH.PROC` with `n > 0`, when `KEYED = 0`: R154 gives the case no meaning and "a
  model treats it as a fault". Safe. -/
  | cipherNotKeyed
deriving DecidableEq, Repr

/-- Why the model offers no step. -/
inductive Refusal where
  /-- An instruction whose meaning is not modelled, by its mnemonic. Safe. -/
  | notModelled (mnemonic : String)
  /-- Raised when an operation is started, or the command port is written, while an operation is in progress: R372 gives
  the controller no step then, and spec/93_implementation_defined.md U11 says "refuse". Safe. -/
  | portBusy
deriving DecidableEq, Repr

/-- R35: the states of the flash sequencer. -/
inductive FlState where
  | idle | check | issue | preDelay | wait | status | clrIssue | clrWait | clrStatus | halt
deriving DecidableEq, Repr

/-- R36, R67: the kinds of a flash operation. -/
inductive FlashKind where
  | erase | row | word | nop
deriving DecidableEq, Repr

/-- R41: the states of the frame reconstructor. -/
inductive FrState where
  | idle | len0 | len1 | body | decrypt | verify | extract | drain
deriving DecidableEq, Repr

/-- R300: the states of the Command Loop. -/
inductive LoopState where
  | idle | active | exited
deriving DecidableEq, Repr

/-- What the flash hardware answers to one issued operation (R173, R174): it completes and sets `HW_LVDERR` and
`HW_WRERR`, or it has not completed when the run is next reset (or ever: U10). -/
inductive HwOutcome where
  | done (lowVoltage writeError : Bool)
  | hang
deriving DecidableEq, Repr

/-- R67: what the sequencer presents at the flash operation port for one operation: kind, physical address, data and the
two unlock keys in the order they are written (R172). -/
structure FlashCmd where
  kind : FlashKind
  addr : Word
  data : List Byte
  key1 : Word
  key2 : Word
deriving DecidableEq, Repr

/-- Why a reset happened, as far as R302 asks ("reset reason is not 'power-on'"). -/
inductive ResetCause where
  | powerOn | external
deriving DecidableEq, Repr

/-- MODEL. One event the outside world makes between two steps of the machine (INVENTORY.md, Host interface). -/
inductive Input where
  /-- Nothing lands here: the machine takes its next step. -/
  | quiet
  /-- The host puts a byte into the receive channel (R66). -/
  | rxByte (b : Byte)
  /-- The platform's tick counter now reads `now` (R350 a). -/
  | ticks (now : Word)
  /-- A reset (R360). `linked` and `shim` are the answers of the two startup tests (R312), `channel` what the receive
  channel holds afterwards (R360 f). -/
  | reset (cause : ResetCause) (linked shim : Bool) (channel : List Byte)
  /-- A controller outside the model writes `OP`, which starts the operation (R24). -/
  | portOp (op : Byte)
  /-- … writes `OPA`. -/
  | portOpa (v : Word)
  /-- … writes `OPB`. -/
  | portOpb (v : Word)
  /-- … writes `OPC`. -/
  | portOpc (v : Word)
  /-- … writes `KEYR[i]` (R34). -/
  | portKey (i : Fin 32) (b : Byte)
  /-- … writes `IVR[i]` (R34). -/
  | portIv (i : Fin 8) (b : Byte)
deriving DecidableEq, Repr

/-- R24: the command-port registers, nos. 0 to 4. -/
structure Port where
  op : Byte
  opa : Word
  opb : Word
  opc : Word
  res : Byte
  /-- MODEL: `OP` has been written and its operation has not begun. -/
  start : Bool
deriving DecidableEq, Repr

/-- R26: the CRC registers, nos. 8 to 11. -/
structure Crc where
  /-- `ACC`. -/
  acc : Word
  /-- `CRC_CALC`. -/
  computed : Word
  /-- `CRC_RX`. -/
  received : Word
  /-- `CRC_MATCH`. -/
  matched : Bool
deriving DecidableEq, Repr

/-- R28 to R34: the cipher registers, nos. 16 to 23. -/
structure Cipher where
  x : Vector Word 16
  s : Vector Word 16
  ks : Vector Byte 64
  cRem : Word
  cOff : Word
  keyed : Bool
  keyr : Vector Byte 32
  ivr : Vector Byte 8
deriving DecidableEq, Repr

/-- R35 to R39: the flash-sequencer registers, nos. 32 to 41. -/
structure FlashSeq where
  state : FlState
  kind : FlashKind
  addr : Word
  data : Word
  src : Word
  eraseAtt : Word
  eraseFail : Word
  writeFail : Word
  halted : Bool
  first : Byte
deriving DecidableEq, Repr

/-- Memory in one canonical form: addresses strictly rising, no entry equal to what an unlisted address reads as. -/
abbrev Memory := List Host.Cell

/-- The flash array (R61) and the flash operation port with its hardware (R40, R67). -/
structure FlashHw where
  /-- The flash array, keyed by physical address; an unlisted byte is erased (log entry 5). -/
  array : Memory
  /-- `HW_DONE`. -/
  done : Bool
  /-- `HW_LVDERR`. -/
  lowVoltage : Bool
  /-- `HW_WRERR`. -/
  writeError : Bool
  /-- MODEL: the operations presented at the port since the last reset, oldest first (R67). -/
  issued : List FlashCmd
  /-- MODEL: the outcomes the hardware will supply next; a drawn outcome where the list has run out (log entry 3). -/
  script : List HwOutcome
deriving DecidableEq, Repr

/-- R41 to R47: the frame-reconstructor registers, nos. 48 to 56. -/
structure Frame where
  state : FrState
  /-- `BUF`, keyed by offset; an unlisted offset reads 0 (log entry 6). -/
  buf : Memory
  fill : Half
  cur : Half
  plen : Half
  seq : Word
  final : Bool
  wAddr : Word
  wLen : Half
  /-- MODEL: `b0` of R233, the first length byte last taken. -/
  lenHi : Byte
  /-- MODEL: how many body bytes `FR_DRAIN` still has to discard (R236). -/
  toDrain : Half
deriving DecidableEq, Repr

/-- R281: the controller's session fields and the persistent status byte. -/
structure Env where
  eraseDone : Bool
  wretry : Nat
  loop : LoopState
  status : Byte
  /-- R301 `t0`: the tick count when `Idle` was entered. -/
  t0 : Word
  /-- MODEL: the platform's tick counter as last read (R350 a). -/
  ticks : Word
  /-- MODEL: a Write command waits for its `FR.RECV` (R306). -/
  writing : Bool
deriving DecidableEq, Repr

/-- MODEL. The supply of drawn bytes: the bytes listed first, then free values by count (R15, log entry 3). -/
structure Draws where
  bytes : List Byte
  count : Nat
deriving DecidableEq, Repr

/-- The whole machine. -/
structure State where
  port : Port
  crc : Crc
  ciph : Cipher
  fl : FlashSeq
  hw : FlashHw
  fr : Frame
  env : Env
  /-- The receive channel, next byte first (R66). -/
  rx : List Byte
  /-- The transmit channel, oldest byte first (R66). -/
  tx : List Byte
  /-- MODEL: the drawn bytes. -/
  draws : Draws
  /-- MODEL: what the outside world does next, event by event; no event where the list has run out. -/
  inputs : List Input
  /-- The parameters (R10, R11), which no step changes (R20). -/
  cfg : Params
deriving DecidableEq, Repr

/-- The machine right after a power-on reset whose startup tests have passed (R51, R281, R360, R361). `X`, `S`, `KS`,
`KEYR`, `IVR` and `BUF` are unspecified after reset and hold 0 here; `HW_DONE`, the status byte, the tick counter and the
parameters are the model's choices too (log entries 2, 6, 7); `HW_LVDERR` and `HW_WRERR` are drawn (R51). -/
def State.reset : State where
  port := { op := 0, opa := 0, opb := 0, opc := 0, res := 0, start := false }
  crc := { acc := 0, computed := 0, received := 0, matched := false }
  ciph :=
    { x := Vector.replicate 16 0, s := Vector.replicate 16 0, ks := Vector.replicate 64 0, cRem := 0, cOff := 0
      keyed := false, keyr := Vector.replicate 32 0, ivr := Vector.replicate 8 0 }
  fl :=
    { state := .idle, kind := .nop, addr := 0, data := 0, src := 0, eraseAtt := 0, eraseFail := 0, writeFail := 0
      halted := false, first := 0 }
  hw :=
    { array := [], done := true, lowVoltage := Config.freeLowVoltage 0, writeError := Config.freeWriteError 0
      issued := [], script := [] }
  fr :=
    { state := .idle, buf := [], fill := 0, cur := 0, plen := 0, seq := 0, final := false, wAddr := 0, wLen := 0
      lenHi := 0, toDrain := 0 }
  env := { eraseDone := false, wretry := 0, loop := .idle, status := 0, t0 := 0, ticks := 0, writing := false }
  rx := []
  tx := []
  draws := { bytes := [], count := 1 }
  inputs := []
  cfg := Params.i2

end Sys2Proof.Machine
end

