-- ==== Sys2Proof/Machine/Ops.lean ====
section
/-! DEFINITION. The operations every meaning is written over: memory, draws, the channels, result codes, how an operation
ends, the fatal halt and the reset that alone leaves it, the flash operation port and the flash sequence. -/

namespace Sys2Proof.Machine

/-! ### Memory -/

/-- The byte at an address; `d` is what an unlisted address reads as. -/
def Memory.read (d : Byte) : Memory → Nat → Byte
  | [], _ => d
  | c :: m, a => if c.1 = a then c.2 else Memory.read d m a

/-- The entries of bytes laid out from an address on, without those an unlisted address would read as. -/
def cellsFrom (d : Byte) : Nat → List Byte → Memory
  | _, [] => []
  | a, b :: bs => if b = d then cellsFrom d (a + 1) bs else (a, b) :: cellsFrom d (a + 1) bs

/-- Put bytes at `base`, `base + 1`, …; every other address keeps its byte. The canonical form is kept. -/
def Memory.writeRange (d : Byte) (m : Memory) (base : Nat) (bytes : List Byte) : Memory :=
  m.filter (fun c => c.1 < base) ++ cellsFrom d base bytes ++ m.filter (fun c => base + bytes.length ≤ c.1)

/-- The `n` bytes from `base` on, in increasing address order. -/
def Memory.readRange (d : Byte) (m : Memory) (base n : Nat) : List Byte :=
  (List.range n).map fun i => Memory.read d m (base + i)

/-- The canonical form: addresses strictly rising, and no entry equal to what an unlisted address reads as. -/
abbrev Memory.wf (d : Byte) (m : Memory) : Prop :=
  m.Pairwise (fun c c' => c.1 < c'.1) ∧ ∀ c ∈ m, c.2 ≠ d

/-- R42: a byte of `BUF`. What a byte that nothing has written reads as is the model's choice (log entry 6). -/
def State.bufByte (s : State) (off : Nat) : Byte := Memory.read 0#8 s.fr.buf off

/-- R42: `BUF[off .. off+n−1]`. -/
def State.bufRange (s : State) (off n : Nat) : List Byte := Memory.readRange 0#8 s.fr.buf off n

/-- Store bytes at `BUF[off]`, `BUF[off+1]`, …. -/
def State.storeBuf (s : State) (off : Nat) (bytes : List Byte) : State :=
  { s with fr.buf := Memory.writeRange 0#8 s.fr.buf off bytes }

/-- R15 `MemRead(addr, 1)`, at a physical address. What a byte that nothing has written reads as is the model's choice
(log entry 5). -/
def State.flashByte (s : State) (p : Nat) : Byte := Memory.read s.cfg.erasedByte s.hw.array p

/-- The `n` flash bytes from physical address `p` on. -/
def State.flashRange (s : State) (p n : Nat) : List Byte := Memory.readRange s.cfg.erasedByte s.hw.array p n

/-- The flash array with bytes put at physical address `p` on. Only `flashEffect` and a reset use it: flash changes
through the flash operation port alone (R15, R61). -/
def State.storeFlash (s : State) (p : Nat) (bytes : List Byte) : State :=
  { s with hw.array := Memory.writeRange s.cfg.erasedByte s.hw.array p bytes }

/-! ### Draws (R15 `draw`) -/

/-- One drawn byte. -/
def Draws.byte (d : Draws) : Byte × Draws :=
  match d.bytes with
  | b :: bs => (b, { bytes := bs, count := d.count + 1 })
  | [] => (Config.freeByte d.count, { bytes := [], count := d.count + 1 })

/-- `n` drawn bytes. -/
def Draws.take : Nat → Draws → List Byte × Draws
  | 0, d => ([], d)
  | n + 1, d =>
    let (b, d) := d.byte
    let (bs, d) := Draws.take n d
    (b :: bs, d)

/-- R174: the outcome the hardware supplies for the next operation. -/
def State.nextOutcome (s : State) : HwOutcome :=
  match s.hw.script with
  | o :: _ => o
  | [] => .done (Config.freeLowVoltage s.draws.count) (Config.freeWriteError s.draws.count)

/-- The state with that outcome taken. -/
def State.takeOutcome (s : State) : State :=
  match s.hw.script with
  | _ :: rest => { s with hw.script := rest }
  | [] => { s with draws.count := s.draws.count + 1 }

/-- Every byte of a flash range becomes a drawn byte (R175, R360 d). -/
def State.scramble (s : State) (p n : Nat) : State :=
  { s.storeFlash p (Draws.take n s.draws).1 with draws := (Draws.take n s.draws).2 }

/-! ### Channels and result codes -/

/-- R66, R280 `TxByte(b)`: only the controller calls it. -/
def State.send (s : State) (b : Byte) : State := { s with tx := s.tx ++ [b] }

/-- R303, R305, R313: a text is sent byte after byte. -/
def State.sendText (s : State) (text : List Byte) : State := { s with tx := s.tx ++ text }

/-- The reply of a name (R310). -/
def State.reply (s : State) (r : Reply) : State := s.send (s.cfg.resp.get r)

/-- R95: the result names. -/
inductive Res where
  | ok | okIv | okWrite | okEnd
  | errChecksum | errTooLarge | errSize | errAlign | errFlash | errCompare | errKeylen | errRange | badOp
deriving DecidableEq, Repr

/-- R95: the value of `RES` for each result. -/
def resCode : Res → Byte
  | .ok => 0x00#8
  | .okIv => 0x01#8
  | .okWrite => 0x02#8
  | .okEnd => 0x03#8
  | .errChecksum => 0x10#8
  | .errTooLarge => 0x11#8
  | .errSize => 0x12#8
  | .errAlign => 0x13#8
  | .errFlash => 0x14#8
  | .errCompare => 0x15#8
  | .errKeylen => 0x16#8
  | .errRange => 0x17#8
  | .badOp => 0x1F#8

/-- R15 `return RES_x`: the end of an operation writes `RES`. -/
def State.setRes (s : State) (r : Res) : State := { s with port.res := resCode r }

/-! ### How an operation ends -/

/-- What running an operation gives: it ends with a result (R95); it does not end (a wait for a byte R250, a flash
hardware that has not completed R173, the halt R336: then `RES` is not written); or the spec gives it no meaning. -/
inductive OpResult where
  | ends (r : Res) (s : State)
  | blocks (s : State)
  | noMeaning (f : Fault)

/-- An operation is in progress (R372): a flash hardware operation has not completed, or a packet is being received. -/
def State.busy (s : State) : Bool := s.fl.state != .idle || s.fr.state != .idle

/-- The outcome of an operation at the command port: its end writes `RES` (R24, R95). -/
def OpResult.outcome : OpResult → Host.Outcome State Fault Refusal
  | .ends r s => .next (s.setRes r)
  | .blocks s => .next s
  | .noMeaning f => .fault f

/-- Run an operation of the block. While the block is halted nothing starts and nothing changes (R92, R336); while
another operation is in progress the port is blocked (R372). -/
def runOperation (op : State → OpResult) (s : State) : Host.Outcome State Fault Refusal :=
  if s.fl.halted then .next s
  else if s.busy then .refused .portBusy
  else (op s).outcome

/-- Run what the frame unit does with a frame. It belongs to an `FR.RECV` in progress, so that only a flash operation
that has not completed stands in its way. -/
def runFrame (op : State → OpResult) (s : State) : Host.Outcome State Fault Refusal :=
  if s.fl.halted then .next s
  else if s.fl.state != .idle then .refused .portBusy
  else (op s).outcome

/-- The controller writes the command port (R24): the code and the operands the operation reads. -/
def State.writePort (s : State) (op : Byte) (a b c : Option Word) : State :=
  { s with
    port.op := op
    port.opa := a.getD s.port.opa
    port.opb := b.getD s.port.opb
    port.opc := c.getD s.port.opc }

/-- The controller issues an operation and waits for its end (R280). -/
def issue (code : Byte) (a b c : Option Word) (op : State → OpResult) (s : State) : OpResult :=
  match op (s.writePort code a b c) with
  | .ends r s => .ends r (s.setRes r)
  | .blocks s => .blocks s
  | .noMeaning f => .noMeaning f

/-! ### The fatal halt and the reset that leaves it -/

/-- R178, R336: entry to the fatal halt, the only exception of the machine. Nothing is saved; the status byte reads
"hardware-failed" from then on (R311, R337). -/
def State.haltEntry (s : State) : State :=
  { s with fl.state := .halt, fl.halted := true, env.status := s.cfg.status.hardwareFailed }

/-- How many bytes an operation of this kind targets (R175 `T`). -/
def flashSpan (cfg : Params) : FlashKind → Nat
  | .erase => cfg.pageSize
  | .row => cfg.rowSize
  | .word => 4
  | .nop => 0

/-- R360 d: a flash operation was issued and `HW_DONE` is not yet 1. -/
def State.inFlight (s : State) : Bool :=
  s.fl.state == .issue || s.fl.state == .preDelay || s.fl.state == .wait

/-- R360 d: the flash array after a reset. -/
def State.resetFlash (s : State) : State :=
  if s.inFlight then s.scramble s.fl.addr.toNat (flashSpan s.cfg s.fl.kind) else s

/-- `n` drawn bytes as a vector. -/
def drawVec (n : Nat) (d : Draws) : Vector Byte n × Draws :=
  (vecOf n fun i => (Draws.take n d).1.getD i 0#8, (Draws.take n d).2)

/-- Sixteen drawn words. -/
def drawWords (d : Draws) : Vector Word 16 × Draws :=
  let (bs, d) := Draws.take 64 d
  (vecOf 16 fun i => le32 (bs.getD (4 * i) 0#8) (bs.getD (4 * i + 1) 0#8) (bs.getD (4 * i + 2) 0#8) (bs.getD (4 * i + 3) 0#8), d)

/-- R360 a, b, c, d, e: what a reset makes of the block's registers and of the flash hardware. The arrays that R51
leaves unspecified and the two flags become drawn values. Leaving the halt is this and nothing else (R336). -/
def State.resetBlock (s : State) : State :=
  let s := s.resetFlash
  let (x, d) := drawWords s.draws
  let (sc, d) := drawWords d
  let (ks, d) := drawVec 64 d
  let (keyr, d) := drawVec 32 d
  let (ivr, d) := drawVec 8 d
  let (buf, d) := Draws.take s.cfg.bufCap d
  { s with
    port := { op := 0, opa := 0, opb := 0, opc := 0, res := resCode .ok, start := false }
    crc := { acc := 0, computed := 0, received := 0, matched := false }
    ciph := { x := x, s := sc, ks := ks, cRem := 0, cOff := 0, keyed := false, keyr := keyr, ivr := ivr }
    fl :=
      { state := .idle, kind := .nop, addr := 0, data := 0, src := 0, eraseAtt := 0, eraseFail := 0, writeFail := 0
        halted := false, first := resCode .ok }
    hw :=
      { s.hw with
        done := true, lowVoltage := Config.freeLowVoltage d.count, writeError := Config.freeWriteError d.count, issued := [] }
    fr :=
      { state := .idle, buf := Memory.writeRange 0#8 [] 0 buf, fill := 0, cur := 0, plen := 0, seq := 0, final := false
        wAddr := 0, wLen := 0, lenHi := 0, toDrain := 0 }
    draws := { d with count := d.count + 1 } }

/-! ### The flash operation port and the flash sequence -/

/-- R175: the effect of a completed operation on the flash array; `bad` says that a flag is set. -/
def flashEffect (kind : FlashKind) (data : List Byte) (bad : Bool) (s : State) : State :=
  let base := s.fl.addr.toNat
  let span := flashSpan s.cfg kind
  match kind with
  | .nop => s
  | .erase => if bad then s.scramble base span else s.storeFlash base (List.replicate span s.cfg.erasedByte)
  | .row | .word =>
    if bad || !(s.flashRange base span).all (· == s.cfg.erasedByte) then s.scramble base span else s.storeFlash base data

/-- R172 to R175: the unlock-guarded hardware operation at `FL_ADDR`, with the wait for its completion folded in (log
entry 3). Answers whether it completed. -/
def flashOp (kind : FlashKind) (data : List Byte) (s : State) : Bool × State :=
  let cmd : FlashCmd := ⟨kind, s.fl.addr, data, s.cfg.unlockKey1, s.cfg.unlockKey2⟩
  let s := { s with hw.done := false, hw.issued := s.hw.issued ++ [cmd] }
  match s.nextOutcome with
  | .hang => (false, s.takeOutcome)
  | .done lowVoltage writeError =>
    let s := { s.takeOutcome with hw.lowVoltage := lowVoltage, hw.writeError := writeError, hw.done := true }
    (true, flashEffect kind data (lowVoltage || writeError) s)

/-- How the flash sequence ends (R171): reported well, reported failed, or never. -/
inductive SeqEnd where
  | ok | fail | never
deriving DecidableEq, Repr

/-- R171, R174: the sequencer tests the OR of the two flags (R335). -/
def State.flashFault (s : State) : Bool := s.hw.lowVoltage || s.hw.writeError

/-- R177, R178: the one corrective `NOP`; the halt if it clears nothing. -/
def correctiveClear (s : State) : SeqEnd × State :=
  let s := { s with fl.state := .clrIssue }
  let (completed, s) := flashOp .nop [] s
  let s := { s with fl.state := .clrWait }
  if !completed then (.never, s)
  else
    let s := { s with fl.state := .clrStatus }
    if s.flashFault then (.never, s.haltEntry) else (.fail, { s with fl.state := .idle })

/-- R171 `flash_seq(kind, addr, data)`, state by state as R185 lists them. `FL_PREDELAY` has no effect (R173). -/
def flashSeq (kind : FlashKind) (addr : Word) (data : List Byte) (s : State) : SeqEnd × State :=
  let s := { s with fl.kind := kind, fl.addr := phys addr, fl.state := .issue }
  let (completed, s) := flashOp kind data s
  let s := { s with fl.state := .preDelay }
  let s := { s with fl.state := .wait }
  if !completed then (.never, s)
  else
    let s := { s with fl.state := .status }
    if s.flashFault then correctiveClear s else (.ok, { s with fl.state := .idle })

end Sys2Proof.Machine
end

