-- ==== Sys2Proof/Machine/Flags.lean ====
section
/-! DEFINITION. The one-bit flags of the block and its output (spec/10_state.md R48). There are no condition codes:
`CRC_MATCH` and the block counter's carry are the only computed ones; `KEYED`, `HALTED`, `FINAL` are set to constants
where their rules say so. -/

namespace Sys2Proof.Machine

/-- R126: `CRC_MATCH`, over all 32 bits. -/
def crcMatch (acc expected : Word) : Bool := acc == expected

/-- R38, R336: the output `hw_fault`, a level that `HALTED` drives. -/
def State.hwFault (s : State) : Bool := s.fl.halted

/-- R238: the packet being received is packet #1. -/
def State.firstPacket (s : State) : Bool := s.fr.seq == 0#32

/-- R32, R147: the block counter advanced by one, the high word taking the carry of the low word. -/
def advanceCounter (low high : Word) : Word × Word :=
  let low := low + 1#32
  (low, if low = 0#32 then high + 1#32 else high)

end Sys2Proof.Machine
end

