-- ==== Sys2Proof/Machine/Operands.lean ====
section
/-! DEFINITION. The operand forms of the command port and the checks on them (spec/30_encoding.md R90, R97;
spec/20_memory.md R62, R65, R72): a buffer range, a flash range, a narrow operand, an aligned address. -/

namespace Sys2Proof.Machine

/-- R65, R97: the buffer range `(off, n)` fits, the sum being exact. -/
def bufFits (cfg : Params) (off n : Nat) : Bool := decide (off + n ≤ cfg.bufCap)

/-- The flash range that holds a physical address. -/
def rangeOf (ranges : List Range) (p : Nat) : Option Range :=
  ranges.find? fun r => decide (r.base ≤ p) && decide (p < r.base + r.len)

/-- R61: a physical address is flash. -/
def isFlash (ranges : List Range) (p : Nat) : Bool := (rangeOf ranges p).isSome

/-- Every address from `p` to before `e` is flash. Each turn passes one whole range, so `fuel = e − p` turns are enough. -/
def coveredTo (ranges : List Range) : Nat → Nat → Nat → Bool
  | 0, p, e => decide (e ≤ p)
  | fuel + 1, p, e =>
    if e ≤ p then true
    else
      match rangeOf ranges p with
      | some r => coveredTo ranges fuel (r.base + r.len) e
      | none => false

/-- R97: the flash range `(a, n)` fits: it does not pass the end of the physical space and is wholly inside
`FLASH_RANGES`. The address may be in either form (R62). -/
def flashFits (cfg : Params) (a : Word) (n : Nat) : Bool :=
  decide ((phys a).toNat + n ≤ physSpace) && coveredTo cfg.flashRanges n (phys a).toNat ((phys a).toNat + n)

/-- R90: an operand uses its low `bits` bits and the others are 0. -/
def fitsBits (bits : Nat) (v : Word) : Bool := decide (v.toNat < 2 ^ bits)

/-- R72: an address or an offset is a multiple of `n`. -/
def aligned (n : Nat) (a : Word) : Bool := decide (a.toNat % n = 0)

end Sys2Proof.Machine
end

