-- ==== Sys2Proof/Machine/Cipher.lean ====
section
/-! DEFINITION. The stream-cipher keystream generator and its XOR unit (spec/41_cipher.md): `CIPH.KEYSETUP`,
`CIPH.BLOCK`, `CIPH.PROC`. The details the source omits are those the spec takes from the published cipher (R140). -/

namespace Sys2Proof.Machine

/-- The sixteen words of the permutation register or of the scratch array. -/
abbrev Block := Vector Word 16

/-- R144: the quarter-round on four words of the scratch array, its twelve assignments in the order written. -/
def quarterRound (v : Block) (a b c d : Fin 16) : Block :=
  let v := v.set a (v[a] + v[b])
  let v := v.set d (rotl32 (v[d] ^^^ v[a]) 16)
  let v := v.set c (v[c] + v[d])
  let v := v.set b (rotl32 (v[b] ^^^ v[c]) 12)
  let v := v.set a (v[a] + v[b])
  let v := v.set d (rotl32 (v[d] ^^^ v[a]) 8)
  let v := v.set c (v[c] + v[d])
  v.set b (rotl32 (v[b] ^^^ v[c]) 7)

/-- R148: one double-round, the four column quarter-rounds and then the four diagonal ones. -/
def doubleRound (v : Block) : Block :=
  let v := quarterRound v 0 4 8 12
  let v := quarterRound v 1 5 9 13
  let v := quarterRound v 2 6 10 14
  let v := quarterRound v 3 7 11 15
  let v := quarterRound v 0 5 10 15
  let v := quarterRound v 1 6 11 12
  let v := quarterRound v 2 7 8 13
  quarterRound v 3 4 9 14

/-- R145: `N_DOUBLE_ROUNDS` double-rounds. -/
def doubleRounds : Nat → Block → Block
  | 0, v => v
  | n + 1, v => doubleRounds n (doubleRound v)

/-- R145, R146: the scratch array after one evaluation, the feed-forward addition included. -/
def keystreamWords (nDoubleRounds : Nat) (x : Block) : Block :=
  let v := doubleRounds nDoubleRounds x
  vecOf 16 fun i => v.toList.getD i 0#32 + x.toList.getD i 0#32

/-- R146: the sixteen sums cut into 64 bytes, least significant byte first. -/
def keystreamBytes (v : Block) : Vector Byte 64 :=
  vecOf 64 fun i => (bytesLE32 (v.toList.getD (i / 4) 0#32)).getD (i % 4) 0#8

/-- R142: the four constant words for a 256-bit and for a 128-bit key. -/
def keyConstants (bits256 : Bool) : List Word :=
  if bits256 then [0x61707865#32, 0x3320646E#32, 0x79622D32#32, 0x6B206574#32]
  else [0x61707865#32, 0x3120646E#32, 0x79622D36#32, 0x6B206574#32]

/-- The word made of four bytes of a byte string from an index on (R69). -/
def wordAt (bytes : List Byte) (i : Nat) : Word :=
  le32 (bytes.getD i 0#8) (bytes.getD (i + 1) 0#8) (bytes.getD (i + 2) 0#8) (bytes.getD (i + 3) 0#8)

/-- R141, R143: the permutation register after key setup. A 128-bit key fills both halves of the key words (R156). -/
def keyedBlock (bits256 : Bool) (key iv : List Byte) : Block :=
  let k2 := if bits256 then key.drop 16 else key
  vecOf 16 fun i =>
    if i < 4 then (keyConstants bits256).getD i 0#32
    else if i < 8 then wordAt key (4 * (i - 4))
    else if i < 12 then wordAt k2 (4 * (i - 8))
    else if i < 14 then 0#32
    else wordAt iv (4 * (i - 14))

/-- R143: key setup from a key and an initialization vector. -/
def keySetup (bits256 : Bool) (key iv : List Byte) (s : State) : State :=
  { s with ciph.x := keyedBlock bits256 key iv, ciph.keyed := true }

/-- R143. -/
def ciphKeysetup (kbits : Word) (s : State) : OpResult :=
  if kbits = 256#32 then .ends .ok (keySetup true s.ciph.keyr.toList s.ciph.ivr.toList s)
  else if kbits = 128#32 then .ends .ok (keySetup false s.ciph.keyr.toList s.ciph.ivr.toList s)
  else .ends .errKeylen s

/-- R145 to R147: make the keystream block of the present counter into `KS`, then advance the counter. -/
def cipherBlock (s : State) : State :=
  let words := keystreamWords s.cfg.nDoubleRounds s.ciph.x
  let counter := advanceCounter s.ciph.x[12] s.ciph.x[13]
  { s with
    ciph.s := words
    ciph.ks := keystreamBytes words
    ciph.x := (s.ciph.x.set 12 counter.1).set 13 counter.2 }

/-- R145, R154. -/
def ciphBlock (s : State) : OpResult :=
  if !s.ciph.keyed then .noMeaning .cipherNotKeyed else .ends .ok (cipherBlock s)

/-- R150: one pass of the loop: a fresh block, and up to 64 bytes of the range XORed with it. -/
def cipherPass (off : Nat) (s : State) : State :=
  let s := cipherBlock s
  let m := min 64 s.ciph.cRem.toNat
  let start := off + s.ciph.cOff.toNat
  let s := s.storeBuf start (List.zipWith (· ^^^ ·) (s.bufRange start m) s.ciph.ks.toList)
  { s with ciph.cOff := s.ciph.cOff + BitVec.ofNat 32 m, ciph.cRem := s.ciph.cRem - BitVec.ofNat 32 m }

/-- R150: `passes` turns of the loop. -/
def cipherPasses : Nat → Nat → State → State
  | 0, _, s => s
  | k + 1, off, s => cipherPasses k off (cipherPass off s)

/-- R150, R152, R153: the bytes `BUF[off .. off+n−1]` become their exclusive-OR with keystream; `ceil(n / 64)` passes
empty `C_REM`. -/
def cipherRange (off n : Nat) (s : State) : State :=
  let s := { s with ciph.cRem := BitVec.ofNat 32 n, ciph.cOff := 0#32 }
  let s := cipherPasses ((n + 63) / 64) off s
  { s with ciph.cOff := 0#32 }

/-- R150, R153, R154. -/
def ciphProc (off n : Word) (s : State) : OpResult :=
  if !bufFits s.cfg off.toNat n.toNat then .ends .errRange s
  else if n ≠ 0#32 ∧ s.ciph.keyed = false then .noMeaning .cipherNotKeyed
  else .ends .ok (cipherRange off.toNat n.toNat s)

/-- `CIPH.KEYSETUP kbits`. -/
def execCiphKeysetup (kbits : Word) (s : State) : Host.Outcome State Fault Refusal := runOperation (ciphKeysetup kbits) s

/-- `CIPH.BLOCK`. -/
def execCiphBlock (s : State) : Host.Outcome State Fault Refusal := runOperation ciphBlock s

/-- `CIPH.PROC off, n`. -/
def execCiphProc (off n : Word) (s : State) : Host.Outcome State Fault Refusal := runOperation (ciphProc off n) s

end Sys2Proof.Machine
end

