-- ==== Sys2Proof/Machine/Crc.lean ====
section
/-! DEFINITION. The CRC checksum validator (spec/40_crc.md): `CRC.INIT`, `CRC.UPD`, `CRC.BUF`, `CRC.MEM`, `CRC.CHK`. -/

namespace Sys2Proof.Machine

/-- R120: one shift-and-conditional-XOR step. -/
def crcStep (poly acc : Word) : Word := if acc.msb then (acc <<< 1) ^^^ poly else acc <<< 1

/-- R120 `crc_update(acc, b)`: the byte enters at the top, then eight steps. -/
def crcUpdate (poly acc : Word) (b : Byte) : Word :=
  Nat.repeat (crcStep poly) 8 (acc ^^^ (b.setWidth 32 <<< 24))

/-- R123 `crc(s, seed)`: the update threaded over a byte string. -/
def crcBytes (poly : Word) (seed : Word) (bytes : List Byte) : Word := bytes.foldl (crcUpdate poly) seed

/-- R121. -/
def crcInit (s : State) : OpResult := .ends .ok { s with crc.acc := 0#32 }

/-- R122. -/
def crcUpd (opa : Word) (s : State) : OpResult :=
  if !fitsBits 8 opa then .ends .errRange s
  else .ends .ok { s with crc.acc := crcUpdate s.cfg.crcPoly s.crc.acc (opa.setWidth 8) }

/-- R124. -/
def crcBuf (off n : Word) (s : State) : OpResult :=
  if !bufFits s.cfg off.toNat n.toNat then .ends .errRange s
  else .ends .ok { s with crc.acc := crcBytes s.cfg.crcPoly s.crc.acc (s.bufRange off.toNat n.toNat) }

/-- R125. -/
def crcMem (a n : Word) (s : State) : OpResult :=
  if !flashFits s.cfg a n.toNat then .ends .errRange s
  else .ends .ok { s with crc.acc := crcBytes s.cfg.crcPoly s.crc.acc (s.flashRange (phys a).toNat n.toNat) }

/-- R126: what the comparison records. -/
def crcRecord (e : Word) (s : State) : State :=
  { s with crc.computed := s.crc.acc, crc.received := e, crc.matched := crcMatch s.crc.acc e }

/-- R126. -/
def crcChk (e : Word) (s : State) : OpResult :=
  .ends (if crcMatch s.crc.acc e then .ok else .errChecksum) (crcRecord e s)

/-- `CRC.INIT`. -/
def execCrcInit (s : State) : Host.Outcome State Fault Refusal := runOperation crcInit s

/-- `CRC.UPD b`. -/
def execCrcUpd (opa : Word) (s : State) : Host.Outcome State Fault Refusal := runOperation (crcUpd opa) s

/-- `CRC.BUF off, n`. -/
def execCrcBuf (off n : Word) (s : State) : Host.Outcome State Fault Refusal := runOperation (crcBuf off n) s

/-- `CRC.MEM a, n`. -/
def execCrcMem (a n : Word) (s : State) : Host.Outcome State Fault Refusal := runOperation (crcMem a n) s

/-- `CRC.CHK e`. -/
def execCrcChk (e : Word) (s : State) : Host.Outcome State Fault Refusal := runOperation (crcChk e) s

end Sys2Proof.Machine
end

