-- ==== Sys2Proof/Machine/Frame.lean ====
section
/-! DEFINITION. The packet-length decoder and frame reconstructor (spec/44_frame.md): `FR.RESET`, `FR.RECV`, and what the
frame unit does with each wire frame (`LEN`, `PKT.END`, `PKT.IV`, `PKT.WRITE`). A reception that runs out of bytes waits
in its state and goes on when the host supplies more (R250). -/

namespace Sys2Proof.Machine

/-- R231. -/
def frReset (s : State) : OpResult :=
  .ends .ok
    { s with
      fr.seq := 0#32, fr.final := false, fr.state := .idle, fr.fill := 0#16, fr.cur := 0#16, fr.plen := 0#16 }

/-- The end of a reception: the frame unit is idle again. `FILL` and `CUR` keep what R43 and R233 give them (vector V5.1
ends with `FILL = 12`, vector V6.1 with `CUR = 10`). -/
def frEnds (r : Res) (s : State) : OpResult := .ends r { s with fr.state := .idle }

/-- R245: packet #1. -/
def extractFirst (s : State) : OpResult :=
  if s.fr.plen ≠ 12#16 then frEnds .errSize s
  else
    let s := keySetup true s.cfg.key.toList (s.bufRange 0 8) s
    frEnds .okIv { s with fr.seq := s.fr.seq + 1#32 }

/-- R247, R244 c: a later packet; its fields are found from the end of the payload. -/
def extractWrite (s : State) : OpResult :=
  let p := s.fr.plen.toNat
  if p < 10 then frEnds .errSize s
  else
    let l := be16 (s.bufByte (p - 6)) (s.bufByte (p - 5))
    let a := be32 (s.bufByte (p - 10)) (s.bufByte (p - 9)) (s.bufByte (p - 8)) (s.bufByte (p - 7))
    let s := { s with fr.cur := BitVec.ofNat 16 (p - 10) }
    if p - 10 < l.toNat then frEnds .errSize s
    else frEnds .okWrite { s with fr.wAddr := a, fr.wLen := l, fr.seq := s.fr.seq + 1#32 }

/-- R242 to R244: the checksum of all but the last four payload bytes, compared with those four. -/
def verifyChecksum (first : Bool) (s : State) : OpResult :=
  let s := { s with fr.state := .verify }
  let p := s.fr.plen.toNat
  if p < 4 then frEnds .errSize s
  else
    let s := { s with crc.acc := crcBytes s.cfg.crcPoly 0#32 (s.bufRange 0 (p - 4)), fr.cur := BitVec.ofNat 16 (p - 4) }
    let e := be32 (s.bufByte (p - 4)) (s.bufByte (p - 3)) (s.bufByte (p - 2)) (s.bufByte (p - 1))
    let s := crcRecord e s
    if !s.crc.matched then frEnds .errChecksum s
    else
      let s := { s with fr.state := .extract }
      if first then extractFirst s else extractWrite s

/-- R238 to R241: the packet is complete; every packet but the first is decrypted in place, whole. -/
def packetComplete (s : State) : OpResult :=
  let s := { s with fr.cur := s.fr.plen }
  if s.firstPacket then verifyChecksum true s
  else
    match ciphProc 0#32 (s.fr.plen.setWidth 32) { s with fr.state := .decrypt } with
    | .ends _ s => verifyChecksum false s
    | .blocks s => .blocks s
    | .noMeaning f => .noMeaning f

/-- R237, R250: take the body bytes that are there; go on when there are `PLEN` of them. -/
def receiveBody (s : State) : OpResult :=
  let need := s.fr.plen.toNat - s.fr.fill.toNat
  let got := s.rx.take need
  let s := { s.storeBuf s.fr.fill.toNat got with rx := s.rx.drop need }
  let s := { s with fr.fill := s.fr.fill + BitVec.ofNat 16 got.length }
  if got.length < need then .blocks s else packetComplete s

/-- R236: discard the body bytes of an oversize packet that are there; end when all are gone. -/
def drainBody (s : State) : OpResult :=
  let need := s.fr.toDrain.toNat
  let got := s.rx.take need
  let s := { s with rx := s.rx.drop need, fr.toDrain := s.fr.toDrain - BitVec.ofNat 16 got.length }
  if got.length < need then .blocks s else frEnds .errTooLarge s

/-- R234 to R237: what follows a length prefix `p`, whose first byte was `b0`. -/
def afterLength (p : Half) (s : State) : OpResult :=
  let s := { s with fr.plen := p, fr.lenHi := p.extractLsb' 8 8 }
  if p = 0#16 then frEnds .okEnd { s with fr.final := true }
  else if s.cfg.bufCap < p.toNat then
    if s.cfg.drainOversize then drainBody { s with fr.state := .drain, fr.toDrain := p }
    else frEnds .errTooLarge s
  else receiveBody { s with fr.state := .body }

/-- R233: the start of a reception. -/
def frStart (s : State) : State := { s with fr.fill := 0#16, fr.cur := 0#16, fr.state := .len0 }

/-- R234: take the length prefix, as far as its two bytes are there. -/
def receiveLength (s : State) : OpResult :=
  match s.rx with
  | b0 :: b1 :: rest => afterLength (be16 b0 b1) { s with rx := rest }
  | [b0] => .blocks { s with rx := [], fr.lenHi := b0, fr.state := .len1 }
  | [] => .blocks s

/-- R233, the whole operation. -/
def frRecv (s : State) : OpResult := receiveLength (frStart s)

/-- The frame unit meets a length prefix whose two bytes have been taken (R234). -/
def frameLength (p : Half) (s : State) : OpResult := afterLength p (frStart s)

/-- The frame unit meets a whole packet, whose payload is what the channel delivers next. -/
def framePacket (payload : List Byte) (s : State) : OpResult :=
  frameLength (BitVec.ofNat 16 payload.length) { s with rx := payload ++ s.rx }

/-- `FR.RESET`. -/
def execFrReset (s : State) : Host.Outcome State Fault Refusal := runOperation frReset s

/-- `FR.RECV`. -/
def execFrRecv (s : State) : Host.Outcome State Fault Refusal := runOperation frRecv s

/-- `PKT.END`, the end marker (R102, R235). -/
def execPktEnd (s : State) : Host.Outcome State Fault Refusal := runFrame (frameLength 0#16) s

/-- `PKT.IV` (R103, R245); with `SEQ ≠ 0` the same bytes are a later packet (R105). -/
def execPktIv (iv : Vector Byte 8) (checksum : Word) (s : State) : Host.Outcome State Fault Refusal :=
  runFrame (framePacket (iv.toList ++ bytesBE32 checksum)) s

/-- `PKT.WRITE` (R104, R240 to R247); with `SEQ = 0` the same bytes are packet #1 (R105). -/
def execPktWrite (payload : List Byte) (s : State) : Host.Outcome State Fault Refusal := runFrame (framePacket payload) s

/-- `LEN`, a length prefix (R101, R234). -/
def execLen (p : Half) (s : State) : Host.Outcome State Fault Refusal := runFrame (frameLength p) s

end Sys2Proof.Machine
end

