-- ==== Sys2Proof/Machine/FlashErase.lean ====
section
/-! DEFINITION. The flash page-erase state machine (spec/42_flash_erase.md): `FL.ERASE` and `FL.NOP`. None of the flash
operations evaluates the Address Guard (R182). -/

namespace Sys2Proof.Machine

/-- R181: an `FL.ERASE` that ends with a result other than `RES_OK`. -/
def eraseFailed (r : Res) (s : State) : OpResult :=
  .ends r { s with fl.eraseFail := s.fl.eraseFail + 1#32, fl.state := .idle }

/-- R180. -/
def flErase (a : Word) (s : State) : OpResult :=
  let s := { s with fl.eraseAtt := s.fl.eraseAtt + 1#32, fl.state := .check }
  if !aligned s.cfg.pageSize a then eraseFailed .errAlign s
  else if !flashFits s.cfg a s.cfg.pageSize then eraseFailed .errRange s
  else
    match flashSeq .erase a [] s with
    | (.ok, s) => .ends .ok s
    | (.fail, s) => eraseFailed .errFlash s
    | (.never, s) => .blocks s

/-- R183: a direct `FL.NOP` never halts. -/
def flNop (s : State) : OpResult :=
  let s := { s with fl.kind := .nop, fl.state := .clrIssue }
  let (completed, s) := flashOp .nop [] s
  let s := { s with fl.state := .clrWait }
  if !completed then .blocks s
  else
    let s := { s with fl.state := .clrStatus }
    .ends (if s.flashFault then .errFlash else .ok) { s with fl.state := .idle }

/-- `FL.ERASE a`. -/
def execFlErase (a : Word) (s : State) : Host.Outcome State Fault Refusal := runOperation (flErase a) s

/-- `FL.NOP`. -/
def execFlNop (s : State) : Host.Outcome State Fault Refusal := runOperation flNop s

end Sys2Proof.Machine
end

