-- ==== Sys2Proof/Machine/FlashWrite.lean ====
section
/-! DEFINITION. The flash row/word write sequencer and the read-back compare (spec/43_flash_write.md): `FL.WWORD`,
`FL.WROW`, `FL.WRANGE`, `FL.CMP`. -/

namespace Sys2Proof.Machine

/-- R202: an `FL.WWORD` or `FL.WROW` that ends with a result other than `RES_OK`. -/
def writeFailed (r : Res) (s : State) : OpResult :=
  .ends r { s with fl.writeFail := s.fl.writeFail + 1#32, fl.state := .idle }

/-- The end of a word or row write after its flash sequence (R201, R203). -/
def writeEnd : SeqEnd × State → OpResult
  | (.ok, s) => .ends .ok s
  | (.fail, s) => writeFailed .errFlash s
  | (.never, s) => .blocks s

/-- R201. A rejected operation changes nothing but the counter and `RES` (R333, and the example of R201), so `FL_DATA`
takes the value when the checks have passed (DEDUCED, log entry 14: the pseudocode writes it before them). -/
def flWword (a v : Word) (s : State) : OpResult :=
  let s := { s with fl.state := .check }
  if !aligned 4 a then writeFailed .errAlign s
  else if !flashFits s.cfg a 4 then writeFailed .errRange s
  else writeEnd (flashSeq .word a (bytesLE32 v) { s with fl.data := v })

/-- R203. `FL_SRC` takes the offset when the checks have passed (R333; DEDUCED, log entry 14). -/
def flWrow (a off : Word) (s : State) : OpResult :=
  let s := { s with fl.state := .check }
  if !aligned s.cfg.rowSize a || !aligned 4 off then writeFailed .errAlign s
  else if !bufFits s.cfg off.toNat s.cfg.rowSize || !flashFits s.cfg a s.cfg.rowSize then writeFailed .errRange s
  else writeEnd (flashSeq .row a (s.bufRange off.toNat s.cfg.rowSize) { s with fl.src := off })

/-- R206: a row write where a row boundary and the remaining length permit. -/
def takesRow (cfg : Params) (a n p : Nat) : Bool := decide ((a + p) % cfg.rowSize = 0) && decide (cfg.rowSize ≤ n - p)

/-- R206: the first-seen failure code, kept in `FL_FIRST`. -/
def noteFirst (r : Res) (s : State) : State :=
  if r ≠ .ok ∧ s.fl.first = resCode .ok then { s with fl.first := resCode r } else s

/-- R206: the sub-operation at position `p` of the range. -/
def rangeSubOperation (a off : Word) (n p : Nat) (s : State) : OpResult :=
  let target := a + BitVec.ofNat 32 p
  let source := off + BitVec.ofNat 32 p
  if takesRow s.cfg a.toNat n p then flWrow target source s
  else
    let q := off.toNat + p
    flWword target (le32 (s.bufByte q) (s.bufByte (q + 1)) (s.bufByte (q + 2)) (s.bufByte (q + 3))) s

/-- R206: the loop from position `p` on; each turn passes at least four bytes, so `fuel = n / 4` turns are enough. It
ends with the result of the first sub-operation that failed, or `RES_OK`. DEDUCED (log entry 28): a sub-operation's result
goes to the loop and not to `RES`, which the end of the operation at the command port writes (R18, R24, R178). -/
def rangeLoop (a off : Word) (n : Nat) : Nat → Nat → Res → State → OpResult
  | 0, _, worst, s => .ends worst s
  | fuel + 1, p, worst, s =>
    if n ≤ p then .ends worst s
    else
      match rangeSubOperation a off n p s with
      | .ends r s' =>
        rangeLoop a off n fuel (p + if takesRow s.cfg a.toNat n p then s.cfg.rowSize else 4)
          (if worst = .ok then r else worst) (noteFirst r s')
      | .blocks s' => .blocks s'
      | .noMeaning f => .noMeaning f

/-- R206, with the priority of R335: range before size before alignment. -/
def flWrange (a n off : Word) (s : State) : OpResult :=
  if !fitsBits 16 n || !bufFits s.cfg off.toNat n.toNat || !flashFits s.cfg a n.toNat then .ends .errRange s
  else if n.toNat % 4 ≠ 0 then .ends .errSize s
  else if !aligned 4 a || !aligned 4 off then .ends .errAlign s
  else rangeLoop a off n.toNat (n.toNat / 4) 0 .ok { s with fl.first := resCode .ok }

/-- R210. -/
def flCmp (a n off : Word) (s : State) : OpResult :=
  if !fitsBits 16 n || !bufFits s.cfg off.toNat n.toNat || !flashFits s.cfg a n.toNat then .ends .errRange s
  else if s.flashRange (phys a).toNat n.toNat = s.bufRange off.toNat n.toNat then .ends .ok s
  else .ends .errCompare s

/-- `FL.WWORD a, v`. -/
def execFlWword (a v : Word) (s : State) : Host.Outcome State Fault Refusal := runOperation (flWword a v) s

/-- `FL.WROW a, off`. -/
def execFlWrow (a off : Word) (s : State) : Host.Outcome State Fault Refusal := runOperation (flWrow a off) s

/-- `FL.WRANGE a, n, off`. -/
def execFlWrange (a n off : Word) (s : State) : Host.Outcome State Fault Refusal := runOperation (flWrange a n off) s

/-- `FL.CMP a, n, off`. -/
def execFlCmp (a n off : Word) (s : State) : Host.Outcome State Fault Refusal := runOperation (flCmp a n off) s

end Sys2Proof.Machine
end

