-- ==== Sys2Proof/Machine/Guard.lean ====
section
/-! DEFINITION. The Address Guard (spec/47_environment.md R285 to R287): a pure predicate of the controller, which the
flash operations of the block do not call (R182). -/

namespace Sys2Proof.Machine

/-- R286: which guard tripped. -/
inductive GuardHit where
  | none | engine | boot | config
deriving DecidableEq, Repr

/-- R286: the length of the clamped intersection of two intervals; 0 where it is empty. -/
def overlap (s e ps pe : Nat) : Nat := min e pe - max s ps

/-- R286 `c0`: the first byte of the configuration pages, rounded down to an erase page. -/
def configLow (cfg : Params) : Nat := (phys cfg.configBase).toNat / cfg.pageSize * cfg.pageSize

/-- R286 `c1`: the end of the configuration pages, rounded up to an erase page. -/
def configHigh (cfg : Params) : Nat :=
  ((phys cfg.configBase).toNat + cfg.configSize + cfg.pageSize - 1) / cfg.pageSize * cfg.pageSize

/-- R286 `g0 .. g1`: the interval meets the engine's own region. -/
def hitsEngine (cfg : Params) (s e : Nat) : Bool :=
  decide (0 < overlap s e (phys cfg.engineBase).toNat ((phys cfg.engineBase).toNat + cfg.engineSize))

/-- R286 `b0 .. b1`: the interval meets the boot sector. -/
def hitsBoot (cfg : Params) (s e : Nat) : Bool :=
  decide (0 < overlap s e (phys cfg.bootBase).toNat ((phys cfg.bootBase).toNat + cfg.bootSize))

/-- R286 `c0 .. c1`: the interval meets the configuration pages. -/
def hitsConfig (cfg : Params) (s e : Nat) : Bool := decide (0 < overlap s e (configLow cfg) (configHigh cfg))

/-- R286 `isMutationAllowed(address, length)`: the verdict, and which guard tripped. -/
def isMutationAllowed (cfg : Params) (address : Word) (length : Nat) : Bool × GuardHit :=
  let s := (phys address).toNat
  let e := s + length
  if hitsEngine cfg s e then (false, .engine)
  else if cfg.bootProtect && hitsBoot cfg s e then (false, .boot)
  else if hitsConfig cfg s e then (false, .config)
  else (true, .none)

end Sys2Proof.Machine
end

