-- ==== Sys2Proof/Machine/Orchestrator.lean ====
section
/-! DEFINITION. The Write Orchestrator and its bounded retry (spec/47_environment.md R290 to R299): what the controller
does with a write packet that `FR.RECV` has decoded. -/

namespace Sys2Proof.Machine

/-- How one attempt at a write ends: well; rejected by a step that no retry can change (with the reply's name); failed
in the hardware, to be retried; or never (a flash operation that halts or does not complete). -/
inductive Attempt where
  | success (s : State)
  | rejected (r : Reply) (s : State)
  | failed (s : State)
  | blocked (s : State)

/-- R295, R296: the write starts at the boot-entry page. -/
def atEntryPage (cfg : Params) (a : Word) : Bool := phys a == phys cfg.entryPage

/-- R294: the physical range lies wholly inside one range of `FLASH_RANGES`. -/
def insideOneRange (cfg : Params) (p n : Nat) : Bool :=
  cfg.flashRanges.any fun r => decide (r.base ≤ p) && decide (p + n ≤ r.base + r.len)

/-- R295, C11: the reply for a Guard rejection. -/
def guardReply : GuardHit → Reply
  | .config => .overConfiguration
  | _ => .outOfBounds

/-- R291 to R295, steps 1 to 5: the first rejection, if any. All five are pure. -/
def preCheck (s : State) (a : Word) (l : Half) : Option Reply :=
  if !s.env.eraseDone then some .writeWithoutErase
  else if l = 0#16 ∨ s.cfg.pageSize < l.toNat ∨ l.toNat % 4 ≠ 0 then some .sizeError
  else if a.toNat % 4 ≠ 0 then some .alignmentError
  else if 2 ^ 32 < a.toNat + l.toNat then some .wraparound
  else if !insideOneRange s.cfg (phys a).toNat l.toNat then some .outOfBounds
  else if atEntryPage s.cfg a then none
  else
    match isMutationAllowed s.cfg a l.toNat with
    | (true, _) => none
    | (false, hit) => some (guardReply hit)

/-- R296: the re-entry shim stands in the data, at some word of the window and wholly inside window and data. -/
def shimPresent (s : State) (l : Half) : Bool :=
  let n := s.cfg.shimSeq.length
  let limit := min l.toNat (4 * s.cfg.shimWindowWords)
  (List.range (limit / 4 + 1)).any fun k => decide (4 * k + n ≤ limit) && s.bufRange (4 * k) n == s.cfg.shimSeq

/-- R297, step 7: the range overlaps the configuration pages. -/
def overConfig (cfg : Params) (a : Word) (l : Half) : Bool :=
  hitsConfig cfg (phys a).toNat ((phys a).toNat + l.toNat)

/-- R297, R298, steps 7 to 9. -/
def writeSteps (a : Word) (l : Half) (s : State) : Attempt :=
  if overConfig s.cfg a l then .rejected .overConfiguration s
  else
    match issue 0x23#8 (some a) (some (l.setWidth 32)) (some 0#32) (flWrange a (l.setWidth 32) 0#32) s with
    | .ends .ok s => .success s
    | .ends _ s => .failed s
    | .blocks s => .blocked s
    | .noMeaning _ => .failed s

/-- R290 to R298: one attempt. A write that starts at the boot-entry page must carry the shim, and erases that page
first (R296). -/
def orchestrate (a : Word) (l : Half) (s : State) : Attempt :=
  match preCheck s a l with
  | some r => .rejected r s
  | none =>
    if atEntryPage s.cfg a then
      if !shimPresent s l then .rejected .missingShim s
      else
        match issue 0x20#8 (some s.cfg.entryPage) none none (flErase s.cfg.entryPage) s with
        | .ends .ok s => writeSteps a l s
        | .ends _ s => .failed s
        | .blocks s => .blocked s
        | .noMeaning _ => .failed s
    else writeSteps a l s

/-- R299: the read-back after a write that ended well. -/
def readBack (a : Word) (l : Half) (s : State) : Attempt :=
  match issue 0x24#8 (some a) (some (l.setWidth 32)) (some 0#32) (flCmp a (l.setWidth 32) 0#32) s with
  | .ends .ok s => .success s
  | .ends _ s => .failed s
  | .blocks s => .blocked s
  | .noMeaning _ => .failed s

/-- R299: one attempt with its read-back. -/
def attemptWrite (a : Word) (l : Half) (s : State) : Attempt :=
  match orchestrate a l s with
  | .success s => readBack a l s
  | other => other

/-- R299: attempts until one ends well, is rejected, or the retries are used up; `retries` counts those left. The answer
is never `failed`. -/
def retryWrite (a : Word) (l : Half) : Nat → State → Attempt
  | 0, s =>
    match attemptWrite a l s with
    | .failed s => .rejected .writesFailed s
    | other => other
  | retries + 1, s =>
    match attemptWrite a l s with
    | .failed s => retryWrite a l retries { s with env.wretry := s.env.wretry + 1 }
    | other => other

/-- R299 `write_with_retry(A, L)`. -/
def writeWithRetry (a : Word) (l : Half) (s : State) : Attempt :=
  retryWrite a l s.cfg.maxWriteRetries { s with env.wretry := 0 }

end Sys2Proof.Machine
end

