-- ==== Sys2Proof/Machine/System.lean ====
section
/-! DEFINITION. System operations (spec/45_system.md): `SYS.ZEROISE` and the reserved operation codes. -/

namespace Sys2Proof.Machine

/-- R271. The flash array, the flash hardware status, `FL_STATE`, `HALTED`, the parameters and the status byte stay. `OP`
is not in the pseudocode: it is 0 after it because "every register of the UEB has its reset value" (R271, D29). -/
def zeroise (s : State) : State :=
  { s with
    ciph :=
      { x := Vector.replicate 16 0, s := Vector.replicate 16 0, ks := Vector.replicate 64 0, cRem := 0, cOff := 0
        keyed := false, keyr := Vector.replicate 32 0, ivr := Vector.replicate 8 0 }
    crc := { acc := 0, computed := 0, received := 0, matched := false }
    fr :=
      { state := .idle, buf := [], fill := 0, cur := 0, plen := 0, seq := 0, final := false, wAddr := 0, wLen := 0
        lenHi := 0, toDrain := 0 }
    fl :=
      { s.fl with
        eraseAtt := 0, eraseFail := 0, writeFail := 0, first := resCode .ok, kind := .nop, addr := 0, data := 0, src := 0 }
    port := { s.port with op := 0, opa := 0, opb := 0, opc := 0 } }

/-- R271. -/
def sysZeroise (s : State) : OpResult := .ends .ok (zeroise s)

/-- R93, R273: nothing else changes. -/
def reservedCode (_code : Byte) (s : State) : OpResult := .ends .badOp s

/-- `SYS.ZEROISE`. -/
def execSysZeroise (s : State) : Host.Outcome State Fault Refusal := runOperation sysZeroise s

/-- A reserved operation code. -/
def execReserved (code : Byte) (s : State) : Host.Outcome State Fault Refusal := runOperation (reservedCode code) s

end Sys2Proof.Machine
end

