-- ==== Sys2Proof/Machine/CommandLoop.lean ====
section
/-! DEFINITION. The Command Loop (spec/47_environment.md R300 to R313): what the controller does with each wire command
byte, how it leaves, and how a Write command goes on when its `FR.RECV` ends. The controller takes no byte in `Exited`
(R300), discards all but the handshake in `Idle` (R301), and can do nothing while an operation of the block is in
progress or the block is halted (R336, R372). -/

namespace Sys2Proof.Machine

/-- Run a wire command. Halted, the controller is stuck (R336); busy, it waits (R372). -/
def runCommand (command : State → Host.Outcome State Fault Refusal) (s : State) : Host.Outcome State Fault Refusal :=
  if s.fl.halted then .next s
  else if s.busy then .refused .portBusy
  else command s

/-- Run a command of the dispatch loop: only `Active` dispatches (R300); a byte that is not the handshake is discarded in
`Idle` (R301), and none is taken in `Exited`. -/
def runActive (command : State → Host.Outcome State Fault Refusal) (s : State) : Host.Outcome State Fault Refusal :=
  runCommand (fun s => if s.env.loop = .active then command s else .next s) s

/-- The outcome of the operations a command issues: a command that does not get to its end leaves the controller waiting. -/
def OpResult.thenNext (r : OpResult) (k : State → State) : Host.Outcome State Fault Refusal :=
  match r with
  | .ends _ s => .next (k s)
  | .blocks s => .next s
  | .noMeaning f => .fault f

/-- R309: leave the Command Loop with a status. DEDUCED (log entry 27): R281 counts `LOOP` among the session memory that
is zeroed on exit, R309 zeroes `ERASE_DONE` and `WRETRY` and R300 has the loop in `Exited`; here `LOOP` is `Exited`. -/
def leaveLoop (status : Byte) (s : State) : OpResult :=
  issue 0x40#8 none none none sysZeroise
    { s with env.status := status, env.eraseDone := false, env.wretry := 0, env.loop := .exited }

/-- R301: the handshake window has passed (a wrapping difference of tick counts, R350 a). -/
def windowPassed (s : State) : Bool := decide (s.cfg.handshakeWindow ≤ s.env.ticks - s.env.t0)

/-- R301, R315: `Idle` ends without a handshake. -/
def idleTimeout (s : State) : Host.Outcome State Fault Refusal :=
  (leaveLoop s.cfg.status.powerExit s).thenNext id

/-- R301, R308: the handshake byte starts the session in `Idle` and is echoed in `Active`. -/
def handshake (s : State) : Host.Outcome State Fault Refusal :=
  match s.env.loop with
  | .idle => .next { s.send 0xFC#8 with env.status := s.cfg.status.started, env.loop := .active }
  | .active => .next (s.send 0xFC#8)
  | .exited => .next s

/-- R303, R313: the Info text, then the acknowledgement. No operation is issued. -/
def infoCommand (s : State) : Host.Outcome State Fault Refusal :=
  .next ((s.sendText (s.cfg.infoText s.fl.eraseAtt s.fl.eraseFail s.fl.writeFail)).reply .genericOk)

/-- R304: the page is skipped, being the boot-entry page or vetoed by the Guard. -/
def skipsPage (cfg : Params) (p : Word) : Bool :=
  phys p == phys cfg.entryPage || !(isMutationAllowed cfg p cfg.pageSize).1

/-- A per-page reply, sent only where `ERASE_PROGRESS` says so (R304). -/
def State.progress (s : State) (r : Reply) : State := if s.cfg.eraseProgress then s.reply r else s

/-- R304: `pages` pages from address `p` on, in ascending order. -/
def erasePages : Nat → Word → State → OpResult
  | 0, _, s => .ends .ok s
  | pages + 1, p, s =>
    let next := p + BitVec.ofNat 32 s.cfg.pageSize
    if skipsPage s.cfg p then erasePages pages next (s.progress .pageProtected)
    else
      match issue 0x20#8 (some p) none none (flErase p) s with
      | .ends .ok s => erasePages pages next (s.progress .pageErased)
      | .ends _ s => erasePages pages next s
      | .blocks s => .blocks s
      | .noMeaning f => .noMeaning f

/-- R304: program memory, then the boot sector. -/
def eraseRegions (s : State) : OpResult :=
  match erasePages (s.cfg.progSize / s.cfg.pageSize) s.cfg.progBase s with
  | .ends _ s => erasePages (s.cfg.bootSize / s.cfg.pageSize) s.cfg.bootBase s
  | .blocks s => .blocks s
  | .noMeaning f => .noMeaning f

/-- R304: the end of the Erase command; `before` is `ERASE_FAIL` when the command began. -/
def eraseFinish (before : Word) (s : State) : OpResult :=
  match issue 0x30#8 none none none frReset { s with env.eraseDone := true } with
  | .ends _ s => .ends .ok (s.reply (if s.fl.eraseFail - before = 0#32 then .eraseDone else .eraseFailed))
  | .blocks s => .blocks s
  | .noMeaning f => .noMeaning f

/-- R304. -/
def eraseCommand (s : State) : Host.Outcome State Fault Refusal :=
  match eraseRegions { s with env.eraseDone := false } with
  | .ends _ s' => (eraseFinish s.fl.eraseFail s').thenNext id
  | .blocks s' => .next s'
  | .noMeaning f => .fault f

/-- R305: one accumulator over program memory and then over the boot sector. -/
def crcRegions (s : State) : OpResult :=
  match issue 0x00#8 none none none crcInit s with
  | .ends _ s =>
    let n := BitVec.ofNat 32 s.cfg.progSize
    match issue 0x03#8 (some s.cfg.progBase) (some n) none (crcMem s.cfg.progBase n) s with
    | .ends _ s =>
      let n := BitVec.ofNat 32 s.cfg.bootSize
      issue 0x03#8 (some s.cfg.bootBase) (some n) none (crcMem s.cfg.bootBase n) s
    | .blocks s => .blocks s
    | .noMeaning f => .noMeaning f
  | .blocks s => .blocks s
  | .noMeaning f => .noMeaning f

/-- R305, R313: the result as a text, then the acknowledgement. -/
def crcCommand (s : State) : Host.Outcome State Fault Refusal :=
  (crcRegions s).thenNext fun s => (s.sendText (s.cfg.crcText s.crc.acc)).reply .genericOk

/-- R306: the write of a decoded packet, with its one reply. -/
def writeData (s : State) : State :=
  match writeWithRetry s.fr.wAddr s.fr.wLen s with
  | .success s => s.reply .genericOk
  | .rejected r s => s.reply r
  | .failed s => s.reply .writesFailed
  | .blocked s => s

/-- R306: what the controller does with the result of its `FR.RECV`. -/
def writeReply (r : Res) (s : State) : State :=
  let s := { s with env.writing := false }
  match r with
  | .okEnd | .okIv => s.reply .genericOk
  | .errChecksum => s.reply .checksumMismatch
  | .errTooLarge => s.reply .packetTooLarge
  | .errSize => s.reply .sizeError
  | .okWrite => writeData s
  | _ => s

/-- R306: the end of the `FR.RECV` of a Write command, which may have to wait for bytes. -/
def finishWrite : OpResult → Host.Outcome State Fault Refusal
  | .ends r s => .next (writeReply r (s.setRes r))
  | .blocks s => .next { s with env.writing := true }
  | .noMeaning f => .fault f

/-- R306. -/
def writeCommand (s : State) : Host.Outcome State Fault Refusal :=
  finishWrite (frRecv (s.writePort 0x31#8 none none none))

/-- R307, R309: Quit sends no reply. -/
def quitCommand (s : State) : Host.Outcome State Fault Refusal :=
  (leaveLoop s.cfg.status.success s).thenNext id

/-- R308. -/
def unknownCommand (b : Byte) (s : State) : Host.Outcome State Fault Refusal :=
  .next (if b = 0xFC#8 then s.send 0xFC#8 else s.reply .unknownCommand)

/-- The result a value of `RES` names (R95): how the controller reads it. -/
def resOfCode (code : Byte) : Option Res :=
  [Res.ok, .okIv, .okWrite, .okEnd, .errChecksum, .errTooLarge, .errSize, .errAlign, .errFlash, .errCompare, .errKeylen,
   .errRange, .badOp].find? fun r => resCode r == code

/-- R306: a Write command whose `FR.RECV` has just ended goes on with the value of `RES`. -/
def resumeWrite (s : State) : State :=
  if s.env.writing && !s.fl.halted && !s.busy then
    match resOfCode s.port.res with
    | some r => writeReply r s
    | none => s
  else s

/-- `0xFC`. -/
def execHandshake (s : State) : Host.Outcome State Fault Refusal := runCommand handshake s

/-- `I`. -/
def execCmdInfo (s : State) : Host.Outcome State Fault Refusal := runActive infoCommand s

/-- `E`. -/
def execCmdErase (s : State) : Host.Outcome State Fault Refusal := runActive eraseCommand s

/-- `C`. -/
def execCmdCrc (s : State) : Host.Outcome State Fault Refusal := runActive crcCommand s

/-- `W`. -/
def execCmdWrite (s : State) : Host.Outcome State Fault Refusal := runActive writeCommand s

/-- `Q`. -/
def execCmdQuit (s : State) : Host.Outcome State Fault Refusal := runActive quitCommand s

/-- Any other byte. -/
def execCmdUnknown (b : Byte) (s : State) : Host.Outcome State Fault Refusal := runActive (unknownCommand b) s

end Sys2Proof.Machine
end

