-- ==== Sys2Proof/Syntax.lean ====
section
/-! DEFINITION. The instructions: one constructor for each row of spec/opcode_table.json. Three families share the one
type: the operations of the command port (spec/30_encoding.md R91 and the reserved codes of R93), the wire frames the
frame unit decodes (R101 to R104), and the command bytes of the Command Loop (R109). -/

namespace Sys2Proof

/-- An instruction with its operands. A command-port operation carries the operands it reads from `OPA`, `OPB`, `OPC` as
32-bit numbers (R90); an operand that R91 marks "–" is ignored and is not carried. -/
inductive Instr where
  /-- `CRC.INIT` (R121). -/
  | crcInit
  /-- `CRC.UPD b` (R122): the operand is all of `OPA`, of which only the low 8 bits may be nonzero. -/
  | crcUpd (opa : Word)
  /-- `CRC.BUF off, n` (R124). -/
  | crcBuf (off n : Word)
  /-- `CRC.MEM a, n` (R125). -/
  | crcMem (a n : Word)
  /-- `CRC.CHK e` (R126). -/
  | crcChk (e : Word)
  /-- `CIPH.KEYSETUP kbits` (R143). -/
  | ciphKeysetup (kbits : Word)
  /-- `CIPH.BLOCK` (R145). -/
  | ciphBlock
  /-- `CIPH.PROC off, n` (R150). -/
  | ciphProc (off n : Word)
  /-- `FL.ERASE a` (R180). -/
  | flErase (a : Word)
  /-- `FL.WWORD a, v` (R201). -/
  | flWword (a v : Word)
  /-- `FL.WROW a, off` (R203). -/
  | flWrow (a off : Word)
  /-- `FL.WRANGE a, n, off` (R206). -/
  | flWrange (a n off : Word)
  /-- `FL.CMP a, n, off` (R210). -/
  | flCmp (a n off : Word)
  /-- `FL.NOP` (R183). -/
  | flNop
  /-- `FR.RESET` (R231). -/
  | frReset
  /-- `FR.RECV` (R233). -/
  | frRecv
  /-- `SYS.ZEROISE` (R271). -/
  | sysZeroise
  /-- A reserved operation code (R93, R273). -/
  | reserved (code : Byte)
  /-- Format `END`, the zero-length packet `00 00` (R102, R235). -/
  | pktEnd
  /-- Format `IVPKT`, packet #1: eight initialization-vector bytes and a checksum, in the clear (R103, R245). -/
  | pktIv (iv : Vector Byte 8) (checksum : Word)
  /-- Format `WRPKT`: the payload bytes as they travel, that is encrypted (R104, R247). -/
  | pktWrite (payload : List Byte)
  /-- Format `LEN`: a length prefix, `P` counting the payload bytes that follow (R101, R234). -/
  | len (p : Half)
  /-- Wire byte `0xFC` (R301, R308). -/
  | handshake
  /-- Wire byte `I` (R303). -/
  | cmdInfo
  /-- Wire byte `E` (R304). -/
  | cmdErase
  /-- Wire byte `C` (R305). -/
  | cmdCrc
  /-- Wire byte `W` (R306). -/
  | cmdWrite
  /-- Wire byte `Q` (R307). -/
  | cmdQuit
  /-- Any other wire byte (R308). -/
  | cmdUnknown (b : Byte)
deriving DecidableEq, Repr

end Sys2Proof
end

