-- ==== Sys2Proof/Machine/Dispatch.lean ====
section
/-! DEFINITION. One arm for each instruction: its meaning. -/

namespace Sys2Proof.Machine

def exec (i : Instr) (s : State) : Host.Outcome State Fault Refusal :=
  match i with
  | .crcInit => Sys2Proof.Machine.execCrcInit s
  | .crcUpd opa => Sys2Proof.Machine.execCrcUpd opa s
  | .crcBuf off n => Sys2Proof.Machine.execCrcBuf off n s
  | .crcMem a n => Sys2Proof.Machine.execCrcMem a n s
  | .crcChk e => Sys2Proof.Machine.execCrcChk e s
  | .ciphKeysetup kbits => Sys2Proof.Machine.execCiphKeysetup kbits s
  | .ciphBlock => Sys2Proof.Machine.execCiphBlock s
  | .ciphProc off n => Sys2Proof.Machine.execCiphProc off n s
  | .flErase a => Sys2Proof.Machine.execFlErase a s
  | .flWword a v => Sys2Proof.Machine.execFlWword a v s
  | .flWrow a off => Sys2Proof.Machine.execFlWrow a off s
  | .flWrange a n off => Sys2Proof.Machine.execFlWrange a n off s
  | .flCmp a n off => Sys2Proof.Machine.execFlCmp a n off s
  | .flNop => Sys2Proof.Machine.execFlNop s
  | .frReset => Sys2Proof.Machine.execFrReset s
  | .frRecv => Sys2Proof.Machine.execFrRecv s
  | .sysZeroise => Sys2Proof.Machine.execSysZeroise s
  | .reserved code => Sys2Proof.Machine.execReserved code s
  | .pktEnd => Sys2Proof.Machine.execPktEnd s
  | .pktIv iv checksum => Sys2Proof.Machine.execPktIv iv checksum s
  | .pktWrite payload => Sys2Proof.Machine.execPktWrite payload s
  | .len p => Sys2Proof.Machine.execLen p s
  | .handshake => Sys2Proof.Machine.execHandshake s
  | .cmdInfo => Sys2Proof.Machine.execCmdInfo s
  | .cmdErase => Sys2Proof.Machine.execCmdErase s
  | .cmdCrc => Sys2Proof.Machine.execCmdCrc s
  | .cmdWrite => Sys2Proof.Machine.execCmdWrite s
  | .cmdQuit => Sys2Proof.Machine.execCmdQuit s
  | .cmdUnknown b => Sys2Proof.Machine.execCmdUnknown b s

end Sys2Proof.Machine
end

