-- ==== Sys2Proof/WellFormed.lean ====
section
/-! DEFINITION. Which terms of `Instr` stand for an encoding (each constructor has one row of the table, and no word is
the encoding of two well-formed terms of one decode space), and the constraints on the parameters. -/

namespace Sys2Proof

/-- R91: the seventeen operation codes. -/
def isOperationCode (op : Byte) : Bool :=
  [0x00#8, 0x01#8, 0x02#8, 0x03#8, 0x04#8, 0x10#8, 0x11#8, 0x12#8, 0x20#8, 0x21#8, 0x22#8, 0x23#8, 0x24#8, 0x25#8,
   0x30#8, 0x31#8, 0x40#8].contains op

/-- R109: the six wire command bytes with a name. -/
def isCommandByte (b : Byte) : Bool :=
  [0xFC#8, 0x49#8, 0x45#8, 0x43#8, 0x57#8, 0x51#8].contains b

/-- A well-formed instruction. `cap` is `BUF_CAP`, the most payload bytes a write packet may have (R107). -/
def Instr.wf (cap : Nat) : Instr → Bool
  | .reserved code => !isOperationCode code
  | .pktWrite payload => decide (10 ≤ payload.length) && decide (payload.length ≤ cap) && decide (payload.length < 65536)
  | .len p => p != 0#16
  | .cmdUnknown b => !isCommandByte b
  | _ => true

/-- `n` is a power of two (below `2^32`). -/
def isPowerOfTwo (n : Nat) : Bool := (List.range 32).any fun k => n == 2 ^ k

/-- The constraints of R10 on the parameters of the block. -/
def Params.wf (c : Params) : Bool :=
  decide (1 ≤ c.nDoubleRounds)
  && isPowerOfTwo c.pageSize && decide (c.pageSize % c.rowSize = 0) && decide (c.pageSize ≤ 65525)
  && isPowerOfTwo c.rowSize && decide (c.rowSize % 4 = 0) && decide (c.rowSize < c.pageSize)
  && decide (10 ≤ c.bufOverhead) && decide (c.bufCap ≤ 65535)
  && c.flashRanges.all (fun r => decide (r.base % c.pageSize = 0) && decide (r.len % c.pageSize = 0))

/-- The bytes of the four ACK names. -/
def RespMap.acks (r : RespMap) : List Byte := [r.pageErased, r.pageProtected, r.eraseDone, r.genericOk]

/-- The bytes of the fourteen NACK names. -/
def RespMap.nacks (r : RespMap) : List Byte :=
  [r.checksumMismatch, r.packetTooLarge, r.writeWithoutErase, r.sizeError, r.alignmentError, r.wraparound,
   r.outOfBounds, r.overConfiguration, r.missingShim, r.flashWriteFailed, r.compareFailed, r.writesFailed,
   r.unknownCommand, r.eraseFailed]

/-- R310: `RESP` is injective, ACK names map into `0xF0..0xFC`, NACK names into `0xE0..0xEF`. -/
def RespMap.wf (r : RespMap) : Bool :=
  decide (r.acks ++ r.nacks).Nodup
  && r.acks.all (fun b => decide (0xF0#8 ≤ b) && decide (b ≤ 0xFC#8))
  && r.nacks.all (fun b => decide (0xE0#8 ≤ b) && decide (b ≤ 0xEF#8))

/-- R311: the six status values are pairwise different. -/
def StatusMap.wf (m : StatusMap) : Bool :=
  decide [m.skipped, m.success, m.powerExit, m.started, m.hardwareFailed, m.assumptionFailed].Nodup

/-- The physical address of a base (R62), as the number that keys the flash array. -/
def physBase (a : Word) : Nat := (Machine.phys a).toNat

/-- The constraints of R282, R310 and R311 on the parameters of the environment: bases and sizes of the regions to be
erased are multiples of `PAGE_SIZE` and lie in the physical space, the entry page is page-aligned, `SHIM_SEQ` has a
length that is a multiple of 4, and `FLASH_RANGES` is program memory and the boot sector. -/
def Params.envWf (c : Params) : Bool :=
  decide (physBase c.progBase % c.pageSize = 0) && decide (c.progSize % c.pageSize = 0)
  && decide (physBase c.bootBase % c.pageSize = 0) && decide (c.bootSize % c.pageSize = 0)
  && decide (physBase c.progBase + c.progSize ≤ 2 ^ 29) && decide (physBase c.bootBase + c.bootSize ≤ 2 ^ 29)
  && decide (physBase c.entryPage % c.pageSize = 0)
  && decide (c.shimSeq.length % 4 = 0)
  && c.flashRanges == [⟨physBase c.progBase, c.progSize⟩, ⟨physBase c.bootBase, c.bootSize⟩]
  && c.resp.wf && c.status.wf

end Sys2Proof
end

