-- ==== Sys2Proof/Decode.lean ====
section
/-! DEFINITION. The decoder and, after it, the encoder. The block decodes in three places (spec/30_encoding.md): the
command port (R90, R91, R93), the wire frames of the receive channel (R100 to R105) and, in the controller, the wire
command bytes (R109); `Space` says which. Decoding is total: bytes that are not yet a whole instruction are rejected by
name. The bytes of a command-port operation are `OP`, then `OPA`, `OPB`, `OPC`, each least significant byte first: the
port is a set of registers with no byte order of its own, and this layout is the model's (DESIGN CHOICE, log entry 4). -/

namespace Sys2Proof

/-- Why a decoder refuses. -/
inductive DecodeError where
  /-- The bytes end before the instruction does: the decoder waits for more (R250). Safe. -/
  | truncated
deriving DecidableEq, Repr

/-- The answer of the decoder: the instruction and the bytes after it, or a refusal by name. -/
inductive Decoded where
  | instr (i : Instr) (rest : List Byte)
  | rejected (e : DecodeError)
deriving DecidableEq, Repr

/-- Where the bytes stand. `frame cap first` is the receive channel while the frame unit awaits a packet; `cap` is
`BUF_CAP` and `first` says `SEQ = 0` (R105: the formats are told apart "by `P` and `SEQ`, not by any tag byte"). -/
inductive Space where
  | port
  | loop
  | frame (cap : Nat) (first : Bool)
deriving DecidableEq, Repr

/-- R91 and R93: the operation an `OP` value starts, with the operands then in `OPA`, `OPB`, `OPC`. -/
def decodeOperation (op : Byte) (a b c : Word) : Instr :=
  if op = 0x00#8 then .crcInit
  else if op = 0x01#8 then .crcUpd a
  else if op = 0x02#8 then .crcBuf a b
  else if op = 0x03#8 then .crcMem a b
  else if op = 0x04#8 then .crcChk a
  else if op = 0x10#8 then .ciphKeysetup a
  else if op = 0x11#8 then .ciphBlock
  else if op = 0x12#8 then .ciphProc a b
  else if op = 0x20#8 then .flErase a
  else if op = 0x21#8 then .flWword a b
  else if op = 0x22#8 then .flWrow a b
  else if op = 0x23#8 then .flWrange a b c
  else if op = 0x24#8 then .flCmp a b c
  else if op = 0x25#8 then .flNop
  else if op = 0x30#8 then .frReset
  else if op = 0x31#8 then .frRecv
  else if op = 0x40#8 then .sysZeroise
  else .reserved op

/-- R109 and R308: the command a wire byte stands for. -/
def decodeCommand (b : Byte) : Instr :=
  if b = 0xFC#8 then .handshake
  else if b = 0x49#8 then .cmdInfo
  else if b = 0x45#8 then .cmdErase
  else if b = 0x43#8 then .cmdCrc
  else if b = 0x57#8 then .cmdWrite
  else if b = 0x51#8 then .cmdQuit
  else .cmdUnknown b

/-- R103: the twelve payload bytes of packet #1. -/
def decodeIvPayload : List Byte → Decoded
  | i0 :: i1 :: i2 :: i3 :: i4 :: i5 :: i6 :: i7 :: c0 :: c1 :: c2 :: c3 :: rest =>
    .instr (.pktIv #v[i0, i1, i2, i3, i4, i5, i6, i7] (Machine.be32 c0 c1 c2 c3)) rest
  | _ => .rejected .truncated

/-- R101 to R105: what the bytes after a length prefix `p` make of it. A packet whose payload is not all there yet, or
whose `p` fits neither packet format, is read as the prefix alone (`LEN`, R234): the payload bytes then follow one by
one (R237). -/
def decodeFrame (cap : Nat) (first : Bool) (p : Half) (body : List Byte) : Decoded :=
  if p = 0#16 then .instr .pktEnd body
  else if first then
    if p = 12#16 ∧ 12 ≤ body.length then decodeIvPayload body else .instr (.len p) body
  else if 10 ≤ p.toNat ∧ p.toNat ≤ cap ∧ p.toNat ≤ body.length then
    .instr (.pktWrite (body.take p.toNat)) (body.drop p.toNat)
  else .instr (.len p) body

/-- The decoder, total on any bytes. -/
def decode : Space → List Byte → Decoded
  | .port, op :: a0 :: a1 :: a2 :: a3 :: b0 :: b1 :: b2 :: b3 :: c0 :: c1 :: c2 :: c3 :: rest =>
    .instr (decodeOperation op (Machine.le32 a0 a1 a2 a3) (Machine.le32 b0 b1 b2 b3) (Machine.le32 c0 c1 c2 c3)) rest
  | .port, _ => .rejected .truncated
  | .loop, b :: rest => .instr (decodeCommand b) rest
  | .loop, [] => .rejected .truncated
  | .frame cap first, b0 :: b1 :: body => decodeFrame cap first (Machine.be16 b0 b1) body
  | .frame _ _, _ => .rejected .truncated

/-! ### The encoder -/

/-- R91, R93: the operation code and the three operand registers of a command-port operation (0 where an operand is
ignored); none for a wire frame or a wire command. -/
def operationWords : Instr → Option (Byte × Word × Word × Word)
  | .crcInit => some (0x00#8, 0#32, 0#32, 0#32)
  | .crcUpd a => some (0x01#8, a, 0#32, 0#32)
  | .crcBuf a b => some (0x02#8, a, b, 0#32)
  | .crcMem a b => some (0x03#8, a, b, 0#32)
  | .crcChk a => some (0x04#8, a, 0#32, 0#32)
  | .ciphKeysetup a => some (0x10#8, a, 0#32, 0#32)
  | .ciphBlock => some (0x11#8, 0#32, 0#32, 0#32)
  | .ciphProc a b => some (0x12#8, a, b, 0#32)
  | .flErase a => some (0x20#8, a, 0#32, 0#32)
  | .flWword a b => some (0x21#8, a, b, 0#32)
  | .flWrow a b => some (0x22#8, a, b, 0#32)
  | .flWrange a b c => some (0x23#8, a, b, c)
  | .flCmp a b c => some (0x24#8, a, b, c)
  | .flNop => some (0x25#8, 0#32, 0#32, 0#32)
  | .frReset => some (0x30#8, 0#32, 0#32, 0#32)
  | .frRecv => some (0x31#8, 0#32, 0#32, 0#32)
  | .sysZeroise => some (0x40#8, 0#32, 0#32, 0#32)
  | .reserved code => some (code, 0#32, 0#32, 0#32)
  | .pktEnd | .pktIv _ _ | .pktWrite _ | .len _ => none
  | .handshake | .cmdInfo | .cmdErase | .cmdCrc | .cmdWrite | .cmdQuit | .cmdUnknown _ => none

/-- R101 to R104 and R109: the bytes of a wire frame or a wire command, in wire order. -/
def wireBytes : Instr → List Byte
  | .pktEnd => Machine.bytesBE16 0#16
  | .pktIv iv checksum => Machine.bytesBE16 12#16 ++ iv.toList ++ Machine.bytesBE32 checksum
  | .pktWrite payload => Machine.bytesBE16 (BitVec.ofNat 16 payload.length) ++ payload
  | .len p => Machine.bytesBE16 p
  | .handshake => [0xFC#8]
  | .cmdInfo => [0x49#8]
  | .cmdErase => [0x45#8]
  | .cmdCrc => [0x43#8]
  | .cmdWrite => [0x57#8]
  | .cmdQuit => [0x51#8]
  | .cmdUnknown b => [b]
  | _ => []

/-- The bytes of an instruction. -/
def encode (i : Instr) : List Byte :=
  match operationWords i with
  | some (op, a, b, c) => op :: (Machine.bytesLE32 a ++ Machine.bytesLE32 b ++ Machine.bytesLE32 c)
  | none => wireBytes i

/-- The space an instruction is decoded in, for a block with `BUF_CAP = cap`. A length prefix stands in either kind of
frame space; the one given here is that of a later packet. -/
def Instr.space (cap : Nat) : Instr → Space
  | .pktIv _ _ => .frame cap true
  | .pktEnd | .pktWrite _ | .len _ => .frame cap false
  | .handshake | .cmdInfo | .cmdErase | .cmdCrc | .cmdWrite | .cmdQuit | .cmdUnknown _ => .loop
  | _ => .port

/-! ### Words of the opcode table -/

/-- The bytes of a table word, its first byte in bits 7..0. -/
def tableBytes (nbits w : Nat) : List Byte :=
  (List.range ((nbits + 7) / 8)).map fun k => BitVec.ofNat 8 (w >>> (8 * k))

/-- The space a table word belongs to and the bytes laid out there. The table numbers command-port codes and wire
command bytes alike with one byte: a byte that is an operation code (R91) is read at the port, one of the six command
bytes (R109) in the Command Loop, any other at the port as a reserved code (R93); the two sets do not meet. Two bytes
are a length prefix. Longer words are a whole packet when their length agrees with their prefix, else a port operation with its operands; operand
bytes the word does not reach are 0. -/
def tablePlace (nbits w : Nat) : Option (Space × List Byte) :=
  match tableBytes nbits w with
  | [] => none
  | [b] => if !isOperationCode b && isCommandByte b then some (.loop, [b]) else some (.port, b :: List.replicate 12 0#8)
  | [b0, b1] => some (.frame 65535 true, [b0, b1])
  | b0 :: b1 :: body =>
    if (Machine.be16 b0 b1).toNat = body.length then
      some (.frame 65535 (body.length == 12), b0 :: b1 :: body)
    else if body.length ≤ 11 then some (.port, b0 :: b1 :: (body ++ List.replicate (11 - body.length) 0#8))
    else none

/-- The instruction the decoder reads from a word of the opcode table. -/
def decodeTableWord (nbits w : Nat) : Option Instr :=
  match tablePlace nbits w with
  | none => none
  | some (sp, bytes) =>
    match decode sp bytes with
    | .instr i _ => some i
    | .rejected _ => none

end Sys2Proof
end

