-- ==== Sys2Proof/Machine/Boot.lean ====
section
/-! DEFINITION. What the outside world can do to the machine between two steps: a reset with the boot that follows it
(spec/70_reset_and_hazards.md R360 to R365; spec/47_environment.md R302, R312), a byte from the host, the platform's tick
counter, and the writes of a controller outside the model to the command port and to the key registers. -/

namespace Sys2Proof.Machine

/-- R362: the status byte survives a reset and not a power cycle, after which it is a drawn byte. -/
def State.bootStatus (cause : ResetCause) (s : State) : State :=
  match cause with
  | .external => s
  | .powerOn => { s with env.status := s.draws.byte.1, draws := s.draws.byte.2 }

/-- R301, R365: the entry to `Idle`. DESIGN CHOICE (log entry 29): the tick counter reads there what the last `ticks`
event supplied, before the reset or after it; the spec does not say what a reset makes of the platform's counter. -/
def State.enterIdle (s : State) : State :=
  { s with env.eraseDone := false, env.wretry := 0, env.writing := false, env.loop := .idle, env.t0 := s.env.ticks }

/-- R302: any reset reason but power-on leaves at once, no operation issued; R312: a startup assumption that fails leaves
with its own status, and the session is wiped (R309); else the loop begins. -/
def bootLoop (cause : ResetCause) (linked shim : Bool) (s : State) : Host.Outcome State Fault Refusal :=
  let s := s.enterIdle
  if cause ≠ .powerOn then .next { s with env.status := s.cfg.status.skipped, env.loop := .exited }
  else if !(linked && shim) then (leaveLoop s.cfg.status.assumptionFailed s).thenNext id
  else .next s

/-- R360: a reset, at any moment, and the boot. The transmit channel begins empty and the receive channel holds what the
platform put there (R360 f). The tick counter keeps its last reading (log entry 29). -/
def applyReset (cause : ResetCause) (linked shim : Bool) (channel : List Byte) (s : State) :
    Host.Outcome State Fault Refusal :=
  bootLoop cause linked shim ({ s.resetBlock with rx := channel, tx := [] }.bootStatus cause)

/-- A write of the command port or of a key register by a controller outside the model: without effect while the block
is halted (R336), refused while an operation is in progress or about to begin (R372). -/
def portWrite (write : State → State) (s : State) : Host.Outcome State Fault Refusal :=
  if s.fl.halted then .next s
  else if s.busy || s.port.start then .refused .portBusy
  else .next (write s)

/-- One event of the outside world. -/
def deliver (i : Input) (s : State) : Host.Outcome State Fault Refusal :=
  match i with
  | .quiet => .next s
  | .rxByte b => .next { s with rx := s.rx ++ [b] }
  | .ticks now => .next { s with env.ticks := now }
  | .reset cause linked shim channel => applyReset cause linked shim channel s
  | .portOp op => portWrite (fun s => { s with port.op := op, port.start := true }) s
  | .portOpa v => portWrite (fun s => { s with port.opa := v }) s
  | .portOpb v => portWrite (fun s => { s with port.opb := v }) s
  | .portOpc v => portWrite (fun s => { s with port.opc := v }) s
  | .portKey i b => portWrite (fun s => { s with ciph.keyr := s.ciph.keyr.set i b }) s
  | .portIv i b => portWrite (fun s => { s with ciph.ivr := s.ciph.ivr.set i b }) s

end Sys2Proof.Machine
end

