-- ==== Sys2Proof/Machine/Fetch.lean ====
section
/-! DEFINITION. What the machine does next when no event lands: which agent moves, where it fetches from and what it
fetches. The block goes first where it has an operation in progress, because the controller can do nothing then (R372);
then an operation that `OP` has started; then the Command Loop (R300). -/

namespace Sys2Proof.Machine

/-- What the next step of the machine is. -/
inductive Fetched where
  /-- An instruction has been fetched; the state is the one it runs in. -/
  | run (i : Instr) (s : State)
  /-- No instruction begins: a reception goes on, a wait goes on, or the controller moves by itself. -/
  | moves (o : Host.Outcome State Fault Refusal)

/-- R24: the operation `OP` has started, with the operands then in `OPA`, `OPB`, `OPC`. -/
def fetchPort (s : State) : Fetched :=
  .run (decodeOperation s.port.op s.port.opa s.port.opb s.port.opc) { s with port.start := false }

/-- R234, R105: the frame unit awaits a packet; `taken` is the length byte it holds already, if any. With one byte there,
it takes that byte and waits; with none, it polls (R66). -/
def fetchFrame (taken : List Byte) (s : State) : Fetched :=
  match decode (.frame s.cfg.bufCap s.firstPacket) (taken ++ s.rx) with
  | .instr i rest => .run i { s with rx := rest }
  | .rejected _ => .moves (receiveLength s).outcome

/-- R300, R301, R308: the Command Loop takes a byte. -/
def fetchCommand (s : State) : Fetched :=
  match decode .loop s.rx with
  | .instr i rest => .run i { s with rx := rest }
  | .rejected _ => .moves (.next s)

/-- R300: the Command Loop's next move. -/
def fetchLoop (s : State) : Fetched :=
  match s.env.loop with
  | .idle => if windowPassed s then .moves (idleTimeout s) else fetchCommand s
  | .active => fetchCommand s
  | .exited => .moves (.next s)

/-- The next step of the machine. A halted block does nothing for ever (R336); a flash operation that has not completed
is polled (R185: `FL_WAIT` stays `FL_WAIT` while `HW_DONE = 0`). `FR_DECRYPT`, `FR_VERIFY` and `FR_EXTRACT` do not
outlast a step. -/
def fetch (s : State) : Fetched :=
  if s.fl.halted then .moves (.next s)
  else if s.fl.state ≠ .idle then .moves (.next s)
  else
    match s.fr.state with
    | .len0 => fetchFrame [] s
    | .len1 => if s.rx = [] then .moves (.next s) else fetchFrame [s.fr.lenHi] s
    | .body => .moves (receiveBody s).outcome
    | .drain => .moves (drainBody s).outcome
    | .decrypt => .moves (.next s)
    | .verify => .moves (.next s)
    | .extract => .moves (.next s)
    | .idle => if s.port.start then fetchPort s else fetchLoop s

/-- What a step adds after an instruction: a Write command whose `FR.RECV` has just ended goes on (R306). -/
def settle : Host.Outcome State Fault Refusal → Host.Outcome State Fault Refusal
  | .next s => .next (resumeWrite s)
  | .fault f => .fault f
  | .refused r => .refused r

/-- The block and the controller at rest, with nothing about to happen but what is put there next. -/
def State.quietened (s : State) : State :=
  { s with
    fl.halted := false, fl.state := .idle, fr.state := .idle, port.start := false, env.writing := false, inputs := [] }

/-- Bytes put where the next step fetches from them. A packet longer than its prefix needs the packet number its format
is taken at (R105), and a keyed cipher where it is encrypted (R249). -/
def placeBytes : Space → List Byte → State → State
  | .port, op :: a0 :: a1 :: a2 :: a3 :: b0 :: b1 :: b2 :: b3 :: c0 :: c1 :: c2 :: c3 :: _, s =>
    { s.quietened with
      port.op := op, port.opa := le32 a0 a1 a2 a3, port.opb := le32 b0 b1 b2 b3, port.opc := le32 c0 c1 c2 c3
      port.start := true }
  | .port, _, s => s
  | .loop, bytes, s =>
    let loop := if s.env.loop = .idle ∧ windowPassed s = false ∧ bytes = [0xFC#8] then .idle else .active
    { s.quietened with rx := bytes ++ s.rx, env.loop := loop }
  | .frame _ first, bytes, s =>
    let s := { s.quietened with rx := bytes, fr.state := .len0, fr.fill := 0#16, fr.cur := 0#16 }
    if bytes.length ≤ 2 then s
    else if first then { s with fr.seq := 0#32 }
    else { s with fr.seq := if s.fr.seq = 0#32 then 1#32 else s.fr.seq, ciph.keyed := true }

/-- A word of the opcode table placed where the next step fetches it. -/
def placeTableWord (s : State) (nbits w : Nat) : State :=
  match tablePlace nbits w with
  | some (sp, bytes) => placeBytes sp bytes s
  | none => s

end Sys2Proof.Machine
end

