-- ==== Sys2Proof/Machine/Step.lean ====
section
/-! DEFINITION. One step: the next event of the outside world, or, where none lands, the next step of the machine. -/

namespace Sys2Proof.Machine

/-- One step of the machine when no event lands. -/
def machineStep (s : State) : Host.Outcome State Fault Refusal :=
  match fetch s with
  | .run i s => settle (exec i s)
  | .moves o => settle o

/-- One step. -/
def step (s : State) : Host.Outcome State Fault Refusal :=
  match s.inputs with
  | [] => machineStep s
  | .quiet :: rest => machineStep { s with inputs := rest }
  | i :: rest => deliver i { s with inputs := rest }

/-- The state with a word of the opcode table where the next step fetches it. -/
def State.withFetchWord (s : State) (nbits w : Nat) : State := placeTableWord s nbits w

end Sys2Proof.Machine
end

