-- ==== Sys2Proof/Safety.lean ====
section
/-! DEFINITION. The terms the claims use: when the block can take an operation, which flash bytes are protected, and the
invariants of the machine. -/

namespace Sys2Proof.Machine

/-- The block is neither halted nor in an operation, so that an operation can start (R92, R372). -/
abbrev State.free (s : State) : Prop := s.fl.halted = false ∧ s.busy = false

/-- The block is not halted and no flash operation is under way: the frame unit can take a frame. -/
abbrev State.frameFree (s : State) : Prop := s.fl.halted = false ∧ s.fl.state = .idle

/-- The Command Loop can take a command. -/
abbrev State.commandFree (s : State) : Prop := s.free ∧ s.env.loop = .active

/-- `p` lies in `[lo, lo + n)`. -/
def within (lo n p : Nat) : Bool := decide (lo ≤ p) && decide (p < lo + n)

/-- R285, R286: a physical address in one of the ranges the Address Guard protects. -/
def protectedByte (cfg : Params) (p : Nat) : Bool :=
  within (phys cfg.engineBase).toNat cfg.engineSize p
  || (cfg.bootProtect && within (phys cfg.bootBase).toNat cfg.bootSize p)
  || within (configLow cfg) (configHigh cfg - configLow cfg) p

/-- A physical address in the boot-entry page (R282, R296). -/
def entryByte (cfg : Params) (p : Nat) : Bool := within (phys cfg.entryPage).toNat cfg.pageSize p

/-- The 64-bit block counter (R32). -/
def blockCounter (x : Block) : BitVec 64 := x[13] ++ x[12]

/-- The permutation register with its block counter set (R32). -/
def withCounter (x : Block) (c : BitVec 64) : Block :=
  (x.set 12 (c.extractLsb' 0 32)).set 13 (c.extractLsb' 32 32)

/-- The 64 keystream bytes of block number `c` (R145: they depend only on the key, the IV, the constants and `c`). -/
def keystreamBlock (nDoubleRounds : Nat) (x : Block) (c : BitVec 64) : Vector Byte 64 :=
  keystreamBytes (keystreamWords nDoubleRounds (withCounter x c))

/-- R61: a physical address is flash. -/
def flashAt (cfg : Params) (p : Nat) : Prop := ∃ r ∈ cfg.flashRanges, r.base ≤ p ∧ p < r.base + r.len

/-- R97: the flash range `(a, n)` fits. -/
def flashRangeFits (cfg : Params) (a : Word) (n : Nat) : Prop :=
  (phys a).toNat + n ≤ 2 ^ 29 ∧ ∀ p, (phys a).toNat ≤ p → p < (phys a).toNat + n → flashAt cfg p

/-- `p` is one of the `n` bytes from the physical form of `a` on. -/
abbrev inTarget (a : Word) (n p : Nat) : Prop := (phys a).toNat ≤ p ∧ p < (phys a).toNat + n

/-- What the sequencer presents for an operation of a kind at an address, given in either form (R67, R172). -/
def presented (cfg : Params) (kind : FlashKind) (a : Word) (data : List Byte) : FlashCmd :=
  ⟨kind, phys a, data, cfg.unlockKey1, cfg.unlockKey2⟩

/-- Between `s` and `t` nothing has changed but the sequencer, the flash hardware with its array, the draws and `RES`. -/
def onlyFlash (s t : State) : Prop := t = { s with fl := t.fl, hw := t.hw, draws := t.draws, port.res := t.port.res }

/-- The next `n` outcomes the flash hardware supplies report no fault (R174). -/
def goodOutcomes (n : Nat) (s : State) : Prop := s.hw.script.take n = List.replicate n (.done false false)

/-- The outcomes of operations that report the given flags (`HW_LVDERR`, `HW_WRERR`), each fault being cleared by its
corrective no-op (R177). -/
def settledOutcomes (flags : List (Bool × Bool)) : List HwOutcome :=
  flags.flatMap fun f => if f.1 || f.2 then [.done f.1 f.2, .done false false] else [.done false false]

/-- What the sequencer presents for operations that report the given flags: each operation, and after a fault the one
corrective no-op at the same address (R171, R177). -/
def settledCommands (cmds : List FlashCmd) (flags : List (Bool × Bool)) : List FlashCmd :=
  (cmds.zip flags).flatMap fun (c, f) => if f.1 || f.2 then [c, { c with kind := .nop, data := [] }] else [c]

/-- How many of the operations report a fault. -/
def faults (flags : List (Bool × Bool)) : Nat := flags.countP fun f => f.1 || f.2

/-- R72, R97: a single flash operation passes its checks; its kind, target address and target length. -/
def passesChecks (cfg : Params) : Instr → FlashKind → Word → Nat → Prop
  | .flErase a, kind, a', n =>
    kind = .erase ∧ a' = a ∧ n = cfg.pageSize ∧ a.toNat % cfg.pageSize = 0 ∧ flashRangeFits cfg a cfg.pageSize
  | .flWword a _, kind, a', n => kind = .word ∧ a' = a ∧ n = 4 ∧ a.toNat % 4 = 0 ∧ flashRangeFits cfg a 4
  | .flWrow a off, kind, a', n =>
    kind = .row ∧ a' = a ∧ n = cfg.rowSize ∧ a.toNat % cfg.rowSize = 0 ∧ off.toNat % 4 = 0
      ∧ off.toNat + cfg.rowSize ≤ cfg.bufCap ∧ flashRangeFits cfg a cfg.rowSize
  | _, _, _, _ => False

/-- R172: the data a single flash operation presents. -/
def operationData (s : State) : Instr → List Byte
  | .flWword _ v => bytesLE32 v
  | .flWrow _ off => s.bufRange off.toNat s.cfg.rowSize
  | _ => []

/-- The sequencer's registers once a single flash operation has been started at `a`: the latched operands (R36) and the
count of attempts (R37). -/
def startedSequencer (fl : FlashSeq) (i : Instr) (kind : FlashKind) (a : Word) : FlashSeq :=
  match i with
  | .flErase _ => { fl with kind := kind, addr := phys a, eraseAtt := fl.eraseAtt + 1#32 }
  | .flWword _ v => { fl with kind := kind, addr := phys a, data := v }
  | .flWrow _ off => { fl with kind := kind, addr := phys a, src := off }
  | _ => fl

/-- The failure counter a single flash operation counts in goes up by one (R181, R202). -/
def countedFailure (fl : FlashSeq) : Instr → FlashSeq
  | .flErase _ => { fl with eraseFail := fl.eraseFail + 1#32 }
  | _ => { fl with writeFail := fl.writeFail + 1#32 }

/-- R206: a range write passes its three checks. -/
def rangePassesChecks (cfg : Params) (a n off : Word) : Prop :=
  n.toNat < 2 ^ 16 ∧ off.toNat + n.toNat ≤ cfg.bufCap ∧ flashRangeFits cfg a n.toNat ∧ n.toNat % 4 = 0
    ∧ a.toNat % 4 = 0 ∧ off.toNat % 4 = 0

/-- R207: the sub-operation of `len` bytes at address `q` of a range write from `a`, its data taken from `BUF`. -/
def rangePiece (s : State) (kind : FlashKind) (len a off q : Nat) : FlashCmd :=
  presented s.cfg kind (BitVec.ofNat 32 q) (s.bufRange (off + (q - a)) len)

/-- R207: sub-operations of `len` bytes each that cover `[lo, hi)` in increasing address order. -/
def rangePieces (s : State) (kind : FlashKind) (len a off lo hi : Nat) : List FlashCmd :=
  (List.range ((hi - lo) / len)).map fun k => rangePiece s kind len a off (lo + k * len)

/-- R207, the chunking law: word writes up to the first row boundary, row writes up to the last, word writes to the end;
word writes only where the range holds no whole aligned row. -/
def chunks (s : State) (a n off : Nat) : List FlashCmd :=
  let row := s.cfg.rowSize
  let r0 := (a + row - 1) / row * row
  let r1 := (a + n) / row * row
  if r0 < r1 then
    rangePieces s .word 4 a off a r0 ++ rangePieces s .row row a off r0 r1 ++ rangePieces s .word 4 a off r1 (a + n)
  else rangePieces s .word 4 a off a (a + n)

/-- R294: the physical range lies wholly inside one range of `FLASH_RANGES`. -/
def inOneRange (cfg : Params) (a : Word) (n : Nat) : Prop :=
  ∃ r ∈ cfg.flashRanges, r.base ≤ (phys a).toNat ∧ (phys a).toNat + n ≤ r.base + r.len

/-- R296: the data in `BUF` carries the re-entry shim. -/
def carriesShim (s : State) (l : Nat) : Prop :=
  ∃ k, 4 * k + s.cfg.shimSeq.length ≤ min l (4 * s.cfg.shimWindowWords)
    ∧ s.bufRange (4 * k) s.cfg.shimSeq.length = s.cfg.shimSeq

/-- R291 to R294: a decoded write packet passes steps 1 to 4. -/
def acceptedShape (s : State) (a : Word) (l : Nat) : Prop :=
  s.env.eraseDone = true ∧ 0 < l ∧ l ≤ s.cfg.pageSize ∧ l % 4 = 0 ∧ a.toNat % 4 = 0 ∧ a.toNat + l ≤ 2 ^ 32
    ∧ inOneRange s.cfg a l

/-- The plain payload of a later packet: byte `j` of what travelled, XORed with byte `j mod 64` of keystream block
`c + j / 64` (R151, R240). -/
def decrypted (nDoubleRounds : Nat) (x : Block) (payload : List Byte) : List Byte :=
  (List.range payload.length).map fun j =>
    payload.getD j 0#8 ^^^
      (keystreamBlock nDoubleRounds x (blockCounter x + BitVec.ofNat 64 (j / 64))).toList.getD (j % 64) 0#8

/-- R304: the page addresses the Erase command visits, in its order: program memory, then the boot sector. -/
def commandPages (cfg : Params) : List Word :=
  (List.range (cfg.progSize / cfg.pageSize)).map (fun k => cfg.progBase + BitVec.ofNat 32 (k * cfg.pageSize))
  ++ (List.range (cfg.bootSize / cfg.pageSize)).map (fun k => cfg.bootBase + BitVec.ofNat 32 (k * cfg.pageSize))

/-- R304: the page is erased: it is neither the boot-entry page nor one the Guard vetoes. -/
def erasesPage (cfg : Params) (q : Word) : Bool :=
  phys q != phys cfg.entryPage && (isMutationAllowed cfg q cfg.pageSize).1

/-- R304: the pages it does not skip. -/
def erasedPages (cfg : Params) : List Word := (commandPages cfg).filter (erasesPage cfg)

/-- R304: the replies for pages visited in order, the erases reporting the given flags: a skipped page and an erase that
succeeds have a reply, an erase that fails has none. Where the flags run out the command goes no further. -/
def repliesOf (cfg : Params) : List Word → List (Bool × Bool) → List Byte
  | [], _ => []
  | q :: pages, flags =>
    if erasesPage cfg q then
      match flags with
      | [] => []
      | f :: flags =>
        if f.1 || f.2 then repliesOf cfg pages flags else cfg.resp.get .pageErased :: repliesOf cfg pages flags
    else cfg.resp.get .pageProtected :: repliesOf cfg pages flags

/-- R304: what the Erase command sends for its pages: nothing where `ERASE_PROGRESS` is false. -/
def pageReplies (cfg : Params) (flags : List (Bool × Bool)) : List Byte :=
  if cfg.eraseProgress then repliesOf cfg (commandPages cfg) flags else []

/-- R173, R177, R178: outcomes after which a flash operation never ends: it does not complete, or it reports a fault and
its corrective no-op does not complete or reports one too. -/
def neverEnds : List HwOutcome → Bool
  | [.hang] => true
  | [.done lowVoltage writeError, .hang] => lowVoltage || writeError
  | [.done lowVoltage writeError, .done lowVoltage' writeError'] => (lowVoltage || writeError) && (lowVoltage' || writeError')
  | _ => false

/-- R185: where the sequencer is left by such outcomes. -/
def leftIn : List HwOutcome → FlState
  | [.hang] => .wait
  | [_, .hang] => .clrWait
  | _ => .halt

/-- R298, R299: one attempt to write `l` bytes of `BUF` at `a` from the state `v`: `FL.WRANGE`, and after it, if it ended
with `RES_OK`, `FL.CMP`. `w` is the state that the last of them leaves. -/
def attemptLeaves (a : Word) (l : Half) (v w : State) : Prop :=
  let issued (op : Byte) (s : State) : State :=
    { s with port.op := op, port.opa := a, port.opb := l.setWidth 32, port.opc := 0#32 }
  ∃ x, exec (.flWrange a (l.setWidth 32) 0#32) (issued 0x23#8 v) = .next x
    ∧ if x.free ∧ x.port.res = resCode .ok then exec (.flCmp a (l.setWidth 32) 0#32) (issued 0x24#8 x) = .next w else w = x

/-- R91: how many of `OPA`, `OPB`, `OPC` an operation code reads. -/
def operandsRead (op : Byte) : Nat :=
  if op ∈ [0x01#8, 0x04#8, 0x10#8, 0x20#8] then 1
  else if op ∈ [0x02#8, 0x03#8, 0x12#8, 0x21#8, 0x22#8] then 2
  else if op ∈ [0x23#8, 0x24#8] then 3
  else 0

/-- Both memories stand in their canonical form, and `BUF` holds no byte past its capacity (R42), even when a packet
that is being received is complete. -/
structure State.MemInv (s : State) : Prop where
  flash : Memory.wf s.cfg.erasedByte s.hw.array
  buf : Memory.wf 0#8 s.fr.buf
  inCap : ∀ c ∈ s.fr.buf, c.1 < s.cfg.bufCap
  body : s.fr.state = .body → s.fr.plen.toNat ≤ s.cfg.bufCap

/-- The flash array holds bytes at flash addresses only (R61), and so does the target of a flash operation that has not
completed. -/
structure State.FlashInv (s : State) : Prop where
  mapped : ∀ c ∈ s.hw.array, isFlash s.cfg.flashRanges c.1 = true
  target : s.inFlight = true →
    ∀ p, within s.fl.addr.toNat (flashSpan s.cfg s.fl.kind) p = true → isFlash s.cfg.flashRanges p = true

/-- What the registers say of one another between steps: `HALTED` is 1 exactly in `FL_HALT` (R38); the sequencer rests
idle, halted or waiting for the hardware (R185); the frame unit rests idle or waiting for bytes (R250); `C_REM` and
`C_OFF` are 0 (R31); a nonzero `SEQ` means a keyed cipher (R249); `RES` holds one of the values of R95. -/
structure State.RegInv (s : State) : Prop where
  halted : s.fl.halted = true ↔ s.fl.state = .halt
  flRests : s.fl.state = .idle ∨ s.fl.state = .wait ∨ s.fl.state = .clrWait ∨ s.fl.state = .halt
  frRests : s.fr.state ≠ .decrypt ∧ s.fr.state ≠ .verify ∧ s.fr.state ≠ .extract
  counters : s.ciph.cRem = 0#32 ∧ s.ciph.cOff = 0#32
  keyed : s.fr.seq ≠ 0#32 → s.ciph.keyed = true
  result : (resOfCode s.port.res).isSome = true

/-- Relative to contents `ref`: every protected flash byte outside the boot-entry page holds what `ref` says, no flash
operation in flight targets one, and no operation comes from outside the controller of R280 (R374). -/
structure State.GuardInv (ref : Nat → Byte) (s : State) : Prop where
  bytes : ∀ p, protectedByte s.cfg p = true → entryByte s.cfg p = false → s.flashByte p = ref p
  target : s.inFlight = true → ∀ p, within s.fl.addr.toNat (flashSpan s.cfg s.fl.kind) p = true →
    protectedByte s.cfg p = true → entryByte s.cfg p = true
  port : s.port.start = false
  inputs : ∀ op, Input.portOp op ∉ s.inputs

end Sys2Proof.Machine
end

