-- ==== Sys2Proof/Certificates/Slice0/Obligations.lean ====
section
/-! DEFINITION. The statements. Each next state is written as the state before with the fields the rule changes; every
field not written is unchanged, memory included. -/

open Sys2Proof Sys2Proof.Machine

/-! ### Reset and boot -/

/-- R51, R281, R361: the registers right after reset that the spec gives a value, and the rest position of the agents. -/
def Obligations.ResetStateHoldsTheResetValues : Prop :=
  State.reset.port = { op := 0x00#8, opa := 0#32, opb := 0#32, opc := 0#32, res := 0x00#8, start := false }
  ∧ State.reset.crc = { acc := 0#32, computed := 0#32, received := 0#32, matched := false }
  ∧ State.reset.ciph.cRem = 0#32 ∧ State.reset.ciph.cOff = 0#32 ∧ State.reset.ciph.keyed = false
  ∧ State.reset.fl =
      { state := .idle, kind := .nop, addr := 0#32, data := 0#32, src := 0#32, eraseAtt := 0#32, eraseFail := 0#32
        writeFail := 0#32, halted := false, first := 0x00#8 }
  ∧ State.reset.fr.state = .idle ∧ State.reset.fr.fill = 0#16 ∧ State.reset.fr.cur = 0#16
  ∧ State.reset.fr.plen = 0#16 ∧ State.reset.fr.seq = 0#32 ∧ State.reset.fr.final = false
  ∧ State.reset.fr.wAddr = 0#32 ∧ State.reset.fr.wLen = 0#16
  ∧ State.reset.env.eraseDone = false ∧ State.reset.env.wretry = 0 ∧ State.reset.env.loop = .idle

/-- R360: a reset at any moment, the halt included. The registers R51 gives a value take it, the flash array stays as it
is but for the drawn bytes of a target in flight, the channels start as R360 (f) says. A boot that zeroises the session
(R312) is the statement `BootEndsAsTheResetReasonSays`. -/
def Obligations.ResetGivesTheRegistersTheirValues : Prop :=
  ∀ (s : State) (cause : ResetCause) (linked shim : Bool) (channel : List Byte) (rest : List Input),
    s.inputs = .reset cause linked shim channel :: rest → (cause = .external ∨ (linked = true ∧ shim = true)) →
    ∃ t, step s = .next t
      ∧ t.port = { op := 0x00#8, opa := 0#32, opb := 0#32, opc := 0#32, res := 0x00#8, start := false }
      ∧ t.crc = { acc := 0#32, computed := 0#32, received := 0#32, matched := false }
      ∧ t.ciph.cRem = 0#32 ∧ t.ciph.cOff = 0#32 ∧ t.ciph.keyed = false
      ∧ t.fl =
          { state := .idle, kind := .nop, addr := 0#32, data := 0#32, src := 0#32, eraseAtt := 0#32, eraseFail := 0#32
            writeFail := 0#32, halted := false, first := 0x00#8 }
      ∧ t.fr =
          { state := .idle, buf := t.fr.buf, fill := 0#16, cur := 0#16, plen := 0#16, seq := 0#32, final := false
            wAddr := 0#32, wLen := 0#16, lenHi := t.fr.lenHi, toDrain := t.fr.toDrain }
      ∧ (∀ p, (s.inFlight = true → within s.fl.addr.toNat (flashSpan s.cfg s.fl.kind) p = false) →
          t.flashByte p = s.flashByte p)
      ∧ (s.inFlight = true → ∀ i, i < flashSpan s.cfg s.fl.kind →
          t.flashByte (s.fl.addr.toNat + i) = (Draws.take (flashSpan s.cfg s.fl.kind) s.draws).1.getD i 0#8)
      ∧ t.rx = channel ∧ t.tx = [] ∧ t.inputs = rest ∧ t.cfg = s.cfg

/-- R302, R312, R365: after a reset that is no power-on the engine yields at once, nothing sent and no flash operation; a
failed startup assumption yields with its own status; else the handshake wait begins. `OP` has its reset value in each
case (R51, R271). Whether the exit of R302 issues the `SYS.ZEROISE` of R309 is the model's choice (log entry 12: it does
not); no clause here depends on it. That `LOOP` reads `Exited` after an exit, where R281 has it zeroed, is the model's
choice too (log entry 27), and so is the reading that `t0` takes: the last one before the reset (log entry 29). -/
def Obligations.BootEndsAsTheResetReasonSays : Prop :=
  ∀ (s : State) (cause : ResetCause) (linked shim : Bool) (channel : List Byte) (rest : List Input),
    s.inputs = .reset cause linked shim channel :: rest →
    ∃ t, step s = .next t ∧ t.tx = [] ∧ t.hw.issued = [] ∧ t.env.eraseDone = false ∧ t.env.wretry = 0
      ∧ t.port = { op := 0x00#8, opa := 0#32, opb := 0#32, opc := 0#32, res := 0x00#8, start := false }
      ∧ (cause = .external → t.env.status = s.cfg.status.skipped ∧ t.env.loop = .exited)
      ∧ (cause = .powerOn → (linked = false ∨ shim = false) →
          t.env.status = s.cfg.status.assumptionFailed ∧ t.env.loop = .exited)
      ∧ (cause = .powerOn → linked = true → shim = true → t.env.loop = .idle ∧ t.env.t0 = s.env.ticks)

/-! ### Encodings, decoding and the step -/

/-- R95: the value `RES` holds for each result. -/
def Obligations.ResultCodesAreTheTable : Prop :=
  resCode .ok = 0x00#8 ∧ resCode .okIv = 0x01#8 ∧ resCode .okWrite = 0x02#8 ∧ resCode .okEnd = 0x03#8
  ∧ resCode .errChecksum = 0x10#8 ∧ resCode .errTooLarge = 0x11#8 ∧ resCode .errSize = 0x12#8
  ∧ resCode .errAlign = 0x13#8 ∧ resCode .errFlash = 0x14#8 ∧ resCode .errCompare = 0x15#8
  ∧ resCode .errKeylen = 0x16#8 ∧ resCode .errRange = 0x17#8 ∧ resCode .badOp = 0x1F#8

/-- R91, R101 to R104, R109: some words written out from the spec decode to the instruction they stand for. -/
def Obligations.WordsOfTheSpecDecode : Prop :=
  decode .port [0x04#8, 0x7F#8, 0x89#8, 0xA1#8, 0x89#8, 0#8, 0#8, 0#8, 0#8, 0#8, 0#8, 0#8, 0#8]
      = .instr (.crcChk 0x89A1897F#32) []
  ∧ decode .port [0x23#8, 0xF8#8, 0x11#8, 0x00#8, 0x1D#8, 0x10#8, 0x02#8, 0#8, 0#8, 0x04#8, 0#8, 0#8, 0#8]
      = .instr (.flWrange 0x1D0011F8#32 528#32 4#32) []
  ∧ decode (.frame 4106 true) [0x00#8, 0x0C#8, 0#8, 1#8, 2#8, 3#8, 4#8, 5#8, 6#8, 7#8, 0x23#8, 0xCE#8, 0x67#8, 0x4B#8]
      = .instr (.pktIv #v[0#8, 1#8, 2#8, 3#8, 4#8, 5#8, 6#8, 7#8] 0x23CE674B#32) []
  ∧ decode (.frame 4106 false) [0x00#8, 0x00#8] = .instr .pktEnd []
  ∧ decode (.frame 4106 true) [0x10#8, 0x0B#8] = .instr (.len 0x100B#16) []
  ∧ decode .loop [0x57#8, 0x45#8] = .instr .cmdWrite [0x45#8]

/-- R90 to R93, R101 to R105, R109: decoding what the encoder writes gives the instruction back, with whatever follows
it. A length prefix stands alone: with its payload behind it, it is the packet. -/
def Obligations.DecodeAfterEncodeGivesTheInstruction : Prop :=
  ∀ (cap : Nat) (i : Instr) (rest : List Byte), cap ≤ 65535 → i.wf cap = true → (∀ p, i = .len p → rest = []) →
    decode (i.space cap) (encode i ++ rest) = .instr i rest

/-- R91 to R93, R109, R273: every operation code and every command byte decodes to an instruction that encodes with that
code or byte and with exactly the operands the table has the code read; a code is reserved exactly when it is none of the
seventeen, 239 are, and a reserved one sets `RES` to `RES_BAD_OP` and changes nothing else. -/
def Obligations.EveryCodeKeepsItsOwnInstruction : Prop :=
  (∀ (op : Byte) (a b c : Word),
    operationWords (decodeOperation op a b c)
      = some (op, if 1 ≤ operandsRead op then a else 0#32, if 2 ≤ operandsRead op then b else 0#32,
          if 3 ≤ operandsRead op then c else 0#32)
    ∧ (decodeOperation op a b c = .reserved op ↔ isOperationCode op = false))
  ∧ (∀ b : Byte, wireBytes (decodeCommand b) = [b])
  ∧ ((List.range 256).filter fun n => !isOperationCode (BitVec.ofNat 8 n)).length = 239
  ∧ (∀ (s : State) (code : Byte), s.free → exec (.reserved code) s = .next { s with port.res := 0x1F#8 })

/-- R24, R34, R66: what the outside world puts there is there at the next step: a byte at the end of the receive channel;
a written operand or key register; a written `OP`, whose operation the next step begins. A write while an operation is in
progress is refused (R372). -/
def Obligations.OutsideWritesLand : Prop :=
  (∀ (s : State) (b : Byte) (rest : List Input), s.inputs = .rxByte b :: rest →
    step s = .next { s with rx := s.rx ++ [b], inputs := rest })
  ∧ (∀ (s : State) (rest : List Input) (i : Input) (t : State), s.inputs = i :: rest →
      ((∃ op, i = .portOp op ∧ t = { s with port.op := op, port.start := true, inputs := rest })
        ∨ (∃ v, i = .portOpa v ∧ t = { s with port.opa := v, inputs := rest })
        ∨ (∃ v, i = .portOpb v ∧ t = { s with port.opb := v, inputs := rest })
        ∨ (∃ v, i = .portOpc v ∧ t = { s with port.opc := v, inputs := rest })
        ∨ (∃ k b, i = .portKey k b ∧ t = { s with ciph.keyr := s.ciph.keyr.set k b, inputs := rest })
        ∨ (∃ k b, i = .portIv k b ∧ t = { s with ciph.ivr := s.ciph.ivr.set k b, inputs := rest })) →
      (s.free → s.port.start = false → step s = .next t)
      ∧ (s.fl.halted = false → s.busy = true → step s = .refused .portBusy))

/-- A step of the machine runs the instruction it decodes: an operation `OP` has started (R24); the frame at the head of
the receive channel while the frame unit awaits a length prefix (R234); the byte at its head in the Command Loop (R300,
R301). What `settle` adds concerns a Write command that waits for its packet, and nothing else. -/
def Obligations.StepRunsTheDecodedInstruction : Prop :=
  (∀ s : State, s.inputs = [] → s.free → s.port.start = true →
    step s = settle (exec (decodeOperation s.port.op s.port.opa s.port.opb s.port.opc) { s with port.start := false }))
  ∧ (∀ (s : State) (i : Instr) (rest : List Byte), s.inputs = [] → s.frameFree → s.fr.state = .len0 →
      decode (.frame s.cfg.bufCap (s.fr.seq == 0#32)) s.rx = .instr i rest →
      step s = settle (exec i { s with rx := rest }))
  ∧ (∀ (s : State) (i : Instr) (rest : List Byte), s.inputs = [] → s.frameFree → s.fr.state = .len1 → s.rx ≠ [] →
      decode (.frame s.cfg.bufCap (s.fr.seq == 0#32)) (s.fr.lenHi :: s.rx) = .instr i rest →
      step s = settle (exec i { s with rx := rest }))
  ∧ (∀ (s : State) (i : Instr) (rest : List Byte), s.inputs = [] → s.free → s.port.start = false →
      (s.env.loop = .active ∨ (s.env.loop = .idle ∧ s.env.ticks - s.env.t0 < s.cfg.handshakeWindow)) →
      decode .loop s.rx = .instr i rest → step s = settle (exec i { s with rx := rest }))
  ∧ (∀ s : State, s.env.writing = false → settle (.next s) = .next s)

/-! ### The CRC unit -/

/-- R121, R122, R126: `CRC.INIT` clears the accumulator; `CRC.UPD` folds its byte in, or finds the operand too wide and
changes nothing but `RES`; `CRC.CHK` records both checksums and their comparison over all 32 bits, and the result says the
same. -/
def Obligations.CrcInitUpdAndChkSetTheirRegisters : Prop :=
  (∀ s : State, s.free → exec .crcInit s = .next { s with crc.acc := 0#32, port.res := resCode .ok })
  ∧ (∀ (s : State) (opa : Word), s.free →
      (opa.extractLsb' 8 24 ≠ 0#24 → exec (.crcUpd opa) s = .next { s with port.res := resCode .errRange })
      ∧ (opa.extractLsb' 8 24 = 0#24 → exec (.crcUpd opa) s = .next
          { s with crc.acc := crcUpdate s.cfg.crcPoly s.crc.acc (opa.extractLsb' 0 8), port.res := resCode .ok }))
  ∧ (∀ (s : State) (e : Word), s.free → exec (.crcChk e) s = .next
      { s with
        crc := { acc := s.crc.acc, computed := s.crc.acc, received := e, matched := decide (s.crc.acc = e) }
        port.res := if s.crc.acc = e then resCode .ok else resCode .errChecksum })

/-- R124: the accumulator goes on over the buffer bytes in increasing offset order, or the range does not fit. -/
def Obligations.CrcBufThreadsTheBuffer : Prop :=
  ∀ (s : State) (off n : Word), s.free →
    (s.cfg.bufCap < off.toNat + n.toNat → exec (.crcBuf off n) s = .next { s with port.res := resCode .errRange })
    ∧ (off.toNat + n.toNat ≤ s.cfg.bufCap → exec (.crcBuf off n) s = .next
        { s with
          crc.acc := ((List.range n.toNat).map fun i => s.bufByte (off.toNat + i)).foldl (crcUpdate s.cfg.crcPoly) s.crc.acc
          port.res := resCode .ok })

/-- R125: the accumulator goes on over the flash bytes in increasing address order, or the range does not fit; two calls
over adjacent ranges leave what one call over their union leaves. -/
def Obligations.CrcMemThreadsTheFlash : Prop :=
  (∀ (s : State) (a n : Word), s.free →
    (¬flashRangeFits s.cfg a n.toNat → exec (.crcMem a n) s = .next { s with port.res := resCode .errRange })
    ∧ (flashRangeFits s.cfg a n.toNat → exec (.crcMem a n) s = .next
        { s with
          crc.acc :=
            ((List.range n.toNat).map fun i => s.flashByte ((phys a).toNat + i)).foldl (crcUpdate s.cfg.crcPoly) s.crc.acc
          port.res := resCode .ok }))
  ∧ (∀ (s u : State) (a m n : Word), s.free → m.toNat + n.toNat < 2 ^ 32 → flashRangeFits s.cfg a (m.toNat + n.toNat) →
      exec (.crcMem a m) s = .next u → exec (.crcMem (a + m) n) u = exec (.crcMem a (m + n)) s)

/-- R123: the five laws, for every polynomial. -/
def Obligations.ChecksumLaws : Prop :=
  ∀ poly : Word,
    (∀ (a b : List Byte) (seed : Word), crcBytes poly seed (a ++ b) = crcBytes poly (crcBytes poly seed a) b)
    ∧ crcBytes poly 0#32 [] = 0#32
    ∧ (∀ (k : Nat) (m : List Byte), crcBytes poly 0#32 (List.replicate k 0#8 ++ m) = crcBytes poly 0#32 m)
    ∧ (∀ (x y : Word) (b c : Byte), crcUpdate poly (x ^^^ y) (b ^^^ c) = crcUpdate poly x b ^^^ crcUpdate poly y c)
    ∧ crcUpdate poly 0#32 0x01#8 = poly

/-- Vector V2.18, for every polynomial and message: a message followed by its own checksum in wire order leaves 0. -/
def Obligations.MessageAndItsChecksumLeaveZero : Prop :=
  ∀ (poly : Word) (m : List Byte), crcBytes poly 0#32 (m ++ bytesBE32 (crcBytes poly 0#32 m)) = 0#32

/-! ### The cipher unit -/

/-- R141 to R143: the sixteen words after key setup, and what an unsupported key length does. -/
def Obligations.KeySetupFillsTheRegister : Prop :=
  ∀ (s : State) (kbits : Word), s.free →
    (kbits ≠ 256#32 → kbits ≠ 128#32 → exec (.ciphKeysetup kbits) s = .next { s with port.res := resCode .errKeylen })
    ∧ (kbits = 256#32 ∨ kbits = 128#32 →
        ∃ t, exec (.ciphKeysetup kbits) s = .next t
          ∧ t = { s with ciph.x := t.ciph.x, ciph.keyed := true, port.res := resCode .ok }
          ∧ t.ciph.x[0] = 0x61707865#32 ∧ t.ciph.x[3] = 0x6B206574#32
          ∧ (kbits = 256#32 → t.ciph.x[1] = 0x3320646E#32 ∧ t.ciph.x[2] = 0x79622D32#32)
          ∧ (kbits = 128#32 → t.ciph.x[1] = 0x3120646E#32 ∧ t.ciph.x[2] = 0x79622D36#32)
          ∧ (∀ i : Fin 4,
              t.ciph.x[4 + i.val]
                = le32 s.ciph.keyr[4 * i.val] s.ciph.keyr[4 * i.val + 1] s.ciph.keyr[4 * i.val + 2] s.ciph.keyr[4 * i.val + 3]
              ∧ (kbits = 256#32 → t.ciph.x[8 + i.val]
                  = le32 s.ciph.keyr[16 + 4 * i.val] s.ciph.keyr[17 + 4 * i.val] s.ciph.keyr[18 + 4 * i.val]
                      s.ciph.keyr[19 + 4 * i.val])
              ∧ (kbits = 128#32 → t.ciph.x[8 + i.val] = t.ciph.x[4 + i.val]))
          ∧ blockCounter t.ciph.x = 0#64
          ∧ t.ciph.x[14] = le32 s.ciph.ivr[0] s.ciph.ivr[1] s.ciph.ivr[2] s.ciph.ivr[3]
          ∧ t.ciph.x[15] = le32 s.ciph.ivr[4] s.ciph.ivr[5] s.ciph.ivr[6] s.ciph.ivr[7])

/-- R144: the twelve assignments, for any four different words; the other twelve words stay. -/
def Obligations.QuarterRoundUpdatesItsFourWords : Prop :=
  ∀ (v : Block) (a b c d : Fin 16), [a, b, c, d].Nodup →
    let a1 := v[a] + v[b]; let d1 := rotl32 (v[d] ^^^ a1) 16
    let c1 := v[c] + d1; let b1 := rotl32 (v[b] ^^^ c1) 12
    let a2 := a1 + b1; let d2 := rotl32 (d1 ^^^ a2) 8
    let c2 := c1 + d2; let b2 := rotl32 (b1 ^^^ c2) 7
    let w := quarterRound v a b c d
    w[a] = a2 ∧ w[b] = b2 ∧ w[c] = c2 ∧ w[d] = d2 ∧ ∀ i : Fin 16, i ∉ [a, b, c, d] → w[i] = v[i]

/-- R148, R145: a double-round is the four column quarter-rounds and then the four diagonal ones, on the index sets named,
and `N_DOUBLE_ROUNDS` of them run one after another. Quarter-rounds on disjoint words may change places, so the order within
half a double-round does not matter. -/
def Obligations.DisjointQuarterRoundsCommute : Prop :=
  (∀ v : Block, doubleRound v =
    ([(0, 4, 8, 12), (1, 5, 9, 13), (2, 6, 10, 14), (3, 7, 11, 15),
      (0, 5, 10, 15), (1, 6, 11, 12), (2, 7, 8, 13), (3, 4, 9, 14)] : List (Fin 16 × Fin 16 × Fin 16 × Fin 16)).foldl
        (fun w q => quarterRound w q.1 q.2.1 q.2.2.1 q.2.2.2) v)
  ∧ (∀ (n : Nat) (v : Block), doubleRounds n v = doubleRound^[n] v)
  ∧ ∀ (v : Block) (a b c d e f g h : Fin 16), [a, b, c, d, e, f, g, h].Nodup →
      quarterRound (quarterRound v a b c d) e f g h = quarterRound (quarterRound v e f g h) a b c d

/-- R145 to R147: the sums of scratch and register words, cut least significant byte first, and the 64-bit block counter
advanced by one with its wrap; the key, constant and IV words stay. -/
def Obligations.CipherBlockMakesKeystreamAndCounts : Prop :=
  ∀ s : State, s.free → s.ciph.keyed = true →
    ∃ t, exec .ciphBlock s = .next t
      ∧ t = { s with
          ciph.x := withCounter s.ciph.x (blockCounter s.ciph.x + 1#64), ciph.s := t.ciph.s, ciph.ks := t.ciph.ks
          port.res := resCode .ok }
      ∧ (∀ i : Fin 16, t.ciph.s[i] = (doubleRounds s.cfg.nDoubleRounds s.ciph.x)[i] + s.ciph.x[i]
          ∧ t.ciph.ks[4 * i.val] = t.ciph.s[i].extractLsb' 0 8 ∧ t.ciph.ks[4 * i.val + 1] = t.ciph.s[i].extractLsb' 8 8
          ∧ t.ciph.ks[4 * i.val + 2] = t.ciph.s[i].extractLsb' 16 8
          ∧ t.ciph.ks[4 * i.val + 3] = t.ciph.s[i].extractLsb' 24 8)

/-- R154: with no key, a keystream has no meaning: `CIPH.BLOCK` stops, and `CIPH.PROC` of a range that fits and is not
empty. -/
def Obligations.UnkeyedCipherFaults : Prop :=
  ∀ s : State, s.free → s.ciph.keyed = false →
    exec .ciphBlock s = .fault .cipherNotKeyed
    ∧ ∀ off n : Word, off.toNat + n.toNat ≤ s.cfg.bufCap → n ≠ 0#32 → exec (.ciphProc off n) s = .fault .cipherNotKeyed

/-- R150, R151 position and counter laws, R152, R153: byte `j` of the range is XORed with byte `j mod 64` of block
`c + j / 64`, `c` being the counter at the start, so that no call uses what an earlier block left over; the counter moves
on by `ceil(n / 64)` modulo 2^64; no other byte of `BUF` changes. A range that does not fit changes nothing but `RES`; an
empty one makes no block and asks for no key. -/
def Obligations.CipherProcAppliesTheKeystream : Prop :=
  ∀ (s : State) (off n : Word), s.free →
    (s.cfg.bufCap < off.toNat + n.toNat → exec (.ciphProc off n) s = .next { s with port.res := resCode .errRange })
    ∧ (off.toNat ≤ s.cfg.bufCap → exec (.ciphProc off 0#32) s = .next
        { s with ciph.cRem := 0#32, ciph.cOff := 0#32, port.res := resCode .ok })
    ∧ (s.ciph.keyed = true → off.toNat + n.toNat ≤ s.cfg.bufCap →
        ∃ t, exec (.ciphProc off n) s = .next t
          ∧ t = { s with
              ciph :=
                { s.ciph with
                  x := withCounter s.ciph.x (blockCounter s.ciph.x + BitVec.ofNat 64 ((n.toNat + 63) / 64))
                  s := t.ciph.s, ks := t.ciph.ks, cRem := 0#32, cOff := 0#32 }
              fr.buf := t.fr.buf, port.res := resCode .ok }
          ∧ (∀ j, j < n.toNat → t.bufByte (off.toNat + j) = s.bufByte (off.toNat + j) ^^^
              (keystreamBlock s.cfg.nDoubleRounds s.ciph.x (blockCounter s.ciph.x + BitVec.ofNat 64 (j / 64))).toList.getD
                (j % 64) 0#8)
          ∧ (∀ p, ¬(off.toNat ≤ p ∧ p < off.toNat + n.toNat) → t.bufByte p = s.bufByte p))

/-- R151: decryption is encryption with the state derived afresh. -/
def Obligations.CipherProcIsItsOwnInverse : Prop :=
  ∀ (s : State) (kbits off n : Word), s.free → (kbits = 256#32 ∨ kbits = 128#32) →
    off.toNat + n.toNat ≤ s.cfg.bufCap →
    ∃ s1 s2 s3 s4, exec (.ciphKeysetup kbits) s = .next s1 ∧ exec (.ciphProc off n) s1 = .next s2
      ∧ exec (.ciphKeysetup kbits) s2 = .next s3 ∧ exec (.ciphProc off n) s3 = .next s4
      ∧ ∀ p, s4.bufByte p = s.bufByte p

/-! ### The flash units -/

/-- R180, R181: `FL.ERASE`: the two checks, alignment first, each counted; and an erase the hardware reports no fault of,
which leaves the page erased and every other byte as it was. -/
def Obligations.FlEraseChecksThenErases : Prop :=
  ∀ (s : State) (a : Word), s.free →
    (a.toNat % s.cfg.pageSize ≠ 0 → exec (.flErase a) s = .next
      { s with fl.eraseAtt := s.fl.eraseAtt + 1#32, fl.eraseFail := s.fl.eraseFail + 1#32, port.res := resCode .errAlign })
    ∧ (a.toNat % s.cfg.pageSize = 0 → ¬flashRangeFits s.cfg a s.cfg.pageSize → exec (.flErase a) s = .next
      { s with fl.eraseAtt := s.fl.eraseAtt + 1#32, fl.eraseFail := s.fl.eraseFail + 1#32, port.res := resCode .errRange })
    ∧ (a.toNat % s.cfg.pageSize = 0 → flashRangeFits s.cfg a s.cfg.pageSize → s.nextOutcome = .done false false →
        ∃ t, exec (.flErase a) s = .next t ∧ onlyFlash s t ∧ t.port.res = resCode .ok
          ∧ t.fl = { s.fl with kind := .erase, addr := phys a, eraseAtt := s.fl.eraseAtt + 1#32 }
          ∧ t.hw.issued = s.hw.issued ++ [presented s.cfg .erase a []]
          ∧ t.hw.done = true ∧ t.hw.lowVoltage = false ∧ t.hw.writeError = false
          ∧ ∀ p, t.flashByte p = if inTarget a s.cfg.pageSize p then s.cfg.erasedByte else s.flashByte p)

/-- R201, R202, R70: `FL.WWORD`: the two checks; and a write the hardware reports no fault of, which puts the word's bytes
over an erased target, least significant first. Over a target that is not erased the four bytes are drawn (R175). That a
rejected operation leaves `FL_DATA` as it was (R333) is log entry 14: the pseudocode of R201 writes it before the checks. -/
def Obligations.FlWwordChecksThenWrites : Prop :=
  ∀ (s : State) (a v : Word), s.free →
    (a.toNat % 4 ≠ 0 → exec (.flWword a v) s = .next
      { s with fl.writeFail := s.fl.writeFail + 1#32, port.res := resCode .errAlign })
    ∧ (a.toNat % 4 = 0 → ¬flashRangeFits s.cfg a 4 → exec (.flWword a v) s = .next
      { s with fl.writeFail := s.fl.writeFail + 1#32, port.res := resCode .errRange })
    ∧ (a.toNat % 4 = 0 → flashRangeFits s.cfg a 4 → s.nextOutcome = .done false false →
        ∃ t, exec (.flWword a v) s = .next t ∧ onlyFlash s t ∧ t.port.res = resCode .ok
          ∧ t.fl = { s.fl with kind := .word, addr := phys a, data := v }
          ∧ t.hw.issued = s.hw.issued ++ [presented s.cfg .word a (bytesLE32 v)]
          ∧ t.hw.done = true ∧ t.hw.lowVoltage = false ∧ t.hw.writeError = false
          ∧ (∀ p, ¬inTarget a 4 p → t.flashByte p = s.flashByte p)
          ∧ ((∀ p, inTarget a 4 p → s.flashByte p = s.cfg.erasedByte) →
              t.flashByte (phys a).toNat = v.extractLsb' 0 8 ∧ t.flashByte ((phys a).toNat + 1) = v.extractLsb' 8 8
              ∧ t.flashByte ((phys a).toNat + 2) = v.extractLsb' 16 8
              ∧ t.flashByte ((phys a).toNat + 3) = v.extractLsb' 24 8))

/-- R203, R202: `FL.WROW`: alignment of the target and of the source, then both ranges; and a write the hardware reports
no fault of, which puts the `BUF` bytes over an erased row. That a rejected operation leaves `FL_SRC` as it was (R333) is
log entry 14: the pseudocode of R203 writes it before the checks. -/
def Obligations.FlWrowChecksThenWrites : Prop :=
  ∀ (s : State) (a off : Word), s.free →
    (a.toNat % s.cfg.rowSize ≠ 0 ∨ off.toNat % 4 ≠ 0 → exec (.flWrow a off) s = .next
      { s with fl.writeFail := s.fl.writeFail + 1#32, port.res := resCode .errAlign })
    ∧ (a.toNat % s.cfg.rowSize = 0 → off.toNat % 4 = 0 →
        s.cfg.bufCap < off.toNat + s.cfg.rowSize ∨ ¬flashRangeFits s.cfg a s.cfg.rowSize → exec (.flWrow a off) s = .next
      { s with fl.writeFail := s.fl.writeFail + 1#32, port.res := resCode .errRange })
    ∧ (a.toNat % s.cfg.rowSize = 0 → off.toNat % 4 = 0 → off.toNat + s.cfg.rowSize ≤ s.cfg.bufCap →
        flashRangeFits s.cfg a s.cfg.rowSize → s.nextOutcome = .done false false →
        ∃ t, exec (.flWrow a off) s = .next t ∧ onlyFlash s t ∧ t.port.res = resCode .ok
          ∧ t.fl = { s.fl with kind := .row, addr := phys a, src := off }
          ∧ t.hw.issued = s.hw.issued ++ [presented s.cfg .row a (s.bufRange off.toNat s.cfg.rowSize)]
          ∧ t.hw.done = true ∧ t.hw.lowVoltage = false ∧ t.hw.writeError = false
          ∧ (∀ p, ¬inTarget a s.cfg.rowSize p → t.flashByte p = s.flashByte p)
          ∧ ((∀ p, inTarget a s.cfg.rowSize p → s.flashByte p = s.cfg.erasedByte) →
              ∀ i, i < s.cfg.rowSize → t.flashByte ((phys a).toNat + i) = s.bufByte (off.toNat + i)))

/-- R177, R178, R181, R202, R336, R337: a single flash operation whose first outcome reports a fault presents exactly one
corrective no-op. If both flags are 0 after it, the operation fails with `RES_ERR_FLASH`, is counted, and the sequencer is
idle; if a flag is 1, the block enters the halt: `RES` and the failure counter keep their values, the status byte reads
"hardware-failed"; while the no-op does not complete, the sequencer waits for it. Only target bytes can have changed. That
the status byte reads so from halt entry on is the model's reading of R311 and R337 (log entry 11); that an outcome can be
an operation which never completes is the model's form of R173 (log entry 3). -/
def Obligations.FaultyFlashOperationIsClearedOrHalts : Prop :=
  ∀ (s : State) (i : Instr) (kind : FlashKind) (a : Word) (n : Nat) (lowVoltage writeError : Bool),
    s.free → passesChecks s.cfg i kind a n → s.nextOutcome = .done lowVoltage writeError →
    (lowVoltage || writeError) = true →
    ∃ t, exec i s = .next t
      ∧ t.hw.issued = s.hw.issued ++ [presented s.cfg kind a (operationData s i), presented s.cfg .nop a []]
      ∧ (∀ p, ¬inTarget a n p → t.flashByte p = s.flashByte p)
      ∧ (t.hw.done = true → t.hw.lowVoltage = false → t.hw.writeError = false →
          onlyFlash s t ∧ t.port.res = resCode .errFlash ∧ t.fl = countedFailure (startedSequencer s.fl i kind a) i)
      ∧ (t.hw.done = true → (t.hw.lowVoltage || t.hw.writeError) = true →
          t = { s with fl := t.fl, hw := t.hw, draws := t.draws, env.status := s.cfg.status.hardwareFailed }
          ∧ t.fl = { startedSequencer s.fl i kind a with state := .halt, halted := true } ∧ t.hwFault = true)
      ∧ (t.hw.done = false →
          t = { s with fl := t.fl, hw := t.hw, draws := t.draws }
          ∧ t.fl = { startedSequencer s.fl i kind a with state := .clrWait })

/-- R173, and spec/93_implementation_defined.md U10: while the flash hardware has not completed, the sequencer waits: no
`RES`, no flash byte changed, and the machine, left alone, stays as it is. -/
def Obligations.UncompletedFlashOperationWaits : Prop :=
  ∀ (s : State) (i : Instr) (kind : FlashKind) (a : Word) (n : Nat), s.free → passesChecks s.cfg i kind a n →
    s.nextOutcome = .hang →
    ∃ t, exec i s = .next t ∧ t = { s with fl := t.fl, hw := t.hw, draws := t.draws }
      ∧ t.fl = { startedSequencer s.fl i kind a with state := .wait } ∧ t.hw.done = false ∧ t.hw.array = s.hw.array
      ∧ t.hw.issued = s.hw.issued ++ [presented s.cfg kind a (operationData s i)]
      ∧ (s.inputs = [] → step t = .next t)

/-- R183: a direct `FL.NOP` reports the flags, changes no flash byte and no counter, and never halts. -/
def Obligations.FlNopReportsTheFlags : Prop :=
  ∀ (s : State) (lowVoltage writeError : Bool), s.free → s.nextOutcome = .done lowVoltage writeError →
    ∃ t, exec .flNop s = .next t ∧ onlyFlash s t ∧ t.fl = { s.fl with kind := .nop }
      ∧ t.port.res = (if (lowVoltage || writeError) = true then resCode .errFlash else resCode .ok)
      ∧ t.hw.issued = s.hw.issued ++ [⟨.nop, s.fl.addr, [], s.cfg.unlockKey1, s.cfg.unlockKey2⟩]
      ∧ t.hw.array = s.hw.array
      ∧ t.hw.done = true ∧ t.hw.lowVoltage = lowVoltage ∧ t.hw.writeError = writeError

/-- R206, R208, R335: the checks of a range write, in their order, change nothing but `RES`; an empty range that passes
them issues nothing. -/
def Obligations.FlWrangeChecksFirst : Prop :=
  ∀ (s : State) (a n off : Word), s.free →
    let fits := n.toNat < 2 ^ 16 ∧ off.toNat + n.toNat ≤ s.cfg.bufCap ∧ flashRangeFits s.cfg a n.toNat
    (¬fits → exec (.flWrange a n off) s = .next { s with port.res := resCode .errRange })
    ∧ (fits → n.toNat % 4 ≠ 0 → exec (.flWrange a n off) s = .next { s with port.res := resCode .errSize })
    ∧ (fits → n.toNat % 4 = 0 → (a.toNat % 4 ≠ 0 ∨ off.toNat % 4 ≠ 0) →
        exec (.flWrange a n off) s = .next { s with port.res := resCode .errAlign })
    ∧ (fits → n = 0#32 → a.toNat % 4 = 0 → off.toNat % 4 = 0 →
        exec (.flWrange a n off) s = .next { s with fl.first := resCode .ok, port.res := resCode .ok })

/-- R206, R207: with no fault reported, the range is cut as the chunking law says, each sub-operation presented once and
in increasing address order; over erased flash the range then holds the `BUF` bytes; no byte outside it changes. -/
def Obligations.FlWrangeWritesItsChunks : Prop :=
  ∀ (s : State) (a n off : Word), s.free → s.cfg.wf = true → rangePassesChecks s.cfg a n off →
    goodOutcomes (chunks s a.toNat n.toNat off.toNat).length s →
    ∃ t, exec (.flWrange a n off) s = .next t ∧ onlyFlash s t ∧ t.port.res = resCode .ok
      ∧ t.fl =
          { s.fl with
            kind := t.fl.kind, addr := t.fl.addr, data := t.fl.data, src := t.fl.src, first := resCode .ok }
      ∧ t.hw.issued = s.hw.issued ++ chunks s a.toNat n.toNat off.toNat
      ∧ (∀ p, ¬inTarget a n.toNat p → t.flashByte p = s.flashByte p)
      ∧ ((∀ p, inTarget a n.toNat p → s.flashByte p = s.cfg.erasedByte) →
          ∀ i, i < n.toNat → t.flashByte ((phys a).toNat + i) = s.bufByte (off.toNat + i))

/-- R202, R206, R208, R175, vector V4.31: a sub-operation that fails stops nothing: every one is attempted, each failure is
counted, the first failure's code is kept and returned, and each sub-operation that reports no fault over an erased target
has written its bytes. -/
def Obligations.FlWrangeGoesOnAfterFailures : Prop :=
  ∀ (s : State) (a n off : Word) (flags : List (Bool × Bool)) (rest : List HwOutcome),
    s.free → s.cfg.wf = true → rangePassesChecks s.cfg a n off →
    flags.length = (chunks s a.toNat n.toNat off.toNat).length → s.hw.script = settledOutcomes flags ++ rest →
    let res := if faults flags = 0 then resCode .ok else resCode .errFlash
    ∃ t, exec (.flWrange a n off) s = .next t ∧ onlyFlash s t ∧ t.port.res = res ∧ t.hw.script = rest
      ∧ t.fl =
          { s.fl with
            kind := t.fl.kind, addr := t.fl.addr, data := t.fl.data, src := t.fl.src
            writeFail := s.fl.writeFail + BitVec.ofNat 32 (faults flags), first := res }
      ∧ t.hw.issued = s.hw.issued ++ settledCommands (chunks s a.toNat n.toNat off.toNat) flags
      ∧ (∀ p, ¬inTarget a n.toNat p → t.flashByte p = s.flashByte p)
      ∧ (∀ c, (c, (false, false)) ∈ (chunks s a.toNat n.toNat off.toNat).zip flags →
          (∀ i, i < c.data.length → s.flashByte (c.addr.toNat + i) = s.cfg.erasedByte) →
          ∀ i, i < c.data.length → t.flashByte (c.addr.toNat + i) = c.data.getD i 0#8)

/-- R206, R336, R173: a sub-operation that halts, or never completes, stops the range write there: later sub-operations are
never presented, the result register keeps its value, the block is in the halt or waits. That `RES` keeps the value it had
before the range write, whatever earlier sub-operations ended with, is the model's reading of R24 and R178 (log entry 28);
that the status byte then reads "hardware-failed" is its reading of R311 and R337 (log entry 11); the sub-operation that
never completes is its form of R173 (log entry 3). -/
def Obligations.FlWrangeHaltsWithItsSubOperation : Prop :=
  ∀ (s : State) (a n off : Word) (flags : List (Bool × Bool)) (stop rest : List HwOutcome),
    s.free → s.cfg.wf = true → rangePassesChecks s.cfg a n off → neverEnds stop = true →
    flags.length < (chunks s a.toNat n.toNat off.toNat).length → s.hw.script = settledOutcomes flags ++ stop ++ rest →
    ∃ t, exec (.flWrange a n off) s = .next t
      ∧ t = { s with
          fl := t.fl, hw := t.hw, draws := t.draws
          env.status := if leftIn stop = .halt then s.cfg.status.hardwareFailed else s.env.status }
      ∧ t.fl.state = leftIn stop ∧ t.fl.halted = (leftIn stop == .halt)
      ∧ t.fl.writeFail = s.fl.writeFail + BitVec.ofNat 32 (faults flags)
      ∧ t.hw.issued.length = s.hw.issued.length + flags.length + faults flags + stop.length
      ∧ (∀ p, ¬inTarget a n.toNat p → t.flashByte p = s.flashByte p)

/-- R210: the compare reads only, and says whether every byte agrees. -/
def Obligations.FlCmpComparesEveryByte : Prop :=
  ∀ (s : State) (a n off : Word), s.free →
    let fits := n.toNat < 2 ^ 16 ∧ off.toNat + n.toNat ≤ s.cfg.bufCap ∧ flashRangeFits s.cfg a n.toNat
    let same := ∀ i, i < n.toNat → s.flashByte ((phys a).toNat + i) = s.bufByte (off.toNat + i)
    (¬fits → exec (.flCmp a n off) s = .next { s with port.res := resCode .errRange })
    ∧ (fits → same → exec (.flCmp a n off) s = .next { s with port.res := resCode .ok })
    ∧ (fits → ¬same → exec (.flCmp a n off) s = .next { s with port.res := resCode .errCompare })

/-! ### The frame unit -/

/-- R231. -/
def Obligations.FrResetClearsTheSequence : Prop :=
  ∀ s : State, s.free → exec .frReset s = .next
    { s with
      fr.seq := 0#32, fr.final := false, fr.fill := 0#16, fr.cur := 0#16, fr.plen := 0#16, port.res := resCode .ok }

/-- R235, R306: a zero length prefix is the end marker whatever `SEQ` is, taken by `FR.RECV` or met in a reception; two
bytes are consumed and nothing is decrypted or checked. A Write command over it is acknowledged; that the controller's
`FR.RECV`, which reads no operand, leaves `OPA`, `OPB` and `OPC` as they were is the model's choice (log entry 13). -/
def Obligations.ZeroLengthIsTheEndMarker : Prop :=
  ∀ (s : State) (rest : List Byte),
    let seen (u : State) : State :=
      { u with
        fr.final := true, fr.state := .idle, fr.fill := 0#16, fr.cur := 0#16, fr.plen := 0#16, fr.lenHi := 0#8
        port.res := resCode .okEnd }
    (s.free → s.rx = [0x00#8, 0x00#8] ++ rest → exec .frRecv s = .next (seen { s with rx := rest }))
    ∧ (s.frameFree → exec .pktEnd s = .next (seen s))
    ∧ (s.commandFree → s.rx = [0x00#8, 0x00#8] ++ rest → exec .cmdWrite s = .next
        { seen s with
          rx := rest, port.op := 0x31#8, env.writing := false
          tx := s.tx ++ [s.cfg.resp.get .genericOk] })

/-- R234, R236, R237, R250: what follows a length prefix `p` that is not 0. Too large: rejected at once, or after its body
bytes are discarded where `DRAIN_OVERSIZE` says so, waiting for those still to come. Else the body: with all of its bytes
there it is a packet; with fewer, they are stored, and the frame unit waits with `FILL` of them. -/
def Obligations.LengthPrefixAnnouncesTheBody : Prop :=
  ∀ (s : State) (p : Half), s.frameFree → p ≠ 0#16 →
    let announced (st : FrState) : Frame :=
      { s.fr with plen := p, lenHi := p.extractLsb' 8 8, fill := 0#16, cur := 0#16, state := st }
    (s.cfg.bufCap < p.toNat → s.cfg.drainOversize = false →
      exec (.len p) s = .next { s with fr := announced .idle, port.res := resCode .errTooLarge })
    ∧ (s.cfg.bufCap < p.toNat → s.cfg.drainOversize = true → p.toNat ≤ s.rx.length →
        exec (.len p) s = .next
          { s with
            fr := { announced .idle with toDrain := 0#16 }, rx := s.rx.drop p.toNat, port.res := resCode .errTooLarge })
    ∧ (s.cfg.bufCap < p.toNat → s.cfg.drainOversize = true → s.rx.length < p.toNat →
        exec (.len p) s = .next
          { s with fr := { announced .drain with toDrain := p - BitVec.ofNat 16 s.rx.length }, rx := [] })
    ∧ (p.toNat ≤ s.cfg.bufCap → p.toNat ≤ s.rx.length →
        exec (.len p) s = exec (.pktWrite (s.rx.take p.toNat)) { s with rx := s.rx.drop p.toNat })
    ∧ (p.toNat ≤ s.cfg.bufCap → s.rx.length < p.toNat →
        ∃ t, exec (.len p) s = .next t
          ∧ t = { s with
              fr := { announced .body with fill := BitVec.ofNat 16 s.rx.length, buf := t.fr.buf }, rx := [] }
          ∧ ∀ i, t.bufByte i = if i < s.rx.length then s.rx.getD i 0#8 else s.bufByte i)

/-- R237, R238, R242 to R245: packet #1, met as its own frame or as any packet while `SEQ` is 0: its payload is stored as
it came and not decrypted; too short, a wrong checksum or a length other than 12 rejects it and leaves the cipher and
`SEQ` alone; else the cipher is keyed with `KEY` and the eight initialization-vector bytes as `CIPH.KEYSETUP 256` does,
and `SEQ` becomes 1. -/
def Obligations.FirstPacketKeysTheCipher : Prop :=
  ∀ (s : State) (i : Instr) (payload : List Byte), s.frameFree → s.fr.seq = 0#32 → 0 < payload.length →
    payload.length ≤ s.cfg.bufCap → payload.length < 65536 →
    (i = .pktWrite payload ∨ ∃ iv checksum, i = .pktIv iv checksum ∧ payload = iv.toList ++ bytesBE32 checksum) →
    let n := payload.length
    let sum := crcBytes s.cfg.crcPoly 0#32 (payload.take (n - 4))
    let got := be32 (payload.getD (n - 4) 0#8) (payload.getD (n - 3) 0#8) (payload.getD (n - 2) 0#8)
      (payload.getD (n - 1) 0#8)
    ∃ t, exec i s = .next t
      ∧ t = { s with crc := t.crc, ciph := t.ciph, fr := t.fr, port.res := t.port.res }
      ∧ t.fr =
          { s.fr with
            state := .idle, buf := t.fr.buf, fill := BitVec.ofNat 16 n, plen := BitVec.ofNat 16 n
            cur := BitVec.ofNat 16 (if n < 4 then n else n - 4), seq := t.fr.seq, lenHi := t.fr.lenHi }
      ∧ (∀ j, t.bufByte j = if j < n then payload.getD j 0#8 else s.bufByte j)
      ∧ (n < 4 → t.port.res = resCode .errSize ∧ t.crc = s.crc ∧ t.ciph = s.ciph ∧ t.fr.seq = 0#32)
      ∧ (4 ≤ n → t.crc = { acc := sum, computed := sum, received := got, matched := decide (sum = got) })
      ∧ (4 ≤ n → sum ≠ got → t.port.res = resCode .errChecksum ∧ t.ciph = s.ciph ∧ t.fr.seq = 0#32)
      ∧ (4 ≤ n → sum = got → n ≠ 12 → t.port.res = resCode .errSize ∧ t.ciph = s.ciph ∧ t.fr.seq = 0#32)
      ∧ (n = 12 → sum = got → t.port.res = resCode .okIv ∧ t.fr.seq = 1#32
          ∧ ∃ u, exec (.ciphKeysetup 256#32)
                { s with
                  fr.state := .idle, ciph.keyr := s.cfg.key
                  ciph.ivr := #v[payload.getD 0 0#8, payload.getD 1 0#8, payload.getD 2 0#8, payload.getD 3 0#8,
                    payload.getD 4 0#8, payload.getD 5 0#8, payload.getD 6 0#8, payload.getD 7 0#8] } = .next u
              ∧ t.ciph = { s.ciph with x := u.ciph.x, keyed := true })

/-- R237 to R247: a later packet: the whole payload is decrypted in place first, the block counter moving on whatever
follows; too short, a wrong checksum, no room for the trailer or more data claimed than carried rejects it; else `W_ADDR`
and `W_LEN` are read from the end and `SEQ` counts the packet. -/
def Obligations.LaterPacketIsDecryptedCheckedAndRead : Prop :=
  ∀ (s : State) (i : Instr) (payload : List Byte), s.frameFree → s.fr.seq ≠ 0#32 → s.ciph.keyed = true →
    0 < payload.length → payload.length ≤ s.cfg.bufCap → payload.length < 65536 →
    (i = .pktWrite payload ∨ ∃ iv checksum, i = .pktIv iv checksum ∧ payload = iv.toList ++ bytesBE32 checksum) →
    let n := payload.length
    let plain := decrypted s.cfg.nDoubleRounds s.ciph.x payload
    let sum := crcBytes s.cfg.crcPoly 0#32 (plain.take (n - 4))
    let got := be32 (plain.getD (n - 4) 0#8) (plain.getD (n - 3) 0#8) (plain.getD (n - 2) 0#8) (plain.getD (n - 1) 0#8)
    let l := be16 (plain.getD (n - 6) 0#8) (plain.getD (n - 5) 0#8)
    let a := be32 (plain.getD (n - 10) 0#8) (plain.getD (n - 9) 0#8) (plain.getD (n - 8) 0#8) (plain.getD (n - 7) 0#8)
    let accepted := 10 ≤ n ∧ sum = got ∧ l.toNat ≤ n - 10
    ∃ t, exec i s = .next t
      ∧ t = { s with crc := t.crc, ciph := t.ciph, fr := t.fr, port.res := t.port.res }
      ∧ t.ciph =
          { s.ciph with
            x := withCounter s.ciph.x (blockCounter s.ciph.x + BitVec.ofNat 64 ((n + 63) / 64))
            s := t.ciph.s, ks := t.ciph.ks, cRem := 0#32, cOff := 0#32 }
      ∧ t.fr =
          { s.fr with
            state := .idle, buf := t.fr.buf, fill := BitVec.ofNat 16 n, plen := BitVec.ofNat 16 n, cur := t.fr.cur
            lenHi := t.fr.lenHi, seq := if accepted then s.fr.seq + 1#32 else s.fr.seq
            wAddr := if accepted then a else s.fr.wAddr, wLen := if accepted then l else s.fr.wLen }
      ∧ (∀ j, t.bufByte j = if j < n then plain.getD j 0#8 else s.bufByte j)
      ∧ (n < 4 → t.port.res = resCode .errSize ∧ t.crc = s.crc)
      ∧ (4 ≤ n → t.crc = { acc := sum, computed := sum, received := got, matched := decide (sum = got) })
      ∧ (4 ≤ n → sum ≠ got → t.port.res = resCode .errChecksum)
      ∧ (4 ≤ n → sum = got → ¬accepted → t.port.res = resCode .errSize)
      ∧ (accepted → t.port.res = resCode .okWrite ∧ t.fr.cur = BitVec.ofNat 16 (n - 10))

/-- R233: `FR.RECV` takes the frame at the head of the receive channel, and what is behind it stays there. -/
def Obligations.FrRecvTakesOneFrame : Prop :=
  ∀ (s : State) (i : Instr) (rest : List Byte), s.free →
    (i = .pktEnd ∨ (∃ iv checksum, i = .pktIv iv checksum) ∨ (∃ payload, i = .pktWrite payload ∧ payload.length < 65536)
      ∨ ∃ p, i = .len p) →
    s.rx = encode i ++ rest → exec .frRecv s = exec i { s with rx := rest }

/-- R250: a reception that ran out of bytes waits, taking nothing else and writing no result, and when more come it is as
if all had been there: the next step leaves what the operation leaves over the whole channel, and likewise the Write
command that issued it (R306). -/
def Obligations.ReceptionResumesWhereItWaited : Prop :=
  ∀ (s u : State) (early late : List Byte), s.inputs = [] → u.fr.state ≠ .idle →
    (s.free → s.env.writing = false → exec .frRecv { s with rx := early } = .next u →
      u.rx = [] ∧ u.port.res = s.port.res ∧ step { u with rx := late } = exec .frRecv { s with rx := early ++ late })
    ∧ (s.commandFree → exec .cmdWrite { s with rx := early } = .next u →
      u.rx = [] ∧ u.tx = s.tx ∧ step { u with rx := late } = exec .cmdWrite { s with rx := early ++ late })

/-! ### System operations, the halt and what an operation reaches -/

/-- R271: every register of the block has its reset value or, if an array, holds zeros; flash, the flash hardware,
`FL_STATE`, `HALTED`, the status byte and the channels are as they were. -/
def Obligations.ZeroiseClearsTheSession : Prop :=
  ∀ s : State, s.free →
    ∃ t, exec .sysZeroise s = .next t
      ∧ t = { s with
          crc := { acc := 0#32, computed := 0#32, received := 0#32, matched := false }, ciph := t.ciph
          fr :=
            { state := .idle, buf := t.fr.buf, fill := 0#16, cur := 0#16, plen := 0#16, seq := 0#32, final := false
              wAddr := 0#32, wLen := 0#16, lenHi := t.fr.lenHi, toDrain := t.fr.toDrain }
          fl :=
            { s.fl with
              kind := .nop, addr := 0#32, data := 0#32, src := 0#32, eraseAtt := 0#32, eraseFail := 0#32
              writeFail := 0#32, first := resCode .ok }
          port := { op := 0x00#8, opa := 0#32, opb := 0#32, opc := 0#32, res := resCode .ok, start := s.port.start } }
      ∧ (∀ i : Fin 16, t.ciph.x[i] = 0#32 ∧ t.ciph.s[i] = 0#32) ∧ (∀ i : Fin 64, t.ciph.ks[i] = 0#8)
      ∧ (∀ i : Fin 32, t.ciph.keyr[i] = 0#8) ∧ (∀ i : Fin 8, t.ciph.ivr[i] = 0#8)
      ∧ t.ciph.keyed = false ∧ t.ciph.cRem = 0#32 ∧ t.ciph.cOff = 0#32 ∧ ∀ p, t.bufByte p = 0#8

/-- R336, R372, spec/93_implementation_defined.md U11, U12: in the halt no instruction does anything, no step but a reset
or the arrival of bytes and ticks changes anything, and what a controller writes has no effect; while an operation is in
progress no other can be started. -/
def Obligations.HaltAndBusyStopEveryOperation : Prop :=
  (∀ s : State, s.fl.halted = true →
    (∀ i, exec i s = .next s) ∧ (s.inputs = [] → step s = .next s)
    ∧ ∀ (i : Input) (rest : List Input), s.inputs = i :: rest →
        (i = .quiet ∨ (∃ op, i = .portOp op) ∨ (∃ v, i = .portOpa v) ∨ (∃ v, i = .portOpb v) ∨ (∃ v, i = .portOpc v)
          ∨ (∃ k b, i = .portKey k b) ∨ ∃ k b, i = .portIv k b) →
        step s = .next { s with inputs := rest })
  ∧ ∀ (s : State) (i : Instr), s.fl.halted = false → s.busy = true → operationWords i ≠ none →
      exec i s = .refused .portBusy

/-- R81, R15: what no operation of the block changes: the transmit channel, the parameters, the controller's session
fields; the receive channel, but for `FR.RECV`; `BUF`, but for `CIPH.PROC`, `FR.RECV` and `SYS.ZEROISE`; a flash byte,
but for the flash operations' targets, at the address each operation is given. -/
def Obligations.OperationsReachOnlyTheirSpaces : Prop :=
  ∀ (s t : State) (i : Instr), operationWords i ≠ none → exec i s = .next t →
    t.tx = s.tx ∧ t.cfg = s.cfg ∧ t.inputs = s.inputs ∧ t.env = { s.env with status := t.env.status }
    ∧ (i ≠ .frRecv → t.rx = s.rx)
    ∧ ((∀ off n, i ≠ .ciphProc off n) → i ≠ .frRecv → i ≠ .sysZeroise → t.fr.buf = s.fr.buf)
    ∧ (∀ p,
        (∀ a, i = .flErase a → ¬inTarget a s.cfg.pageSize p) → (∀ a v, i = .flWword a v → ¬inTarget a 4 p) →
        (∀ a off, i = .flWrow a off → ¬inTarget a s.cfg.rowSize p) →
        (∀ a n off, i = .flWrange a n off → ¬inTarget a n.toNat p) → t.flashByte p = s.flashByte p)

/-! ### The Address Guard -/

/-- R286, R287: the Guard says no exactly when the interval holds a protected byte, and names the first of engine region,
boot sector and configuration pages that it meets. The configuration pages are the configuration words rounded outward:
down to the greatest multiple of `PAGE_SIZE` not above them, up to the least one not below their end. -/
def Obligations.GuardVetoesExactlyOverlaps : Prop :=
  ∀ (cfg : Params) (a : Word) (n : Nat),
    ((isMutationAllowed cfg a n).1 = false ↔ ∃ p, inTarget a n p ∧ protectedByte cfg p = true)
    ∧ ((isMutationAllowed cfg a n).2 = .engine ↔
        ∃ p, inTarget a n p ∧ within (phys cfg.engineBase).toNat cfg.engineSize p = true)
    ∧ ((isMutationAllowed cfg a n).2 = .boot ↔
        (¬∃ p, inTarget a n p ∧ within (phys cfg.engineBase).toNat cfg.engineSize p = true)
        ∧ cfg.bootProtect = true ∧ ∃ p, inTarget a n p ∧ within (phys cfg.bootBase).toNat cfg.bootSize p = true)
    ∧ ((isMutationAllowed cfg a n).2 = .none ↔ (isMutationAllowed cfg a n).1 = true)
    ∧ (0 < cfg.pageSize →
        let start := (phys cfg.configBase).toNat
        (cfg.pageSize ∣ configLow cfg ∧ configLow cfg ≤ start ∧ ∀ m, cfg.pageSize ∣ m → m ≤ start → m ≤ configLow cfg)
        ∧ cfg.pageSize ∣ configHigh cfg ∧ start + cfg.configSize ≤ configHigh cfg
        ∧ ∀ m, cfg.pageSize ∣ m → start + cfg.configSize ≤ m → configHigh cfg ≤ m)

/-! ### The Command Loop -/

/-- R300, R301, R308: the handshake byte starts the session in `Idle` and is echoed in `Active`; any other byte is
discarded in `Idle`; a command does nothing in `Exited`. -/
def Obligations.HandshakeStartsTheSession : Prop :=
  ∀ (s : State) (b : Byte), s.free →
    (s.env.loop = .idle → exec .handshake s = .next
      { s with tx := s.tx ++ [0xFC#8], env.status := s.cfg.status.started, env.loop := .active })
    ∧ (s.env.loop = .active → exec .handshake s = .next { s with tx := s.tx ++ [0xFC#8] })
    ∧ (s.env.loop = .idle → b ≠ 0xFC#8 → exec (decodeCommand b) s = .next s)
    ∧ (s.env.loop = .exited → exec (decodeCommand b) s = .next s)

/-- R301, R307, R309, R315: the session ends with status "success" on Quit, and with "power-exit" when the handshake window
has passed: in each case what a `SYS.ZEROISE` leaves, the controller's fields cleared, nothing sent, no flash operation.
That `LOOP` reads `Exited` then (R300), where R281 has it zeroed on exit, is the model's choice (log entry 27). -/
def Obligations.SessionEndsZeroised : Prop :=
  ∀ s : State,
    let leaves (status : Byte) (t : State) : Prop :=
      exec .sysZeroise
          { s with
            env := { s.env with status := status, eraseDone := false, wretry := 0, loop := .exited }
            port.op := 0x40#8 } = .next t
        ∧ t.tx = s.tx ∧ t.hw = s.hw
    (s.commandFree → ∃ t, exec .cmdQuit s = .next t ∧ leaves s.cfg.status.success t)
    ∧ (s.inputs = [] → s.free → s.port.start = false → s.env.writing = false → s.env.loop = .idle →
        s.cfg.handshakeWindow ≤ s.env.ticks - s.env.t0 → ∃ t, step s = .next t ∧ leaves s.cfg.status.powerExit t)

/-- R303, R308: Info sends its text and then the acknowledgement; an unknown byte is answered; a stray handshake byte is
answered in kind. None of them changes anything else. The text is what the parameter function `INFO_TEXT` makes (R313);
that it may depend on the three counters and on nothing else is the model's choice (log entry 9). -/
def Obligations.InfoAndUnknownBytesAreAnswered : Prop :=
  ∀ (s : State) (b : Byte), s.commandFree →
    exec .cmdInfo s = .next 
      { s with
        tx := s.tx ++ s.cfg.infoText s.fl.eraseAtt s.fl.eraseFail s.fl.writeFail ++ [s.cfg.resp.get .genericOk] }
    ∧ exec (.cmdUnknown b) s = .next
        { s with tx := s.tx ++ [if b = 0xFC#8 then 0xFC#8 else s.cfg.resp.get .unknownCommand] }

/-- R304: with no fault reported, the Erase command issues one erase for each page of program memory and then of the boot
sector that is neither vetoed nor the entry page, in ascending order; those pages are erased and no other byte changes;
`ERASE_DONE` is set, the sequence reset, and the replies are sent. -/
def Obligations.EraseCommandErasesTheUnprotectedPages : Prop :=
  ∀ s : State, s.commandFree → s.cfg.wf = true → s.cfg.envWf = true → goodOutcomes (erasedPages s.cfg).length s →
    ∃ t, exec .cmdErase s = .next t
      ∧ t = { s with
          port := t.port, fl := t.fl, hw := t.hw, draws := t.draws, env.eraseDone := true
          fr.seq := 0#32, fr.final := false, fr.fill := 0#16, fr.cur := 0#16, fr.plen := 0#16
          tx := s.tx ++ pageReplies s.cfg (List.replicate (erasedPages s.cfg).length (false, false))
            ++ [s.cfg.resp.get .eraseDone] }
      ∧ t.port.res = resCode .ok
      ∧ t.fl =
          { s.fl with
            kind := t.fl.kind, addr := t.fl.addr
            eraseAtt := s.fl.eraseAtt + BitVec.ofNat 32 (erasedPages s.cfg).length }
      ∧ t.hw.issued = s.hw.issued ++ (erasedPages s.cfg).map (fun q => presented s.cfg .erase q [])
      ∧ (∀ p, (∃ q ∈ erasedPages s.cfg, inTarget q s.cfg.pageSize p) → t.flashByte p = s.cfg.erasedByte)
      ∧ (∀ p, (∀ q ∈ erasedPages s.cfg, ¬inTarget q s.cfg.pageSize p) → t.flashByte p = s.flashByte p)

/-- R304, R300, R336: a page that fails is counted and not retried, the rest are still erased, `ERASE_DONE` is set all the
same, the sequence is reset, and the final reply says whether any failed. An erase that halts, or never completes, stops
the command there: no final reply, `ERASE_DONE` still false, the loop in `Active` for ever, the halt's status byte being
the model's reading of R311 and R337 (log entry 11) and the erase that never completes its form of R173 (log entry 3). -/
def Obligations.EraseCommandReportsFailures : Prop :=
  ∀ (s : State) (flags : List (Bool × Bool)) (rest : List HwOutcome),
    s.commandFree → s.cfg.wf = true → s.cfg.envWf = true →
    (flags.length = (erasedPages s.cfg).length → s.hw.script = settledOutcomes flags ++ rest →
      ∃ t, exec .cmdErase s = .next t
        ∧ t = { s with
            port := t.port, fl := t.fl, hw := t.hw, draws := t.draws, env.eraseDone := true
            fr.seq := 0#32, fr.final := false, fr.fill := 0#16, fr.cur := 0#16, fr.plen := 0#16
            tx := s.tx ++ pageReplies s.cfg flags
              ++ [s.cfg.resp.get (if faults flags = 0 then .eraseDone else .eraseFailed)] }
        ∧ t.port.res = resCode .ok
        ∧ t.fl =
            { s.fl with
              kind := t.fl.kind, addr := t.fl.addr
              eraseAtt := s.fl.eraseAtt + BitVec.ofNat 32 (erasedPages s.cfg).length
              eraseFail := s.fl.eraseFail + BitVec.ofNat 32 (faults flags) }
        ∧ t.hw.issued
            = s.hw.issued ++ settledCommands ((erasedPages s.cfg).map fun q => presented s.cfg .erase q []) flags
        ∧ (∀ p, (∃ q, (q, (false, false)) ∈ (erasedPages s.cfg).zip flags ∧ inTarget q s.cfg.pageSize p) →
            (∀ q f, (q, f) ∈ (erasedPages s.cfg).zip flags → (f.1 || f.2) = true → ¬inTarget q s.cfg.pageSize p) →
            t.flashByte p = s.cfg.erasedByte)
        ∧ (∀ p, (∀ q ∈ erasedPages s.cfg, ¬inTarget q s.cfg.pageSize p) → t.flashByte p = s.flashByte p))
    ∧ ∀ stop, neverEnds stop = true → flags.length < (erasedPages s.cfg).length →
        s.hw.script = settledOutcomes flags ++ stop ++ rest →
      ∃ t, exec .cmdErase s = .next t
        ∧ t = { s with
            port := t.port, fl := t.fl, hw := t.hw, draws := t.draws, env.eraseDone := false
            env.status := if leftIn stop = .halt then s.cfg.status.hardwareFailed else s.env.status
            tx := s.tx ++ pageReplies s.cfg flags }
        ∧ t.fl =
            { s.fl with
              state := leftIn stop, halted := leftIn stop == .halt, kind := .erase, addr := t.fl.addr
              eraseAtt := s.fl.eraseAtt + BitVec.ofNat 32 (flags.length + 1)
              eraseFail := s.fl.eraseFail + BitVec.ofNat 32 (faults flags) }
        ∧ t.hw.issued.length = s.hw.issued.length + flags.length + faults flags + stop.length
        ∧ (∀ p, (∀ q ∈ erasedPages s.cfg, ¬inTarget q s.cfg.pageSize p) → t.flashByte p = s.flashByte p)
        ∧ (s.inputs = [] → step t = .next t)

/-- R305, R313: one accumulator from 0 over program memory and then over the boot sector; its text, which no other
accumulator has, then the acknowledgement. -/
def Obligations.CrcCommandChecksumsProgramAndBoot : Prop :=
  ∀ s : State, s.commandFree → s.cfg.wf = true → s.cfg.envWf = true →
    let sum := crcBytes s.cfg.crcPoly 0#32
      (s.flashRange (phys s.cfg.progBase).toNat s.cfg.progSize ++ s.flashRange (phys s.cfg.bootBase).toNat s.cfg.bootSize)
    ∃ t, exec .cmdCrc s = .next t
      ∧ t = { s with
          crc.acc := sum
          port :=
            { op := 0x03#8, opa := s.cfg.bootBase, opb := BitVec.ofNat 32 s.cfg.bootSize, opc := t.port.opc
              res := resCode .ok, start := s.port.start }
          tx := s.tx ++ s.cfg.crcText sum ++ [s.cfg.resp.get .genericOk] }
      ∧ ∀ acc, s.cfg.crcText acc = s.cfg.crcText sum → acc = sum

/-- R306, R310: the one reply of a Write command whose packet carried no write, by the result of its `FR.RECV`; a Write
command whose packet has not all come waits for it. That the controller's `FR.RECV`, which reads no operand, leaves `OPA`,
`OPB` and `OPC` as they were is the model's choice (log entry 13). -/
def Obligations.WriteCommandAnswersItsReception : Prop :=
  ∀ s u : State, s.commandFree → exec .frRecv { s with port.op := 0x31#8 } = .next u →
    let answered (r : Reply) : State :=
      { u with env.writing := false, tx := u.tx ++ [s.cfg.resp.get r] }
    (u.fr.state = .idle → (u.port.res = resCode .okEnd ∨ u.port.res = resCode .okIv) →
      exec .cmdWrite s = .next (answered .genericOk))
    ∧ (u.fr.state = .idle → u.port.res = resCode .errChecksum → exec .cmdWrite s = .next (answered .checksumMismatch))
    ∧ (u.fr.state = .idle → u.port.res = resCode .errTooLarge → exec .cmdWrite s = .next (answered .packetTooLarge))
    ∧ (u.fr.state = .idle → u.port.res = resCode .errSize → exec .cmdWrite s = .next (answered .sizeError))
    ∧ (u.fr.state ≠ .idle → exec .cmdWrite s = .next { u with env.writing := true })

/-- R290 to R296: the steps before any hardware access, in their order, each with its reply; a rejected write leaves
every register, the flash and the hardware as the reception left them. That the controller's `FR.RECV`, which reads no
operand, leaves `OPA`, `OPB` and `OPC` as they were is the model's choice (log entry 13). -/
def Obligations.RejectedWritesTouchNothing : Prop :=
  ∀ s u : State, s.commandFree → exec .frRecv { s with port.op := 0x31#8 } = .next u → u.fr.state = .idle →
    u.port.res = resCode .okWrite →
    let a := u.fr.wAddr
    let l := u.fr.wLen.toNat
    let rejected (r : Reply) : Prop := exec .cmdWrite s = .next
      { u with env.wretry := 0, env.writing := false, tx := u.tx ++ [s.cfg.resp.get r] }
    let meets (p : Nat → Bool) : Prop := ∃ x, inTarget a l x ∧ p x = true
    let meetsEngineOrBoot : Prop := meets (within (phys s.cfg.engineBase).toNat s.cfg.engineSize)
      ∨ (s.cfg.bootProtect = true ∧ meets (within (phys s.cfg.bootBase).toNat s.cfg.bootSize))
    (u.env.eraseDone = false → rejected .writeWithoutErase)
    ∧ (u.env.eraseDone = true →
        ((l = 0 ∨ s.cfg.pageSize < l ∨ l % 4 ≠ 0) → rejected .sizeError)
        ∧ (0 < l → l ≤ s.cfg.pageSize → l % 4 = 0 →
            (a.toNat % 4 ≠ 0 → rejected .alignmentError)
            ∧ (a.toNat % 4 = 0 →
                (2 ^ 32 < a.toNat + l → rejected .wraparound)
                ∧ (a.toNat + l ≤ 2 ^ 32 → ¬inOneRange s.cfg a l → rejected .outOfBounds))))
    ∧ (acceptedShape u a l →
        (phys a ≠ phys s.cfg.entryPage → meetsEngineOrBoot → rejected .outOfBounds)
        ∧ (phys a ≠ phys s.cfg.entryPage → ¬meetsEngineOrBoot →
            meets (within (configLow s.cfg) (configHigh s.cfg - configLow s.cfg)) → rejected .overConfiguration)
        ∧ (phys a = phys s.cfg.entryPage → ¬carriesShim u l → rejected .missingShim))

/-- R298, R299, R306: a write that passes every step, over erased flash and with no fault reported, is cut into its
chunks, compared, and acknowledged: the target holds the packet's data and no other flash byte has changed. -/
def Obligations.AcceptedWriteLandsAndIsAcknowledged : Prop :=
  ∀ s u : State, s.commandFree → s.cfg.wf = true → s.cfg.envWf = true →
    exec .frRecv { s with port.op := 0x31#8 } = .next u → u.fr.state = .idle → u.port.res = resCode .okWrite →
    acceptedShape u u.fr.wAddr u.fr.wLen.toNat → phys u.fr.wAddr ≠ phys s.cfg.entryPage →
    (∀ p, inTarget u.fr.wAddr u.fr.wLen.toNat p → protectedByte s.cfg p = false ∧ u.flashByte p = s.cfg.erasedByte) →
    goodOutcomes (chunks u u.fr.wAddr.toNat u.fr.wLen.toNat 0).length u →
    ∃ t, exec .cmdWrite s = .next t
      ∧ t = { u with
          fl := t.fl, hw := t.hw, draws := t.draws, env.wretry := 0, env.writing := false
          port :=
            { op := 0x24#8, opa := u.fr.wAddr, opb := u.fr.wLen.setWidth 32, opc := 0#32, res := resCode .ok
              start := u.port.start }
          tx := u.tx ++ [s.cfg.resp.get .genericOk] }
      ∧ t.fl =
          { u.fl with
            kind := t.fl.kind, addr := t.fl.addr, data := t.fl.data, src := t.fl.src, first := resCode .ok }
      ∧ t.hw.issued = u.hw.issued ++ chunks u u.fr.wAddr.toNat u.fr.wLen.toNat 0
      ∧ (∀ i, i < u.fr.wLen.toNat → t.flashByte ((phys u.fr.wAddr).toNat + i) = u.bufByte i)
      ∧ (∀ p, ¬inTarget u.fr.wAddr u.fr.wLen.toNat p → t.flashByte p = u.flashByte p)

/-- R296, R297: a write at the boot-entry page that carries the shim erases that page first, the Guard's verdict passed
over; a range that meets the configuration pages is rejected then, the page already erased; else the data is written. -/
def Obligations.EntryPageIsErasedForItsShim : Prop :=
  ∀ s u : State, s.commandFree → s.cfg.wf = true → s.cfg.envWf = true →
    exec .frRecv { s with port.op := 0x31#8 } = .next u → u.fr.state = .idle → u.port.res = resCode .okWrite →
    acceptedShape u u.fr.wAddr u.fr.wLen.toNat → phys u.fr.wAddr = phys s.cfg.entryPage →
    carriesShim u u.fr.wLen.toNat →
    let overlapsConfig := ∃ p, inTarget u.fr.wAddr u.fr.wLen.toNat p
      ∧ within (configLow s.cfg) (configHigh s.cfg - configLow s.cfg) p = true
    goodOutcomes (1 + (chunks u u.fr.wAddr.toNat u.fr.wLen.toNat 0).length) u →
    ∃ t reply, exec .cmdWrite s = .next t
      ∧ t = { u with
          port := t.port, fl := t.fl, hw := t.hw, draws := t.draws, env.wretry := 0, env.writing := false
          tx := u.tx ++ [s.cfg.resp.get reply] }
      ∧ t.port.res = resCode .ok
      ∧ (overlapsConfig →
          reply = .overConfiguration
          ∧ t.fl = { u.fl with kind := .erase, addr := phys s.cfg.entryPage, eraseAtt := u.fl.eraseAtt + 1#32 }
          ∧ t.hw.issued = u.hw.issued ++ [presented s.cfg .erase s.cfg.entryPage []]
          ∧ ∀ p, t.flashByte p = if inTarget s.cfg.entryPage s.cfg.pageSize p then s.cfg.erasedByte else u.flashByte p)
      ∧ (¬overlapsConfig →
          reply = .genericOk
          ∧ t.fl =
              { u.fl with
                kind := t.fl.kind, addr := t.fl.addr, data := t.fl.data, src := t.fl.src
                eraseAtt := u.fl.eraseAtt + 1#32, first := resCode .ok }
          ∧ t.hw.issued = u.hw.issued ++ [presented s.cfg .erase s.cfg.entryPage []]
              ++ chunks u u.fr.wAddr.toNat u.fr.wLen.toNat 0
          ∧ (∀ i, i < u.fr.wLen.toNat → t.flashByte ((phys u.fr.wAddr).toNat + i) = u.bufByte i)
          ∧ ∀ p, ¬inTarget u.fr.wAddr u.fr.wLen.toNat p → t.flashByte p =
              if inTarget s.cfg.entryPage s.cfg.pageSize p then s.cfg.erasedByte else u.flashByte p)

/-- R299, R306, R300: a write that passes steps 1 to 5 is attempted until an attempt ends and compares well, which is
acknowledged whichever attempt it is, and given up with one reply when `1 + MAX_WRITE_RETRIES` attempts have failed, be it
in the hardware or in the compare; an attempt that halts or never completes leaves the command there, no reply sent and the
loop in `Active` for ever. One that fails in the hardware every time has counted every operation of every attempt and
changed nothing outside its target. -/
def Obligations.FailingWriteIsRetriedToTheBound : Prop :=
  ∀ s u : State, s.commandFree → s.cfg.wf = true → s.cfg.envWf = true →
    exec .frRecv { s with port.op := 0x31#8 } = .next u → u.fr.state = .idle → u.port.res = resCode .okWrite →
    acceptedShape u u.fr.wAddr u.fr.wLen.toNat → phys u.fr.wAddr ≠ phys s.cfg.entryPage →
    (∀ p, inTarget u.fr.wAddr u.fr.wLen.toNat p → protectedByte s.cfg p = false) →
    (∀ (k : Nat) (left : Nat → State), k ≤ s.cfg.maxWriteRetries →
      attemptLeaves u.fr.wAddr u.fr.wLen { u with env.writing := false, env.wretry := 0 } (left 0) →
      (∀ i, i < k → (left i).free ∧ (left i).port.res ≠ resCode .ok
        ∧ attemptLeaves u.fr.wAddr u.fr.wLen { left i with env.wretry := i + 1 } (left (i + 1))) →
      let t := left k
      ((t.free → t.port.res = resCode .ok →
          exec .cmdWrite s = .next { t with tx := u.tx ++ [s.cfg.resp.get .genericOk] })
        ∧ (t.free → t.port.res ≠ resCode .ok → k = s.cfg.maxWriteRetries →
          exec .cmdWrite s = .next { t with tx := u.tx ++ [s.cfg.resp.get .writesFailed] })
        ∧ (¬t.free → exec .cmdWrite s = .next t ∧ t.tx = u.tx ∧ (s.inputs = [] → step t = .next t))
        ∧ t.env = { u.env with wretry := k, writing := false, status := t.env.status }))
    ∧ ∀ rest : List HwOutcome,
        let pieces := (chunks u u.fr.wAddr.toNat u.fr.wLen.toNat 0).length
        let attempts := 1 + s.cfg.maxWriteRetries
        u.hw.script = settledOutcomes (List.replicate (attempts * pieces) (false, true)) ++ rest →
        ∃ t, exec .cmdWrite s = .next t ∧ t.tx = u.tx ++ [s.cfg.resp.get .writesFailed]
          ∧ t.env = { u.env with wretry := s.cfg.maxWriteRetries, writing := false }
          ∧ t.fl.writeFail = u.fl.writeFail + BitVec.ofNat 32 (attempts * pieces) ∧ t.fl.halted = false
          ∧ t.hw.issued.length = u.hw.issued.length + 2 * (attempts * pieces)
          ∧ (∀ p, ¬inTarget u.fr.wAddr u.fr.wLen.toNat p → t.flashByte p = u.flashByte p)

/-! ### Invariants -/

/-- R20: the parameters never change, and no step changes them. -/
def Obligations.ParametersNeverChange : Prop := ∀ s t : State, step s = .next t → t.cfg = s.cfg

/-- R42, R61: every step keeps both memories in their canonical form and `BUF` inside its capacity. -/
def Obligations.StepKeepsTheMemoriesCanonical : Prop := ∀ s t : State, s.MemInv → step s = .next t → t.MemInv

/-- R61: every step leaves bytes at flash addresses only. -/
def Obligations.StepKeepsFlashWhereFlashIs : Prop := ∀ s t : State, s.FlashInv → step s = .next t → t.FlashInv

/-- R31, R38, R95, R185, R249, R250: every step keeps what the registers say of one another. -/
def Obligations.StepKeepsTheRegistersConsistent : Prop := ∀ s t : State, s.RegInv → step s = .next t → t.RegInv

/-- R285, R295, R304, R374: whatever the host sends and whatever the hardware does, a step of the machine under its own
controller changes no protected flash byte outside the boot-entry page. -/
def Obligations.StepKeepsProtectedFlash : Prop :=
  ∀ (ref : Nat → Byte) (s t : State), s.GuardInv ref → step s = .next t → t.GuardInv ref

/-- The state after reset meets the invariants. -/
def Obligations.ResetStateMeetsTheInvariants : Prop :=
  State.reset.MemInv ∧ State.reset.FlashInv ∧ State.reset.RegInv
  ∧ State.reset.GuardInv fun p => State.reset.flashByte p
end

