-- ==== Sys2Proof/Laws/Bytes.lean ====
section
/-! SUPPORT. The byte-string conversions of R14 are inverse to each other. -/

namespace Sys2Proof.Machine

theorem toNat_append_byte {n : Nat} (x : BitVec n) (b : Byte) : (x ++ b).toNat = x.toNat * 256 + b.toNat := by
  rw [BitVec.toNat_append, Nat.shiftLeft_eq, Nat.mul_comm x.toNat (2 ^ 8), ← Nat.two_pow_add_eq_or_of_lt b.isLt]

theorem toNat_le32 (b0 b1 b2 b3 : Byte) :
    (le32 b0 b1 b2 b3).toNat = b0.toNat + 256 * b1.toNat + 65536 * b2.toNat + 16777216 * b3.toNat := by
  unfold le32
  simp only [toNat_append_byte]
  omega

theorem toNat_be16 (b0 b1 : Byte) : (be16 b0 b1).toNat = 256 * b0.toNat + b1.toNat := by
  unfold be16
  simp only [toNat_append_byte]
  omega

theorem toNat_extract_byte {n : Nat} (w : BitVec n) (k : Nat) : (w.extractLsb' k 8).toNat = w.toNat / 2 ^ k % 256 := by
  rw [BitVec.extractLsb'_toNat, Nat.shiftRight_eq_div_pow]

@[simp] theorem le32_bytes (w : Word) :
    le32 (w.extractLsb' 0 8) (w.extractLsb' 8 8) (w.extractLsb' 16 8) (w.extractLsb' 24 8) = w := by
  apply BitVec.eq_of_toNat_eq
  have := w.isLt
  simp only [toNat_le32, toNat_extract_byte]
  omega

@[simp] theorem be32_bytes (w : Word) :
    be32 (w.extractLsb' 24 8) (w.extractLsb' 16 8) (w.extractLsb' 8 8) (w.extractLsb' 0 8) = w := le32_bytes w

@[simp] theorem be16_bytes (h : Half) : be16 (h.extractLsb' 8 8) (h.extractLsb' 0 8) = h := by
  apply BitVec.eq_of_toNat_eq
  have := h.isLt
  simp only [toNat_be16, toNat_extract_byte]
  omega

@[simp] theorem bytesLE32_le32 (b0 b1 b2 b3 : Byte) : bytesLE32 (le32 b0 b1 b2 b3) = [b0, b1, b2, b3] := by
  have := b0.isLt
  have := b1.isLt
  have := b2.isLt
  have := b3.isLt
  simp only [bytesLE32, List.cons.injEq, and_true]
  refine ⟨?_, ?_, ?_, ?_⟩ <;>
    (apply BitVec.eq_of_toNat_eq; simp only [toNat_extract_byte, toNat_le32]; omega)

@[simp] theorem bytesBE32_be32 (b0 b1 b2 b3 : Byte) : bytesBE32 (be32 b0 b1 b2 b3) = [b0, b1, b2, b3] := by
  have h := bytesLE32_le32 b3 b2 b1 b0
  simp only [bytesLE32, List.cons.injEq, and_true] at h
  simp only [bytesBE32, List.cons.injEq, and_true]
  exact ⟨h.2.2.2, h.2.2.1, h.2.1, h.1⟩

@[simp] theorem bytesBE16_be16 (b0 b1 : Byte) : bytesBE16 (be16 b0 b1) = [b0, b1] := by
  have := b0.isLt
  have := b1.isLt
  simp only [bytesBE16, List.cons.injEq, and_true]
  refine ⟨?_, ?_⟩ <;> (apply BitVec.eq_of_toNat_eq; simp only [toNat_extract_byte, toNat_be16]; omega)

end Sys2Proof.Machine

namespace Sys2Proof

/-- R313: `CRC_TEXT` is injective in `ACC`. -/
theorem Params.crcText_injective (c : Params) {acc acc' : Word} (h : c.crcText acc = c.crcText acc') : acc = acc' := by
  have h := (Config.crcRendering c).injective h
  simp only [List.cons.injEq, and_true] at h
  rw [← Machine.be32_bytes acc, ← Machine.be32_bytes acc', h.1, h.2.1, h.2.2.1, h.2.2.2]

end Sys2Proof
end

