-- ==== Sys2Proof/Laws/Memory.lean ====
section
/-! SUPPORT. The laws of memory: a read after a write, the canonical form and its extensionality, byte ranges, and which
ranges are flash. -/

namespace Sys2Proof.Machine

@[simp] theorem Memory.read_nil (d : Byte) (x : Nat) : Memory.read d [] x = d := rfl

theorem Memory.read_cons (d : Byte) (c : Host.Cell) (m : Memory) (x : Nat) :
    Memory.read d (c :: m) x = if c.1 = x then c.2 else Memory.read d m x := rfl

/-- An address that no entry has reads as the default. -/
theorem Memory.read_of_forall_ne {d : Byte} {m : Memory} {x : Nat} (h : ∀ c ∈ m, c.1 ≠ x) : Memory.read d m x = d := by
  induction m with
  | nil => rfl
  | cons c m ih =>
    rw [Memory.read_cons, if_neg (h c (by simp)), ih fun c hc => h c (by simp [hc])]

/-- Filtering by address keeps or forgets each address whole. -/
theorem Memory.read_filter (d : Byte) (m : Memory) (keep : Nat → Bool) (x : Nat) :
    Memory.read d (m.filter fun c => keep c.1) x = if keep x then Memory.read d m x else d := by
  induction m with
  | nil => simp
  | cons c m ih =>
    by_cases hc : keep c.1 = true
    · rw [List.filter_cons_of_pos (by simpa using hc), Memory.read_cons, Memory.read_cons, ih]
      by_cases hx : c.1 = x
      · subst hx; simp [hc]
      · simp [hx]
    · rw [List.filter_cons_of_neg (by simpa using hc), ih, Memory.read_cons]
      by_cases hx : c.1 = x
      · subst hx; simp [hc]
      · simp [hx]

/-- Reading past entries of other addresses. -/
theorem Memory.read_append_of_forall_ne {d : Byte} {m m' : Memory} {x : Nat} (h : ∀ c ∈ m, c.1 ≠ x) :
    Memory.read d (m ++ m') x = Memory.read d m' x := by
  induction m with
  | nil => rfl
  | cons c m ih =>
    rw [List.cons_append, Memory.read_cons, if_neg (h c (by simp)), ih fun c hc => h c (by simp [hc])]

/-- Reading before entries of other addresses. -/
theorem Memory.read_append_of_forall_ne_right {d : Byte} {m m' : Memory} {x : Nat} (h : ∀ c ∈ m', c.1 ≠ x) :
    Memory.read d (m ++ m') x = Memory.read d m x := by
  induction m with
  | nil => simpa using Memory.read_of_forall_ne h
  | cons c m ih => rw [List.cons_append, Memory.read_cons, Memory.read_cons, ih]

/-- The entries of a byte list lie in its address range and hold no default. -/
theorem mem_cellsFrom {d : Byte} {bytes : List Byte} {a : Nat} {c : Host.Cell} (h : c ∈ cellsFrom d a bytes) :
    a ≤ c.1 ∧ c.1 < a + bytes.length ∧ c.2 ≠ d := by
  induction bytes generalizing a with
  | nil => simp [cellsFrom] at h
  | cons b bs ih =>
    unfold cellsFrom at h
    split at h
    · obtain ⟨h1, h2, h3⟩ := ih h
      exact ⟨by omega, by simp only [List.length_cons]; omega, h3⟩
    · rename_i hb
      rcases List.mem_cons.mp h with rfl | h
      · simp [hb]
      · obtain ⟨h1, h2, h3⟩ := ih h
        exact ⟨by omega, by simp only [List.length_cons]; omega, h3⟩

theorem read_cellsFrom (d : Byte) (bytes : List Byte) (a x : Nat) :
    Memory.read d (cellsFrom d a bytes) x = if a ≤ x ∧ x < a + bytes.length then bytes.getD (x - a) d else d := by
  induction bytes generalizing a with
  | nil => simp [cellsFrom]
  | cons b bs ih =>
    unfold cellsFrom
    by_cases hx : x = a
    · subst hx
      have hd : Memory.read d (cellsFrom d (x + 1) bs) x = d :=
        Memory.read_of_forall_ne fun c hc => by have := mem_cellsFrom hc; omega
      by_cases hb : b = d
      · simp [hb, hd]
      · simp [hb, Memory.read_cons]
    · have hr : Memory.read d (if b = d then cellsFrom d (a + 1) bs else (a, b) :: cellsFrom d (a + 1) bs) x
          = Memory.read d (cellsFrom d (a + 1) bs) x := by
        split
        · rfl
        · rw [Memory.read_cons, if_neg (by simpa using fun h => hx h.symm)]
      rw [hr, ih]
      by_cases hin : a + 1 ≤ x ∧ x < a + 1 + bs.length
      · have he : x - a = (x - (a + 1)) + 1 := by omega
        rw [if_pos hin, if_pos (by simp only [List.length_cons]; omega), he, List.getD_cons_succ]
      · rw [if_neg hin, if_neg (by simp only [List.length_cons]; omega)]

/-- A read after a write: the bytes written where they stand, every other address as before. -/
theorem Memory.read_writeRange (d : Byte) (m : Memory) (base : Nat) (bytes : List Byte) (x : Nat) :
    Memory.read d (Memory.writeRange d m base bytes) x =
      if base ≤ x ∧ x < base + bytes.length then bytes.getD (x - base) d else Memory.read d m x := by
  unfold Memory.writeRange
  have low := Memory.read_filter d m (fun a => decide (a < base)) x
  have high := Memory.read_filter d m (fun a => decide (base + bytes.length ≤ a)) x
  by_cases h1 : x < base
  · rw [Memory.read_append_of_forall_ne_right, Memory.read_append_of_forall_ne_right, low]
    · simp [h1]
    · intro c hc; have := mem_cellsFrom hc; omega
    · intro c hc; simp only [List.mem_filter, decide_eq_true_eq] at hc; omega
  · by_cases h2 : x < base + bytes.length
    · rw [Memory.read_append_of_forall_ne_right, Memory.read_append_of_forall_ne, read_cellsFrom]
      · simp [h2, Nat.le_of_not_lt h1]
      · intro c hc; simp only [List.mem_filter, decide_eq_true_eq] at hc; omega
      · intro c hc; simp only [List.mem_filter, decide_eq_true_eq] at hc; omega
    · rw [List.append_assoc, Memory.read_append_of_forall_ne, Memory.read_append_of_forall_ne, high]
      · simp [h2, Nat.le_of_not_lt h2]
      · intro c hc; have := mem_cellsFrom hc; omega
      · intro c hc; simp only [List.mem_filter, decide_eq_true_eq] at hc; omega

theorem Memory.read_writeRange_outside {d : Byte} {m : Memory} {base : Nat} {bytes : List Byte} {x : Nat}
    (h : ¬(base ≤ x ∧ x < base + bytes.length)) :
    Memory.read d (Memory.writeRange d m base bytes) x = Memory.read d m x := by
  rw [Memory.read_writeRange, if_neg h]

theorem Memory.read_writeRange_inside {d : Byte} {m : Memory} {base : Nat} {bytes : List Byte} {i : Nat}
    (h : i < bytes.length) : Memory.read d (Memory.writeRange d m base bytes) (base + i) = bytes[i] := by
  rw [Memory.read_writeRange, if_pos (by omega)]
  simp [List.getD_eq_getElem?_getD, List.getElem?_eq_getElem h]

/-! ### The canonical form -/

theorem Memory.wf_nil (d : Byte) : Memory.wf d [] := ⟨List.Pairwise.nil, fun c hc => absurd hc (by simp)⟩

theorem cellsFrom_pairwise (d : Byte) (bytes : List Byte) (a : Nat) :
    (cellsFrom d a bytes).Pairwise (fun c c' => c.1 < c'.1) := by
  induction bytes generalizing a with
  | nil => simp [cellsFrom]
  | cons b bs ih =>
    unfold cellsFrom
    split
    · exact ih _
    · exact List.pairwise_cons.mpr ⟨fun c hc => by have := (mem_cellsFrom hc).1; exact this, ih _⟩

/-- Where the entries of a memory stand after a write. -/
theorem Memory.mem_writeRange {d : Byte} {m : Memory} {base : Nat} {bytes : List Byte} {c : Host.Cell}
    (h : c ∈ Memory.writeRange d m base bytes) : c ∈ m ∨ (base ≤ c.1 ∧ c.1 < base + bytes.length) := by
  unfold Memory.writeRange at h
  simp only [List.mem_append, List.mem_filter] at h
  rcases h with (h | h) | h
  · exact .inl h.1
  · exact .inr ⟨(mem_cellsFrom h).1, (mem_cellsFrom h).2.1⟩
  · exact .inl h.1

/-- Every write keeps the canonical form. -/
theorem Memory.wf_writeRange {d : Byte} {m : Memory} (h : Memory.wf d m) (base : Nat) (bytes : List Byte) :
    Memory.wf d (Memory.writeRange d m base bytes) := by
  obtain ⟨hp, hd⟩ := h
  constructor
  · unfold Memory.writeRange
    refine List.pairwise_append.mpr ⟨List.pairwise_append.mpr ⟨hp.filter _, cellsFrom_pairwise _ _ _, ?_⟩, hp.filter _, ?_⟩
    · intro c hc c' hc'
      have := mem_cellsFrom hc'
      simp only [List.mem_filter, decide_eq_true_eq] at hc
      omega
    · intro c hc c' hc'
      simp only [List.mem_append, List.mem_filter, decide_eq_true_eq] at hc hc'
      rcases hc with hc | hc
      · omega
      · have := mem_cellsFrom hc; omega
  · intro c hc
    unfold Memory.writeRange at hc
    simp only [List.mem_append, List.mem_filter] at hc
    rcases hc with (hc | hc) | hc
    · exact hd c hc.1
    · exact (mem_cellsFrom hc).2.2
    · exact hd c hc.1

theorem Memory.read_eq_of_mem {d : Byte} {m : Memory} (h : Memory.wf d m) {c : Host.Cell} (hc : c ∈ m) :
    Memory.read d m c.1 = c.2 := by
  induction m with
  | nil => simp at hc
  | cons c' m ih =>
    have hp := List.pairwise_cons.mp h.1
    rw [Memory.read_cons]
    rcases List.mem_cons.mp hc with rfl | hc
    · simp
    · rw [if_neg (by have := hp.1 c hc; omega)]
      exact ih ⟨hp.2, fun c hc => h.2 c (by simp [hc])⟩ hc

theorem Memory.mem_of_read_ne {d : Byte} {m : Memory} {x : Nat} (h : Memory.read d m x ≠ d) :
    (x, Memory.read d m x) ∈ m := by
  induction m with
  | nil => simp at h
  | cons c m ih =>
    rw [Memory.read_cons] at h ⊢
    split at h
    · rename_i hx; simp [← hx]
    · rename_i hx; simp only [hx, if_false]; exact List.mem_cons_of_mem _ (ih h)

/-- Canonical memories that read alike are equal. -/
theorem Memory.ext_of_wf {d : Byte} {m m' : Memory} (h : Memory.wf d m) (h' : Memory.wf d m')
    (hr : ∀ x, Memory.read d m x = Memory.read d m' x) : m = m' := by
  have half : ∀ {m m' : Memory}, Memory.wf d m → Memory.wf d m' → (∀ x, Memory.read d m x = Memory.read d m' x) →
      ∀ c ∈ m, c ∈ m' := by
    intro m m' h _ hr c hc
    have e := Memory.read_eq_of_mem h hc
    have ne : Memory.read d m' c.1 ≠ d := by rw [← hr, e]; exact h.2 c hc
    have := Memory.mem_of_read_ne ne
    rwa [← hr, e] at this
  have nodup : ∀ {m : Memory}, Memory.wf d m → m.Nodup := fun h =>
    h.1.imp (fun hlt he => by subst he; omega)
  have perm : m.Perm m' := (List.perm_ext_iff_of_nodup (nodup h) (nodup h')).mpr fun c =>
    ⟨half h h' hr c, half h' h (fun x => (hr x).symm) c⟩
  exact perm.eq_of_pairwise (fun a b _ _ h1 h2 => by omega) h.1 h'.1

/-! ### Byte ranges -/

@[simp] theorem Memory.length_readRange (d : Byte) (m : Memory) (base n : Nat) :
    (Memory.readRange d m base n).length = n := by simp [Memory.readRange]

theorem Memory.getElem_readRange {d : Byte} {m : Memory} {base n i : Nat} (h : i < n) :
    (Memory.readRange d m base n)[i]'(by simpa using h) = Memory.read d m (base + i) := by simp [Memory.readRange]

theorem Memory.getD_readRange {d e : Byte} {m : Memory} {base n i : Nat} (h : i < n) :
    (Memory.readRange d m base n).getD i e = Memory.read d m (base + i) := by
  rw [List.getD_eq_getElem?_getD, List.getElem?_eq_getElem (by simpa using h), Memory.getElem_readRange h]; rfl

/-- A range is the range of its first part and then that of the rest. -/
theorem Memory.readRange_add (d : Byte) (m : Memory) (base n k : Nat) :
    Memory.readRange d m base (n + k) = Memory.readRange d m base n ++ Memory.readRange d m (base + n) k := by
  simp [Memory.readRange, List.range_add, Nat.add_assoc]

theorem Memory.readRange_congr {d : Byte} {m m' : Memory} {base n : Nat}
    (h : ∀ x, base ≤ x → x < base + n → Memory.read d m x = Memory.read d m' x) :
    Memory.readRange d m base n = Memory.readRange d m' base n := by
  unfold Memory.readRange
  exact List.map_congr_left fun i hi => h _ (by omega) (by have := List.mem_range.mp hi; omega)

/-! ### Draws -/

@[simp] theorem Draws.length_take (n : Nat) (d : Draws) : (Draws.take n d).1.length = n := by
  induction n generalizing d with
  | zero => rfl
  | succ n ih => simp [Draws.take, ih]

/-! ### Flash ranges -/

theorem isFlash_iff (ranges : List Range) (p : Nat) :
    isFlash ranges p = true ↔ ∃ r ∈ ranges, r.base ≤ p ∧ p < r.base + r.len := by
  simp [isFlash, rangeOf, List.find?_isSome]

/-- What `coveredTo` decides, with turns enough: every address from `p` to before `e` is flash. -/
theorem coveredTo_iff (ranges : List Range) (fuel p e : Nat) (hf : e - p ≤ fuel) :
    coveredTo ranges fuel p e = true ↔ ∀ x, p ≤ x → x < e → isFlash ranges x = true := by
  induction fuel generalizing p with
  | zero =>
    simp only [coveredTo, decide_eq_true_eq]
    exact ⟨fun h x h1 h2 => by omega, fun _ => by omega⟩
  | succ fuel ih =>
    unfold coveredTo
    by_cases he : e ≤ p
    · simp only [he, if_true, true_iff]; intro x h1 h2; omega
    · rw [if_neg he]
      cases hr : rangeOf ranges p with
      | none =>
        simp only [Bool.false_eq_true, false_iff, Classical.not_forall]
        exact ⟨p, Nat.le_refl _, by omega, by simp [isFlash, hr]⟩
      | some r =>
        have hm : r ∈ ranges := List.mem_of_find?_eq_some hr
        have hin : r.base ≤ p ∧ p < r.base + r.len := by
          have := List.find?_some hr; simpa using this
        show coveredTo ranges fuel (r.base + r.len) e = true ↔ _
        rw [ih (r.base + r.len) (by omega)]
        constructor
        · intro h x h1 h2
          by_cases hx : x < r.base + r.len
          · exact (isFlash_iff _ _).mpr ⟨r, hm, by omega, hx⟩
          · exact h x (by omega) h2
        · intro h x h1 h2; exact h x (by omega) h2

/-- What the range check of R97 decides. -/
theorem flashFits_iff (cfg : Params) (a : Word) (n : Nat) :
    flashFits cfg a n = true ↔
      (phys a).toNat + n ≤ physSpace ∧
        ∀ x, (phys a).toNat ≤ x → x < (phys a).toNat + n → isFlash cfg.flashRanges x = true := by
  unfold flashFits
  rw [Bool.and_eq_true, decide_eq_true_eq, coveredTo_iff _ _ _ _ (by omega)]

/-- R62: the physical address is the address without its top three bits. -/
theorem toNat_phys (a : Word) : (phys a).toNat = a.toNat % physSpace := by
  have h : (0x1FFFFFFF : Nat) = 2 ^ 29 - 1 := by norm_num
  show (a.toNat &&& 0x1FFFFFFF) = _
  rw [h, Nat.and_two_pow_sub_one_eq_mod]; rfl

end Sys2Proof.Machine
end

