-- ==== Sys2Proof/Laws/State.lean ====
section
/-! SUPPORT. One lemma per field per named update of the state, so that no later proof unfolds a record update. -/

namespace Sys2Proof.Machine

/-! ### `State.setRes` -/

@[simp] theorem State.setRes_port_op (s : State) (r : Res) : (s.setRes r).port.op = s.port.op := rfl
@[simp] theorem State.setRes_port_opa (s : State) (r : Res) : (s.setRes r).port.opa = s.port.opa := rfl
@[simp] theorem State.setRes_port_opb (s : State) (r : Res) : (s.setRes r).port.opb = s.port.opb := rfl
@[simp] theorem State.setRes_port_opc (s : State) (r : Res) : (s.setRes r).port.opc = s.port.opc := rfl
@[simp] theorem State.setRes_port_res (s : State) (r : Res) : (s.setRes r).port.res = resCode r := rfl
@[simp] theorem State.setRes_port_start (s : State) (r : Res) : (s.setRes r).port.start = s.port.start := rfl
@[simp] theorem State.setRes_crc (s : State) (r : Res) : (s.setRes r).crc = s.crc := rfl
@[simp] theorem State.setRes_ciph (s : State) (r : Res) : (s.setRes r).ciph = s.ciph := rfl
@[simp] theorem State.setRes_fl (s : State) (r : Res) : (s.setRes r).fl = s.fl := rfl
@[simp] theorem State.setRes_hw (s : State) (r : Res) : (s.setRes r).hw = s.hw := rfl
@[simp] theorem State.setRes_fr (s : State) (r : Res) : (s.setRes r).fr = s.fr := rfl
@[simp] theorem State.setRes_env (s : State) (r : Res) : (s.setRes r).env = s.env := rfl
@[simp] theorem State.setRes_rx (s : State) (r : Res) : (s.setRes r).rx = s.rx := rfl
@[simp] theorem State.setRes_tx (s : State) (r : Res) : (s.setRes r).tx = s.tx := rfl
@[simp] theorem State.setRes_draws (s : State) (r : Res) : (s.setRes r).draws = s.draws := rfl
@[simp] theorem State.setRes_inputs (s : State) (r : Res) : (s.setRes r).inputs = s.inputs := rfl
@[simp] theorem State.setRes_cfg (s : State) (r : Res) : (s.setRes r).cfg = s.cfg := rfl

/-! ### `State.send` -/

@[simp] theorem State.send_port (s : State) (b : Byte) : (s.send b).port = s.port := rfl
@[simp] theorem State.send_crc (s : State) (b : Byte) : (s.send b).crc = s.crc := rfl
@[simp] theorem State.send_ciph (s : State) (b : Byte) : (s.send b).ciph = s.ciph := rfl
@[simp] theorem State.send_fl (s : State) (b : Byte) : (s.send b).fl = s.fl := rfl
@[simp] theorem State.send_hw (s : State) (b : Byte) : (s.send b).hw = s.hw := rfl
@[simp] theorem State.send_fr (s : State) (b : Byte) : (s.send b).fr = s.fr := rfl
@[simp] theorem State.send_env (s : State) (b : Byte) : (s.send b).env = s.env := rfl
@[simp] theorem State.send_rx (s : State) (b : Byte) : (s.send b).rx = s.rx := rfl
@[simp] theorem State.send_tx (s : State) (b : Byte) : (s.send b).tx = s.tx ++ [b] := rfl
@[simp] theorem State.send_draws (s : State) (b : Byte) : (s.send b).draws = s.draws := rfl
@[simp] theorem State.send_inputs (s : State) (b : Byte) : (s.send b).inputs = s.inputs := rfl
@[simp] theorem State.send_cfg (s : State) (b : Byte) : (s.send b).cfg = s.cfg := rfl

/-! ### `State.sendText` -/

@[simp] theorem State.sendText_port (s : State) (m : List Byte) : (s.sendText m).port = s.port := rfl
@[simp] theorem State.sendText_crc (s : State) (m : List Byte) : (s.sendText m).crc = s.crc := rfl
@[simp] theorem State.sendText_ciph (s : State) (m : List Byte) : (s.sendText m).ciph = s.ciph := rfl
@[simp] theorem State.sendText_fl (s : State) (m : List Byte) : (s.sendText m).fl = s.fl := rfl
@[simp] theorem State.sendText_hw (s : State) (m : List Byte) : (s.sendText m).hw = s.hw := rfl
@[simp] theorem State.sendText_fr (s : State) (m : List Byte) : (s.sendText m).fr = s.fr := rfl
@[simp] theorem State.sendText_env (s : State) (m : List Byte) : (s.sendText m).env = s.env := rfl
@[simp] theorem State.sendText_rx (s : State) (m : List Byte) : (s.sendText m).rx = s.rx := rfl
@[simp] theorem State.sendText_tx (s : State) (m : List Byte) : (s.sendText m).tx = s.tx ++ m := rfl
@[simp] theorem State.sendText_draws (s : State) (m : List Byte) : (s.sendText m).draws = s.draws := rfl
@[simp] theorem State.sendText_inputs (s : State) (m : List Byte) : (s.sendText m).inputs = s.inputs := rfl
@[simp] theorem State.sendText_cfg (s : State) (m : List Byte) : (s.sendText m).cfg = s.cfg := rfl

/-! ### `State.reply` -/

@[simp] theorem State.reply_port (s : State) (r : Reply) : (s.reply r).port = s.port := rfl
@[simp] theorem State.reply_crc (s : State) (r : Reply) : (s.reply r).crc = s.crc := rfl
@[simp] theorem State.reply_ciph (s : State) (r : Reply) : (s.reply r).ciph = s.ciph := rfl
@[simp] theorem State.reply_fl (s : State) (r : Reply) : (s.reply r).fl = s.fl := rfl
@[simp] theorem State.reply_hw (s : State) (r : Reply) : (s.reply r).hw = s.hw := rfl
@[simp] theorem State.reply_fr (s : State) (r : Reply) : (s.reply r).fr = s.fr := rfl
@[simp] theorem State.reply_env (s : State) (r : Reply) : (s.reply r).env = s.env := rfl
@[simp] theorem State.reply_rx (s : State) (r : Reply) : (s.reply r).rx = s.rx := rfl
@[simp] theorem State.reply_tx (s : State) (r : Reply) : (s.reply r).tx = s.tx ++ [s.cfg.resp.get r] := rfl
@[simp] theorem State.reply_draws (s : State) (r : Reply) : (s.reply r).draws = s.draws := rfl
@[simp] theorem State.reply_inputs (s : State) (r : Reply) : (s.reply r).inputs = s.inputs := rfl
@[simp] theorem State.reply_cfg (s : State) (r : Reply) : (s.reply r).cfg = s.cfg := rfl

/-! ### `State.storeBuf` -/

@[simp] theorem State.storeBuf_port (s : State) (off : Nat) (bytes : List Byte) : (s.storeBuf off bytes).port = s.port := rfl
@[simp] theorem State.storeBuf_crc (s : State) (off : Nat) (bytes : List Byte) : (s.storeBuf off bytes).crc = s.crc := rfl
@[simp] theorem State.storeBuf_ciph (s : State) (off : Nat) (bytes : List Byte) : (s.storeBuf off bytes).ciph = s.ciph := rfl
@[simp] theorem State.storeBuf_fl (s : State) (off : Nat) (bytes : List Byte) : (s.storeBuf off bytes).fl = s.fl := rfl
@[simp] theorem State.storeBuf_hw (s : State) (off : Nat) (bytes : List Byte) : (s.storeBuf off bytes).hw = s.hw := rfl
@[simp] theorem State.storeBuf_fr_state (s : State) (off : Nat) (bytes : List Byte) : (s.storeBuf off bytes).fr.state = s.fr.state := rfl
@[simp] theorem State.storeBuf_fr_buf (s : State) (off : Nat) (bytes : List Byte) : (s.storeBuf off bytes).fr.buf = Memory.writeRange 0#8 s.fr.buf off bytes := rfl
@[simp] theorem State.storeBuf_fr_fill (s : State) (off : Nat) (bytes : List Byte) : (s.storeBuf off bytes).fr.fill = s.fr.fill := rfl
@[simp] theorem State.storeBuf_fr_cur (s : State) (off : Nat) (bytes : List Byte) : (s.storeBuf off bytes).fr.cur = s.fr.cur := rfl
@[simp] theorem State.storeBuf_fr_plen (s : State) (off : Nat) (bytes : List Byte) : (s.storeBuf off bytes).fr.plen = s.fr.plen := rfl
@[simp] theorem State.storeBuf_fr_seq (s : State) (off : Nat) (bytes : List Byte) : (s.storeBuf off bytes).fr.seq = s.fr.seq := rfl
@[simp] theorem State.storeBuf_fr_final (s : State) (off : Nat) (bytes : List Byte) : (s.storeBuf off bytes).fr.final = s.fr.final := rfl
@[simp] theorem State.storeBuf_fr_wAddr (s : State) (off : Nat) (bytes : List Byte) : (s.storeBuf off bytes).fr.wAddr = s.fr.wAddr := rfl
@[simp] theorem State.storeBuf_fr_wLen (s : State) (off : Nat) (bytes : List Byte) : (s.storeBuf off bytes).fr.wLen = s.fr.wLen := rfl
@[simp] theorem State.storeBuf_fr_lenHi (s : State) (off : Nat) (bytes : List Byte) : (s.storeBuf off bytes).fr.lenHi = s.fr.lenHi := rfl
@[simp] theorem State.storeBuf_fr_toDrain (s : State) (off : Nat) (bytes : List Byte) : (s.storeBuf off bytes).fr.toDrain = s.fr.toDrain := rfl
@[simp] theorem State.storeBuf_env (s : State) (off : Nat) (bytes : List Byte) : (s.storeBuf off bytes).env = s.env := rfl
@[simp] theorem State.storeBuf_rx (s : State) (off : Nat) (bytes : List Byte) : (s.storeBuf off bytes).rx = s.rx := rfl
@[simp] theorem State.storeBuf_tx (s : State) (off : Nat) (bytes : List Byte) : (s.storeBuf off bytes).tx = s.tx := rfl
@[simp] theorem State.storeBuf_draws (s : State) (off : Nat) (bytes : List Byte) : (s.storeBuf off bytes).draws = s.draws := rfl
@[simp] theorem State.storeBuf_inputs (s : State) (off : Nat) (bytes : List Byte) : (s.storeBuf off bytes).inputs = s.inputs := rfl
@[simp] theorem State.storeBuf_cfg (s : State) (off : Nat) (bytes : List Byte) : (s.storeBuf off bytes).cfg = s.cfg := rfl

/-! ### `State.storeFlash` -/

@[simp] theorem State.storeFlash_port (s : State) (p : Nat) (bytes : List Byte) : (s.storeFlash p bytes).port = s.port := rfl
@[simp] theorem State.storeFlash_crc (s : State) (p : Nat) (bytes : List Byte) : (s.storeFlash p bytes).crc = s.crc := rfl
@[simp] theorem State.storeFlash_ciph (s : State) (p : Nat) (bytes : List Byte) : (s.storeFlash p bytes).ciph = s.ciph := rfl
@[simp] theorem State.storeFlash_fl (s : State) (p : Nat) (bytes : List Byte) : (s.storeFlash p bytes).fl = s.fl := rfl
@[simp] theorem State.storeFlash_hw_array (s : State) (p : Nat) (bytes : List Byte) : (s.storeFlash p bytes).hw.array = Memory.writeRange s.cfg.erasedByte s.hw.array p bytes := rfl
@[simp] theorem State.storeFlash_hw_done (s : State) (p : Nat) (bytes : List Byte) : (s.storeFlash p bytes).hw.done = s.hw.done := rfl
@[simp] theorem State.storeFlash_hw_lowVoltage (s : State) (p : Nat) (bytes : List Byte) : (s.storeFlash p bytes).hw.lowVoltage = s.hw.lowVoltage := rfl
@[simp] theorem State.storeFlash_hw_writeError (s : State) (p : Nat) (bytes : List Byte) : (s.storeFlash p bytes).hw.writeError = s.hw.writeError := rfl
@[simp] theorem State.storeFlash_hw_issued (s : State) (p : Nat) (bytes : List Byte) : (s.storeFlash p bytes).hw.issued = s.hw.issued := rfl
@[simp] theorem State.storeFlash_hw_script (s : State) (p : Nat) (bytes : List Byte) : (s.storeFlash p bytes).hw.script = s.hw.script := rfl
@[simp] theorem State.storeFlash_fr (s : State) (p : Nat) (bytes : List Byte) : (s.storeFlash p bytes).fr = s.fr := rfl
@[simp] theorem State.storeFlash_env (s : State) (p : Nat) (bytes : List Byte) : (s.storeFlash p bytes).env = s.env := rfl
@[simp] theorem State.storeFlash_rx (s : State) (p : Nat) (bytes : List Byte) : (s.storeFlash p bytes).rx = s.rx := rfl
@[simp] theorem State.storeFlash_tx (s : State) (p : Nat) (bytes : List Byte) : (s.storeFlash p bytes).tx = s.tx := rfl
@[simp] theorem State.storeFlash_draws (s : State) (p : Nat) (bytes : List Byte) : (s.storeFlash p bytes).draws = s.draws := rfl
@[simp] theorem State.storeFlash_inputs (s : State) (p : Nat) (bytes : List Byte) : (s.storeFlash p bytes).inputs = s.inputs := rfl
@[simp] theorem State.storeFlash_cfg (s : State) (p : Nat) (bytes : List Byte) : (s.storeFlash p bytes).cfg = s.cfg := rfl

/-! ### `State.scramble` -/

@[simp] theorem State.scramble_port (s : State) (p n : Nat) : (s.scramble p n).port = s.port := rfl
@[simp] theorem State.scramble_crc (s : State) (p n : Nat) : (s.scramble p n).crc = s.crc := rfl
@[simp] theorem State.scramble_ciph (s : State) (p n : Nat) : (s.scramble p n).ciph = s.ciph := rfl
@[simp] theorem State.scramble_fl (s : State) (p n : Nat) : (s.scramble p n).fl = s.fl := rfl
@[simp] theorem State.scramble_hw_array (s : State) (p n : Nat) : (s.scramble p n).hw.array = Memory.writeRange s.cfg.erasedByte s.hw.array p (Draws.take n s.draws).1 := rfl
@[simp] theorem State.scramble_hw_done (s : State) (p n : Nat) : (s.scramble p n).hw.done = s.hw.done := rfl
@[simp] theorem State.scramble_hw_lowVoltage (s : State) (p n : Nat) : (s.scramble p n).hw.lowVoltage = s.hw.lowVoltage := rfl
@[simp] theorem State.scramble_hw_writeError (s : State) (p n : Nat) : (s.scramble p n).hw.writeError = s.hw.writeError := rfl
@[simp] theorem State.scramble_hw_issued (s : State) (p n : Nat) : (s.scramble p n).hw.issued = s.hw.issued := rfl
@[simp] theorem State.scramble_hw_script (s : State) (p n : Nat) : (s.scramble p n).hw.script = s.hw.script := rfl
@[simp] theorem State.scramble_fr (s : State) (p n : Nat) : (s.scramble p n).fr = s.fr := rfl
@[simp] theorem State.scramble_env (s : State) (p n : Nat) : (s.scramble p n).env = s.env := rfl
@[simp] theorem State.scramble_rx (s : State) (p n : Nat) : (s.scramble p n).rx = s.rx := rfl
@[simp] theorem State.scramble_tx (s : State) (p n : Nat) : (s.scramble p n).tx = s.tx := rfl
@[simp] theorem State.scramble_draws (s : State) (p n : Nat) : (s.scramble p n).draws = (Draws.take n s.draws).2 := rfl
@[simp] theorem State.scramble_inputs (s : State) (p n : Nat) : (s.scramble p n).inputs = s.inputs := rfl
@[simp] theorem State.scramble_cfg (s : State) (p n : Nat) : (s.scramble p n).cfg = s.cfg := rfl

/-! ### `State.writePort` -/

@[simp] theorem State.writePort_port_op (s : State) (op : Byte) (a b c : Option Word) : (s.writePort op a b c).port.op = op := rfl
@[simp] theorem State.writePort_port_opa (s : State) (op : Byte) (a b c : Option Word) : (s.writePort op a b c).port.opa = a.getD s.port.opa := rfl
@[simp] theorem State.writePort_port_opb (s : State) (op : Byte) (a b c : Option Word) : (s.writePort op a b c).port.opb = b.getD s.port.opb := rfl
@[simp] theorem State.writePort_port_opc (s : State) (op : Byte) (a b c : Option Word) : (s.writePort op a b c).port.opc = c.getD s.port.opc := rfl
@[simp] theorem State.writePort_port_res (s : State) (op : Byte) (a b c : Option Word) : (s.writePort op a b c).port.res = s.port.res := rfl
@[simp] theorem State.writePort_port_start (s : State) (op : Byte) (a b c : Option Word) : (s.writePort op a b c).port.start = s.port.start := rfl
@[simp] theorem State.writePort_crc (s : State) (op : Byte) (a b c : Option Word) : (s.writePort op a b c).crc = s.crc := rfl
@[simp] theorem State.writePort_ciph (s : State) (op : Byte) (a b c : Option Word) : (s.writePort op a b c).ciph = s.ciph := rfl
@[simp] theorem State.writePort_fl (s : State) (op : Byte) (a b c : Option Word) : (s.writePort op a b c).fl = s.fl := rfl
@[simp] theorem State.writePort_hw (s : State) (op : Byte) (a b c : Option Word) : (s.writePort op a b c).hw = s.hw := rfl
@[simp] theorem State.writePort_fr (s : State) (op : Byte) (a b c : Option Word) : (s.writePort op a b c).fr = s.fr := rfl
@[simp] theorem State.writePort_env (s : State) (op : Byte) (a b c : Option Word) : (s.writePort op a b c).env = s.env := rfl
@[simp] theorem State.writePort_rx (s : State) (op : Byte) (a b c : Option Word) : (s.writePort op a b c).rx = s.rx := rfl
@[simp] theorem State.writePort_tx (s : State) (op : Byte) (a b c : Option Word) : (s.writePort op a b c).tx = s.tx := rfl
@[simp] theorem State.writePort_draws (s : State) (op : Byte) (a b c : Option Word) : (s.writePort op a b c).draws = s.draws := rfl
@[simp] theorem State.writePort_inputs (s : State) (op : Byte) (a b c : Option Word) : (s.writePort op a b c).inputs = s.inputs := rfl
@[simp] theorem State.writePort_cfg (s : State) (op : Byte) (a b c : Option Word) : (s.writePort op a b c).cfg = s.cfg := rfl

/-! ### `State.haltEntry` -/

@[simp] theorem State.haltEntry_port (s : State) : (s.haltEntry).port = s.port := rfl
@[simp] theorem State.haltEntry_crc (s : State) : (s.haltEntry).crc = s.crc := rfl
@[simp] theorem State.haltEntry_ciph (s : State) : (s.haltEntry).ciph = s.ciph := rfl
@[simp] theorem State.haltEntry_fl_state (s : State) : (s.haltEntry).fl.state = .halt := rfl
@[simp] theorem State.haltEntry_fl_kind (s : State) : (s.haltEntry).fl.kind = s.fl.kind := rfl
@[simp] theorem State.haltEntry_fl_addr (s : State) : (s.haltEntry).fl.addr = s.fl.addr := rfl
@[simp] theorem State.haltEntry_fl_data (s : State) : (s.haltEntry).fl.data = s.fl.data := rfl
@[simp] theorem State.haltEntry_fl_src (s : State) : (s.haltEntry).fl.src = s.fl.src := rfl
@[simp] theorem State.haltEntry_fl_eraseAtt (s : State) : (s.haltEntry).fl.eraseAtt = s.fl.eraseAtt := rfl
@[simp] theorem State.haltEntry_fl_eraseFail (s : State) : (s.haltEntry).fl.eraseFail = s.fl.eraseFail := rfl
@[simp] theorem State.haltEntry_fl_writeFail (s : State) : (s.haltEntry).fl.writeFail = s.fl.writeFail := rfl
@[simp] theorem State.haltEntry_fl_halted (s : State) : (s.haltEntry).fl.halted = true := rfl
@[simp] theorem State.haltEntry_fl_first (s : State) : (s.haltEntry).fl.first = s.fl.first := rfl
@[simp] theorem State.haltEntry_hw (s : State) : (s.haltEntry).hw = s.hw := rfl
@[simp] theorem State.haltEntry_fr (s : State) : (s.haltEntry).fr = s.fr := rfl
@[simp] theorem State.haltEntry_env_eraseDone (s : State) : (s.haltEntry).env.eraseDone = s.env.eraseDone := rfl
@[simp] theorem State.haltEntry_env_wretry (s : State) : (s.haltEntry).env.wretry = s.env.wretry := rfl
@[simp] theorem State.haltEntry_env_loop (s : State) : (s.haltEntry).env.loop = s.env.loop := rfl
@[simp] theorem State.haltEntry_env_status (s : State) : (s.haltEntry).env.status = s.cfg.status.hardwareFailed := rfl
@[simp] theorem State.haltEntry_env_t0 (s : State) : (s.haltEntry).env.t0 = s.env.t0 := rfl
@[simp] theorem State.haltEntry_env_ticks (s : State) : (s.haltEntry).env.ticks = s.env.ticks := rfl
@[simp] theorem State.haltEntry_env_writing (s : State) : (s.haltEntry).env.writing = s.env.writing := rfl
@[simp] theorem State.haltEntry_rx (s : State) : (s.haltEntry).rx = s.rx := rfl
@[simp] theorem State.haltEntry_tx (s : State) : (s.haltEntry).tx = s.tx := rfl
@[simp] theorem State.haltEntry_draws (s : State) : (s.haltEntry).draws = s.draws := rfl
@[simp] theorem State.haltEntry_inputs (s : State) : (s.haltEntry).inputs = s.inputs := rfl
@[simp] theorem State.haltEntry_cfg (s : State) : (s.haltEntry).cfg = s.cfg := rfl

/-! ### `crcRecord` -/

@[simp] theorem crcRecord_port (e : Word) (s : State) : (crcRecord e s).port = s.port := rfl
@[simp] theorem crcRecord_crc_acc (e : Word) (s : State) : (crcRecord e s).crc.acc = s.crc.acc := rfl
@[simp] theorem crcRecord_crc_computed (e : Word) (s : State) : (crcRecord e s).crc.computed = s.crc.acc := rfl
@[simp] theorem crcRecord_crc_received (e : Word) (s : State) : (crcRecord e s).crc.received = e := rfl
@[simp] theorem crcRecord_crc_matched (e : Word) (s : State) : (crcRecord e s).crc.matched = crcMatch s.crc.acc e := rfl
@[simp] theorem crcRecord_ciph (e : Word) (s : State) : (crcRecord e s).ciph = s.ciph := rfl
@[simp] theorem crcRecord_fl (e : Word) (s : State) : (crcRecord e s).fl = s.fl := rfl
@[simp] theorem crcRecord_hw (e : Word) (s : State) : (crcRecord e s).hw = s.hw := rfl
@[simp] theorem crcRecord_fr (e : Word) (s : State) : (crcRecord e s).fr = s.fr := rfl
@[simp] theorem crcRecord_env (e : Word) (s : State) : (crcRecord e s).env = s.env := rfl
@[simp] theorem crcRecord_rx (e : Word) (s : State) : (crcRecord e s).rx = s.rx := rfl
@[simp] theorem crcRecord_tx (e : Word) (s : State) : (crcRecord e s).tx = s.tx := rfl
@[simp] theorem crcRecord_draws (e : Word) (s : State) : (crcRecord e s).draws = s.draws := rfl
@[simp] theorem crcRecord_inputs (e : Word) (s : State) : (crcRecord e s).inputs = s.inputs := rfl
@[simp] theorem crcRecord_cfg (e : Word) (s : State) : (crcRecord e s).cfg = s.cfg := rfl

/-! ### `keySetup` -/

@[simp] theorem keySetup_port (bits256 : Bool) (key iv : List Byte) (s : State) : (keySetup bits256 key iv s).port = s.port := rfl
@[simp] theorem keySetup_crc (bits256 : Bool) (key iv : List Byte) (s : State) : (keySetup bits256 key iv s).crc = s.crc := rfl
@[simp] theorem keySetup_ciph_x (bits256 : Bool) (key iv : List Byte) (s : State) : (keySetup bits256 key iv s).ciph.x = keyedBlock bits256 key iv := rfl
@[simp] theorem keySetup_ciph_s (bits256 : Bool) (key iv : List Byte) (s : State) : (keySetup bits256 key iv s).ciph.s = s.ciph.s := rfl
@[simp] theorem keySetup_ciph_ks (bits256 : Bool) (key iv : List Byte) (s : State) : (keySetup bits256 key iv s).ciph.ks = s.ciph.ks := rfl
@[simp] theorem keySetup_ciph_cRem (bits256 : Bool) (key iv : List Byte) (s : State) : (keySetup bits256 key iv s).ciph.cRem = s.ciph.cRem := rfl
@[simp] theorem keySetup_ciph_cOff (bits256 : Bool) (key iv : List Byte) (s : State) : (keySetup bits256 key iv s).ciph.cOff = s.ciph.cOff := rfl
@[simp] theorem keySetup_ciph_keyed (bits256 : Bool) (key iv : List Byte) (s : State) : (keySetup bits256 key iv s).ciph.keyed = true := rfl
@[simp] theorem keySetup_ciph_keyr (bits256 : Bool) (key iv : List Byte) (s : State) : (keySetup bits256 key iv s).ciph.keyr = s.ciph.keyr := rfl
@[simp] theorem keySetup_ciph_ivr (bits256 : Bool) (key iv : List Byte) (s : State) : (keySetup bits256 key iv s).ciph.ivr = s.ciph.ivr := rfl
@[simp] theorem keySetup_fl (bits256 : Bool) (key iv : List Byte) (s : State) : (keySetup bits256 key iv s).fl = s.fl := rfl
@[simp] theorem keySetup_hw (bits256 : Bool) (key iv : List Byte) (s : State) : (keySetup bits256 key iv s).hw = s.hw := rfl
@[simp] theorem keySetup_fr (bits256 : Bool) (key iv : List Byte) (s : State) : (keySetup bits256 key iv s).fr = s.fr := rfl
@[simp] theorem keySetup_env (bits256 : Bool) (key iv : List Byte) (s : State) : (keySetup bits256 key iv s).env = s.env := rfl
@[simp] theorem keySetup_rx (bits256 : Bool) (key iv : List Byte) (s : State) : (keySetup bits256 key iv s).rx = s.rx := rfl
@[simp] theorem keySetup_tx (bits256 : Bool) (key iv : List Byte) (s : State) : (keySetup bits256 key iv s).tx = s.tx := rfl
@[simp] theorem keySetup_draws (bits256 : Bool) (key iv : List Byte) (s : State) : (keySetup bits256 key iv s).draws = s.draws := rfl
@[simp] theorem keySetup_inputs (bits256 : Bool) (key iv : List Byte) (s : State) : (keySetup bits256 key iv s).inputs = s.inputs := rfl
@[simp] theorem keySetup_cfg (bits256 : Bool) (key iv : List Byte) (s : State) : (keySetup bits256 key iv s).cfg = s.cfg := rfl

/-! ### `cipherBlock` -/

@[simp] theorem cipherBlock_port (s : State) : (cipherBlock s).port = s.port := rfl
@[simp] theorem cipherBlock_crc (s : State) : (cipherBlock s).crc = s.crc := rfl
@[simp] theorem cipherBlock_ciph_x (s : State) : (cipherBlock s).ciph.x = (s.ciph.x.set 12 (advanceCounter s.ciph.x[12] s.ciph.x[13]).1).set 13 (advanceCounter s.ciph.x[12] s.ciph.x[13]).2 := rfl
@[simp] theorem cipherBlock_ciph_s (s : State) : (cipherBlock s).ciph.s = keystreamWords s.cfg.nDoubleRounds s.ciph.x := rfl
@[simp] theorem cipherBlock_ciph_ks (s : State) : (cipherBlock s).ciph.ks = keystreamBytes (keystreamWords s.cfg.nDoubleRounds s.ciph.x) := rfl
@[simp] theorem cipherBlock_ciph_cRem (s : State) : (cipherBlock s).ciph.cRem = s.ciph.cRem := rfl
@[simp] theorem cipherBlock_ciph_cOff (s : State) : (cipherBlock s).ciph.cOff = s.ciph.cOff := rfl
@[simp] theorem cipherBlock_ciph_keyed (s : State) : (cipherBlock s).ciph.keyed = s.ciph.keyed := rfl
@[simp] theorem cipherBlock_ciph_keyr (s : State) : (cipherBlock s).ciph.keyr = s.ciph.keyr := rfl
@[simp] theorem cipherBlock_ciph_ivr (s : State) : (cipherBlock s).ciph.ivr = s.ciph.ivr := rfl
@[simp] theorem cipherBlock_fl (s : State) : (cipherBlock s).fl = s.fl := rfl
@[simp] theorem cipherBlock_hw (s : State) : (cipherBlock s).hw = s.hw := rfl
@[simp] theorem cipherBlock_fr (s : State) : (cipherBlock s).fr = s.fr := rfl
@[simp] theorem cipherBlock_env (s : State) : (cipherBlock s).env = s.env := rfl
@[simp] theorem cipherBlock_rx (s : State) : (cipherBlock s).rx = s.rx := rfl
@[simp] theorem cipherBlock_tx (s : State) : (cipherBlock s).tx = s.tx := rfl
@[simp] theorem cipherBlock_draws (s : State) : (cipherBlock s).draws = s.draws := rfl
@[simp] theorem cipherBlock_inputs (s : State) : (cipherBlock s).inputs = s.inputs := rfl
@[simp] theorem cipherBlock_cfg (s : State) : (cipherBlock s).cfg = s.cfg := rfl

/-! ### `frStart` -/

@[simp] theorem frStart_port (s : State) : (frStart s).port = s.port := rfl
@[simp] theorem frStart_crc (s : State) : (frStart s).crc = s.crc := rfl
@[simp] theorem frStart_ciph (s : State) : (frStart s).ciph = s.ciph := rfl
@[simp] theorem frStart_fl (s : State) : (frStart s).fl = s.fl := rfl
@[simp] theorem frStart_hw (s : State) : (frStart s).hw = s.hw := rfl
@[simp] theorem frStart_fr_state (s : State) : (frStart s).fr.state = .len0 := rfl
@[simp] theorem frStart_fr_buf (s : State) : (frStart s).fr.buf = s.fr.buf := rfl
@[simp] theorem frStart_fr_fill (s : State) : (frStart s).fr.fill = 0#16 := rfl
@[simp] theorem frStart_fr_cur (s : State) : (frStart s).fr.cur = 0#16 := rfl
@[simp] theorem frStart_fr_plen (s : State) : (frStart s).fr.plen = s.fr.plen := rfl
@[simp] theorem frStart_fr_seq (s : State) : (frStart s).fr.seq = s.fr.seq := rfl
@[simp] theorem frStart_fr_final (s : State) : (frStart s).fr.final = s.fr.final := rfl
@[simp] theorem frStart_fr_wAddr (s : State) : (frStart s).fr.wAddr = s.fr.wAddr := rfl
@[simp] theorem frStart_fr_wLen (s : State) : (frStart s).fr.wLen = s.fr.wLen := rfl
@[simp] theorem frStart_fr_lenHi (s : State) : (frStart s).fr.lenHi = s.fr.lenHi := rfl
@[simp] theorem frStart_fr_toDrain (s : State) : (frStart s).fr.toDrain = s.fr.toDrain := rfl
@[simp] theorem frStart_env (s : State) : (frStart s).env = s.env := rfl
@[simp] theorem frStart_rx (s : State) : (frStart s).rx = s.rx := rfl
@[simp] theorem frStart_tx (s : State) : (frStart s).tx = s.tx := rfl
@[simp] theorem frStart_draws (s : State) : (frStart s).draws = s.draws := rfl
@[simp] theorem frStart_inputs (s : State) : (frStart s).inputs = s.inputs := rfl
@[simp] theorem frStart_cfg (s : State) : (frStart s).cfg = s.cfg := rfl

/-! ### `zeroise` -/

@[simp] theorem zeroise_port_op (s : State) : (zeroise s).port.op = 0 := rfl
@[simp] theorem zeroise_port_opa (s : State) : (zeroise s).port.opa = 0 := rfl
@[simp] theorem zeroise_port_opb (s : State) : (zeroise s).port.opb = 0 := rfl
@[simp] theorem zeroise_port_opc (s : State) : (zeroise s).port.opc = 0 := rfl
@[simp] theorem zeroise_port_res (s : State) : (zeroise s).port.res = s.port.res := rfl
@[simp] theorem zeroise_port_start (s : State) : (zeroise s).port.start = s.port.start := rfl
@[simp] theorem zeroise_fl_state (s : State) : (zeroise s).fl.state = s.fl.state := rfl
@[simp] theorem zeroise_fl_kind (s : State) : (zeroise s).fl.kind = .nop := rfl
@[simp] theorem zeroise_fl_addr (s : State) : (zeroise s).fl.addr = 0 := rfl
@[simp] theorem zeroise_fl_data (s : State) : (zeroise s).fl.data = 0 := rfl
@[simp] theorem zeroise_fl_src (s : State) : (zeroise s).fl.src = 0 := rfl
@[simp] theorem zeroise_fl_eraseAtt (s : State) : (zeroise s).fl.eraseAtt = 0 := rfl
@[simp] theorem zeroise_fl_eraseFail (s : State) : (zeroise s).fl.eraseFail = 0 := rfl
@[simp] theorem zeroise_fl_writeFail (s : State) : (zeroise s).fl.writeFail = 0 := rfl
@[simp] theorem zeroise_fl_halted (s : State) : (zeroise s).fl.halted = s.fl.halted := rfl
@[simp] theorem zeroise_fl_first (s : State) : (zeroise s).fl.first = resCode .ok := rfl
@[simp] theorem zeroise_hw (s : State) : (zeroise s).hw = s.hw := rfl
@[simp] theorem zeroise_env (s : State) : (zeroise s).env = s.env := rfl
@[simp] theorem zeroise_rx (s : State) : (zeroise s).rx = s.rx := rfl
@[simp] theorem zeroise_tx (s : State) : (zeroise s).tx = s.tx := rfl
@[simp] theorem zeroise_draws (s : State) : (zeroise s).draws = s.draws := rfl
@[simp] theorem zeroise_inputs (s : State) : (zeroise s).inputs = s.inputs := rfl
@[simp] theorem zeroise_cfg (s : State) : (zeroise s).cfg = s.cfg := rfl

/-! ### `State.enterIdle` -/

@[simp] theorem State.enterIdle_port (s : State) : (s.enterIdle).port = s.port := rfl
@[simp] theorem State.enterIdle_crc (s : State) : (s.enterIdle).crc = s.crc := rfl
@[simp] theorem State.enterIdle_ciph (s : State) : (s.enterIdle).ciph = s.ciph := rfl
@[simp] theorem State.enterIdle_fl (s : State) : (s.enterIdle).fl = s.fl := rfl
@[simp] theorem State.enterIdle_hw (s : State) : (s.enterIdle).hw = s.hw := rfl
@[simp] theorem State.enterIdle_fr (s : State) : (s.enterIdle).fr = s.fr := rfl
@[simp] theorem State.enterIdle_env_eraseDone (s : State) : (s.enterIdle).env.eraseDone = false := rfl
@[simp] theorem State.enterIdle_env_wretry (s : State) : (s.enterIdle).env.wretry = 0 := rfl
@[simp] theorem State.enterIdle_env_loop (s : State) : (s.enterIdle).env.loop = .idle := rfl
@[simp] theorem State.enterIdle_env_status (s : State) : (s.enterIdle).env.status = s.env.status := rfl
@[simp] theorem State.enterIdle_env_t0 (s : State) : (s.enterIdle).env.t0 = s.env.ticks := rfl
@[simp] theorem State.enterIdle_env_ticks (s : State) : (s.enterIdle).env.ticks = s.env.ticks := rfl
@[simp] theorem State.enterIdle_env_writing (s : State) : (s.enterIdle).env.writing = false := rfl
@[simp] theorem State.enterIdle_rx (s : State) : (s.enterIdle).rx = s.rx := rfl
@[simp] theorem State.enterIdle_tx (s : State) : (s.enterIdle).tx = s.tx := rfl
@[simp] theorem State.enterIdle_draws (s : State) : (s.enterIdle).draws = s.draws := rfl
@[simp] theorem State.enterIdle_inputs (s : State) : (s.enterIdle).inputs = s.inputs := rfl
@[simp] theorem State.enterIdle_cfg (s : State) : (s.enterIdle).cfg = s.cfg := rfl

@[simp] theorem zeroise_ciph_x (s : State) : (zeroise s).ciph.x = Vector.replicate 16 0 := rfl
@[simp] theorem zeroise_ciph_s (s : State) : (zeroise s).ciph.s = Vector.replicate 16 0 := rfl
@[simp] theorem zeroise_ciph_ks (s : State) : (zeroise s).ciph.ks = Vector.replicate 64 0 := rfl
@[simp] theorem zeroise_ciph_cRem (s : State) : (zeroise s).ciph.cRem = 0 := rfl
@[simp] theorem zeroise_ciph_cOff (s : State) : (zeroise s).ciph.cOff = 0 := rfl
@[simp] theorem zeroise_ciph_keyed (s : State) : (zeroise s).ciph.keyed = false := rfl
@[simp] theorem zeroise_ciph_keyr (s : State) : (zeroise s).ciph.keyr = Vector.replicate 32 0 := rfl
@[simp] theorem zeroise_ciph_ivr (s : State) : (zeroise s).ciph.ivr = Vector.replicate 8 0 := rfl
@[simp] theorem zeroise_crc_acc (s : State) : (zeroise s).crc.acc = 0 := rfl
@[simp] theorem zeroise_crc_computed (s : State) : (zeroise s).crc.computed = 0 := rfl
@[simp] theorem zeroise_crc_received (s : State) : (zeroise s).crc.received = 0 := rfl
@[simp] theorem zeroise_crc_matched (s : State) : (zeroise s).crc.matched = false := rfl
@[simp] theorem zeroise_fr_state (s : State) : (zeroise s).fr.state = .idle := rfl
@[simp] theorem zeroise_fr_buf (s : State) : (zeroise s).fr.buf = [] := rfl
@[simp] theorem zeroise_fr_fill (s : State) : (zeroise s).fr.fill = 0 := rfl
@[simp] theorem zeroise_fr_cur (s : State) : (zeroise s).fr.cur = 0 := rfl
@[simp] theorem zeroise_fr_plen (s : State) : (zeroise s).fr.plen = 0 := rfl
@[simp] theorem zeroise_fr_seq (s : State) : (zeroise s).fr.seq = 0 := rfl
@[simp] theorem zeroise_fr_final (s : State) : (zeroise s).fr.final = false := rfl
@[simp] theorem zeroise_fr_wAddr (s : State) : (zeroise s).fr.wAddr = 0 := rfl
@[simp] theorem zeroise_fr_wLen (s : State) : (zeroise s).fr.wLen = 0 := rfl
@[simp] theorem zeroise_fr_lenHi (s : State) : (zeroise s).fr.lenHi = 0 := rfl
@[simp] theorem zeroise_fr_toDrain (s : State) : (zeroise s).fr.toDrain = 0 := rfl

/-! ### `State.takeOutcome` -/

@[simp] theorem State.takeOutcome_port (s : State) : s.takeOutcome.port = s.port := by
  unfold State.takeOutcome; split <;> rfl
@[simp] theorem State.takeOutcome_crc (s : State) : s.takeOutcome.crc = s.crc := by
  unfold State.takeOutcome; split <;> rfl
@[simp] theorem State.takeOutcome_ciph (s : State) : s.takeOutcome.ciph = s.ciph := by
  unfold State.takeOutcome; split <;> rfl
@[simp] theorem State.takeOutcome_fl (s : State) : s.takeOutcome.fl = s.fl := by
  unfold State.takeOutcome; split <;> rfl
@[simp] theorem State.takeOutcome_fr (s : State) : s.takeOutcome.fr = s.fr := by
  unfold State.takeOutcome; split <;> rfl
@[simp] theorem State.takeOutcome_env (s : State) : s.takeOutcome.env = s.env := by
  unfold State.takeOutcome; split <;> rfl
@[simp] theorem State.takeOutcome_rx (s : State) : s.takeOutcome.rx = s.rx := by
  unfold State.takeOutcome; split <;> rfl
@[simp] theorem State.takeOutcome_tx (s : State) : s.takeOutcome.tx = s.tx := by
  unfold State.takeOutcome; split <;> rfl
@[simp] theorem State.takeOutcome_inputs (s : State) : s.takeOutcome.inputs = s.inputs := by
  unfold State.takeOutcome; split <;> rfl
@[simp] theorem State.takeOutcome_cfg (s : State) : s.takeOutcome.cfg = s.cfg := by
  unfold State.takeOutcome; split <;> rfl
@[simp] theorem State.takeOutcome_hw_array (s : State) : s.takeOutcome.hw.array = s.hw.array := by
  unfold State.takeOutcome; split <;> rfl
@[simp] theorem State.takeOutcome_hw_done (s : State) : s.takeOutcome.hw.done = s.hw.done := by
  unfold State.takeOutcome; split <;> rfl
@[simp] theorem State.takeOutcome_hw_lowVoltage (s : State) : s.takeOutcome.hw.lowVoltage = s.hw.lowVoltage := by
  unfold State.takeOutcome; split <;> rfl
@[simp] theorem State.takeOutcome_hw_writeError (s : State) : s.takeOutcome.hw.writeError = s.hw.writeError := by
  unfold State.takeOutcome; split <;> rfl
@[simp] theorem State.takeOutcome_hw_issued (s : State) : s.takeOutcome.hw.issued = s.hw.issued := by
  unfold State.takeOutcome; split <;> rfl
@[simp] theorem State.takeOutcome_draws_bytes (s : State) : s.takeOutcome.draws.bytes = s.draws.bytes := by
  unfold State.takeOutcome; split <;> rfl

/-! ### Reads after updates of other parts -/

@[simp] theorem State.bufByte_setRes (s : State) (r : Res) (off : Nat) : (s.setRes r).bufByte off = s.bufByte off := rfl
@[simp] theorem State.flashByte_setRes (s : State) (r : Res) (p : Nat) : (s.setRes r).flashByte p = s.flashByte p := rfl
@[simp] theorem State.busy_setRes (s : State) (r : Res) : (s.setRes r).busy = s.busy := rfl
@[simp] theorem State.bufByte_writePort (s : State) (op : Byte) (a b c : Option Word) (off : Nat) :
    (s.writePort op a b c).bufByte off = s.bufByte off := rfl
@[simp] theorem State.bufRange_writePort (s : State) (op : Byte) (a b c : Option Word) (off n : Nat) :
    (s.writePort op a b c).bufRange off n = s.bufRange off n := rfl
@[simp] theorem State.flashByte_writePort (s : State) (op : Byte) (a b c : Option Word) (p : Nat) :
    (s.writePort op a b c).flashByte p = s.flashByte p := rfl
@[simp] theorem State.flashRange_writePort (s : State) (op : Byte) (a b c : Option Word) (p n : Nat) :
    (s.writePort op a b c).flashRange p n = s.flashRange p n := rfl
@[simp] theorem State.busy_writePort (s : State) (op : Byte) (a b c : Option Word) :
    (s.writePort op a b c).busy = s.busy := rfl
@[simp] theorem State.flashByte_send (s : State) (b : Byte) (p : Nat) : (s.send b).flashByte p = s.flashByte p := rfl
@[simp] theorem State.flashByte_sendText (s : State) (m : List Byte) (p : Nat) :
    (s.sendText m).flashByte p = s.flashByte p := rfl
@[simp] theorem State.flashByte_reply (s : State) (r : Reply) (p : Nat) : (s.reply r).flashByte p = s.flashByte p := rfl
@[simp] theorem State.bufByte_reply (s : State) (r : Reply) (off : Nat) : (s.reply r).bufByte off = s.bufByte off := rfl
@[simp] theorem State.flashByte_haltEntry (s : State) (p : Nat) : s.haltEntry.flashByte p = s.flashByte p := rfl
@[simp] theorem State.flashByte_storeBuf (s : State) (off : Nat) (bytes : List Byte) (p : Nat) :
    (s.storeBuf off bytes).flashByte p = s.flashByte p := rfl
@[simp] theorem State.bufByte_storeFlash (s : State) (p : Nat) (bytes : List Byte) (off : Nat) :
    (s.storeFlash p bytes).bufByte off = s.bufByte off := rfl
@[simp] theorem State.bufByte_scramble (s : State) (p n off : Nat) : (s.scramble p n).bufByte off = s.bufByte off := rfl
@[simp] theorem State.flashByte_takeOutcome (s : State) (p : Nat) : s.takeOutcome.flashByte p = s.flashByte p := by
  simp [State.flashByte]
@[simp] theorem State.bufByte_takeOutcome (s : State) (off : Nat) : s.takeOutcome.bufByte off = s.bufByte off := by
  simp [State.bufByte]
@[simp] theorem State.bufRange_takeOutcome (s : State) (off n : Nat) : s.takeOutcome.bufRange off n = s.bufRange off n := by
  simp [State.bufRange]

end Sys2Proof.Machine
end

