-- ==== Sys2Proof/Laws/Ops.lean ====
section
/-! SUPPORT. What each shared operation can do, said once: the runners, the reads after a store, the flash hardware
operation, the flash sequence and the corrective clear. -/

namespace Sys2Proof.Machine

/-! ### The runners -/

theorem runOperation_free {op : State → OpResult} {s : State} (h : s.fl.halted = false) (hb : s.busy = false) :
    runOperation op s = (op s).outcome := by simp [runOperation, h, hb]

theorem runOperation_halted {op : State → OpResult} {s : State} (h : s.fl.halted = true) :
    runOperation op s = .next s := by simp [runOperation, h]

theorem runFrame_free {op : State → OpResult} {s : State} (h : s.fl.halted = false) (hf : s.fl.state = .idle) :
    runFrame op s = (op s).outcome := by simp [runFrame, h, hf]

theorem runFrame_halted {op : State → OpResult} {s : State} (h : s.fl.halted = true) : runFrame op s = .next s := by
  simp [runFrame, h]

theorem runActive_active {c : State → Host.Outcome State Fault Refusal} {s : State} (h : s.fl.halted = false)
    (hb : s.busy = false) (ha : s.env.loop = .active) : runActive c s = c s := by
  simp [runActive, runCommand, h, hb, ha]

theorem runActive_halted {c : State → Host.Outcome State Fault Refusal} {s : State} (h : s.fl.halted = true) :
    runActive c s = .next s := by simp [runActive, runCommand, h]

/-- A runner answers a next state in two ways: halted, nothing changes; free, the operation ends or waits. -/
theorem runOperation_next {op : State → OpResult} {s t : State} (h : runOperation op s = .next t) :
    (s.fl.halted = true ∧ t = s) ∨
      (s.fl.halted = false ∧ s.busy = false ∧
        ((∃ r u, op s = .ends r u ∧ t = u.setRes r) ∨ op s = .blocks t)) := by
  unfold runOperation at h
  split at h
  · exact .inl ⟨by assumption, (Host.Outcome.next.inj h).symm⟩
  · split at h
    · cases h
    · refine .inr ⟨by simpa using ‹¬s.fl.halted = true›, by simpa using ‹¬s.busy = true›, ?_⟩
      cases ho : op s with
      | ends r u => rw [ho] at h; exact .inl ⟨r, u, rfl, (Host.Outcome.next.inj h).symm⟩
      | blocks u => rw [ho] at h; cases h; exact .inr rfl
      | noMeaning f => rw [ho] at h; cases h

theorem runFrame_next {op : State → OpResult} {s t : State} (h : runFrame op s = .next t) :
    (s.fl.halted = true ∧ t = s) ∨
      (s.fl.halted = false ∧ s.fl.state = .idle ∧
        ((∃ r u, op s = .ends r u ∧ t = u.setRes r) ∨ op s = .blocks t)) := by
  unfold runFrame at h
  split at h
  · exact .inl ⟨by assumption, (Host.Outcome.next.inj h).symm⟩
  · split at h
    · cases h
    · refine .inr ⟨by simpa using ‹¬s.fl.halted = true›, by simpa using ‹¬(s.fl.state != .idle) = true›, ?_⟩
      cases ho : op s with
      | ends r u => rw [ho] at h; exact .inl ⟨r, u, rfl, (Host.Outcome.next.inj h).symm⟩
      | blocks u => rw [ho] at h; cases h; exact .inr rfl
      | noMeaning f => rw [ho] at h; cases h

/-- What issuing an operation gives, by the way the operation ends. -/
theorem issue_ends {code : Byte} {a b c : Option Word} {op : State → OpResult} {s t : State} {r : Res}
    (h : issue code a b c op s = .ends r t) : ∃ u, op (s.writePort code a b c) = .ends r u ∧ t = u.setRes r := by
  unfold issue at h
  cases ho : op (s.writePort code a b c) with
  | ends r' u => rw [ho] at h; cases h; exact ⟨u, rfl, rfl⟩
  | blocks u => rw [ho] at h; cases h
  | noMeaning f => rw [ho] at h; cases h

theorem issue_blocks {code : Byte} {a b c : Option Word} {op : State → OpResult} {s t : State}
    (h : issue code a b c op s = .blocks t) : op (s.writePort code a b c) = .blocks t := by
  unfold issue at h
  cases ho : op (s.writePort code a b c) with
  | ends r' u => rw [ho] at h; cases h
  | blocks u => rw [ho] at h; cases h; rfl
  | noMeaning f => rw [ho] at h; cases h

/-! ### Reads after a store -/

theorem State.bufByte_storeBuf (s : State) (off : Nat) (bytes : List Byte) (x : Nat) :
    (s.storeBuf off bytes).bufByte x =
      if off ≤ x ∧ x < off + bytes.length then bytes.getD (x - off) 0#8 else s.bufByte x :=
  Memory.read_writeRange 0#8 s.fr.buf off bytes x

theorem State.flashByte_storeFlash (s : State) (p : Nat) (bytes : List Byte) (x : Nat) :
    (s.storeFlash p bytes).flashByte x =
      if p ≤ x ∧ x < p + bytes.length then bytes.getD (x - p) s.cfg.erasedByte else s.flashByte x :=
  Memory.read_writeRange s.cfg.erasedByte s.hw.array p bytes x

theorem State.flashByte_scramble_outside {s : State} {p n x : Nat} (h : ¬(p ≤ x ∧ x < p + n)) :
    (s.scramble p n).flashByte x = s.flashByte x := by
  have := State.flashByte_storeFlash s p (Draws.take n s.draws).1 x
  rw [Draws.length_take, if_neg h] at this
  exact this

@[simp] theorem State.length_bufRange (s : State) (off n : Nat) : (s.bufRange off n).length = n :=
  Memory.length_readRange ..

@[simp] theorem State.length_flashRange (s : State) (p n : Nat) : (s.flashRange p n).length = n :=
  Memory.length_readRange ..

theorem State.getD_bufRange (s : State) {off n i : Nat} {e : Byte} (h : i < n) :
    (s.bufRange off n).getD i e = s.bufByte (off + i) := Memory.getD_readRange h

theorem State.getD_flashRange (s : State) {p n i : Nat} {e : Byte} (h : i < n) :
    (s.flashRange p n).getD i e = s.flashByte (p + i) := Memory.getD_readRange h

@[simp] theorem length_bytesLE32 (w : Word) : (bytesLE32 w).length = 4 := rfl
@[simp] theorem length_bytesBE32 (w : Word) : (bytesBE32 w).length = 4 := rfl
@[simp] theorem length_bytesBE16 (h : Half) : (bytesBE16 h).length = 2 := rfl

/-! ### The flash hardware operation -/

/-- What a flash operation leaves alone, whatever its outcome: everything but the flash array, the port and its status,
the draws and, where the status byte may change, `STATUS`; and in the array every byte outside `[lo, lo + n)`. Of the
sequencer only `FL_STATE`, `FL_KIND`, `FL_ADDR` and `HALTED` may change. -/
structure FlashFrame (lo n : Nat) (s t : State) : Prop where
  port : t.port = s.port
  crc : t.crc = s.crc
  ciph : t.ciph = s.ciph
  fr : t.fr = s.fr
  rx : t.rx = s.rx
  tx : t.tx = s.tx
  inputs : t.inputs = s.inputs
  cfg : t.cfg = s.cfg
  env : { t.env with status := s.env.status } = s.env
  data : t.fl.data = s.fl.data
  src : t.fl.src = s.fl.src
  eraseAtt : t.fl.eraseAtt = s.fl.eraseAtt
  eraseFail : t.fl.eraseFail = s.fl.eraseFail
  writeFail : t.fl.writeFail = s.fl.writeFail
  first : t.fl.first = s.fl.first
  outside : ∀ x, ¬(lo ≤ x ∧ x < lo + n) → t.flashByte x = s.flashByte x

theorem FlashFrame.refl (lo n : Nat) (s : State) : FlashFrame lo n s s := by constructor <;> simp

theorem FlashFrame.trans {lo n : Nat} {s t u : State} (h : FlashFrame lo n s t) (h' : FlashFrame lo n t u) :
    FlashFrame lo n s u where
  port := h'.port.trans h.port
  crc := h'.crc.trans h.crc
  ciph := h'.ciph.trans h.ciph
  fr := h'.fr.trans h.fr
  rx := h'.rx.trans h.rx
  tx := h'.tx.trans h.tx
  inputs := h'.inputs.trans h.inputs
  cfg := h'.cfg.trans h.cfg
  env := by rw [← h.env, ← h'.env]
  data := h'.data.trans h.data
  src := h'.src.trans h.src
  eraseAtt := h'.eraseAtt.trans h.eraseAtt
  eraseFail := h'.eraseFail.trans h.eraseFail
  writeFail := h'.writeFail.trans h.writeFail
  first := h'.first.trans h.first
  outside := fun x hx => (h'.outside x hx).trans (h.outside x hx)

/-- The data of an operation fills its target. -/
abbrev dataFits (cfg : Params) (kind : FlashKind) (data : List Byte) : Prop :=
  kind = .row ∨ kind = .word → data.length = flashSpan cfg kind

/-- What the effect of a completed operation is (R175): only the array and the draws change. -/
theorem flashEffect_eq (kind : FlashKind) (data : List Byte) (bad : Bool) (s : State) :
    ∃ array draws, flashEffect kind data bad s = { s with hw.array := array, draws := draws } := by
  unfold flashEffect
  cases kind <;> simp only
  · split <;> exact ⟨_, _, rfl⟩
  · split <;> exact ⟨_, _, rfl⟩
  · split <;> exact ⟨_, _, rfl⟩
  · exact ⟨_, _, rfl⟩

theorem flashEffect_outside {kind : FlashKind} {data : List Byte} {bad : Bool} {s : State}
    (hd : dataFits s.cfg kind data) {x : Nat}
    (hx : ¬(s.fl.addr.toNat ≤ x ∧ x < s.fl.addr.toNat + flashSpan s.cfg kind)) :
    (flashEffect kind data bad s).flashByte x = s.flashByte x := by
  unfold flashEffect
  cases kind <;> simp only
  · split
    · exact State.flashByte_scramble_outside hx
    · rw [State.flashByte_storeFlash, if_neg (by simpa using hx)]
  · split
    · exact State.flashByte_scramble_outside hx
    · rw [State.flashByte_storeFlash, if_neg (by rw [hd (.inl rfl)]; exact hx)]
  · split
    · exact State.flashByte_scramble_outside hx
    · rw [State.flashByte_storeFlash, if_neg (by rw [hd (.inr rfl)]; exact hx)]

/-- R173: the operation has been presented and does not complete. -/
theorem flashOp_hang {kind : FlashKind} {data : List Byte} {s : State} (h : s.nextOutcome = .hang) :
    ∃ t, flashOp kind data s = (false, t) ∧ t.fl = s.fl ∧ t.env = s.env ∧ t.hw.array = s.hw.array ∧ t.hw.done = false ∧
      t.hw.issued = s.hw.issued ++ [⟨kind, s.fl.addr, data, s.cfg.unlockKey1, s.cfg.unlockKey2⟩] ∧
      FlashFrame s.fl.addr.toNat (flashSpan s.cfg kind) s t := by
  have h' : (⟨s.port, s.crc, s.ciph, s.fl,
      { s.hw with done := false, issued := s.hw.issued ++ [⟨kind, s.fl.addr, data, s.cfg.unlockKey1, s.cfg.unlockKey2⟩] },
      s.fr, s.env, s.rx, s.tx, s.draws, s.inputs, s.cfg⟩ : State).nextOutcome = .hang := h
  refine ⟨_, by unfold flashOp; simp only [h']; rfl, by simp, by simp, by simp, by simp, by simp, ?_⟩
  constructor <;> simp [State.flashByte]

/-- R174, R175: the operation completes with the flags the hardware supplies. -/
theorem flashOp_done {kind : FlashKind} {data : List Byte} {s : State} {lv we : Bool}
    (h : s.nextOutcome = .done lv we) :
    flashOp kind data s = (true, flashEffect kind data (lv || we)
      { ({ s with
          hw.done := false
          hw.issued := s.hw.issued ++ [⟨kind, s.fl.addr, data, s.cfg.unlockKey1, s.cfg.unlockKey2⟩] } : State).takeOutcome with
        hw.lowVoltage := lv, hw.writeError := we, hw.done := true }) := by
  have h' : (⟨s.port, s.crc, s.ciph, s.fl,
      { s.hw with done := false, issued := s.hw.issued ++ [⟨kind, s.fl.addr, data, s.cfg.unlockKey1, s.cfg.unlockKey2⟩] },
      s.fr, s.env, s.rx, s.tx, s.draws, s.inputs, s.cfg⟩ : State).nextOutcome = .done lv we := h
  unfold flashOp
  simp only [h']

/-- Whatever the outcome: the sequencer's registers and the environment stay, and only the target changes. -/
theorem flashOp_frame {kind : FlashKind} {data : List Byte} {s : State} (hd : dataFits s.cfg kind data) :
    (flashOp kind data s).2.fl = s.fl ∧ (flashOp kind data s).2.env = s.env ∧
      FlashFrame s.fl.addr.toNat (flashSpan s.cfg kind) s (flashOp kind data s).2 := by
  cases h : s.nextOutcome with
  | hang =>
    obtain ⟨t, ht, hfl, henv, -, -, -, hf⟩ := flashOp_hang (kind := kind) (data := data) h
    rw [ht]; exact ⟨hfl, henv, hf⟩
  | done lv we =>
    rw [flashOp_done h]
    set u : State := { ({ s with
          hw.done := false
          hw.issued := s.hw.issued ++ [⟨kind, s.fl.addr, data, s.cfg.unlockKey1, s.cfg.unlockKey2⟩] } : State).takeOutcome with
        hw.lowVoltage := lv, hw.writeError := we, hw.done := true } with hu
    have ufl : u.fl = s.fl := by simp [hu]
    have ucfg : u.cfg = s.cfg := by simp [hu]
    have uout : ∀ x, u.flashByte x = s.flashByte x := fun x => by simp [hu, State.flashByte]
    have out : ∀ x, ¬(s.fl.addr.toNat ≤ x ∧ x < s.fl.addr.toNat + flashSpan s.cfg kind) →
        (flashEffect kind data (lv || we) u).flashByte x = s.flashByte x := fun x hx => by
      rw [flashEffect_outside (by rw [ucfg]; exact hd) (by rw [ufl, ucfg]; exact hx), uout]
    obtain ⟨array, draws, he⟩ := flashEffect_eq kind data (lv || we) u
    rw [he] at out ⊢
    refine ⟨ufl, by simp [hu], ?_⟩
    constructor
    case outside => exact out
    all_goals simp [hu]

/-! ### The flash sequence -/

/-- R177, R178: how the corrective clear ends, and what it leaves alone. -/
theorem correctiveClear_cases (s : State) (lo n : Nat) :
    (∃ t, correctiveClear s = (.fail, t) ∧ FlashFrame lo n s t ∧ t.fl = { s.fl with state := .idle } ∧ t.env = s.env) ∨
    (∃ t, correctiveClear s = (.never, t) ∧ FlashFrame lo n s t ∧ t.fl = { s.fl with state := .clrWait } ∧ t.env = s.env) ∨
    (∃ t, correctiveClear s = (.never, t) ∧ FlashFrame lo n s t ∧ t.fl = { s.fl with state := .halt, halted := true } ∧
      t.env = { s.env with status := s.cfg.status.hardwareFailed }) := by
  have hop := flashOp_frame (kind := .nop) (data := []) (s := { s with fl.state := .clrIssue }) (by simp)
  rcases hres : flashOp .nop [] { s with fl.state := .clrIssue } with ⟨completed, t⟩
  have hclear : correctiveClear s = if !completed then (.never, { t with fl.state := .clrWait })
      else if t.flashFault then (.never, ({ t with fl.state := .clrStatus } : State).haltEntry)
      else (.fail, { t with fl.state := .idle }) := by
    unfold correctiveClear
    simp only [hres]
    rfl
  rw [hclear]
  rw [hres] at hop
  obtain ⟨hfl, henv, hf⟩ := hop
  simp only at hfl henv hf
  have hout : ∀ x, t.flashByte x = s.flashByte x := fun x => hf.outside x (by simp [flashSpan])
  have frame : ∀ u : State, u.port = t.port → u.crc = t.crc → u.ciph = t.ciph → u.fr = t.fr → u.rx = t.rx →
      u.tx = t.tx → u.inputs = t.inputs → u.cfg = t.cfg → { u.env with status := s.env.status } = s.env →
      u.fl.data = t.fl.data → u.fl.src = t.fl.src → u.fl.eraseAtt = t.fl.eraseAtt → u.fl.eraseFail = t.fl.eraseFail →
      u.fl.writeFail = t.fl.writeFail → u.fl.first = t.fl.first → u.hw = t.hw → FlashFrame lo n s u := by
    intro u h1 h2 h3 h4 h5 h6 h7 h8 h9 h10 h11 h12 h13 h14 h15 h16
    exact
      { port := h1.trans hf.port, crc := h2.trans hf.crc, ciph := h3.trans hf.ciph, fr := h4.trans hf.fr
        rx := h5.trans hf.rx, tx := h6.trans hf.tx, inputs := h7.trans hf.inputs, cfg := h8.trans hf.cfg, env := h9
        data := h10.trans hf.data, src := h11.trans hf.src, eraseAtt := h12.trans hf.eraseAtt
        eraseFail := h13.trans hf.eraseFail, writeFail := h14.trans hf.writeFail, first := h15.trans hf.first
        outside := fun x _ => by
          have : u.flashByte x = t.flashByte x := by simp [State.flashByte, h16, h8]
          rw [this, hout] }
  cases completed
  · refine .inr (.inl ⟨_, rfl, ?_, by simp [hfl], henv⟩)
    apply frame <;> simp [henv]
  · cases hff : t.flashFault
    · refine .inl ⟨{ t with fl.state := .idle }, by simp, ?_, by simp [hfl], henv⟩
      apply frame <;> simp [henv]
    · refine .inr (.inr ⟨({ t with fl.state := .clrStatus } : State).haltEntry, by simp, ?_, by simp [State.haltEntry, hfl],
        by simp [State.haltEntry, henv, hf.cfg]⟩)
      apply frame <;> simp [henv]

/-- R171: how the flash sequence ends, and what it leaves alone: outside its target nothing in flash changes, and of the
registers only `FL_STATE`, `FL_KIND`, `FL_ADDR` and, at the halt, `HALTED` and `STATUS`. -/
theorem flashSeq_cases {kind : FlashKind} {addr : Word} {data : List Byte} {s : State}
    (hd : dataFits s.cfg kind data) :
    ∃ e t, flashSeq kind addr data s = (e, t) ∧ FlashFrame (phys addr).toNat (flashSpan s.cfg kind) s t ∧
      (((e = .ok ∨ e = .fail) ∧ t.fl = { s.fl with kind := kind, addr := phys addr, state := .idle } ∧ t.env = s.env) ∨
      (e = .never ∧ (t.fl = { s.fl with kind := kind, addr := phys addr, state := .wait } ∨
        t.fl = { s.fl with kind := kind, addr := phys addr, state := .clrWait }) ∧ t.env = s.env) ∨
      (e = .never ∧ t.fl = { s.fl with kind := kind, addr := phys addr, state := .halt, halted := true } ∧
        t.env = { s.env with status := s.cfg.status.hardwareFailed })) := by
  set s0 : State := { s with fl.kind := kind, fl.addr := phys addr, fl.state := .issue } with hs0
  have hop := flashOp_frame (kind := kind) (data := data) (s := s0) hd
  rcases hres : flashOp kind data s0 with ⟨completed, t⟩
  rw [hres] at hop
  obtain ⟨hfl, henv, hf⟩ := hop
  simp only at hfl henv hf
  have frame : ∀ st : FlState, FlashFrame (phys addr).toNat (flashSpan s.cfg kind) s { t with fl.state := st } := by
    intro st
    exact
      { port := hf.port, crc := hf.crc, ciph := hf.ciph, fr := hf.fr, rx := hf.rx, tx := hf.tx, inputs := hf.inputs
        cfg := hf.cfg, env := hf.env, data := hf.data, src := hf.src, eraseAtt := hf.eraseAtt, eraseFail := hf.eraseFail
        writeFail := hf.writeFail, first := hf.first, outside := hf.outside }
  have hseq : flashSeq kind addr data s = if !completed then (.never, { t with fl.state := .wait })
      else if t.flashFault then correctiveClear { t with fl.state := .status } else (.ok, { t with fl.state := .idle }) := by
    unfold flashSeq
    simp only [← hs0, hres]
    rfl
  cases completed
  · refine ⟨.never, { t with fl.state := .wait }, by rw [hseq]; rfl, frame _, .inr (.inl ⟨rfl, .inl ?_, henv⟩)⟩
    simp [hfl, hs0]
  · cases hff : t.flashFault
    · refine ⟨.ok, { t with fl.state := .idle }, by rw [hseq]; simp [hff], frame _, .inl ⟨.inl rfl, ?_, henv⟩⟩
      simp [hfl, hs0]
    · have hc := correctiveClear_cases { t with fl.state := .status } (phys addr).toNat (flashSpan s.cfg kind)
      rw [hseq]
      simp only [hff, Bool.not_true, Bool.false_eq_true, if_false, if_true]
      rcases hc with ⟨u, hu, huf, hufl, huenv⟩ | ⟨u, hu, huf, hufl, huenv⟩ | ⟨u, hu, huf, hufl, huenv⟩
      · exact ⟨_, u, hu, (frame .status).trans huf, .inl ⟨.inr rfl, by rw [hufl]; simp [hfl, hs0], by rw [huenv]; exact henv⟩⟩
      · exact ⟨_, u, hu, (frame .status).trans huf,
          .inr (.inl ⟨rfl, .inr (by rw [hufl]; simp [hfl, hs0]), by rw [huenv]; exact henv⟩)⟩
      · exact ⟨_, u, hu, (frame .status).trans huf,
          .inr (.inr ⟨rfl, by rw [hufl]; simp [hfl, hs0], by rw [huenv]; simp [henv, hf.cfg, hs0]⟩)⟩

end Sys2Proof.Machine
end

