-- ==== Sys2Proof/Laws/Cipher.lean ====
section
/-! SUPPORT. What the cipher's shared operations do, said once: the block counter as one 64-bit number, one block, one
pass and all passes of the XOR unit. -/

namespace Sys2Proof.Machine

@[simp] theorem getElem_vecOf {α : Type} (n : Nat) (f : Nat → α) (i : Nat) (h : i < n) : (vecOf n f)[i] = f i := by
  simp [vecOf]

@[simp] theorem toList_vecOf {α : Type} (n : Nat) (f : Nat → α) : (vecOf n f).toList = (List.range n).map f := rfl

theorem getD_toList {α : Type} {n : Nat} (v : Vector α n) (i : Nat) (h : i < n) (d : α) : v.toList.getD i d = v[i] := by
  simp [List.getD_eq_getElem?_getD, h]

/-- R145, R146: a word of the scratch array after one evaluation. -/
theorem getElem_keystreamWords (rounds : Nat) (x : Block) (i : Nat) (h : i < 16) :
    (keystreamWords rounds x)[i] = (doubleRounds rounds x)[i] + x[i] := by
  unfold keystreamWords
  rw [getElem_vecOf, getD_toList _ _ h, getD_toList _ _ h]

/-- R146: a keystream byte. -/
theorem getElem_keystreamBytes (v : Block) (i : Nat) (h : i < 64) :
    (keystreamBytes v)[i] = v[i / 4].extractLsb' (8 * (i % 4)) 8 := by
  unfold keystreamBytes
  rw [getElem_vecOf, getD_toList _ _ (by omega)]
  have h4 : i % 4 < 4 := Nat.mod_lt _ (by decide)
  generalize i % 4 = k at h4
  match k with
  | 0 => rfl
  | 1 => rfl
  | 2 => rfl
  | 3 => rfl
  | k + 4 => omega

/-! ### The block counter (R32, R147) -/

theorem toNat_append_word (u v : Word) : (u ++ v : BitVec 64).toNat = u.toNat * 2 ^ 32 + v.toNat := by
  rw [BitVec.toNat_append, Nat.shiftLeft_eq, Nat.mul_comm, Nat.two_pow_add_eq_or_of_lt v.isLt]

theorem extractLsb'_low_append (u v : Word) : (u ++ v : BitVec 64).extractLsb' 0 32 = v := by
  apply BitVec.eq_of_toNat_eq
  rw [BitVec.extractLsb'_toNat, toNat_append_word, Nat.shiftRight_zero]
  have := v.isLt
  omega

theorem extractLsb'_high_append (u v : Word) : (u ++ v : BitVec 64).extractLsb' 32 32 = u := by
  apply BitVec.eq_of_toNat_eq
  rw [BitVec.extractLsb'_toNat, toNat_append_word, Nat.shiftRight_eq_div_pow]
  have := v.isLt
  have := u.isLt
  omega

@[simp] theorem blockCounter_withCounter (x : Block) (c : BitVec 64) : blockCounter (withCounter x c) = c := by
  have h12 : (withCounter x c)[12] = c.extractLsb' 0 32 := by simp [withCounter]
  have h13 : (withCounter x c)[13] = c.extractLsb' 32 32 := by simp [withCounter]
  unfold blockCounter
  rw [h12, h13]
  apply BitVec.eq_of_toNat_eq
  rw [toNat_append_word, BitVec.extractLsb'_toNat, BitVec.extractLsb'_toNat, Nat.shiftRight_eq_div_pow, Nat.shiftRight_zero]
  have := c.isLt
  omega

@[simp] theorem withCounter_withCounter (x : Block) (c d : BitVec 64) : withCounter (withCounter x c) d = withCounter x d := by
  apply Vector.ext
  intro i h
  simp only [withCounter, Vector.getElem_set]
  split
  · rfl
  · split <;> rfl

theorem withCounter_blockCounter (x : Block) : withCounter x (blockCounter x) = x := by
  apply Vector.ext
  intro i h
  simp only [withCounter, blockCounter, Vector.getElem_set]
  split
  · rename_i hi; subst hi; exact extractLsb'_high_append _ _
  · split
    · rename_i hi; subst hi; exact extractLsb'_low_append _ _
    · rfl

/-- R147: advancing the low word, and the high word with its carry, advances the 64-bit counter. -/
theorem set_advanceCounter (x : Block) :
    (x.set 12 (advanceCounter x[12] x[13]).1).set 13 (advanceCounter x[12] x[13]).2 =
      withCounter x (blockCounter x + 1#64) := by
  have key : ∀ lo hi : Word,
      (hi ++ lo : BitVec 64) + 1#64 = ((if lo + 1#32 = 0#32 then hi + 1#32 else hi) ++ (lo + 1#32) : BitVec 64) := by
    intro lo hi
    apply BitVec.eq_of_toNat_eq
    have hlo := lo.isLt
    have hhi := hi.isLt
    have e0 : lo + 1#32 = 0#32 ↔ lo.toNat = 2 ^ 32 - 1 := by
      rw [← BitVec.toNat_inj, BitVec.toNat_add]; simp; omega
    rw [BitVec.toNat_add, toNat_append_word, toNat_append_word]
    split
    · rename_i h; rw [e0] at h; simp [BitVec.toNat_add, h]; omega
    · rename_i h; rw [e0] at h; simp [BitVec.toNat_add]; omega
  have e : blockCounter x + 1#64 = (advanceCounter x[12] x[13]).2 ++ (advanceCounter x[12] x[13]).1 := key _ _
  rw [e]
  unfold withCounter
  rw [extractLsb'_low_append, extractLsb'_high_append]

/-- What one block does (R145 to R147). -/
theorem cipherBlock_eq (s : State) :
    cipherBlock s =
      { s with
        ciph.s := keystreamWords s.cfg.nDoubleRounds s.ciph.x
        ciph.ks := keystreamBlock s.cfg.nDoubleRounds s.ciph.x (blockCounter s.ciph.x)
        ciph.x := withCounter s.ciph.x (blockCounter s.ciph.x + 1#64) } := by
  unfold cipherBlock
  simp only [set_advanceCounter, keystreamBlock, withCounter_blockCounter]

@[simp] theorem keystreamBlock_withCounter (rounds : Nat) (x : Block) (c d : BitVec 64) :
    keystreamBlock rounds (withCounter x c) d = keystreamBlock rounds x d := by
  simp [keystreamBlock]

/-! ### The XOR unit (R150) -/

/-- One pass over `m` bytes: they are XORed with the block of the present counter, which advances. -/
theorem cipherPass_eq (off : Nat) (s : State) :
    ∃ sc ks buf, cipherPass off s =
      { s with
        ciph :=
          { s.ciph with
            x := withCounter s.ciph.x (blockCounter s.ciph.x + 1#64), s := sc, ks := ks
            cOff := s.ciph.cOff + BitVec.ofNat 32 (min 64 s.ciph.cRem.toNat)
            cRem := s.ciph.cRem - BitVec.ofNat 32 (min 64 s.ciph.cRem.toNat) }
        fr.buf := buf }
      ∧ ∀ p, Memory.read 0#8 buf p =
          if off + s.ciph.cOff.toNat ≤ p ∧ p < off + s.ciph.cOff.toNat + min 64 s.ciph.cRem.toNat then
            s.bufByte p ^^^ (keystreamBlock s.cfg.nDoubleRounds s.ciph.x (blockCounter s.ciph.x)).toList.getD
              (p - (off + s.ciph.cOff.toNat)) 0#8
          else s.bufByte p := by
  unfold cipherPass
  simp only [cipherBlock_eq]
  refine ⟨_, _, _, rfl, fun p => ?_⟩
  simp only [State.bufRange]
  rw [Memory.read_writeRange]
  simp only [List.length_zipWith, Memory.length_readRange, Vector.length_toList]
  rw [Nat.min_right_comm, Nat.min_self]
  split
  · rename_i hp
    rw [List.getD_eq_getElem?_getD, List.getElem?_zipWith]
    have h1 : p - (off + s.ciph.cOff.toNat) < min 64 s.ciph.cRem.toNat := by omega
    rw [List.getElem?_eq_getElem (by simpa using h1), Memory.getElem_readRange h1,
      List.getElem?_eq_getElem (by simp; omega)]
    simp only [Option.getD_some, State.bufByte]
    rw [show off + s.ciph.cOff.toNat + (p - (off + s.ciph.cOff.toNat)) = p by omega]
    simp [List.getD_eq_getElem?_getD, show p - (off + s.ciph.cOff.toNat) < 64 by omega]
  · rfl

/-- R150, R151, R152: `k` passes empty `C_REM` and move every byte's keystream position on. -/
theorem cipherPasses_eq (k off r o : Nat) (s : State) (hr : s.ciph.cRem.toNat = r) (ho : s.ciph.cOff.toNat = o)
    (hk : k = (r + 63) / 64) (hlt : o + r < 2 ^ 32) :
    ∃ sc ks buf, cipherPasses k off s =
      { s with
        ciph :=
          { s.ciph with
            x := withCounter s.ciph.x (blockCounter s.ciph.x + BitVec.ofNat 64 k), s := sc, ks := ks
            cOff := BitVec.ofNat 32 (o + r), cRem := 0#32 }
        fr.buf := buf }
      ∧ ∀ p, Memory.read 0#8 buf p =
          if off + o ≤ p ∧ p < off + o + r then
            s.bufByte p ^^^ (keystreamBlock s.cfg.nDoubleRounds s.ciph.x
              (blockCounter s.ciph.x + BitVec.ofNat 64 ((p - (off + o)) / 64))).toList.getD ((p - (off + o)) % 64) 0#8
          else s.bufByte p := by
  induction k generalizing s r o with
  | zero =>
    have hz : r = 0 := by omega
    subst hz
    have e1 : s.ciph.cRem = 0#32 := BitVec.eq_of_toNat_eq (by simpa using hr)
    have e2 : s.ciph.cOff = BitVec.ofNat 32 (o + 0) := BitVec.eq_of_toNat_eq (by simp [ho]; omega)
    refine ⟨s.ciph.s, s.ciph.ks, s.fr.buf, ?_, fun p => ?_⟩
    · show s = _
      rw [← e2, ← e1]
      simp [withCounter_blockCounter]
    · rw [if_neg (by omega)]; rfl
  | succ k ih =>
    obtain ⟨sc, ks, buf, hp, hb⟩ := cipherPass_eq off s
    rw [hr, ho] at hb
    rw [hr] at hp
    have hm : min 64 r ≤ r := Nat.min_le_right _ _
    have hrem : (cipherPass off s).ciph.cRem.toNat = r - min 64 r := by
      rw [hp]; simp only [BitVec.toNat_sub, hr, BitVec.toNat_ofNat]; omega
    have hoff : (cipherPass off s).ciph.cOff.toNat = o + min 64 r := by
      rw [hp]; simp only [BitVec.toNat_add, ho, BitVec.toNat_ofNat]; omega
    obtain ⟨sc', ks', buf', hp', hb'⟩ := ih (r - min 64 r) (o + min 64 r) (cipherPass off s) hrem hoff (by omega) (by omega)
    refine ⟨sc', ks', buf', ?_, fun p => ?_⟩
    · show cipherPasses k off (cipherPass off s) = _
      rw [hp', hp]
      simp only [blockCounter_withCounter, withCounter_withCounter]
      have e1 : blockCounter s.ciph.x + 1#64 + BitVec.ofNat 64 k = blockCounter s.ciph.x + BitVec.ofNat 64 (k + 1) := by
        rw [BitVec.add_assoc]; congr 1; apply BitVec.eq_of_toNat_eq; simp [Nat.add_comm]
      have e2 : o + min 64 r + (r - min 64 r) = o + r := by omega
      rw [e1, e2]
    · rw [hb' p]
      have hbyte : (cipherPass off s).bufByte p = Memory.read 0#8 buf p := by rw [hp]; rfl
      have hx : (cipherPass off s).ciph.x = withCounter s.ciph.x (blockCounter s.ciph.x + 1#64) := by rw [hp]
      have hcfg : (cipherPass off s).cfg = s.cfg := by rw [hp]
      rw [hbyte, hx, hcfg, hb p, blockCounter_withCounter, keystreamBlock_withCounter]
      by_cases hin : off + o ≤ p ∧ p < off + o + r
      · rw [if_pos hin]
        by_cases h64 : p < off + o + min 64 r
        · have hd : (p - (off + o)) / 64 = 0 := by omega
          have hmod : (p - (off + o)) % 64 = p - (off + o) := by omega
          rw [if_neg (by omega), if_pos (by omega), hd, hmod]; simp
        · have hd : (p - (off + o)) / 64 = (p - (off + (o + min 64 r))) / 64 + 1 := by omega
          have hmod : (p - (off + o)) % 64 = (p - (off + (o + min 64 r))) % 64 := by omega
          have e1 : blockCounter s.ciph.x + 1#64 + BitVec.ofNat 64 ((p - (off + (o + min 64 r))) / 64)
              = blockCounter s.ciph.x + BitVec.ofNat 64 ((p - (off + (o + min 64 r))) / 64 + 1) := by
            rw [BitVec.add_assoc]; congr 1; apply BitVec.eq_of_toNat_eq; simp [Nat.add_comm]
          rw [if_pos (by omega), if_neg (by omega), hd, hmod, e1]
      · rw [if_neg (by omega), if_neg (by omega), if_neg hin]

/-- R150 to R153: what `CIPH.PROC` does to a range. -/
theorem cipherRange_eq (off n : Nat) (s : State) (hn : n < 2 ^ 32) :
    ∃ sc ks buf, cipherRange off n s =
      { s with
        ciph :=
          { s.ciph with
            x := withCounter s.ciph.x (blockCounter s.ciph.x + BitVec.ofNat 64 ((n + 63) / 64)), s := sc, ks := ks
            cOff := 0#32, cRem := 0#32 }
        fr.buf := buf }
      ∧ ∀ p, Memory.read 0#8 buf p =
          if off ≤ p ∧ p < off + n then
            s.bufByte p ^^^ (keystreamBlock s.cfg.nDoubleRounds s.ciph.x
              (blockCounter s.ciph.x + BitVec.ofNat 64 ((p - off) / 64))).toList.getD ((p - off) % 64) 0#8
          else s.bufByte p := by
  obtain ⟨sc, ks, buf, hp, hb⟩ := cipherPasses_eq ((n + 63) / 64) off n 0
    { s with ciph.cRem := BitVec.ofNat 32 n, ciph.cOff := 0#32 } (by simp; omega) rfl rfl (by omega)
  exact ⟨sc, ks, buf, by unfold cipherRange; simp only [hp], hb⟩

end Sys2Proof.Machine
end

