-- ==== Sys2Proof/Laws/Guard.lean ====
section
/-! SUPPORT. The pure predicates of the controller against the terms of the claims: the Address Guard (R286), the one
flash range of R294, the shim of R296. -/

namespace Sys2Proof.Machine

/-- R286: the clamped intersection is not empty exactly when an address lies in both intervals. -/
theorem overlap_pos_iff (s n lo m : Nat) :
    0 < overlap s (s + n) lo (lo + m) ↔ ∃ p, (s ≤ p ∧ p < s + n) ∧ within lo m p = true := by
  simp only [overlap, within, Bool.and_eq_true, decide_eq_true_eq]
  constructor
  · intro h; exact ⟨max s lo, by omega⟩
  · rintro ⟨p, h⟩; omega

theorem hitsEngine_iff (cfg : Params) (a : Word) (n : Nat) :
    hitsEngine cfg (phys a).toNat ((phys a).toNat + n) = true
      ↔ ∃ p, inTarget a n p ∧ within (phys cfg.engineBase).toNat cfg.engineSize p = true := by
  unfold hitsEngine; rw [decide_eq_true_eq, overlap_pos_iff]

theorem hitsBoot_iff (cfg : Params) (a : Word) (n : Nat) :
    hitsBoot cfg (phys a).toNat ((phys a).toNat + n) = true
      ↔ ∃ p, inTarget a n p ∧ within (phys cfg.bootBase).toNat cfg.bootSize p = true := by
  unfold hitsBoot; rw [decide_eq_true_eq, overlap_pos_iff]

theorem hitsConfig_iff (cfg : Params) (a : Word) (n : Nat) :
    hitsConfig cfg (phys a).toNat ((phys a).toNat + n) = true
      ↔ ∃ p, inTarget a n p ∧ within (configLow cfg) (configHigh cfg - configLow cfg) p = true := by
  unfold hitsConfig
  rw [decide_eq_true_eq]
  by_cases h : configLow cfg ≤ configHigh cfg
  · have := overlap_pos_iff (phys a).toNat n (configLow cfg) (configHigh cfg - configLow cfg)
    rwa [show configLow cfg + (configHigh cfg - configLow cfg) = configHigh cfg by omega] at this
  · constructor
    · intro h'; unfold overlap at h'; omega
    · rintro ⟨p, h1, h2⟩; simp [within] at h2; omega

/-- A target holds a protected byte exactly when one of the three tests of R286 hits. -/
theorem meets_protected_iff (cfg : Params) (a : Word) (n : Nat) :
    (∃ p, inTarget a n p ∧ protectedByte cfg p = true)
      ↔ hitsEngine cfg (phys a).toNat ((phys a).toNat + n) = true
        ∨ (cfg.bootProtect = true ∧ hitsBoot cfg (phys a).toNat ((phys a).toNat + n) = true)
        ∨ hitsConfig cfg (phys a).toNat ((phys a).toNat + n) = true := by
  rw [hitsEngine_iff, hitsBoot_iff, hitsConfig_iff]
  simp only [protectedByte, Bool.or_eq_true, Bool.and_eq_true]
  constructor
  · rintro ⟨p, h, (h1 | ⟨h1, h2⟩) | h1⟩
    · exact .inl ⟨p, h, h1⟩
    · exact .inr (.inl ⟨h1, p, h, h2⟩)
    · exact .inr (.inr ⟨p, h, h1⟩)
  · rintro (⟨p, h, h1⟩ | ⟨h1, p, h, h2⟩ | ⟨p, h, h1⟩)
    · exact ⟨p, h, .inl (.inl h1)⟩
    · exact ⟨p, h, .inl (.inr ⟨h1, h2⟩)⟩
    · exact ⟨p, h, .inr h1⟩

/-- R294. -/
theorem insideOneRange_iff (cfg : Params) (a : Word) (n : Nat) :
    insideOneRange cfg (phys a).toNat n = true ↔ inOneRange cfg a n := by
  simp [insideOneRange, inOneRange, List.any_eq_true]

/-- R296. -/
theorem shimPresent_iff (s : State) (l : Half) : shimPresent s l = true ↔ carriesShim s l.toNat := by
  simp only [shimPresent, carriesShim, List.any_eq_true, List.mem_range, Bool.and_eq_true, decide_eq_true_eq, beq_iff_eq]
  constructor
  · rintro ⟨k, _, h⟩; exact ⟨k, h⟩
  · rintro ⟨k, h⟩; exact ⟨k, by omega, h⟩

end Sys2Proof.Machine
end

