-- ==== Sys2Proof/Laws/Flash.lean ====
section
/-! SUPPORT. What a flash hardware operation and the flash sequence leave, said once for each outcome: the state
written out, and the array as the same array or as one store of the target. -/

namespace Sys2Proof.Machine

/-- R97: what the range check decides, in the terms of the claims. -/
theorem flashFits_iff_flashRangeFits (cfg : Params) (a : Word) (n : Nat) :
    flashFits cfg a n = true ↔ flashRangeFits cfg a n := by
  rw [flashFits_iff]; simp only [flashRangeFits, flashAt, isFlash_iff]; rfl

theorem flashFits_eq_false {cfg : Params} {a : Word} {n : Nat} (h : ¬flashRangeFits cfg a n) : flashFits cfg a n = false := by
  rw [← Bool.not_eq_true, flashFits_iff_flashRangeFits]; exact h

@[simp] theorem aligned_eq_true (n : Nat) (a : Word) : aligned n a = true ↔ a.toNat % n = 0 := by simp [aligned]

@[simp] theorem bufFits_eq_true (cfg : Params) (off n : Nat) : bufFits cfg off n = true ↔ off + n ≤ cfg.bufCap := by
  simp [bufFits]

/-- The array after a completed operation of a kind at `base` (R175): the same one, or one store of the whole target. -/
structure ArrayAfter (cfg : Params) (kind : FlashKind) (base : Nat) (data : List Byte) (bad : Bool)
    (before after : Memory) : Prop where
  store : after = before ∨
    ∃ bytes, bytes.length = flashSpan cfg kind ∧ after = Memory.writeRange cfg.erasedByte before base bytes
  nop : kind = .nop → after = before
  erased : kind = .erase → bad = false → ∀ x, base ≤ x → x < base + cfg.pageSize →
    Memory.read cfg.erasedByte after x = cfg.erasedByte
  written : kind = .row ∨ kind = .word → bad = false →
    (∀ x, base ≤ x → x < base + flashSpan cfg kind → Memory.read cfg.erasedByte before x = cfg.erasedByte) →
    ∀ i, i < flashSpan cfg kind → Memory.read cfg.erasedByte after (base + i) = data.getD i cfg.erasedByte

theorem ArrayAfter.outside {cfg : Params} {kind : FlashKind} {base : Nat} {data : List Byte} {bad : Bool}
    {before after : Memory} (h : ArrayAfter cfg kind base data bad before after) {x : Nat}
    (hx : ¬(base ≤ x ∧ x < base + flashSpan cfg kind)) :
    Memory.read cfg.erasedByte after x = Memory.read cfg.erasedByte before x := by
  rcases h.store with h | ⟨bytes, hl, h⟩
  · rw [h]
  · rw [h, Memory.read_writeRange_outside (by rw [hl]; exact hx)]

/-- R175: the effect of a completed operation, written out. -/
theorem flashEffect_spec (kind : FlashKind) (data : List Byte) (bad : Bool) (s : State) (hd : dataFits s.cfg kind data) :
    ∃ array draws, flashEffect kind data bad s = { s with hw.array := array, draws := draws }
      ∧ ArrayAfter s.cfg kind s.fl.addr.toNat data bad s.hw.array array := by
  have scrambled : ∃ array draws, s.scramble s.fl.addr.toNat (flashSpan s.cfg kind)
      = { s with hw.array := array, draws := draws } ∧
      ∃ bytes, bytes.length = flashSpan s.cfg kind ∧
        array = Memory.writeRange s.cfg.erasedByte s.hw.array s.fl.addr.toNat bytes :=
    ⟨_, _, rfl, _, Draws.length_take _ _, rfl⟩
  have allErased : (∀ x, s.fl.addr.toNat ≤ x → x < s.fl.addr.toNat + flashSpan s.cfg kind →
      Memory.read s.cfg.erasedByte s.hw.array x = s.cfg.erasedByte) →
      (s.flashRange s.fl.addr.toNat (flashSpan s.cfg kind)).all (· == s.cfg.erasedByte) = true := by
    intro h
    rw [List.all_eq_true]
    intro b hb
    obtain ⟨i, hi, rfl⟩ := List.getElem_of_mem hb
    have hi' : i < flashSpan s.cfg kind := by simpa [State.flashRange] using hi
    simp only [State.flashRange, Memory.getElem_readRange hi', beq_iff_eq]
    exact h _ (by omega) (by omega)
  cases kind with
  | nop => exact ⟨s.hw.array, s.draws, rfl, ⟨.inl rfl, fun _ => rfl, by simp, by simp⟩⟩
  | erase =>
    cases bad with
    | true =>
      obtain ⟨array, draws, he, bytes, hl, ha⟩ := scrambled
      exact ⟨array, draws, he, ⟨.inr ⟨bytes, hl, ha⟩, by simp, by simp, by simp⟩⟩
    | false =>
      refine ⟨_, _, rfl, ⟨.inr ⟨List.replicate s.cfg.pageSize s.cfg.erasedByte, by simp [flashSpan], rfl⟩, by simp, ?_, by simp⟩⟩
      intro _ _ x h1 h2
      simp only [flashSpan]
      rw [Memory.read_writeRange, if_pos (by simp; omega)]
      rw [List.getD_eq_getElem?_getD, List.getElem?_replicate]; split <;> rfl
  | row | word =>
    all_goals
      unfold flashEffect
      simp only
      split
      · rename_i hc
        obtain ⟨array, draws, he, bytes, hl, ha⟩ := scrambled
        refine ⟨array, draws, he, ⟨.inr ⟨bytes, hl, ha⟩, by simp, by simp, ?_⟩⟩
        intro _ hbad herased
        simp [hbad, allErased herased] at hc
      · have hl := hd (by simp)
        refine ⟨_, _, rfl, ⟨.inr ⟨data, hl, rfl⟩, by simp, by simp, ?_⟩⟩
        intro _ _ _ i hi
        rw [Memory.read_writeRange, if_pos (by rw [hl]; omega), Nat.add_sub_cancel_left]

/-- R172 to R175: a completed hardware operation, the state written out. -/
theorem flashOp_completes {kind : FlashKind} {data : List Byte} {s : State} {lv we : Bool}
    (h : s.nextOutcome = .done lv we) (hd : dataFits s.cfg kind data) :
    ∃ array draws, flashOp kind data s = (true,
        { s with
          hw :=
            { array := array, done := true, lowVoltage := lv, writeError := we
              issued := s.hw.issued ++ [⟨kind, s.fl.addr, data, s.cfg.unlockKey1, s.cfg.unlockKey2⟩]
              script := s.hw.script.tail }
          draws := draws })
      ∧ ArrayAfter s.cfg kind s.fl.addr.toNat data (lv || we) s.hw.array array := by
  rw [flashOp_done h]
  have htake : ∃ d, ({ s with
      hw.done := false
      hw.issued := s.hw.issued ++ [⟨kind, s.fl.addr, data, s.cfg.unlockKey1, s.cfg.unlockKey2⟩] } : State).takeOutcome =
      { s with
        hw.done := false
        hw.issued := s.hw.issued ++ [⟨kind, s.fl.addr, data, s.cfg.unlockKey1, s.cfg.unlockKey2⟩]
        hw.script := s.hw.script.tail, draws := d } := by
    unfold State.takeOutcome
    cases hs : s.hw.script with
    | nil => exact ⟨_, by simp only [List.tail_nil]; rw [← hs]⟩
    | cons o rest => exact ⟨_, rfl⟩
  obtain ⟨d, ht⟩ := htake
  rw [ht]
  obtain ⟨array, draws, he, ha⟩ := flashEffect_spec kind data (lv || we)
    { s with
      hw :=
        { array := s.hw.array, done := true, lowVoltage := lv, writeError := we
          issued := s.hw.issued ++ [⟨kind, s.fl.addr, data, s.cfg.unlockKey1, s.cfg.unlockKey2⟩]
          script := s.hw.script.tail }
      draws := d } hd
  exact ⟨array, draws, by rw [he], ha⟩

/-- R173: a hardware operation that does not complete, the state written out. -/
theorem flashOp_hangs {kind : FlashKind} {data : List Byte} {s : State} (h : s.nextOutcome = .hang) :
    ∃ draws, flashOp kind data s = (false,
      { s with
        hw :=
          { s.hw with
            done := false, issued := s.hw.issued ++ [⟨kind, s.fl.addr, data, s.cfg.unlockKey1, s.cfg.unlockKey2⟩]
            script := s.hw.script.tail }
        draws := draws }) := by
  have hs : ∃ rest, s.hw.script = .hang :: rest := by
    unfold State.nextOutcome at h
    cases hs : s.hw.script with
    | nil => rw [hs] at h; cases h
    | cons o rest => rw [hs] at h; cases h; exact ⟨rest, rfl⟩
  obtain ⟨rest, hs⟩ := hs
  refine ⟨s.draws, ?_⟩
  simp only [flashOp, State.nextOutcome, State.takeOutcome, hs, List.tail_cons]

/-- R171, no fault reported. -/
theorem flashSeq_ok {kind : FlashKind} {addr : Word} {data : List Byte} {s : State}
    (h : s.nextOutcome = .done false false) (hd : dataFits s.cfg kind data) :
    ∃ array draws, flashSeq kind addr data s = (.ok,
        { s with
          fl.kind := kind, fl.addr := phys addr, fl.state := .idle
          hw :=
            { array := array, done := true, lowVoltage := false, writeError := false
              issued := s.hw.issued ++ [presented s.cfg kind addr data], script := s.hw.script.tail }
          draws := draws })
      ∧ ArrayAfter s.cfg kind (phys addr).toNat data false s.hw.array array := by
  obtain ⟨array, draws, he, ha⟩ := flashOp_completes (kind := kind) (data := data)
    (s := { s with fl.kind := kind, fl.addr := phys addr, fl.state := .issue }) h hd
  refine ⟨array, draws, ?_, ha⟩
  unfold flashSeq
  simp only [he]
  simp [State.flashFault, presented]

/-- R171, R173: the operation does not complete. -/
theorem flashSeq_hang {kind : FlashKind} {addr : Word} {data : List Byte} {s : State} (h : s.nextOutcome = .hang) :
    ∃ draws, flashSeq kind addr data s = (.never,
        { s with
          fl.kind := kind, fl.addr := phys addr, fl.state := .wait
          hw :=
            { s.hw with
              done := false, issued := s.hw.issued ++ [presented s.cfg kind addr data], script := s.hw.script.tail }
          draws := draws }) := by
  obtain ⟨draws, he⟩ := flashOp_hangs (kind := kind) (data := data)
    (s := { s with fl.kind := kind, fl.addr := phys addr, fl.state := .issue }) h
  refine ⟨draws, ?_⟩
  unfold flashSeq
  simp only [he]
  simp [presented]

/-- R177, R178: the corrective clear, by the outcome of its no-op. -/
theorem correctiveClear_spec (s : State) :
    let cmd : FlashCmd := ⟨.nop, s.fl.addr, [], s.cfg.unlockKey1, s.cfg.unlockKey2⟩
    (∃ draws, s.nextOutcome = .hang ∧ correctiveClear s = (.never,
      { s with
        fl.state := .clrWait
        hw := { s.hw with done := false, issued := s.hw.issued ++ [cmd], script := s.hw.script.tail }
        draws := draws })) ∨
    (∃ draws, s.nextOutcome = .done false false ∧ correctiveClear s = (.fail,
      { s with
        fl.state := .idle
        hw :=
          { array := s.hw.array, done := true, lowVoltage := false, writeError := false
            issued := s.hw.issued ++ [cmd], script := s.hw.script.tail }
        draws := draws })) ∨
    (∃ lv we draws, s.nextOutcome = .done lv we ∧ (lv || we) = true ∧ correctiveClear s = (.never,
      { s with
        fl.state := .halt, fl.halted := true
        hw :=
          { array := s.hw.array, done := true, lowVoltage := lv, writeError := we
            issued := s.hw.issued ++ [cmd], script := s.hw.script.tail }
        draws := draws, env.status := s.cfg.status.hardwareFailed })) := by
  intro cmd
  cases ho : s.nextOutcome with
  | hang =>
    obtain ⟨draws, he⟩ := flashOp_hangs (kind := .nop) (data := []) (s := { s with fl.state := .clrIssue }) ho
    refine .inl ⟨draws, rfl, ?_⟩
    unfold correctiveClear
    simp only [he]
    simp [cmd]
  | done lv we =>
    obtain ⟨array, draws, he, ha⟩ := flashOp_completes (kind := .nop) (data := [])
      (s := { s with fl.state := .clrIssue }) ho (by simp)
    have harray : array = s.hw.array := ha.nop rfl
    subst harray
    cases hbad : (lv || we) with
    | false =>
      have : lv = false ∧ we = false := by simpa using hbad
      obtain ⟨rfl, rfl⟩ := this
      refine .inr (.inl ⟨draws, rfl, ?_⟩)
      unfold correctiveClear
      simp only [he]
      simp [State.flashFault, cmd]
    | true =>
      refine .inr (.inr ⟨lv, we, draws, rfl, hbad, ?_⟩)
      unfold correctiveClear
      simp only [he]
      simp only [State.flashFault, hbad, Bool.not_true, Bool.false_eq_true, if_false, if_true]
      simp [State.haltEntry, cmd]

/-- R171, R177, R178: a fault is reported; the sequence goes on to the corrective clear. -/
theorem flashSeq_faulty {kind : FlashKind} {addr : Word} {data : List Byte} {s : State} {lv we : Bool}
    (h : s.nextOutcome = .done lv we) (hbad : (lv || we) = true) (hd : dataFits s.cfg kind data) :
    ∃ array draws, flashSeq kind addr data s = correctiveClear
        { s with
          fl.kind := kind, fl.addr := phys addr, fl.state := .status
          hw :=
            { array := array, done := true, lowVoltage := lv, writeError := we
              issued := s.hw.issued ++ [presented s.cfg kind addr data], script := s.hw.script.tail }
          draws := draws }
      ∧ ArrayAfter s.cfg kind (phys addr).toNat data true s.hw.array array := by
  obtain ⟨array, draws, he, ha⟩ := flashOp_completes (kind := kind) (data := data)
    (s := { s with fl.kind := kind, fl.addr := phys addr, fl.state := .issue }) h hd
  rw [hbad] at ha
  refine ⟨array, draws, ?_, ha⟩
  unfold flashSeq
  simp only [he]
  simp [State.flashFault, presented, hbad]

end Sys2Proof.Machine
end

