-- ==== Sys2Proof/Laws/Range.lean ====
section
/-! SUPPORT. What a range write does (R206, R207): one sub-operation, the loop over them with the outcomes the hardware
supplies, and the chunking law. -/

namespace Sys2Proof.Machine

/-- What a range write needs of the row size (R10) and of its operands (R206). -/
structure RangeReady (cfg : Params) (a n off : Word) : Prop where
  rowPos : 0 < cfg.rowSize
  rowWords : cfg.rowSize % 4 = 0
  cap : cfg.bufCap < 2 ^ 32
  checks : rangePassesChecks cfg a n off

/-- R206: how far one turn of the loop goes from position `p`. -/
def rangeStep (cfg : Params) (a n p : Nat) : Nat := if takesRow cfg a n p then cfg.rowSize else 4

/-- R206: the sub-operation the loop presents at position `p`. -/
def pieceAt (s : State) (a n off p : Nat) : FlashCmd :=
  if takesRow s.cfg a n p then rangePiece s .row s.cfg.rowSize a off (a + p) else rangePiece s .word 4 a off (a + p)

/-- R206: the sub-operations the loop presents from position `p` on. -/
def loopPieces (s : State) (a n off : Nat) : Nat → Nat → List FlashCmd
  | 0, _ => []
  | fuel + 1, p => if n ≤ p then [] else pieceAt s a n off p :: loopPieces s a n off fuel (p + rangeStep s.cfg a n p)

theorem pieceAt_congr {s t : State} (hc : t.cfg = s.cfg) (hf : t.fr = s.fr) (a n off p : Nat) :
    pieceAt t a n off p = pieceAt s a n off p := by
  simp [pieceAt, rangePiece, presented, State.bufRange, hc, hf]

theorem loopPieces_congr {s t : State} (hc : t.cfg = s.cfg) (hf : t.fr = s.fr) (a n off fuel p : Nat) :
    loopPieces t a n off fuel p = loopPieces s a n off fuel p := by
  induction fuel generalizing p with
  | zero => rfl
  | succ fuel ih => simp only [loopPieces, pieceAt_congr hc hf, ih, hc]

theorem takesRow_iff (cfg : Params) (a n p : Nat) :
    takesRow cfg a n p = true ↔ (a + p) % cfg.rowSize = 0 ∧ cfg.rowSize ≤ n - p := by simp [takesRow]

namespace RangeReady

variable {cfg : Params} {a n off : Word} (h : RangeReady cfg a n off) {p : Nat}
include h

theorem addr_lt : a.toNat + n.toNat ≤ 2 ^ 32 := by
  have h1 := h.checks.2.2.1.1
  rw [toNat_phys] at h1
  have := a.isLt
  have e : (2 : Nat) ^ 29 = physSpace := rfl
  simp only [physSpace] at h1
  omega

omit h in
theorem rowStep (hp : p < n.toNat) (ht : takesRow cfg a.toNat n.toNat p = true) : p + cfg.rowSize ≤ n.toNat := by
  have := (takesRow_iff ..).mp ht; omega

theorem step_le (hp : p < n.toNat) (hp4 : p % 4 = 0) : p + rangeStep cfg a.toNat n.toNat p ≤ n.toNat := by
  unfold rangeStep
  split
  · exact rowStep hp (by assumption)
  · have := h.checks.2.2.2.1; omega

theorem step_mod (hp4 : p % 4 = 0) : (p + rangeStep cfg a.toNat n.toNat p) % 4 = 0 := by
  unfold rangeStep
  have := h.rowWords
  split <;> omega

theorem step_ge : 4 ≤ rangeStep cfg a.toNat n.toNat p := by
  unfold rangeStep
  have := h.rowWords
  have := h.rowPos
  split <;> omega

theorem toNat_target (hp : p < n.toNat) : (a + BitVec.ofNat 32 p).toNat = a.toNat + p := by
  have := h.addr_lt
  rw [BitVec.toNat_add, BitVec.toNat_ofNat]; omega

theorem toNat_source (hp : p < n.toNat) : (off + BitVec.ofNat 32 p).toNat = off.toNat + p := by
  have := h.cap
  have := h.checks.2.1
  rw [BitVec.toNat_add, BitVec.toNat_ofNat]; omega

theorem phys_target (hp : p < n.toNat) : (phys (a + BitVec.ofNat 32 p)).toNat = (phys a).toNat + p := by
  have h1 := h.checks.2.2.1.1
  rw [toNat_phys, h.toNat_target hp]
  rw [toNat_phys] at h1 ⊢
  simp only [physSpace] at *
  omega

theorem fits {len : Nat} (hp : p < n.toNat) (hl : p + len ≤ n.toNat) :
    flashFits cfg (a + BitVec.ofNat 32 p) len = true := by
  rw [flashFits_iff_flashRangeFits]
  have h1 := h.checks.2.2.1
  refine ⟨by rw [h.phys_target hp]; have := h1.1; omega, fun x hx hx' => h1.2 x ?_ ?_⟩
  · rw [h.phys_target hp] at hx; omega
  · rw [h.phys_target hp] at hx'; omega

/-- R206: a sub-operation passes its checks and is the flash sequence of its piece, whose data is taken from `BUF`. -/
theorem subOperation_eq {s : State} (hc : s.cfg = cfg) (hp : p < n.toNat) (hp4 : p % 4 = 0) :
    ∃ kind data wdata src,
      rangeSubOperation a off n.toNat p s =
          writeEnd (flashSeq kind (a + BitVec.ofNat 32 p) data
            { s with fl.state := .check, fl.data := wdata, fl.src := src })
        ∧ pieceAt s a.toNat n.toNat off.toNat p = presented s.cfg kind (a + BitVec.ofNat 32 p) data
        ∧ (kind = .row ∨ kind = .word) ∧ flashSpan s.cfg kind = rangeStep s.cfg a.toNat n.toNat p
        ∧ data.length = flashSpan s.cfg kind
        ∧ ∀ i d, i < flashSpan s.cfg kind → data.getD i d = s.bufByte (off.toNat + p + i) := by
  subst hc
  have hpres : ∀ kind data, presented s.cfg kind (BitVec.ofNat 32 (a.toNat + p)) data
      = presented s.cfg kind (a + BitVec.ofNat 32 p) data := by
    intro kind data
    rw [BitVec.ofNat_add, BitVec.ofNat_toNat, BitVec.setWidth_eq]
  have hoff4 := h.checks.2.2.2.2.2
  have ha4 := h.checks.2.2.2.2.1
  by_cases ht : takesRow s.cfg a.toNat n.toNat p = true
  · have hrow := (takesRow_iff ..).mp ht
    refine ⟨.row, s.bufRange (off.toNat + p) s.cfg.rowSize, s.fl.data, off + BitVec.ofNat 32 p, ?_, ?_, .inl rfl, ?_, ?_, ?_⟩
    · unfold rangeSubOperation
      simp only [ht, if_true]
      unfold flWrow
      have e1 : aligned s.cfg.rowSize (a + BitVec.ofNat 32 p) = true := by
        rw [aligned_eq_true, h.toNat_target hp]; exact hrow.1
      have e2 : aligned 4 (off + BitVec.ofNat 32 p) = true := by rw [aligned_eq_true, h.toNat_source hp]; omega
      have e3 : bufFits s.cfg (off.toNat + p) s.cfg.rowSize = true := by
        rw [bufFits_eq_true]; have := h.checks.2.1; omega
      have e4 : flashFits s.cfg (a + BitVec.ofNat 32 p) s.cfg.rowSize = true := h.fits hp (rowStep hp ht)
      simp only [e1, e2, e3, e4, h.toNat_source hp]
      rfl
    · unfold pieceAt rangePiece
      rw [if_pos ht, hpres]
      congr 2; omega
    · simp [flashSpan, rangeStep, ht]
    · simp [flashSpan]
    · intro i d hi; exact State.getD_bufRange _ hi
  · have ht' : takesRow s.cfg a.toNat n.toNat p = false := by simpa using ht
    have hle : p + 4 ≤ n.toNat := by have := h.checks.2.2.2.1; omega
    refine ⟨.word, s.bufRange (off.toNat + p) 4,
      le32 (s.bufByte (off.toNat + p)) (s.bufByte (off.toNat + p + 1)) (s.bufByte (off.toNat + p + 2))
        (s.bufByte (off.toNat + p + 3)), s.fl.src, ?_, ?_, .inr rfl, ?_, ?_, ?_⟩
    · unfold rangeSubOperation
      simp only [ht', Bool.false_eq_true, if_false]
      unfold flWword
      have e1 : aligned 4 (a + BitVec.ofNat 32 p) = true := by rw [aligned_eq_true, h.toNat_target hp]; omega
      have e4 : flashFits s.cfg (a + BitVec.ofNat 32 p) 4 = true := h.fits hp hle
      simp only [e1, e4]
      rw [bytesLE32_le32]
      rfl
    · unfold pieceAt rangePiece
      rw [if_neg ht, hpres]
      congr 2; omega
    · simp [flashSpan, rangeStep, ht']
    · simp [flashSpan]
    · intro i d hi; exact State.getD_bufRange _ hi

end RangeReady

end Sys2Proof.Machine
end

