-- ==== Sys2Proof/Laws/Settled.lean ====
section
/-! SUPPORT. Flash sequences whose outcomes the hardware supplies one after another: a fault is settled by its
corrective no-op, or halts. A range write over such outcomes, turn by turn; the pieces it presents are the chunks of
R207. -/

namespace Sys2Proof.Machine

/-- The head of the supplied outcomes. -/
theorem nextOutcome_cons {s : State} {o rest} (h : s.hw.script = o :: rest) : s.nextOutcome = o := by
  simp [State.nextOutcome, h]

/-- Outcomes operation by operation. -/
theorem settledOutcomes_cons (f : Bool × Bool) (flags) : settledOutcomes (f :: flags) = settledOutcomes [f]
    ++ settledOutcomes flags := by
  simp [settledOutcomes]

/-- Commands operation by operation. -/
theorem settledCommands_cons (c f cs flags) : settledCommands (c :: cs) (f :: flags) = settledCommands [c] [f]
    ++ settledCommands cs flags := by
  simp [settledCommands]

theorem settledOutcomes_one (f : Bool × Bool) : settledOutcomes [f] = if (f.1 || f.2)
    = true then [.done f.1 f.2, .done false false] else [.done false false] := by
  simp only [settledOutcomes, List.flatMap_cons, List.flatMap_nil, List.append_nil]

theorem settledCommands_one (c) (f : Bool × Bool) : settledCommands [c] [f] = if (f.1 || f.2)
    = true then [c, { c with kind := .nop, data := [] }] else [c] := by
  simp only [settledCommands, List.zip_cons_cons, List.zip_nil_left, List.flatMap_cons, List.flatMap_nil,
      List.append_nil]

theorem faults_cons (f : Bool × Bool) (flags) : faults (f :: flags) = faults flags + if (f.1 || f.2)
    = true then 1 else 0 := by
  simp only [faults, List.countP_cons]

theorem settledOutcomes_append (a b) : settledOutcomes (a ++ b) = settledOutcomes a ++ settledOutcomes b := by
  simp only [settledOutcomes, List.flatMap_append]

theorem faults_replicate (n : Nat) : faults (List.replicate n (false, false)) = 0 := by
  induction n with
  | zero => rfl
  | succ n ih => rw [List.replicate_succ, faults_cons, ih]; rfl

theorem settledCommands_replicate (cs : List FlashCmd) : settledCommands cs (List.replicate cs.length (false, false))
    = cs := by
  induction cs with
  | nil => rfl
  | cons c cs ih => rw [List.length_cons, List.replicate_succ, settledCommands_cons, settledCommands_one, ih]; rfl

theorem length_settledCommands (cs : List FlashCmd) (flags) (h : cs.length = flags.length) :
    (settledCommands cs flags).length = flags.length + faults flags := by
  induction flags generalizing cs with
  | nil => cases cs with | nil => rfl | cons => simp at h
  | cons f flags ih =>
    cases cs with
    | nil => simp at h
    | cons c cs =>
      rw [settledCommands_cons, List.length_append, ih _ (by simpa using h), settledCommands_one, faults_cons]
      split <;> simp <;> omega

/-- Outcomes with no fault are settled outcomes with no fault. -/
theorem goodOutcomes_script {n : Nat} {s : State} (h : goodOutcomes n s) :
    s.hw.script = settledOutcomes (List.replicate n (false, false)) ++ s.hw.script.drop n := by
  conv => lhs; rw [← List.take_append_drop n s.hw.script, h]
  congr 1
  induction n with
  | zero => rfl
  | succ n ih =>
    rw [List.replicate_succ, List.replicate_succ, settledOutcomes_cons, settledOutcomes_one]
    have : List.replicate n (HwOutcome.done false false) = settledOutcomes (List.replicate n (false, false)) := by
      clear ih h
      induction n with
      | zero => rfl
      | succ n ih => rw [List.replicate_succ, List.replicate_succ, settledOutcomes_cons, settledOutcomes_one, ih]; rfl
    rw [this]; rfl

theorem faults_replicate_true (n : Nat) : faults (List.replicate n (false, true)) = n := by
  induction n with
  | zero => rfl
  | succ n ih => rw [List.replicate_succ, faults_cons, ih]; rfl

/-- R171, R177: a sequence whose fault, if it reports one, is cleared by the corrective no-op. -/
theorem flashSeq_settled {kind : FlashKind} {addr : Word} {data : List Byte} {s : State} {f : Bool × Bool}
    {rest : List HwOutcome}
    (h : s.hw.script = settledOutcomes [f] ++ rest) (hd : dataFits s.cfg kind data) :
    ∃ array draws, flashSeq kind addr data s = (if (f.1 || f.2) = true then .fail else .ok,
        { s with
          fl.kind := kind, fl.addr := phys addr, fl.state := .idle
          hw :=
            { array := array, done := true, lowVoltage := false, writeError := false
              issued := s.hw.issued ++ settledCommands [presented s.cfg kind addr data] [f], script := rest }
          draws := draws })
      ∧ ArrayAfter s.cfg kind (phys addr).toNat data (f.1 || f.2) s.hw.array array := by
  cases hb : (f.1 || f.2) with
  | false =>
    have hs : s.hw.script = .done false false :: rest := by rw [h, settledOutcomes_one, hb]; rfl
    obtain ⟨array, draws, he, ha⟩ := flashSeq_ok (kind := kind) (addr := addr) (nextOutcome_cons hs) hd
    refine ⟨array, draws, ?_, ha⟩
    rw [he]
    rw [settledCommands_one, hb, hs]; rfl
  | true =>
    have hs : s.hw.script = .done f.1 f.2 :: .done false false :: rest := by rw [h, settledOutcomes_one, hb]; rfl
    obtain ⟨array, draws, he, ha⟩ := flashSeq_faulty (kind := kind) (addr := addr) (nextOutcome_cons hs) hb hd
    rw [he]
    rcases correctiveClear_spec
        { s with
          fl.kind := kind, fl.addr := phys addr, fl.state := .status
          hw :=
            { array := array, done := true, lowVoltage := f.1, writeError := f.2
              issued := s.hw.issued ++ [presented s.cfg kind addr data], script := s.hw.script.tail }
          draws := draws } with ⟨d, hn, hc⟩ | ⟨d, hn, hc⟩ | ⟨l, w, d, hn, hbad, hc⟩
    · rw [nextOutcome_cons (rest := rest) (o := .done false false) (by simp [hs])] at hn; cases hn
    · refine ⟨array, d, ?_, ha⟩
      rw [hc]
      rw [settledCommands_one, hb]; simp [hs, presented]
    · rw [nextOutcome_cons (rest := rest) (o := .done false false) (by simp [hs])] at hn; cases hn; cases hbad

/-- R178: a sequence whose corrective no-op reports a fault too. -/
theorem flashSeq_halts {kind : FlashKind} {addr : Word} {data : List Byte} {s : State} {v1 w1 v2 w2 : Bool}
    {rest : List HwOutcome}
    (h : s.hw.script = [.done v1 w1, .done v2 w2] ++ rest) (h1 : (v1 || w1) = true) (h2 : (v2 || w2) = true)
        (hd : dataFits s.cfg kind data) :
    ∃ array draws, flashSeq kind addr data s = (.never,
        { s with
          fl.kind := kind, fl.addr := phys addr, fl.state := .halt, fl.halted := true
          hw :=
            { array := array, done := true, lowVoltage := v2, writeError := w2
              issued := s.hw.issued ++ [presented s.cfg kind addr data, presented s.cfg .nop addr []], script := rest }
          draws := draws, env.status := s.cfg.status.hardwareFailed })
      ∧ ArrayAfter s.cfg kind (phys addr).toNat data true s.hw.array array := by
  obtain ⟨array, draws, he, ha⟩ := flashSeq_faulty (kind := kind) (addr := addr) (nextOutcome_cons h) h1 hd
  rw [he]
  rcases correctiveClear_spec
        { s with
          fl.kind := kind, fl.addr := phys addr, fl.state := .status
          hw :=
            { array := array, done := true, lowVoltage := v1, writeError := w1
              issued := s.hw.issued ++ [presented s.cfg kind addr data], script := s.hw.script.tail }
          draws := draws } with ⟨d, hn, hc⟩ | ⟨d, hn, hc⟩ | ⟨l, w, d, hn, hbad, hc⟩
  · rw [nextOutcome_cons (rest := rest) (o := .done v2 w2) (by simp [h])] at hn; cases hn
  · rw [nextOutcome_cons (rest := rest) (o := .done v2 w2) (by simp [h])] at hn; cases hn; cases h2
  · rw [nextOutcome_cons (rest := rest) (o := .done v2 w2) (by simp [h])] at hn
    cases hn
    refine ⟨array, d, ?_, ha⟩
    rw [hc]
    simp [h, presented]

/-- R173, R177, R178: a sequence that never ends. -/
theorem flashSeq_stops {kind : FlashKind} {addr : Word} {data : List Byte} {s : State} {stop rest : List HwOutcome}
    (h : s.hw.script = stop ++ rest) (hn : neverEnds stop = true) (hd : dataFits s.cfg kind data) :
    ∃ hw draws, flashSeq kind addr data s = (.never,
        { s with
          fl.kind := kind, fl.addr := phys addr, fl.state := leftIn stop
          fl.halted := if leftIn stop = .halt then true else s.fl.halted
          hw := hw, draws := draws
          env.status := if leftIn stop = .halt then s.cfg.status.hardwareFailed else s.env.status })
      ∧ hw.issued.length = s.hw.issued.length + stop.length ∧ hw.script = rest
      ∧ ∀ x, ¬inTarget addr (flashSpan s.cfg kind) x →
          Memory.read s.cfg.erasedByte hw.array x = Memory.read s.cfg.erasedByte s.hw.array x := by
  unfold neverEnds at hn
  split at hn
  · obtain ⟨draws, he⟩ := flashSeq_hang (kind := kind) (addr := addr) (data := data) (nextOutcome_cons h)
    exact ⟨_, draws, he, by simp, by simp [h], fun _ _ => rfl⟩
  · rename_i v w
    obtain ⟨array, draws, he, ha⟩ := flashSeq_faulty (kind := kind) (addr := addr) (nextOutcome_cons h) hn hd
    rcases correctiveClear_spec
        { s with
          fl.kind := kind, fl.addr := phys addr, fl.state := .status
          hw :=
            { array := array, done := true, lowVoltage := v, writeError := w
              issued := s.hw.issued ++ [presented s.cfg kind addr data], script := s.hw.script.tail }
          draws := draws } with ⟨d, hn', hc⟩ | ⟨d, hn', hc⟩ | ⟨l, w, d, hn', hbad, hc⟩
    · exact ⟨_, d, he.trans hc, by simp, by simp [h], fun x hx => ha.outside hx⟩
    · rw [nextOutcome_cons (rest := rest) (o := .hang) (by simp [h])] at hn'; cases hn'
    · rw [nextOutcome_cons (rest := rest) (o := .hang) (by simp [h])] at hn'; cases hn'
  · rename_i v w v' w'
    rw [Bool.and_eq_true] at hn
    obtain ⟨array, draws, he, ha⟩ := flashSeq_halts (kind := kind) (addr := addr) (data := data) h hn.1 hn.2 hd
    exact ⟨_, draws, he, by simp, rfl, fun x hx => ha.outside hx⟩
  · cases hn

/-- Where a range write stands: it has gone from position `p` of the range to `p'`, having presented `ps`. -/
structure RangeProgress (a n off : Word) (s t : State) (p p' : Nat) (ps : List FlashCmd) (flags : List (Bool × Bool))
    (rest : List HwOutcome) : Prop where
  only : t = { s with fl := t.fl, hw := t.hw, draws := t.draws }
  fl : t.fl = { s.fl with
      kind := t.fl.kind, addr := t.fl.addr, data := t.fl.data, src := t.fl.src
      writeFail := s.fl.writeFail + BitVec.ofNat 32 (faults flags)
      first := if s.fl.first = resCode .ok ∧ faults flags ≠ 0 then resCode .errFlash else s.fl.first }
  script : t.hw.script = rest
  length : ps.length = flags.length
  issued : t.hw.issued = s.hw.issued ++ settledCommands ps flags
  outside : ∀ x, ¬((phys a).toNat + p ≤ x ∧ x < (phys a).toNat + p') → t.flashByte x = s.flashByte x
  written :
      faults flags = 0 → (∀ x, (phys a).toNat + p ≤ x → x < (phys a).toNat + p' → s.flashByte x = s.cfg.erasedByte) →
    ∀ i, p ≤ i → i < p' → t.flashByte ((phys a).toNat + i) = s.bufByte (off.toNat + i)
  within : ∀ c ∈ ps, (phys a).toNat + p ≤ c.addr.toNat ∧ c.addr.toNat + c.data.length ≤ (phys a).toNat + p'
  piece : ∀ c, (c, (false, false)) ∈ ps.zip flags →
    (∀ i, i < c.data.length → s.flashByte (c.addr.toNat + i) = s.cfg.erasedByte) →
    ∀ i, i < c.data.length → t.flashByte (c.addr.toNat + i) = c.data.getD i 0#8

/-- R206: the loop over settled outcomes, as far as they go; the rest of the loop is left to do. -/
theorem rangeLoop_turns {cfg : Params} {a n off : Word} (R : RangeReady cfg a n off) (rest : List HwOutcome)
    (flags : List (Bool × Bool)) (fuel p : Nat) (worst : Res) (s : State)
    (hc : s.cfg = cfg) (hidle : s.fl.state = .idle) (hp4 : p % 4 = 0) (hp : p ≤ n.toNat)
        (hfuel : n.toNat ≤ p + 4 * fuel)
    (hlen : flags.length ≤ (loopPieces s a.toNat n.toNat off.toNat fuel p).length)
        (hs : s.hw.script = settledOutcomes flags ++ rest) :
    ∃ fuel' p' ps t, rangeLoop a off n.toNat fuel p worst s = rangeLoop a off n.toNat fuel' p'
        (if worst = .ok ∧ faults flags ≠ 0 then .errFlash else worst) t
      ∧ loopPieces s a.toNat n.toNat off.toNat fuel p = ps ++ loopPieces s a.toNat n.toNat off.toNat fuel' p'
      ∧ p ≤ p' ∧ p' ≤ n.toNat ∧ p' % 4 = 0 ∧ n.toNat ≤ p' + 4 * fuel' ∧ RangeProgress a n off s t p p' ps flags rest :=
          by
  induction flags generalizing fuel p worst s with
  | nil =>
    refine ⟨fuel, p, [], s, by simp [faults], rfl, Nat.le_refl _, hp, hp4, hfuel,
      ⟨rfl, by simp [faults], by simpa [settledOutcomes] using hs, rfl, by simp [settledCommands], fun _ _ => rfl,
        fun _ _ i h1 h2 => ?_, fun _ h => by simp at h, fun _ h => by simp at h⟩⟩
    omega
  | cons f flags ih =>
    cases fuel with
    | zero => simp [loopPieces] at hlen
    | succ fuel =>
      have hlt : ¬n.toNat ≤ p := by
        intro h; simp [loopPieces, h] at hlen
      rw [settledOutcomes_cons, List.append_assoc] at hs
      obtain ⟨kind, data, wdata, src, hop, hpiece, hkind, hspan, hdl, hdata⟩ := R.subOperation_eq hc (by omega) hp4
      obtain ⟨array, draws, he, ha⟩ := flashSeq_settled (kind := kind) (addr := a + BitVec.ofNat 32 p) (data := data)
        (s := { s with fl.state := .check, fl.data := wdata, fl.src := src }) hs (fun _ => hdl)
      subst hc
      have hstep : p + rangeStep s.cfg a.toNat n.toNat p ≤ n.toNat := R.step_le (by omega) hp4
      have hge := R.step_ge (p := p)
      obtain ⟨u, hu, hprog⟩ : ∃ u, rangeLoop a off n.toNat (fuel + 1) p worst s = rangeLoop a off n.toNat fuel
          (p + rangeStep s.cfg a.toNat n.toNat p) (if worst = .ok ∧ faults [f] ≠ 0 then .errFlash else worst) u
          ∧ RangeProgress a n off s u p (p + rangeStep s.cfg a.toNat n.toNat p) [pieceAt s a.toNat n.toNat off.toNat p]
              [f] (settledOutcomes flags ++ rest) := by
        have out : ∀ x, ¬((phys a).toNat + p ≤ x ∧ x < (phys a).toNat + (p + rangeStep s.cfg a.toNat n.toNat p))
            → Memory.read s.cfg.erasedByte array x = Memory.read s.cfg.erasedByte s.hw.array x := by
          intro x hx
          refine ha.outside ?_
          rw [R.phys_target (by omega), hspan]; omega
        have hin : ∀ c ∈ [presented s.cfg kind (a + BitVec.ofNat 32 p) data], (phys a).toNat + p ≤ c.addr.toNat
            ∧ c.addr.toNat + c.data.length ≤ (phys a).toNat + (p + rangeStep s.cfg a.toNat n.toNat p) := by
          intro c hc
          rw [List.mem_singleton.mp hc]
          simp only [presented, R.phys_target (show p < n.toNat by omega), hdl, hspan]
          omega
        rw [rangeLoop.eq_def a off n.toNat (fuel + 1) p worst s]
        dsimp only
        rw [if_neg hlt, hop, he]
        have hst : ∀ k, (if takesRow s.cfg a.toNat n.toNat k = true then s.cfg.rowSize else 4)
            = rangeStep s.cfg a.toNat n.toNat k := fun _ => rfl
        by_cases hbad : (f.1 || f.2) = true
        · rw [if_pos hbad]
          simp only [writeEnd, writeFailed, hst, noteFirst]
          rw [hpiece]
          have hf1 : faults [f] = 1 := by rw [faults_cons]; simp only [hbad, if_true]; rfl
          rw [hf1]
          by_cases hfst : s.fl.first = resCode .ok
          · simp only [hfst, ne_eq, reduceCtorEq, not_false_eq_true, true_and, and_self, if_true, and_true,
              Nat.one_ne_zero]
            refine ⟨_, rfl, ?_⟩
            exact ⟨rfl, by simp [hf1, hidle, hfst], rfl, rfl, rfl, out, by simp [hf1], hin,
              fun c hc => by simp at hc; rw [← hc.2] at hbad; exact absurd hbad (by decide)⟩
          · simp only [hfst, ne_eq, reduceCtorEq, not_false_eq_true, true_and, and_false, if_false, and_true,
              Nat.one_ne_zero]
            refine ⟨_, rfl, ?_⟩
            exact ⟨rfl, by simp [hf1, hidle, hfst], rfl, rfl, rfl, out, by simp [hf1], hin,
              fun c hc => by simp at hc; rw [← hc.2] at hbad; exact absurd hbad (by decide)⟩
        · have hb : (f.1 || f.2) = false := by simpa using hbad
          rw [if_neg hbad]
          simp only [writeEnd, hst, noteFirst]
          rw [hpiece]
          have hf0 : faults [f] = 0 := by rw [faults_cons]; simp only [hb]; rfl
          rw [hf0]
          simp only [ne_eq, not_true_eq_false, false_and, and_false, if_false,
              show (if worst = .ok then Res.ok else worst) = worst by split <;> simp [*]]
          refine ⟨_, rfl, ?_⟩
          · refine ⟨rfl, by simp [hf0, hidle], rfl, rfl, rfl, out, fun _ her i h1 h2 => ?_, hin, fun c hc her i hi => ?_⟩
            rotate_left
            · obtain ⟨rfl, -⟩ : c = presented s.cfg kind (a + BitVec.ofNat 32 p) data ∧ (false, false) = f := by
                simpa using hc
              simp only [presented] at her hi ⊢
              rw [hdl] at her hi
              have := ha.written hkind hb (fun x h1 h2 => by
                have := her (x - (phys (a + BitVec.ofNat 32 p)).toNat)
                  (show x - (phys (a + BitVec.ofNat 32 p)).toNat < flashSpan s.cfg kind from
                    (Nat.sub_lt_iff_lt_add h1).mpr (by rw [Nat.add_comm]; exact h2))
                rwa [Nat.add_sub_cancel' h1] at this) i hi
              rw [hdata i _ hi] at this
              rw [hdata i _ hi]
              exact this
            have hw := ha.written hkind hb (fun x h1 h2 => her x (by rw [R.phys_target (by omega)] at h1; omega) (by
              rw [R.phys_target (by omega)] at h2; have : x < (phys a).toNat + p + flashSpan s.cfg kind :=
                  h2; rw [hspan] at this; omega)) (i - p) (by
                show i - p < flashSpan s.cfg kind; omega)
            rw [R.phys_target (by omega), show (phys a).toNat + p + (i - p) = (phys a).toNat + i by
                omega, hdata _ _ (by omega)] at hw
            rw [show off.toNat + i = off.toNat + p + (i - p) by omega]
            exact hw
      have hcfg : u.cfg = s.cfg := by rw [hprog.only]
      have hfr : u.fr = s.fr := by rw [hprog.only]
      have hpieces : loopPieces s a.toNat n.toNat off.toNat (fuel + 1) p = pieceAt s a.toNat n.toNat off.toNat p ::
          loopPieces s a.toNat n.toNat off.toNat fuel (p + rangeStep s.cfg a.toNat n.toNat p) := by
        rw [loopPieces, if_neg hlt]
      obtain ⟨fuel', p', ps, t, hl, hps, h1, h2, h3, h4, hprog'⟩ := ih fuel (p + rangeStep s.cfg a.toNat n.toNat p)
          (if worst = .ok ∧ faults [f] ≠ 0 then .errFlash else worst) u
        hcfg (by rw [hprog.fl]; exact hidle) (R.step_mod hp4) hstep (by omega)
        (by rw [loopPieces_congr hcfg hfr]; rw [hpieces] at hlen; simpa using hlen) hprog.script
      rw [loopPieces_congr hcfg hfr, loopPieces_congr hcfg hfr] at hps
      refine ⟨fuel', p', pieceAt s a.toNat n.toNat off.toNat p :: ps, t, ?_,
        by rw [hpieces, hps]; rfl, by omega, h2, h3, h4, ?_⟩
      · rw [hu, hl]
        congr 1
        rw [faults_cons f flags, show faults [f] = if (f.1 || f.2) = true then 1 else 0 by
            rw [faults_cons]; simp [faults]]
        by_cases hb : (f.1 || f.2) = true <;> by_cases hw : worst = .ok <;> simp [hb, hw]
      · refine ⟨?_, ?_, hprog'.script, by simp [hprog'.length], ?_, fun x hx => ?_, fun hf her i hi1 hi2 => ?_,
          fun c hc => ?_, fun c hc her i hi => ?_⟩
        · rw [hprog'.only, hprog.only]
        · rw [hprog'.fl, hprog.fl]
          have : faults (f :: flags) = faults [f] + faults flags := by
              rw [faults_cons, faults_cons f []]; simp [faults]; omega
          rw [this]
          simp only [FlashSeq.mk.injEq, true_and, and_true]
          refine ⟨?_, ?_⟩
          · rw [BitVec.ofNat_add, BitVec.add_assoc]
          · by_cases h0 : s.fl.first = resCode .ok <;> by_cases hf0 : faults [f] = 0 <;> by_cases hf1 :
              faults flags = 0 <;> simp [h0, hf0, hf1] <;> decide
        · rw [hprog'.issued, hprog.issued, settledCommands_cons _ _ ps flags, List.append_assoc]
        · rw [hprog'.outside x (by omega), hprog.outside x (by omega)]
        · have hsum : faults (f :: flags) = faults [f] + faults flags := by
            rw [faults_cons, faults_cons f []]; simp [faults]; omega
          by_cases hin : i < p + rangeStep s.cfg a.toNat n.toNat p
          · rw [hprog'.outside _ (by omega)]
            exact hprog.written (by omega) (fun x h1 h2 => her x (by omega) (by omega)) i hi1 hin
          · have := hprog'.written (by omega)
              (fun x hx1 hx2 => by rw [hprog.outside x (by omega), hcfg]; exact her x (by omega) (by omega)) i
              (by omega) hi2
            rw [this]; simp only [State.bufByte, hfr]
        · rcases List.mem_cons.mp hc with rfl | hc
          · have := hprog.within _ (List.mem_singleton_self _); omega
          · have := hprog'.within c hc; omega
        · rw [List.zip_cons_cons] at hc
          rcases List.mem_cons.mp hc with hc | hc
          · have hin := hprog.within c (by simp [(Prod.mk.inj hc).1])
            rw [hprog'.outside _ (by omega)]
            exact hprog.piece c (by rw [hc]; exact List.mem_cons_self) her i hi
          · have hin := hprog'.within c (List.of_mem_zip hc).1
            exact hprog'.piece c hc (fun j hj => by rw [hprog.outside _ (by omega), hcfg]; exact her j hj) i hi

/-! ##### The chunking law -/

theorem rangePieces_cons (s : State) (kind len a off lo hi) (hlen : 0 < len) (h : lo + len ≤ hi) :
    rangePieces s kind len a off lo hi = rangePiece s kind len a off lo :: rangePieces s kind len a off (lo + len) hi :=
        by
  unfold rangePieces
  rw [show hi - lo = (hi - (lo + len)) + len by
      omega, Nat.add_div_right _ hlen, List.range_succ_eq_map, List.map_cons, List.map_map]
  congr 1
  · simp
  · apply List.map_congr_left
    intro k _
    simp only [Function.comp_apply, Nat.succ_mul]
    congr 1; omega

theorem rangePieces_nil (s : State) (kind len a off lo hi) (h : hi - lo < len) : rangePieces s kind len a off lo hi
    = [] := by
  unfold rangePieces; rw [Nat.div_eq_of_lt h]; rfl

theorem roundUp_of_mod {x r : Nat} (hr : 0 < r) (h : x % r = 0) : (x + r - 1) / r * r = x := by
  obtain ⟨k, rfl⟩ := Nat.dvd_of_mod_eq_zero h
  rw [show r * k + r - 1 = (r - 1) + r * k by
      omega, Nat.add_mul_div_left _ _ hr, Nat.div_eq_of_lt (by omega), Nat.zero_add, Nat.mul_comm]

theorem roundUp_step {x r : Nat} (hr : 0 < r) (hr4 : r % 4 = 0) (hx : x % 4 = 0) (h : x % r ≠ 0) :
    (x + 4 + r - 1) / r = (x + r - 1) / r := by
  have hd := Nat.div_add_mod x r
  have hm := Nat.mod_lt x hr
  generalize x / r = q at hd
  generalize x % r = m at *
  subst hd
  have hm4 : m % 4 = 0 := by
    have : r * q % 4 = 0 := by rw [Nat.mul_mod, hr4]; simp
    omega
  rw [show r * q + m + 4 + r - 1 = (m + 3 + r) + r * q by omega, show r * q + m + r - 1 = (m - 1 + r) + r * q by omega]
  rw [Nat.add_mul_div_left _ _ hr, Nat.add_mul_div_left _ _ hr, Nat.add_div_right _ hr, Nat.add_div_right _ hr]
  rw [Nat.div_eq_of_lt (by omega), Nat.div_eq_of_lt (by omega)]

/-- R207: the sub-operations for `[x, e)`, as the chunking law has them. -/
def chunksFrom (s : State) (a off x e : Nat) : List FlashCmd :=
  let row := s.cfg.rowSize
  let r0 := (x + row - 1) / row * row
  let r1 := e / row * row
  if r0 < r1 then
    rangePieces s .word 4 a off x r0 ++ rangePieces s .row row a off r0 r1 ++ rangePieces s .word 4 a off r1 e
  else rangePieces s .word 4 a off x e

/-- R206, R207: what the loop presents from a position on is what the chunking law has for the rest. -/
theorem loopPieces_law (s : State) (a n off : Nat) (hrow : 0 < s.cfg.rowSize) (hrow4 : s.cfg.rowSize % 4 = 0)
    (ha : a % 4 = 0) (hn : n % 4 = 0) (fuel p : Nat) (hp : p ≤ n) (hp4 : p % 4 = 0) (hfuel : n ≤ p + 4 * fuel) :
    loopPieces s a n off fuel p = chunksFrom s a off (a + p) (a + n) := by
  induction fuel generalizing p with
  | zero =>
    have : p = n := by omega
    subst this
    have h1 := Nat.div_mul_le_self (a + p) s.cfg.rowSize
    have h2 : (a + p) / s.cfg.rowSize * s.cfg.rowSize ≤ (a + p + s.cfg.rowSize - 1) / s.cfg.rowSize * s.cfg.rowSize :=
        Nat.mul_le_mul_right _ (Nat.div_le_div_right (by omega))
    simp only [loopPieces, chunksFrom]
    rw [if_neg (by omega), rangePieces_nil _ _ _ _ _ _ _ (by omega)]
  | succ fuel ih =>
    by_cases hpn : n ≤ p
    · have : p = n := by omega
      subst this
      have h2 : (a + p) / s.cfg.rowSize * s.cfg.rowSize ≤ (a + p + s.cfg.rowSize - 1) / s.cfg.rowSize * s.cfg.rowSize :=
          Nat.mul_le_mul_right _ (Nat.div_le_div_right (by omega))
      rw [loopPieces, if_pos hpn]
      simp only [chunksFrom]
      rw [if_neg (by omega), rangePieces_nil _ _ _ _ _ _ _ (by omega)]
    · rw [loopPieces, if_neg hpn]
      by_cases ht : takesRow s.cfg a n p = true
      · obtain ⟨h1, h2⟩ := (takesRow_iff ..).mp ht
        have hst : rangeStep s.cfg a n p = s.cfg.rowSize := by simp [rangeStep, ht]
        rw [hst, ih (p + s.cfg.rowSize) (by omega) (by omega)
            (by have := Nat.le_of_dvd hrow (Nat.dvd_of_mod_eq_zero hrow4); omega)]
        rw [pieceAt, if_pos ht]
        simp only [chunksFrom]
        have e0 : (a + p + s.cfg.rowSize - 1) / s.cfg.rowSize * s.cfg.rowSize = a + p := roundUp_of_mod hrow h1
        have e1 : (a + (p + s.cfg.rowSize) + s.cfg.rowSize - 1) / s.cfg.rowSize * s.cfg.rowSize = a + p + s.cfg.rowSize
            := by
          have := roundUp_of_mod (x := a + p + s.cfg.rowSize) hrow (by rw [Nat.add_mod_right]; exact h1)
          rw [show a + (p + s.cfg.rowSize) = a + p + s.cfg.rowSize by omega]; exact this
        have hr1 : a + p + s.cfg.rowSize ≤ (a + n) / s.cfg.rowSize * s.cfg.rowSize := by
          have : (a + p + s.cfg.rowSize) / s.cfg.rowSize * s.cfg.rowSize = a + p + s.cfg.rowSize := Nat.div_mul_cancel
              (Nat.dvd_of_mod_eq_zero (by rw [Nat.add_mod_right]; exact h1))
          rw [← this]; exact Nat.mul_le_mul_right _ (Nat.div_le_div_right (by omega))
        rw [e0, e1, if_pos (show a + p < _ by omega), rangePieces_nil s .word 4 a off (a + p) (a + p) (by omega),
            rangePieces_cons s .row _ a off (a + p) _ hrow hr1]
        simp only [List.nil_append, List.cons_append]
        congr 1
        rw [show a + (p + s.cfg.rowSize) = a + p + s.cfg.rowSize by omega]
        split
        · rw [rangePieces_nil s .word 4 a off _ _ (by omega)]; rfl
        · rename_i hlt
          have : a + p + s.cfg.rowSize = (a + n) / s.cfg.rowSize * s.cfg.rowSize := by omega
          rw [← this, rangePieces_nil s .row _ a off _ _ (by omega)]; rfl
      · have hst : rangeStep s.cfg a n p = 4 := by simp [rangeStep, ht]
        rw [hst, ih (p + 4) (by omega) (by omega) (by omega), pieceAt, if_neg ht]
        simp only [chunksFrom]
        have hnt : ¬((a + p) % s.cfg.rowSize = 0 ∧ s.cfg.rowSize ≤ n - p) := fun h => ht ((takesRow_iff ..).mpr h)
        have hwhole : rangePiece s .word 4 a off (a + p) :: rangePieces s .word 4 a off (a + (p + 4)) (a + n)
            = rangePieces s .word 4 a off (a + p) (a + n) := by
          rw [rangePieces_cons s .word 4 a off (a + p) (a + n) (by omega) (by omega)]; rfl
        by_cases hm : (a + p) % s.cfg.rowSize = 0
        · -- aligned, but no room for a row: words to the end
          have hroom : n - p < s.cfg.rowSize := by omega
          have e0 : (a + p + s.cfg.rowSize - 1) / s.cfg.rowSize * s.cfg.rowSize = a + p := roundUp_of_mod hrow hm
          have hr1 : (a + n) / s.cfg.rowSize * s.cfg.rowSize < a + p + s.cfg.rowSize := by
            have := Nat.div_mul_le_self (a + n) s.cfg.rowSize; omega
          have hr1' : ¬a + p < (a + n) / s.cfg.rowSize * s.cfg.rowSize := by
            obtain ⟨k, hk⟩ := Nat.dvd_of_mod_eq_zero hm
            intro hlt
            rw [hk] at hlt hr1
            have h1 : k < (a + n) / s.cfg.rowSize := by
              rw [Nat.mul_comm] at hlt; exact Nat.lt_of_mul_lt_mul_right hlt
            have : (k + 1) * s.cfg.rowSize ≤ (a + n) / s.cfg.rowSize * s.cfg.rowSize := Nat.mul_le_mul_right _ h1
            rw [Nat.add_mul, Nat.mul_comm] at this; omega
          rw [e0, if_neg hr1']
          have hmono : (a + p + s.cfg.rowSize - 1) / s.cfg.rowSize * s.cfg.rowSize ≤ (a + (p + 4) + s.cfg.rowSize - 1)
              / s.cfg.rowSize * s.cfg.rowSize := Nat.mul_le_mul_right _ (Nat.div_le_div_right (by omega))
          rw [if_neg (by omega)]
          exact hwhole
        · have hsame : (a + (p + 4) + s.cfg.rowSize - 1) / s.cfg.rowSize = (a + p + s.cfg.rowSize - 1) / s.cfg.rowSize
            := by
            have := roundUp_step (x := a + p) hrow hrow4 (by omega) hm
            rw [← this]; congr 1
          rw [hsame]
          split
          · rename_i hlt
            have hge : a + p + 4 ≤ (a + p + s.cfg.rowSize - 1) / s.cfg.rowSize * s.cfg.rowSize := by
              have h4 : (a + p + s.cfg.rowSize - 1) / s.cfg.rowSize * s.cfg.rowSize % 4 = 0 := by
                  rw [Nat.mul_mod, hrow4]; simp
              have := Nat.div_add_mod (a + p + s.cfg.rowSize - 1) s.cfg.rowSize
              have h5 := Nat.mod_lt (a + p + s.cfg.rowSize - 1) hrow
              rw [Nat.mul_comm] at this
              have hne : (a + p + s.cfg.rowSize - 1) / s.cfg.rowSize * s.cfg.rowSize ≠ a + p := by
                intro h; apply hm; rw [← h]; exact Nat.mul_mod_left _ _
              omega
            rw [rangePieces_cons s .word 4 a off (a + p) _ (by omega) hge]; rfl
          · exact hwhole

/-- R207: what the loop presents is the chunking law. -/
theorem loopPieces_chunks (s : State) (a n off : Nat) (hrow : 0 < s.cfg.rowSize) (hrow4 : s.cfg.rowSize % 4 = 0)
    (ha : a % 4 = 0) (hn : n % 4 = 0) :
    loopPieces s a n off (n / 4) 0 = chunks s a n off :=
  loopPieces_law s a n off hrow hrow4 ha hn (n / 4) 0 (by omega) (by omega) (by omega)

theorem chunks_congr {s t : State} (hc : t.cfg = s.cfg) (hf : t.fr = s.fr) (a n off : Nat) :
    chunks t a n off = chunks s a n off := by
  have : ∀ kind len lo hi, rangePieces t kind len a off lo hi = rangePieces s kind len a off lo hi := by
    intro kind len lo hi
    simp [rangePieces, rangePiece, presented, State.bufRange, hc, hf]
  unfold chunks
  simp only [this, hc]

/-! ##### The whole range write -/

/-- R10: what a range write needs of the parameters. -/
theorem Params.wf_row {c : Params} (h : c.wf = true) : 0 < c.rowSize ∧ c.rowSize % 4 = 0 ∧ c.bufCap < 2 ^ 32 := by
  simp only [Params.wf, Bool.and_eq_true, decide_eq_true_eq] at h
  obtain ⟨⟨⟨⟨⟨⟨⟨⟨⟨-, -⟩, -⟩, -⟩, h1⟩, h2⟩, -⟩, -⟩, h3⟩, -⟩ := h
  refine ⟨?_, h2, by omega⟩
  unfold isPowerOfTwo at h1
  rcases Nat.eq_zero_or_pos c.rowSize with h | h
  · rw [h] at h1; exact absurd h1 (by decide)
  · exact h

theorem loopPieces_done {s : State} {a n off fuel p : Nat} (hfuel : n ≤ p + 4 * fuel)
    (h : loopPieces s a n off fuel p = []) : n ≤ p := by
  cases fuel with
  | zero => omega
  | succ f => rw [loopPieces] at h; split at h
              · assumption
              · cases h

theorem rangeLoop_done {a off : Word} {n fuel p : Nat} {w : Res} {s : State} (h : n ≤ p) :
    rangeLoop a off n fuel p w s = .ends w s := by
  cases fuel with
  | zero => rfl
  | succ f => rw [rangeLoop, if_pos h]

/-- R206: the first check says no. -/
theorem rangeFits_eq_false {cfg : Params} {a n off : Word}
    (h : ¬(n.toNat < 2 ^ 16 ∧ off.toNat + n.toNat ≤ cfg.bufCap ∧ flashRangeFits cfg a n.toNat)) :
    (!fitsBits 16 n || !bufFits cfg off.toNat n.toNat || !flashFits cfg a n.toNat) = true := by
  by_contra hc
  simp only [Bool.not_eq_true, Bool.or_eq_false_iff, Bool.not_eq_false'] at hc
  exact h ⟨by simpa [fitsBits] using hc.1.1, (bufFits_eq_true ..).mp hc.1.2, (flashFits_iff_flashRangeFits ..).mp hc.2⟩

/-- R206: the first check says yes. -/
theorem rangeFits_eq_true {cfg : Params} {a n off : Word}
    (h : (n.toNat < 2 ^ 16 ∧ off.toNat + n.toNat ≤ cfg.bufCap ∧ flashRangeFits cfg a n.toNat)) :
    (!fitsBits 16 n || !bufFits cfg off.toNat n.toNat || !flashFits cfg a n.toNat) = false := by
  rw [(show fitsBits 16 n = true by simpa [fitsBits] using h.1), (bufFits_eq_true ..).mpr h.2.1,
      (flashFits_iff_flashRangeFits ..).mpr h.2.2]; rfl

/-- R206: past its checks, a range write is its loop. -/
theorem flWrange_passes {a n off : Word} {s : State} (h : rangePassesChecks s.cfg a n off) :
    flWrange a n off s = rangeLoop a off n.toNat (n.toNat / 4) 0 .ok { s with fl.first := resCode .ok } := by
  obtain ⟨h1, h2, h3, h4, h5, h6⟩ := h
  unfold flWrange
  rw [(show fitsBits 16 n = true by simpa [fitsBits] using h1), (bufFits_eq_true ..).mpr h2,
      (flashFits_iff_flashRangeFits ..).mpr h3, (aligned_eq_true ..).mpr h5, (aligned_eq_true ..).mpr h6]
  simp [h4]

theorem State.free_flIdle {s : State} (h : s.free) : s.fl.state = .idle := by
  have := h.2; simp [State.busy] at this; exact this.1

/-- R206: a range write over settled outcomes, as far as they go. -/
theorem flWrange_turns {a n off : Word} {flags rest} {s : State} (hf : s.free) (hw : s.cfg.wf = true)
    (hp : rangePassesChecks s.cfg a n off)
    (hlen : flags.length ≤ (chunks s a.toNat n.toNat off.toNat).length)
        (hs : s.hw.script = settledOutcomes flags ++ rest) :
    ∃ fuel' p' ps t, flWrange a n off s = rangeLoop a off n.toNat fuel' p' (if faults flags ≠ 0 then .errFlash else .ok)
        t
      ∧ chunks s a.toNat n.toNat off.toNat = ps ++ loopPieces s a.toNat n.toNat off.toNat fuel' p'
      ∧ p' ≤ n.toNat ∧ p' % 4 = 0 ∧ n.toNat ≤ p' + 4 * fuel' ∧ RangeProgress a n off { s with fl.first := resCode .ok }
          t 0 p' ps flags rest := by
  obtain ⟨w1, w2, w3⟩ := Params.wf_row hw
  have R : RangeReady s.cfg a n off := ⟨w1, w2, w3, hp⟩
  have hl := loopPieces_chunks s a.toNat n.toNat off.toNat w1 w2 hp.2.2.2.2.1 hp.2.2.2.1
  have hcongr : ∀ f p, loopPieces { s with fl.first := resCode .ok } a.toNat n.toNat off.toNat f p
      = loopPieces s a.toNat n.toNat off.toNat f p := fun f p =>
      loopPieces_congr (s := s) (t := { s with fl.first := resCode .ok }) rfl rfl _ _ _ _ _
  obtain ⟨fuel', p', ps, t, h1, h2, h3, h4, h5, h6, h7⟩ := rangeLoop_turns R rest flags (n.toNat / 4) 0 .ok
      { s with fl.first := resCode .ok } rfl (State.free_flIdle hf) rfl (by omega) (by have := hp.2.2.2.1; omega)
      (by rw [hcongr, hl]; exact hlen) hs
  rw [hcongr, hcongr, hl] at h2
  refine ⟨fuel', p', ps, t, ?_, h2, h4, h5, h6, h7⟩
  rw [flWrange_passes hp, h1]; simp

/-- R206, R208: a range write over settled outcomes for all of its sub-operations. -/
theorem flWrange_settled {a n off : Word} {flags rest} {s : State} (hf : s.free) (hw : s.cfg.wf = true)
    (hp : rangePassesChecks s.cfg a n off)
    (hlen : flags.length = (chunks s a.toNat n.toNat off.toNat).length)
        (hs : s.hw.script = settledOutcomes flags ++ rest) :
    ∃ t, flWrange a n off s = .ends (if faults flags ≠ 0 then .errFlash else .ok) t ∧ RangeProgress a n off
        { s with fl.first := resCode .ok } t 0 n.toNat (chunks s a.toNat n.toNat off.toNat) flags rest := by
  obtain ⟨fuel', p', ps, t, h1, h2, h4, h5, h6, h7⟩ := flWrange_turns hf hw hp (by omega) hs
  have hnil : loopPieces s a.toNat n.toNat off.toNat fuel' p' = [] := by
    rw [h2, List.length_append, h7.length] at hlen
    exact List.eq_nil_of_length_eq_zero (by omega)
  have hle := loopPieces_done h6 hnil
  have : p' = n.toNat := by omega
  subst this
  rw [hnil, List.append_nil] at h2
  subst h2
  exact ⟨t, by rw [h1, rangeLoop_done (by omega)], h7⟩

end Sys2Proof.Machine
end

