-- ==== Sys2Proof/Laws/EraseLoop.lean ====
section
/-! SUPPORT. The Erase command (R304) over settled outcomes: one page, the loop over pages, and both regions it erases. -/

namespace Sys2Proof.Machine

/-- The page addresses of `n` pages from `p` on. -/
def pagesFrom (cfg : Params) (n : Nat) (p : Word) : List Word := (List.range n).map fun k =>
    p + BitVec.ofNat 32 (k * cfg.pageSize)

theorem pagesFrom_succ (cfg : Params) (n : Nat) (p : Word) :
    pagesFrom cfg (n + 1) p = p :: pagesFrom cfg n (p + BitVec.ofNat 32 cfg.pageSize) := by
  unfold pagesFrom
  rw [List.range_succ_eq_map, List.map_cons, List.map_map]
  congr 1
  · simp
  · apply List.map_congr_left
    intro k _
    simp only [Function.comp_apply, Nat.succ_mul]
    rw [BitVec.add_assoc, ← BitVec.ofNat_add, Nat.add_comm cfg.pageSize]

theorem skipsPage_eq (cfg : Params) (q : Word) : skipsPage cfg q = !erasesPage cfg q := by
  simp only [skipsPage, erasesPage, bne, Bool.not_and, Bool.not_not]

/-- R304: what is sent for pages visited. -/
def progressOf (cfg : Params) (qs : List Word) (flags : List (Bool × Bool)) : List Byte :=
  if cfg.eraseProgress then repliesOf cfg qs flags else []

theorem repliesOf_skip (cfg : Params) (q : Word) (qs : List Word) (flags : List (Bool × Bool))
    (h : erasesPage cfg q = false) :
    repliesOf cfg (q :: qs) flags = cfg.resp.get .pageProtected :: repliesOf cfg qs flags := by
  rw [repliesOf.eq_def]; simp only [h]; rfl

/-- As many flags as pages erased: the replies of a further stretch of pages follow. -/
theorem repliesOf_append (cfg : Params) (qs qs' : List Word) (flags flags' : List (Bool × Bool))
    (h : (qs.filter (erasesPage cfg)).length = flags.length) :
    repliesOf cfg (qs ++ qs') (flags ++ flags') = repliesOf cfg qs flags ++ repliesOf cfg qs' flags' := by
  induction qs generalizing flags with
  | nil =>
    have : flags = [] := List.eq_nil_of_length_eq_zero h.symm
    subst this; rfl
  | cons q qs ih =>
    rw [List.cons_append]
    by_cases hk : erasesPage cfg q = true
    · rw [List.filter_cons_of_pos hk] at h
      cases flags with
      | nil => cases h
      | cons f flags =>
        have := ih flags (by simpa using h)
        by_cases hb : (f.1 || f.2) = true
        · simp only [repliesOf, hk, if_true, List.cons_append, hb, this]
        · simp only [repliesOf, hk, if_true, List.cons_append, hb, this]; rfl
    · rw [List.filter_cons_of_neg hk] at h
      have hk' : erasesPage cfg q = false := by simpa using hk
      rw [repliesOf_skip _ _ _ _ hk', repliesOf_skip _ _ _ _ hk', ih flags h, List.cons_append]

theorem repliesOf_stop (cfg : Params) (q : Word) (qs : List Word) (h : erasesPage cfg q = true) :
    repliesOf cfg (q :: qs) [] = [] := by simp [repliesOf, h]

/-- With fewer flags than pages to erase, no page behind these is reached. -/
theorem repliesOf_short (cfg : Params) (qs qs' : List Word) (flags : List (Bool × Bool))
    (h : flags.length < (qs.filter (erasesPage cfg)).length) :
    repliesOf cfg (qs ++ qs') flags = repliesOf cfg qs flags := by
  induction qs generalizing flags with
  | nil => cases h
  | cons q qs ih =>
    rw [List.cons_append]
    by_cases hk : erasesPage cfg q = true
    · rw [List.filter_cons_of_pos hk] at h
      cases flags with
      | nil => rw [repliesOf_stop cfg q _ hk, repliesOf_stop cfg q _ hk]
      | cons f flags =>
        have := ih flags (by simpa using h)
        simp only [repliesOf, hk, if_true, this]
    · rw [List.filter_cons_of_neg hk] at h
      have hk' : erasesPage cfg q = false := by simpa using hk
      rw [repliesOf_skip _ _ _ _ hk', repliesOf_skip _ _ _ _ hk', ih flags h]

theorem progressOf_append (cfg : Params) (qs qs' : List Word) (flags flags' : List (Bool × Bool))
    (h : (qs.filter (erasesPage cfg)).length = flags.length) :
    progressOf cfg (qs ++ qs') (flags ++ flags') = progressOf cfg qs flags ++ progressOf cfg qs' flags' := by
  unfold progressOf; split
  · exact repliesOf_append cfg qs qs' flags flags' h
  · rfl

/-- The pages `qs` have been visited, those that are not skipped erased with settled outcomes. -/
structure Erased (s t : State) (qs : List Word) (flags : List (Bool × Bool)) (rest : List HwOutcome) : Prop where
  count : (qs.filter (erasesPage s.cfg)).length = flags.length
  only : t = { s with port := t.port, fl := t.fl, hw := t.hw, draws := t.draws, tx := s.tx ++ progressOf s.cfg qs flags }
  fl : t.fl =
    { s.fl with
      kind := t.fl.kind, addr := t.fl.addr, eraseAtt := s.fl.eraseAtt + BitVec.ofNat 32 flags.length
      eraseFail := s.fl.eraseFail + BitVec.ofNat 32 (faults flags) }
  script : t.hw.script = rest
  issued : t.hw.issued
    = s.hw.issued ++ settledCommands ((qs.filter (erasesPage s.cfg)).map fun q => presented s.cfg .erase q []) flags
  outside : ∀ x, (∀ q ∈ qs.filter (erasesPage s.cfg), ¬inTarget q s.cfg.pageSize x) → t.flashByte x = s.flashByte x
  inside : ∀ x, (∃ q, (q, (false, false)) ∈ (qs.filter (erasesPage s.cfg)).zip flags ∧ inTarget q s.cfg.pageSize x) →
    (∀ q f, (q, f) ∈ (qs.filter (erasesPage s.cfg)).zip flags → (f.1 || f.2) = true → ¬inTarget q s.cfg.pageSize x) →
    t.flashByte x = s.cfg.erasedByte

theorem progress_eq (s : State) (r : Reply) :
    s.progress r = { s with tx := s.tx ++ if s.cfg.eraseProgress then [s.cfg.resp.get r] else [] } := by
  unfold State.progress; split
  · rfl
  · simp

theorem Erased.trans {s t u : State} {qs qs' flags flags' rest rest'} (h : Erased s t qs flags rest)
    (h' : Erased t u qs' flags' rest') : Erased s u (qs ++ qs') (flags ++ flags') rest' := by
  have hf : faults (flags ++ flags') = faults flags + faults flags' := by simp [faults]
  have hcfg : t.cfg = s.cfg := by rw [h.only]
  have hc' := h'.count
  have ho' := h'.outside
  have hi' := h'.inside
  have hu' := h'.issued
  rw [hcfg] at hc' ho' hi' hu'
  have hz : ((qs ++ qs').filter (erasesPage s.cfg)).zip (flags ++ flags')
      = (qs.filter (erasesPage s.cfg)).zip flags ++ (qs'.filter (erasesPage s.cfg)).zip flags' := by
    rw [List.filter_append, List.zip_append h.count]
  refine ⟨by simp [h.count, hc'], ?_, ?_, h'.script, ?_, fun x hx => ?_, fun x hx hb => ?_⟩
  · rw [h'.only, h.only, progressOf_append _ _ _ _ _ h.count]; simp
  · rw [h'.fl, h.fl, hf, List.length_append]; simp only [FlashSeq.mk.injEq, true_and, and_true]
    constructor <;> rw [BitVec.ofNat_add, BitVec.add_assoc]
  · rw [hu', h.issued, List.append_assoc, List.filter_append, List.map_append]
    congr 1
    unfold settledCommands
    rw [List.zip_append (by simpa using h.count), List.flatMap_append]
  · rw [List.filter_append] at hx
    rw [ho' x (fun q hq => hx q (List.mem_append_right _ hq)), h.outside x (fun q hq => hx q (List.mem_append_left _ hq))]
  · rw [hz] at hx hb
    by_cases hin : ∃ q, (q, (false, false)) ∈ (qs'.filter (erasesPage s.cfg)).zip flags' ∧ inTarget q s.cfg.pageSize x
    · exact hi' x hin fun q f hq => hb q f (List.mem_append_right _ hq)
    · rw [ho' x fun q hq hc => ?_]
      · refine h.inside x ?_ fun q f hq => hb q f (List.mem_append_left _ hq)
        obtain ⟨q, hq, hi⟩ := hx
        rcases List.mem_append.mp hq with hq | hq
        · exact ⟨q, hq, hi⟩
        · exact absurd ⟨q, hq, hi⟩ hin
      · obtain ⟨k, hk, rfl⟩ := List.mem_iff_getElem.mp hq
        have hk' : k < flags'.length := by rw [← hc']; exact hk
        have hm : ((qs'.filter (erasesPage s.cfg))[k], flags'[k]) ∈ (qs'.filter (erasesPage s.cfg)).zip flags' := by
          rw [List.mem_iff_getElem]
          exact ⟨k, by rw [List.length_zip]; omega, by rw [List.getElem_zip]⟩
        by_cases hbad : ((flags'[k]).1 || (flags'[k]).2) = true
        · exact hb _ _ (List.mem_append_right _ hm) hbad hc
        · refine hin ⟨_, ?_, hc⟩
          have : flags'[k] = (false, false) := by
            revert hbad; cases flags'[k] with | mk a b => cases a <;> cases b <;> simp
          rw [this] at hm; exact hm

theorem Erased.refl (s : State) (rest) (h : s.hw.script = rest) : Erased s s [] [] rest :=
  ⟨rfl, by simp [progressOf, repliesOf], by simp [faults], h, by simp [settledCommands], fun _ _ => rfl,
    fun _ h => by simp at h⟩

theorem Erased.skip {s : State} {q : Word} {rest} (h : s.hw.script = rest) (hk : erasesPage s.cfg q = false) :
    Erased s (s.progress .pageProtected) [q] [] rest := by
  have hn : ([q]).filter (erasesPage s.cfg) = [] := List.filter_cons_of_neg (by simp [hk])
  rw [progress_eq]
  refine ⟨by rw [hn]; rfl, ?_, by simp [faults], h, by simp [hn, settledCommands], fun _ _ => rfl,
    fun _ h => by simp at h⟩
  simp [progressOf, repliesOf, hk]

/-- R180: what an issued erase that passes its checks runs. -/
theorem flErase_issued {s : State} {q : Word} (hal : q.toNat % s.cfg.pageSize = 0)
    (hfit : flashRangeFits s.cfg q s.cfg.pageSize) :
    flErase q (s.writePort 0x20#8 (some q) none none) =
      match flashSeq .erase q []
          { s.writePort 0x20#8 (some q) none none with fl.eraseAtt := s.fl.eraseAtt + 1#32, fl.state := .check } with
      | (.ok, s) => .ends .ok s
      | (.fail, s) => eraseFailed .errFlash s
      | (.never, s) => .blocks s := by
  unfold flErase
  have e1 : aligned (s.writePort 0x20#8 (some q) none none).cfg.pageSize q = true := (aligned_eq_true ..).mpr hal
  have e2 : flashFits (s.writePort 0x20#8 (some q) none none).cfg q
      (s.writePort 0x20#8 (some q) none none).cfg.pageSize = true := (flashFits_iff_flashRangeFits ..).mpr hfit
  simp only [e1, e2]; rfl

/-- R304: one page that is not skipped. -/
theorem erase_one {s : State} {q : Word} {f : Bool × Bool} {rest} (hi : s.fl.state = .idle)
    (hk : erasesPage s.cfg q = true) (hal : q.toNat % s.cfg.pageSize = 0) (hfit : flashRangeFits s.cfg q s.cfg.pageSize)
    (hs : s.hw.script = settledOutcomes [f] ++ rest) :
    ∃ t, (match issue 0x20#8 (some q) none none (flErase q) s with
      | .ends .ok s => OpResult.ends .ok (s.progress .pageErased)
      | .ends _ s => .ends .ok s
      | .blocks s => .blocks s
      | .noMeaning f => .noMeaning f) = .ends .ok t ∧ Erased s t [q] [f] rest := by
  obtain ⟨array, draws, he, ha⟩ := flashSeq_settled (kind := .erase) (addr := q) (data := [])
      (s := { s.writePort 0x20#8 (some q) none none with fl.eraseAtt := s.fl.eraseAtt + 1#32, fl.state := .check }) hs
          (by simp)
  have hn : ([q]).filter (erasesPage s.cfg) = [q] := List.filter_cons_of_pos (by simp [hk])
  have out : ∀ x, (∀ q' ∈ ([q]).filter (erasesPage s.cfg), ¬inTarget q' s.cfg.pageSize x) →
      Memory.read s.cfg.erasedByte array x = s.flashByte x := by
    rw [hn]; exact fun x hx => ha.outside (fun hc => hx q (by simp) hc)
  unfold issue
  rw [flErase_issued hal hfit, he]
  have f1 : faults [f] = if (f.1 || f.2) = true then 1 else 0 := by rw [faults_cons]; simp [faults]
  by_cases hb : (f.1 || f.2) = true
  · rw [if_pos hb]
    refine ⟨_, rfl, ⟨by rw [hn]; rfl, ?_, ?_, rfl, by rw [hn]; rfl, out, fun x hx h => ?_⟩⟩
    · simp [State.setRes, State.writePort, progressOf, repliesOf, hk, hb]
    · rw [f1, if_pos hb]; simp [State.setRes, hi]
    · rw [hn] at hx h
      obtain ⟨q', hq, -⟩ := hx
      simp at hq
      rw [← hq.2] at hb; exact absurd hb (by decide)
  · rw [if_neg hb]
    simp only [progress_eq]
    refine ⟨_, rfl, ⟨by rw [hn]; rfl, ?_, ?_, rfl, by rw [hn]; rfl, out, fun x hx _ => ?_⟩⟩
    · simp [State.setRes, State.writePort, progressOf, repliesOf, hk, hb]; rfl
    · rw [f1, if_neg hb]; simp [State.setRes, hi]
    · rw [hn] at hx
      obtain ⟨q', hq, hx⟩ := hx
      obtain ⟨rfl, -⟩ : q' = q ∧ (false, false) = f := by simpa using hq
      exact ha.erased rfl (by simpa using hb) x hx.1 hx.2

/-- R304: the loop over pages, as far as the settled outcomes go; what is left begins with a page to erase. -/
theorem erasePages_turns (n : Nat) (p : Word) (s : State) (flags : List (Bool × Bool)) (rest : List HwOutcome)
    (hi : s.fl.state = .idle)
    (hok : ∀ q ∈ pagesFrom s.cfg n p, q.toNat % s.cfg.pageSize = 0 ∧ flashRangeFits s.cfg q s.cfg.pageSize)
    (hl : flags.length ≤ ((pagesFrom s.cfg n p).filter (erasesPage s.cfg)).length)
    (hs : s.hw.script = settledOutcomes flags ++ rest) :
    ∃ n' p' qs t, erasePages n p s = erasePages n' p' t ∧ pagesFrom s.cfg n p = qs ++ pagesFrom s.cfg n' p'
      ∧ Erased s t qs flags rest ∧ (n' = 0 ∨ ∃ m, n' = m + 1 ∧ erasesPage s.cfg p' = true) := by
  induction n generalizing p s flags with
  | zero =>
    have : flags = [] := List.eq_nil_of_length_eq_zero (Nat.le_zero.mp hl)
    subst this
    exact ⟨0, p, [], s, rfl, rfl, Erased.refl s rest hs, .inl rfl⟩
  | succ n ih =>
    rw [pagesFrom_succ] at hok hl
    by_cases hk : erasesPage s.cfg p = true
    · rw [List.filter_cons_of_pos hk] at hl
      cases flags with
      | nil => exact ⟨n + 1, p, [], s, rfl, rfl, Erased.refl s rest hs, .inr ⟨n, rfl, hk⟩⟩
      | cons f flags =>
        rw [settledOutcomes_cons, List.append_assoc] at hs
        obtain ⟨t, ht, hE⟩ := erase_one hi hk (hok p (by simp)).1 (hok p (by simp)).2 hs
        have hcfg : t.cfg = s.cfg := by rw [hE.only]
        obtain ⟨n', p', qs, u, hu, hq, hE', hend⟩ := ih (p + BitVec.ofNat 32 s.cfg.pageSize) t flags
            (by rw [hE.fl]; exact hi) (fun q hq => by rw [hcfg] at hq ⊢; exact hok q (List.mem_cons_of_mem _ hq))
            (by rw [hcfg]; simpa using hl) hE.script
        rw [hcfg] at hq hend
        refine ⟨n', p', p :: qs, u, ?_, by rw [pagesFrom_succ, hq]; rfl, hE.trans hE', hend⟩
        rw [← hu, erasePages]
        rw [skipsPage_eq, if_neg (by rw [hk]; decide)]
        revert ht
        cases issue 0x20#8 (some p) none none (flErase p) s with
        | ends r v => cases r <;> (intro h; cases h; rfl)
        | blocks v => intro h; cases h
        | noMeaning f => intro h; cases h
    · have hk' : erasesPage s.cfg p = false := by simpa using hk
      rw [List.filter_cons_of_neg hk] at hl
      have hE := Erased.skip (q := p) hs hk'
      have hcfg : (s.progress .pageProtected).cfg = s.cfg := by rw [progress_eq]
      obtain ⟨n', p', qs, u, hu, hq, hE', hend⟩ := ih (p + BitVec.ofNat 32 s.cfg.pageSize) (s.progress .pageProtected)
          flags (by rw [progress_eq]; exact hi)
          (fun q hq => by rw [hcfg] at hq ⊢; exact hok q (List.mem_cons_of_mem _ hq)) (by rw [hcfg]; exact hl) hE.script
      rw [hcfg] at hq hend
      refine ⟨n', p', p :: qs, u, ?_, by rw [pagesFrom_succ, hq]; rfl, hE.trans hE', hend⟩
      rw [← hu, erasePages]
      rw [skipsPage_eq, hk', if_pos (by rfl)]

/-- R304: the loop over pages, every outcome settled. -/
theorem erasePages_settled (n : Nat) (p : Word) (s : State) (flags : List (Bool × Bool)) (rest : List HwOutcome)
    (hi : s.fl.state = .idle)
    (hok : ∀ q ∈ pagesFrom s.cfg n p, q.toNat % s.cfg.pageSize = 0 ∧ flashRangeFits s.cfg q s.cfg.pageSize)
    (hl : ((pagesFrom s.cfg n p).filter (erasesPage s.cfg)).length = flags.length)
    (hs : s.hw.script = settledOutcomes flags ++ rest) :
    ∃ t, erasePages n p s = .ends .ok t ∧ Erased s t (pagesFrom s.cfg n p) flags rest := by
  obtain ⟨n', p', qs, t, ht, hq, hE, h | ⟨m, rfl, hk⟩⟩ := erasePages_turns n p s flags rest hi hok (by omega) hs
  · subst h
    rw [show pagesFrom s.cfg 0 p' = [] from rfl, List.append_nil] at hq
    exact ⟨t, ht, hq ▸ hE⟩
  · rw [hq, pagesFrom_succ, List.filter_append, List.filter_cons_of_pos hk, List.length_append, hE.count] at hl
    simp at hl

/-- R304, R336: the command has visited the pages `qs` and stopped in the erase that never ends. -/
structure StoppedErase (s t : State) (qs : List Word) (flags : List (Bool × Bool)) (stop : List HwOutcome) :
    Prop where
  only : t = { s with
    port := t.port, fl := t.fl, hw := t.hw, draws := t.draws, tx := s.tx ++ progressOf s.cfg qs flags
    env.status := if leftIn stop = .halt then s.cfg.status.hardwareFailed else s.env.status }
  fl : t.fl =
    { s.fl with
      state := leftIn stop, halted := if leftIn stop = .halt then true else s.fl.halted, kind := .erase
      addr := t.fl.addr, eraseAtt := s.fl.eraseAtt + BitVec.ofNat 32 (flags.length + 1)
      eraseFail := s.fl.eraseFail + BitVec.ofNat 32 (faults flags) }
  issued : t.hw.issued.length = s.hw.issued.length + flags.length + faults flags + stop.length
  outside : ∀ x, (∀ q ∈ qs.filter (erasesPage s.cfg), ¬inTarget q s.cfg.pageSize x) → t.flashByte x = s.flashByte x

/-- R180, R304: an issued erase that never ends. -/
theorem issue_erase_stops {s : State} {q : Word} {stop rest} (hk : erasesPage s.cfg q = true) (qs : List Word)
    (hal : q.toNat % s.cfg.pageSize = 0) (hfit : flashRangeFits s.cfg q s.cfg.pageSize) (hn : neverEnds stop = true)
    (hs : s.hw.script = stop ++ rest) :
    ∃ t, issue 0x20#8 (some q) none none (flErase q) s = .blocks t ∧ StoppedErase s t (q :: qs) [] stop := by
  obtain ⟨hw, draws, he, h1, -, h3⟩ := flashSeq_stops (kind := .erase) (addr := q) (data := [])
      (s := { s.writePort 0x20#8 (some q) none none with fl.eraseAtt := s.fl.eraseAtt + 1#32, fl.state := .check }) hs hn
          (by simp)
  unfold issue
  rw [flErase_issued hal hfit, he]
  refine ⟨_, rfl, ⟨?_, ?_, ?_, fun x hx => h3 x fun hc => ?_⟩⟩
  · simp [State.writePort, progressOf, repliesOf_stop _ _ _ hk]
  · simp [faults]
  · simpa [faults] using h1
  · exact hx q (by rw [List.filter_cons_of_pos hk]; exact List.mem_cons_self) hc

theorem Erased.stops {s t u : State} {qs qs' flags rest stop} (h : Erased s t qs flags rest)
    (h' : StoppedErase t u qs' [] stop) : StoppedErase s u (qs ++ qs') flags stop := by
  have hcfg : t.cfg = s.cfg := by rw [h.only]
  have hst : t.env = s.env := by rw [h.only]
  have ho' := h'.outside
  rw [hcfg] at ho'
  have hp := progressOf_append s.cfg qs qs' flags [] h.count
  rw [List.append_nil] at hp
  refine ⟨?_, ?_, ?_, fun x hx => ?_⟩
  · rw [h'.only, hp, hcfg, hst]
    rw [h.only]; simp
  · rw [h'.fl, h.fl]
    simp only [FlashSeq.mk.injEq, true_and, and_true]
    constructor
    · rw [BitVec.add_assoc, ← BitVec.ofNat_add]; simp
    · simp [faults]
  · rw [h'.issued, h.issued, List.length_append, length_settledCommands _ _ (by rw [List.length_map]; exact h.count)]
    simp [faults]; omega
  · rw [List.filter_append] at hx
    rw [ho' x (fun q hq => hx q (List.mem_append_right _ hq)), h.outside x (fun q hq => hx q (List.mem_append_left _ hq))]

/-- R304: the loop over pages, one of its erases never ending. -/
theorem erasePages_stops (n : Nat) (p : Word) (s : State) (flags : List (Bool × Bool)) (stop rest : List HwOutcome)
    (hi : s.fl.state = .idle)
    (hok : ∀ q ∈ pagesFrom s.cfg n p, q.toNat % s.cfg.pageSize = 0 ∧ flashRangeFits s.cfg q s.cfg.pageSize)
    (hl : flags.length < ((pagesFrom s.cfg n p).filter (erasesPage s.cfg)).length) (hn : neverEnds stop = true)
    (hs : s.hw.script = settledOutcomes flags ++ stop ++ rest) :
    ∃ t, erasePages n p s = .blocks t ∧ StoppedErase s t (pagesFrom s.cfg n p) flags stop := by
  rw [List.append_assoc] at hs
  obtain ⟨n', p', qs, t, ht, hq, hE, h | ⟨m, rfl, hk⟩⟩ := erasePages_turns n p s flags _ hi hok (by omega) hs
  · subst h
    rw [show pagesFrom s.cfg 0 p' = [] from rfl, List.append_nil] at hq
    rw [hq, hE.count] at hl; omega
  · have hcfg : t.cfg = s.cfg := by rw [hE.only]
    rw [pagesFrom_succ] at hq
    have hp := hok p' (by rw [hq]; simp)
    obtain ⟨u, hu, hS⟩ := issue_erase_stops (s := t) (q := p') (by rw [hcfg]; exact hk)
      (pagesFrom s.cfg m (p' + BitVec.ofNat 32 s.cfg.pageSize)) (by rw [hcfg]; exact hp.1) (by rw [hcfg]; exact hp.2) hn
      hE.script
    refine ⟨u, ?_, hq ▸ hE.stops hS⟩
    rw [ht, erasePages]
    rw [skipsPage_eq, hcfg, if_neg (by rw [hk]; decide), hu]

/-! ##### The pages pass their checks -/

theorem dvd_of_pow2 {n : Nat} (h : isPowerOfTwo n = true) (hn : n ≤ 65525) : n ∣ 2 ^ 29 := by
  simp only [isPowerOfTwo, List.any_eq_true, List.mem_range] at h
  obtain ⟨k, _, hk⟩ := h
  simp only [beq_iff_eq] at hk
  subst hk
  have : k < 29 := by
    by_contra hc
    have : 2 ^ 29 ≤ 2 ^ k := Nat.pow_le_pow_right (by omega) (by omega)
    omega
  exact Nat.pow_dvd_pow 2 (by omega)

/-- R282: a region to be erased, in the terms of the flash checks. -/
structure Region (cfg : Params) (base : Word) (size : Nat) : Prop where
  al : (phys base).toNat % cfg.pageSize = 0
  sz : size % cfg.pageSize = 0
  lim : (phys base).toNat + size ≤ 2 ^ 29
  fl : ∀ p, (phys base).toNat ≤ p → p < (phys base).toNat + size → flashAt cfg p

/-- R282: both regions to be erased are such, and the entry page is page-aligned. -/
theorem Params.envWf_regions {cfg : Params} (h : cfg.envWf = true) : Region cfg cfg.progBase cfg.progSize
    ∧ Region cfg cfg.bootBase cfg.bootSize ∧ (phys cfg.entryPage).toNat % cfg.pageSize = 0 := by
  simp only [Params.envWf, Bool.and_eq_true, beq_iff_eq, physBase] at h
  simp only [decide_eq_true_eq] at h
  obtain ⟨⟨⟨⟨⟨⟨⟨⟨⟨⟨h1, h2⟩, h3⟩, h4⟩, h5⟩, h6⟩, h7⟩, h8⟩, h9⟩, -⟩, -⟩ := h
  refine ⟨⟨of_decide_eq_true h1, h2, of_decide_eq_true h5, fun p hp hp' =>
      ⟨_, by rw [h9]; exact List.mem_cons_self, hp, hp'⟩⟩,
      ⟨of_decide_eq_true h3, h4, of_decide_eq_true h6, fun p hp hp' =>
      ⟨_, by rw [h9]; exact List.mem_cons_of_mem _ List.mem_cons_self, hp, hp'⟩⟩, of_decide_eq_true h7⟩

/-- R10: what an erase needs of the page size. -/
theorem Params.wf_page {c : Params} (h : c.wf = true) : 0 < c.pageSize ∧ c.pageSize ∣ 2 ^ 29 := by
  simp only [Params.wf, Bool.and_eq_true, decide_eq_true_eq] at h
  obtain ⟨⟨⟨⟨⟨⟨⟨⟨⟨-, h0⟩, -⟩, h1⟩, -⟩, -⟩, h2⟩, -⟩, h3⟩, -⟩ := h
  exact ⟨by omega, dvd_of_pow2 h0 h1⟩

/-- R304: every page of a region passes the checks of its erase. -/
theorem Region.pages {cfg : Params} (hw : cfg.wf = true) {base : Word} {size : Nat} (R : Region cfg base size) :
    ∀ q ∈ pagesFrom cfg (size / cfg.pageSize) base, q.toNat % cfg.pageSize = 0 ∧ flashRangeFits cfg q cfg.pageSize := by
  obtain ⟨hpos, hdvd⟩ := Params.wf_page hw
  intro q hq
  simp only [pagesFrom, List.mem_map, List.mem_range] at hq
  obtain ⟨k, hk, rfl⟩ := hq
  have hk' : (k + 1) * cfg.pageSize ≤ size := by
    have := Nat.div_mul_le_self size cfg.pageSize
    exact Nat.le_trans (Nat.mul_le_mul_right _ hk) this
  rw [Nat.add_mul, Nat.one_mul] at hk'
  have hl := R.lim
  have hp := toNat_phys base
  have e29 : (2 : Nat) ^ 29 = physSpace := rfl
  have hb := base.isLt
  have hq : (base + BitVec.ofNat 32 (k * cfg.pageSize)).toNat = base.toNat + k * cfg.pageSize := by
    rw [BitVec.toNat_add, BitVec.toNat_ofNat]
    simp only [physSpace] at *
    omega
  have hph : (phys (base + BitVec.ofNat 32 (k * cfg.pageSize))).toNat = (phys base).toNat + k * cfg.pageSize := by
    rw [toNat_phys, hq]
    simp only [physSpace] at *
    omega
  refine ⟨?_, ?_, ?_⟩
  · rw [hq, Nat.add_mul_mod_self_right]
    have : base.toNat = physSpace * (base.toNat / physSpace) + (phys base).toNat := by
        rw [hp]; exact (Nat.div_add_mod _ _).symm
    rw [this]
    have : physSpace * (base.toNat / physSpace) % cfg.pageSize = 0 := Nat.mod_eq_zero_of_dvd (Dvd.dvd.mul_right hdvd _)
    rw [Nat.add_mod, this, R.al]; simp
  · rw [hph]; omega
  · intro x hx hx'
    rw [hph] at hx hx'
    exact R.fl x (by omega) (by omega)

/-! ##### Both regions -/

theorem commandPages_eq (cfg : Params) : commandPages cfg = pagesFrom cfg (cfg.progSize / cfg.pageSize) cfg.progBase
    ++ pagesFrom cfg (cfg.bootSize / cfg.pageSize) cfg.bootBase := rfl

theorem erasedPages_eq (cfg : Params) :
    erasedPages cfg = (pagesFrom cfg (cfg.progSize / cfg.pageSize) cfg.progBase).filter (erasesPage cfg)
    ++ (pagesFrom cfg (cfg.bootSize / cfg.pageSize) cfg.bootBase).filter (erasesPage cfg) := by
  rw [erasedPages, commandPages_eq, List.filter_append]

theorem pageReplies_eq (cfg : Params) (flags : List (Bool × Bool)) :
    pageReplies cfg flags = progressOf cfg (commandPages cfg) flags := rfl

/-- R304: both regions, with settled outcomes. -/
theorem eraseRegions_settled {s : State} {flags rest} (hf : s.commandFree) (hw : s.cfg.wf = true)
    (he : s.cfg.envWf = true) (hl : flags.length = (erasedPages s.cfg).length)
    (hs : s.hw.script = settledOutcomes flags ++ rest) :
    ∃ u, Erased { s with env.eraseDone := false } u (commandPages s.cfg) flags rest ∧
      eraseRegions { s with env.eraseDone := false } = .ends .ok u := by
  obtain ⟨R1, R2, -⟩ := Params.envWf_regions he
  rw [erasedPages_eq, List.length_append] at hl
  obtain ⟨f1, f2, rfl, h1, h2⟩ : ∃ f1 f2, flags = f1 ++ f2 ∧ f1.length
      = ((pagesFrom s.cfg (s.cfg.progSize / s.cfg.pageSize) s.cfg.progBase).filter (erasesPage s.cfg)).length
      ∧ f2.length
      = ((pagesFrom s.cfg (s.cfg.bootSize / s.cfg.pageSize) s.cfg.bootBase).filter (erasesPage s.cfg)).length :=
    ⟨_, _, (List.take_append_drop
        ((pagesFrom s.cfg (s.cfg.progSize / s.cfg.pageSize) s.cfg.progBase).filter (erasesPage s.cfg)).length
        flags).symm, by rw [List.length_take]; omega, by rw [List.length_drop]; omega⟩
  have hs' : s.hw.script = settledOutcomes f1 ++ (settledOutcomes f2 ++ rest) := by
    rw [hs]; simp [settledOutcomes]
  obtain ⟨t, ht, hE⟩ := erasePages_settled (s.cfg.progSize / s.cfg.pageSize) s.cfg.progBase
      { s with env.eraseDone := false } f1 (settledOutcomes f2 ++ rest) (State.free_flIdle hf.1) (Region.pages hw R1)
      h1.symm hs'
  have hcfg : t.cfg = s.cfg := by rw [hE.only]
  obtain ⟨u, hu, hE'⟩ := erasePages_settled (t.cfg.bootSize / t.cfg.pageSize) t.cfg.bootBase t f2 rest
      (by rw [hE.fl]; exact State.free_flIdle hf.1) (by rw [hcfg]; exact Region.pages hw R2)
      (by rw [hcfg]; exact h2.symm) hE.script
  refine ⟨u, ?_, ?_⟩
  · rw [commandPages_eq]
    rw [hcfg] at hE'
    exact hE.trans hE'
  · unfold eraseRegions
    simp only [ht, hu]

/-- R304, R336: both regions, one of the erases never ending. -/
theorem eraseRegions_stops {s : State} {flags stop rest} (hf : s.commandFree) (hw : s.cfg.wf = true)
    (he : s.cfg.envWf = true) (hl : flags.length < (erasedPages s.cfg).length) (hn : neverEnds stop = true)
    (hs : s.hw.script = settledOutcomes flags ++ stop ++ rest) :
    ∃ u, StoppedErase { s with env.eraseDone := false } u (commandPages s.cfg) flags stop ∧
      eraseRegions { s with env.eraseDone := false } = .blocks u := by
  obtain ⟨R1, R2, -⟩ := Params.envWf_regions he
  rw [erasedPages_eq, List.length_append] at hl
  have hidle := State.free_flIdle hf.1
  by_cases hlt : flags.length
      < ((pagesFrom s.cfg (s.cfg.progSize / s.cfg.pageSize) s.cfg.progBase).filter (erasesPage s.cfg)).length
  · obtain ⟨t, ht, hS⟩ := erasePages_stops (s.cfg.progSize / s.cfg.pageSize) s.cfg.progBase
        { s with env.eraseDone := false } flags stop rest hidle (Region.pages hw R1) hlt hn hs
    refine ⟨t, ⟨?_, hS.fl, hS.issued, fun x hx => hS.outside x fun q hq => hx q ?_⟩, ?_⟩
    · have hp : progressOf s.cfg (commandPages s.cfg) flags
          = progressOf s.cfg (pagesFrom s.cfg (s.cfg.progSize / s.cfg.pageSize) s.cfg.progBase) flags := by
        rw [commandPages_eq]
        unfold progressOf
        split
        · exact repliesOf_short _ _ _ _ hlt
        · rfl
      rw [hp]; exact hS.only
    · rw [commandPages_eq, List.filter_append]; exact List.mem_append_left _ hq
    · unfold eraseRegions
      simp only [ht]
  · obtain ⟨f1, f2, rfl, h1, h2⟩ : ∃ f1 f2, flags = f1 ++ f2 ∧ f1.length
        = ((pagesFrom s.cfg (s.cfg.progSize / s.cfg.pageSize) s.cfg.progBase).filter (erasesPage s.cfg)).length
        ∧ f2.length
        < ((pagesFrom s.cfg (s.cfg.bootSize / s.cfg.pageSize) s.cfg.bootBase).filter (erasesPage s.cfg)).length :=
      ⟨_, _, (List.take_append_drop
        ((pagesFrom s.cfg (s.cfg.progSize / s.cfg.pageSize) s.cfg.progBase).filter (erasesPage s.cfg)).length
        flags).symm, by rw [List.length_take]; omega, by rw [List.length_drop]; omega⟩
    have hs' : s.hw.script = settledOutcomes f1 ++ (settledOutcomes f2 ++ stop ++ rest) := by
      rw [hs]; simp [settledOutcomes]
    obtain ⟨t, ht, hE⟩ := erasePages_settled (s.cfg.progSize / s.cfg.pageSize) s.cfg.progBase
        { s with env.eraseDone := false } f1 _ hidle (Region.pages hw R1) h1.symm hs'
    have hcfg : t.cfg = s.cfg := by rw [hE.only]
    have hst : t.env = { s.env with eraseDone := false } := by rw [hE.only]
    obtain ⟨u, hu, hS⟩ := erasePages_stops (t.cfg.bootSize / t.cfg.pageSize) t.cfg.bootBase t f2 stop rest
        (by rw [hE.fl]; exact hidle) (by rw [hcfg]; exact Region.pages hw R2) (by rw [hcfg]; exact h2) hn hE.script
    rw [hcfg] at hS
    have hp := progressOf_append s.cfg (pagesFrom s.cfg (s.cfg.progSize / s.cfg.pageSize) s.cfg.progBase)
      (pagesFrom s.cfg (s.cfg.bootSize / s.cfg.pageSize) s.cfg.bootBase) f1 f2 h1.symm
    have hfl : faults (f1 ++ f2) = faults f1 + faults f2 := by simp [faults]
    refine ⟨u, ⟨?_, ?_, ?_, fun x hx => ?_⟩, ?_⟩
    · rw [commandPages_eq, hp, hS.only, hcfg, hst]
      rw [hE.only]; simp
    · rw [hS.fl, hE.fl, hfl, List.length_append]
      simp only [FlashSeq.mk.injEq, true_and, and_true]
      constructor
      · rw [BitVec.add_assoc, ← BitVec.ofNat_add]; simp [Nat.add_assoc]
      · rw [BitVec.ofNat_add, BitVec.add_assoc]
    · rw [hS.issued, hE.issued, List.length_append, hfl, List.length_append,
        length_settledCommands _ _ (by rw [List.length_map]; exact hE.count)]
      simp; omega
    · rw [commandPages_eq] at hx
      have hx' : ∀ q ∈ (pagesFrom s.cfg (s.cfg.progSize / s.cfg.pageSize) s.cfg.progBase
          ++ pagesFrom s.cfg (s.cfg.bootSize / s.cfg.pageSize) s.cfg.bootBase).filter (erasesPage s.cfg),
          ¬inTarget q s.cfg.pageSize x := hx
      rw [List.filter_append] at hx'
      have ho := hS.outside
      rw [hcfg] at ho
      rw [ho x fun q hq => hx' q (List.mem_append_right _ hq)]
      exact hE.outside x fun q hq => hx' q (List.mem_append_left _ hq)
    · unfold eraseRegions
      simp only [ht, hu]

/-- R296: where a write begins at the boot-entry page, that page passes the checks of its erase. -/
theorem entry_fits {cfg : Params} (hw : cfg.wf = true) (he : cfg.envWf = true) {a : Word} {l : Nat} (hl : 0 < l)
    (hin : inOneRange cfg a l) (ha : phys a = phys cfg.entryPage) :
    cfg.entryPage.toNat % cfg.pageSize = 0 ∧ flashRangeFits cfg cfg.entryPage cfg.pageSize := by
  obtain ⟨hpos, hdvd⟩ := Params.wf_page hw
  obtain ⟨R1, R2, hal⟩ := Params.envWf_regions he
  have hrange : cfg.flashRanges = [⟨physBase cfg.progBase, cfg.progSize⟩, ⟨physBase cfg.bootBase, cfg.bootSize⟩] := by
    have h := he
    simp only [Params.envWf, Bool.and_eq_true, beq_iff_eq] at h
    exact h.1.1.2
  have key : ∀ base size, Region cfg base size → (phys base).toNat ≤ (phys cfg.entryPage).toNat
      → (phys cfg.entryPage).toNat + l ≤ (phys base).toNat + size → flashRangeFits cfg cfg.entryPage cfg.pageSize := by
    intro base size R h1 h2
    obtain ⟨x, hx⟩ := Nat.dvd_of_mod_eq_zero R.al
    obtain ⟨y, hy⟩ := Nat.dvd_of_mod_eq_zero R.sz
    obtain ⟨z, hz⟩ := Nat.dvd_of_mod_eq_zero hal
    have hlim := R.lim
    have hle : (phys cfg.entryPage).toNat + cfg.pageSize ≤ (phys base).toNat + size := by
      have hxy := Nat.mul_add cfg.pageSize x y
      have : z < x + y := by
        have : cfg.pageSize * z < cfg.pageSize * (x + y) := by omega
        exact Nat.lt_of_mul_lt_mul_left this
      have := Nat.mul_le_mul_left cfg.pageSize this
      rw [Nat.mul_succ] at this; omega
    exact ⟨by omega, fun p hp hp' => R.fl p (by omega) (by omega)⟩
  refine ⟨?_, ?_⟩
  · have hp := toNat_phys cfg.entryPage
    have : cfg.entryPage.toNat = physSpace * (cfg.entryPage.toNat / physSpace) + (phys cfg.entryPage).toNat := by
        rw [hp]; exact (Nat.div_add_mod _ _).symm
    rw [this]
    have : physSpace * (cfg.entryPage.toNat / physSpace) % cfg.pageSize = 0 := Nat.mod_eq_zero_of_dvd
        (Dvd.dvd.mul_right hdvd _)
    rw [Nat.add_mod, this, hal]; simp
  · obtain ⟨r, hr, h1, h2⟩ := hin
    rw [ha] at h1 h2
    rw [hrange] at hr
    simp only [List.mem_cons, List.not_mem_nil, or_false] at hr
    rcases hr with rfl | rfl
    · exact key _ _ R1 h1 h2
    · exact key _ _ R2 h1 h2

/-- R180: an issued erase that passes its checks, with no fault reported. -/
theorem issue_erase {s : State} {q : Word} {rest} (hal : q.toNat % s.cfg.pageSize = 0)
    (hfit : flashRangeFits s.cfg q s.cfg.pageSize) (hi : s.fl.state = .idle)
    (hs : s.hw.script = .done false false :: rest) :
    ∃ t, issue 0x20#8 (some q) none none (flErase q) s = .ends .ok t
      ∧ t = { s with
          port := { s.port with op := 0x20#8, opa := q, res := resCode .ok }
          fl := { s.fl with kind := .erase, addr := phys q, eraseAtt := s.fl.eraseAtt + 1#32 }
          hw := t.hw, draws := t.draws }
      ∧ t.hw.script = rest
      ∧ t.hw.issued = s.hw.issued ++ [presented s.cfg .erase q []]
      ∧ ∀ p, t.flashByte p = if inTarget q s.cfg.pageSize p then s.cfg.erasedByte else s.flashByte p := by
  obtain ⟨array, draws, he, ha⟩ := flashSeq_ok (kind := .erase) (addr := q) (data := [])
      (s := { s.writePort 0x20#8 (some q) none none with fl.eraseAtt := s.fl.eraseAtt + 1#32, fl.state := .check })
          (nextOutcome_cons hs) (by simp)
  unfold issue
  rw [flErase_issued hal hfit, he]
  refine ⟨_, rfl, ?_, ?_, rfl, fun p => ?_⟩
  · simp [State.setRes, State.writePort, hi]
  · show s.hw.script.tail = _; rw [hs]; rfl
  · show Memory.read _ array p = _
    split
    · rename_i hp; exact ha.erased rfl rfl p hp.1 hp.2
    · rename_i hp; exact ha.outside hp

end Sys2Proof.Machine
end

