-- ==== Sys2Proof/Laws/FlashOps.lean ====
section
/-! SUPPORT. How each flash operation of the command port can come out and what it reaches, said once: `FlashEnds`. It
holds for every choice of parameters. -/

namespace Sys2Proof.Machine

/-- The array `m'` is `m` after some stores, each inside `T`. -/
def ArrayReach (d : Byte) (T : Nat → Prop) (m m' : Memory) : Prop :=
  ∀ P : Memory → Prop,
    (∀ m lo bytes, (∀ p, lo ≤ p → p < lo + bytes.length → T p) → P m → P (Memory.writeRange d m lo bytes)) → P m → P m'

theorem ArrayReach.refl (d : Byte) (T : Nat → Prop) (m : Memory) : ArrayReach d T m m := fun _ _ h => h

theorem ArrayReach.trans {d : Byte} {T : Nat → Prop} {m m' m'' : Memory} (h : ArrayReach d T m m')
    (h' : ArrayReach d T m' m'') : ArrayReach d T m m'' := fun P hP hm => h' P hP (h P hP hm)

theorem ArrayReach.mono {d : Byte} {T T' : Nat → Prop} {m m' : Memory} (hT : ∀ p, T p → T' p) (h : ArrayReach d T m m') :
    ArrayReach d T' m m' := fun P hP => h P fun m lo bytes hb => hP m lo bytes fun p h1 h2 => hT p (hb p h1 h2)

theorem ArrayReach.outside {d : Byte} {T : Nat → Prop} {m m' : Memory} (h : ArrayReach d T m m') {p : Nat} (hp : ¬T p) :
    Memory.read d m' p = Memory.read d m p :=
  h (fun m' => Memory.read d m' p = Memory.read d m p)
    (fun _ _ _ hb hm => (Memory.read_writeRange_outside fun hr => hp (hb p hr.1 hr.2)).trans hm) rfl

theorem ArrayReach.wf {d : Byte} {T : Nat → Prop} {m m' : Memory} (h : ArrayReach d T m m') (hm : Memory.wf d m) :
    Memory.wf d m' := h (Memory.wf d) (fun _ _ _ _ hw => Memory.wf_writeRange hw _ _) hm

theorem ArrayAfter.reach {cfg : Params} {kind : FlashKind} {base : Nat} {data : List Byte} {bad : Bool}
    {before after : Memory} (h : ArrayAfter cfg kind base data bad before after) :
    ArrayReach cfg.erasedByte (fun p => base ≤ p ∧ p < base + flashSpan cfg kind) before after := by
  intro P hP hm
  rcases h.store with h | ⟨bytes, hl, h⟩
  · rw [h]; exact hm
  · rw [h]; exact hP _ _ _ (fun p h1 h2 => ⟨h1, hl ▸ h2⟩) hm

/-- A flash operation reaches the sequencer, the flash hardware, the draws and, at the halt, the status byte. -/
structure FlashOnly (s u : State) : Prop where
  port : u.port = s.port
  crc : u.crc = s.crc
  ciph : u.ciph = s.ciph
  fr : u.fr = s.fr
  rx : u.rx = s.rx
  tx : u.tx = s.tx
  inputs : u.inputs = s.inputs
  cfg : u.cfg = s.cfg

theorem FlashOnly.refl (s : State) : FlashOnly s s := ⟨rfl, rfl, rfl, rfl, rfl, rfl, rfl, rfl⟩

theorem FlashOnly.trans {s t u : State} (h : FlashOnly s t) (h' : FlashOnly t u) : FlashOnly s u :=
  ⟨h'.port.trans h.port, h'.crc.trans h.crc, h'.ciph.trans h.ciph, h'.fr.trans h.fr, h'.rx.trans h.rx, h'.tx.trans h.tx,
    h'.inputs.trans h.inputs, h'.cfg.trans h.cfg⟩

theorem FlashOnly.eq {s u : State} (h : FlashOnly s u) :
    u = { s with fl := u.fl, hw := u.hw, env := u.env, draws := u.draws } := by
  obtain ⟨h1, h2, h3, h4, h5, h6, h7, h8⟩ := h
  cases u
  simp only at h1 h2 h3 h4 h5 h6 h7 h8
  subst h1 h2 h3 h4 h5 h6 h7 h8
  rfl

/-- How a flash operation with its target in `T` comes out. -/
def FlashEnds (T : Nat → Prop) (s : State) : OpResult → Prop
  | .ends _ u => FlashOnly s u ∧ ArrayReach s.cfg.erasedByte T s.hw.array u.hw.array
      ∧ u.fl.state = .idle ∧ u.fl.halted = s.fl.halted ∧ u.env = s.env
  | .blocks u => FlashOnly s u ∧ ArrayReach s.cfg.erasedByte T s.hw.array u.hw.array
      ∧ ((u.fl.halted = s.fl.halted ∧ u.env = s.env
            ∧ (u.fl.state = .clrWait ∨ (u.fl.state = .wait
                ∧ ∀ p, within u.fl.addr.toNat (flashSpan s.cfg u.fl.kind) p = true → T p)))
          ∨ (u.fl.state = .halt ∧ u.fl.halted = true ∧ u.env = { s.env with status := s.cfg.status.hardwareFailed }))
  | .noMeaning _ => False

theorem FlashEnds.mono {T T' : Nat → Prop} {s : State} {r : OpResult} (hT : ∀ p, T p → T' p) (h : FlashEnds T s r) :
    FlashEnds T' s r := by
  cases r with
  | ends r u => exact ⟨h.1, h.2.1.mono hT, h.2.2⟩
  | blocks u =>
    refine ⟨h.1, h.2.1.mono hT, ?_⟩
    rcases h.2.2 with ⟨h1, h2, h3⟩ | h
    · exact .inl ⟨h1, h2, h3.imp_right fun h => ⟨h.1, fun p hp => hT p (h.2 p hp)⟩⟩
    · exact .inr h
  | noMeaning f => exact h

/-- An operation that first updates registers of the sequencer other than `HALTED`. -/
theorem FlashEnds.before {T : Nat → Prop} {s t : State} {r : OpResult} (h : FlashEnds T t r) (ho : FlashOnly s t)
    (ha : t.hw.array = s.hw.array) (hh : t.fl.halted = s.fl.halted) (he : t.env = s.env) : FlashEnds T s r := by
  cases r with
  | ends r u =>
    obtain ⟨h1, h2, h3, h4, h5⟩ := h
    rw [ha, ho.cfg] at h2
    exact ⟨ho.trans h1, h2, h3, h4.trans hh, h5.trans he⟩
  | blocks u =>
    obtain ⟨h1, h2, h3⟩ := h
    rw [ha, ho.cfg] at h2
    rw [ho.cfg, hh, he] at h3
    exact ⟨ho.trans h1, h2, h3⟩
  | noMeaning f => exact h

theorem flashSeq_reach {kind : FlashKind} {addr : Word} {data : List Byte} {s : State} (hd : dataFits s.cfg kind data)
    {T : Nat → Prop} (hT : ∀ p, inTarget addr (flashSpan s.cfg kind) p → T p) :
    FlashEnds T s (match flashSeq kind addr data s with
      | (.ok, u) => .ends .ok u
      | (.fail, u) => .ends .errFlash u
      | (.never, u) => .blocks u) := by
  cases ho : s.nextOutcome with
  | hang =>
    obtain ⟨draws, he⟩ := flashSeq_hang (kind := kind) (addr := addr) (data := data) ho
    rw [he]
    refine ⟨⟨rfl, rfl, rfl, rfl, rfl, rfl, rfl, rfl⟩, ArrayReach.refl _ _ _, .inl ⟨rfl, rfl, .inr ⟨rfl, fun p hp => hT p ?_⟩⟩⟩
    simpa [within] using hp
  | done lv we =>
    cases hbad : (lv || we) with
    | false =>
      have : lv = false ∧ we = false := by simpa using hbad
      obtain ⟨rfl, rfl⟩ := this
      obtain ⟨array, draws, he, ha⟩ := flashSeq_ok (kind := kind) (addr := addr) ho hd
      rw [he]
      exact ⟨⟨rfl, rfl, rfl, rfl, rfl, rfl, rfl, rfl⟩, ha.reach.mono hT, rfl, rfl, rfl⟩
    | true =>
      obtain ⟨array, draws, he, ha⟩ := flashSeq_faulty (kind := kind) (addr := addr) ho hbad hd
      rw [he]
      rcases correctiveClear_spec
        { s with
          fl.kind := kind, fl.addr := phys addr, fl.state := .status
          hw :=
            { array := array, done := true, lowVoltage := lv, writeError := we
              issued := s.hw.issued ++ [presented s.cfg kind addr data], script := s.hw.script.tail }
          draws := draws } with ⟨d, -, hc⟩ | ⟨d, -, hc⟩ | ⟨l, w, d, -, -, hc⟩
      · rw [hc]
        exact ⟨⟨rfl, rfl, rfl, rfl, rfl, rfl, rfl, rfl⟩, ha.reach.mono hT, .inl ⟨rfl, rfl, .inl rfl⟩⟩
      · rw [hc]
        exact ⟨⟨rfl, rfl, rfl, rfl, rfl, rfl, rfl, rfl⟩, ha.reach.mono hT, rfl, rfl, rfl⟩
      · rw [hc]
        exact ⟨⟨rfl, rfl, rfl, rfl, rfl, rfl, rfl, rfl⟩, ha.reach.mono hT, .inr ⟨rfl, rfl, rfl⟩⟩

/-- An operation that fails: it is counted and the sequencer is idle. -/
theorem FlashEnds.failed {T : Nat → Prop} {s t : State} {r : Res} (h : FlashEnds T s (.ends r t)) (r' : Res)
    (fl : FlashSeq) (hs : fl.state = .idle) (hh : fl.halted = t.fl.halted) : FlashEnds T s (.ends r' { t with fl := fl }) :=
  ⟨⟨h.1.port, h.1.crc, h.1.ciph, h.1.fr, h.1.rx, h.1.tx, h.1.inputs, h.1.cfg⟩, h.2.1, hs, hh.trans h.2.2.2.1, h.2.2.2.2⟩

/-- A check that fails: nothing but registers of the sequencer changes. -/
theorem FlashEnds.refused {T : Nat → Prop} {s : State} (r : Res) (fl : FlashSeq) (hs : fl.state = .idle)
    (hh : fl.halted = s.fl.halted) : FlashEnds T s (.ends r { s with fl := fl }) :=
  ⟨⟨rfl, rfl, rfl, rfl, rfl, rfl, rfl, rfl⟩, ArrayReach.refl _ _ _, hs, hh, rfl⟩

/-- R180: the page of `FL.ERASE`, which is flash. -/
theorem flErase_ends (a : Word) (s : State) :
    FlashEnds (fun p => inTarget a s.cfg.pageSize p ∧ flashRangeFits s.cfg a s.cfg.pageSize) s (flErase a s) := by
  unfold flErase
  simp only
  split
  · exact FlashEnds.refused _ _ rfl rfl
  · split
    · exact FlashEnds.refused _ _ rfl rfl
    · rename_i hfit
      have hfit : flashRangeFits s.cfg a s.cfg.pageSize := by
        rw [← flashFits_iff_flashRangeFits]; simpa using hfit
      have h := flashSeq_reach (kind := .erase) (addr := a) (data := [])
        (s := { s with fl.eraseAtt := s.fl.eraseAtt + 1#32, fl.state := .check }) (by simp)
        (T := fun p => inTarget a s.cfg.pageSize p ∧ flashRangeFits s.cfg a s.cfg.pageSize) (fun p hp => ⟨hp, hfit⟩)
      have h := h.before (s := s) ⟨rfl, rfl, rfl, rfl, rfl, rfl, rfl, rfl⟩ rfl rfl rfl
      revert h
      rcases flashSeq .erase a [] { s with fl.eraseAtt := s.fl.eraseAtt + 1#32, fl.state := .check } with ⟨e, t⟩
      cases e with
      | ok => exact id
      | fail => exact fun h => h.failed _ _ rfl rfl
      | never => exact id

/-- R183: `FL.NOP` changes no flash byte and never halts; it may wait. -/
theorem flNop_ends (s : State) : FlashEnds (fun _ => False) s (flNop s) := by
  unfold flNop
  cases ho : s.nextOutcome with
  | hang =>
    obtain ⟨draws, he⟩ := flashOp_hangs (kind := .nop) (data := []) (s := { s with fl.kind := .nop, fl.state := .clrIssue }) ho
    simp only [he, Bool.not_false, if_true]
    exact ⟨⟨rfl, rfl, rfl, rfl, rfl, rfl, rfl, rfl⟩, ArrayReach.refl _ _ _, .inl ⟨rfl, rfl, .inl rfl⟩⟩
  | done lv we =>
    obtain ⟨array, draws, he, ha⟩ := flashOp_completes (kind := .nop) (data := [])
      (s := { s with fl.kind := .nop, fl.state := .clrIssue }) ho (by simp)
    have harray : array = s.hw.array := ha.nop rfl
    subst harray
    simp only [he, Bool.not_true, Bool.false_eq_true, if_false]
    exact ⟨⟨rfl, rfl, rfl, rfl, rfl, rfl, rfl, rfl⟩, ArrayReach.refl _ _ _, rfl, rfl, rfl⟩

/-- R201: the four bytes of `FL.WWORD`, which are flash. -/
theorem flWword_ends (a v : Word) (s : State) :
    FlashEnds (fun p => inTarget a 4 p ∧ a.toNat % 4 = 0 ∧ flashRangeFits s.cfg a 4) s (flWword a v s) := by
  unfold flWword
  simp only
  split
  · exact FlashEnds.refused _ _ rfl rfl
  · rename_i hal
    split
    · exact FlashEnds.refused _ _ rfl rfl
    · rename_i hfit
      have hfit : flashRangeFits s.cfg a 4 := by rw [← flashFits_iff_flashRangeFits]; simpa using hfit
      have h := flashSeq_reach (kind := .word) (addr := a) (data := bytesLE32 v)
        (s := { s with fl.state := .check, fl.data := v }) (by simp [flashSpan])
        (T := fun p => inTarget a 4 p ∧ a.toNat % 4 = 0 ∧ flashRangeFits s.cfg a 4)
        (fun p hp => ⟨hp, by simpa [aligned] using hal, hfit⟩)
      have h := h.before (s := s) ⟨rfl, rfl, rfl, rfl, rfl, rfl, rfl, rfl⟩ rfl rfl rfl
      revert h
      rcases flashSeq .word a (bytesLE32 v) { s with fl.state := .check, fl.data := v } with ⟨e, t⟩
      cases e with
      | ok => exact id
      | fail => exact fun h => h.failed _ _ rfl rfl
      | never => exact id

/-- R203: the row of `FL.WROW`, which is flash. -/
theorem flWrow_ends (a off : Word) (s : State) :
    FlashEnds (fun p => inTarget a s.cfg.rowSize p ∧ flashRangeFits s.cfg a s.cfg.rowSize) s (flWrow a off s) := by
  unfold flWrow
  simp only
  split
  · exact FlashEnds.refused _ _ rfl rfl
  · split
    · exact FlashEnds.refused _ _ rfl rfl
    · rename_i hfit
      have hfit : flashRangeFits s.cfg a s.cfg.rowSize := by
        rw [← flashFits_iff_flashRangeFits]; simp only [Bool.or_eq_true, not_or] at hfit; simpa using hfit.2
      have h := flashSeq_reach (kind := .row) (addr := a) (data := s.bufRange off.toNat s.cfg.rowSize)
        (s := { s with fl.state := .check, fl.src := off }) (by simp [flashSpan])
        (T := fun p => inTarget a s.cfg.rowSize p ∧ flashRangeFits s.cfg a s.cfg.rowSize) (fun p hp => ⟨hp, hfit⟩)
      have h := h.before (s := s) ⟨rfl, rfl, rfl, rfl, rfl, rfl, rfl, rfl⟩ rfl rfl rfl
      revert h
      have : State.bufRange { s with fl.state := .check } off.toNat s.cfg.rowSize
          = s.bufRange off.toNat s.cfg.rowSize := rfl
      rw [this]
      rcases flashSeq .row a (s.bufRange off.toNat s.cfg.rowSize) { s with fl.state := .check, fl.src := off } with ⟨e, t⟩
      cases e with
      | ok => exact id
      | fail => exact fun h => h.failed _ _ rfl rfl
      | never => exact id

/-- Two operations one after the other. -/
theorem FlashEnds.andThen {T : Nat → Prop} {s t u : State} {r : OpResult} {r0 : Res} (h : FlashEnds T s (.ends r0 t))
    (hu : FlashOnly t u) (ha : u.hw.array = t.hw.array) (hh : u.fl.halted = t.fl.halted) (he : u.env = t.env)
    (h' : FlashEnds T u r) : FlashEnds T s r := by
  have h' := h'.before hu ha hh he
  obtain ⟨h1, h2, h3, h4, h5⟩ := h
  cases r with
  | ends r w =>
    obtain ⟨g1, g2, g3, g4, g5⟩ := h'
    rw [h1.cfg] at g2
    exact ⟨h1.trans g1, h2.trans g2, g3, g4.trans h4, g5.trans h5⟩
  | blocks w =>
    obtain ⟨g1, g2, g3⟩ := h'
    rw [h1.cfg] at g2 g3
    rw [h4, h5] at g3
    exact ⟨h1.trans g1, h2.trans g2, g3⟩
  | noMeaning f => exact h'

/-- R206: a sub-operation of a range write stays inside the range. -/
theorem rangeSubOperation_ends {a off : Word} {n p : Nat} {s : State} (hfit : flashRangeFits s.cfg a n) (hn : n % 4 = 0)
    (ha : a.toNat % 4 = 0) (hp : p < n) :
    FlashEnds (fun x => inTarget a n x ∧ flashRangeFits s.cfg a n) s (rangeSubOperation a off n p s) := by
  have hlt := hfit.1
  have e29 : (2 : Nat) ^ 29 = physSpace := rfl
  have h32 : a.toNat + n ≤ 2 ^ 32 := by
    rw [toNat_phys] at hlt; have := a.isLt; simp only [physSpace] at hlt; omega
  have ht : (a + BitVec.ofNat 32 p).toNat = a.toNat + p := by rw [BitVec.toNat_add, BitVec.toNat_ofNat]; omega
  have hph : (phys (a + BitVec.ofNat 32 p)).toNat = (phys a).toNat + p := by
    rw [toNat_phys] at hlt
    rw [toNat_phys, ht, toNat_phys]
    simp only [physSpace] at *
    omega
  unfold rangeSubOperation
  simp only
  split
  · rename_i hrow
    have hle : s.cfg.rowSize ≤ n - p := by simp [takesRow] at hrow; omega
    refine (flWrow_ends _ _ s).mono fun x hx => ⟨?_, hfit⟩
    have := hx.1
    simp only [inTarget, hph] at this
    exact ⟨by omega, by omega⟩
  · refine (flWword_ends _ _ s).mono fun x hx => ⟨?_, hfit⟩
    obtain ⟨h1, h2, -⟩ := hx
    rw [ht] at h2
    simp only [inTarget, hph] at h1
    exact ⟨by omega, by omega⟩

theorem rangeLoop_ends {a off : Word} {n : Nat} (fuel p : Nat) (worst : Res) (s : State) (hfit : flashRangeFits s.cfg a n)
    (hn : n % 4 = 0) (ha : a.toNat % 4 = 0) (hidle : s.fl.state = .idle) :
    FlashEnds (fun x => inTarget a n x ∧ flashRangeFits s.cfg a n) s (rangeLoop a off n fuel p worst s) := by
  induction fuel generalizing p worst s with
  | zero => exact ⟨FlashOnly.refl s, ArrayReach.refl _ _ _, hidle, rfl, rfl⟩
  | succ fuel ih =>
    unfold rangeLoop
    split
    · exact ⟨FlashOnly.refl s, ArrayReach.refl _ _ _, hidle, rfl, rfl⟩
    · rename_i hp
      have h := rangeSubOperation_ends (off := off) hfit hn ha (Nat.lt_of_not_le hp)
      cases hs : rangeSubOperation a off n p s with
      | noMeaning f => rw [hs] at h; exact h
      | blocks u => rw [hs] at h; exact h
      | ends r u =>
        rw [hs] at h
        simp only
        have hc : u.cfg = s.cfg := h.1.cfg
        have hnote : ∃ b, noteFirst r u = { u with fl.first := b } := by
          unfold noteFirst; split
          · exact ⟨_, rfl⟩
          · exact ⟨u.fl.first, rfl⟩
        obtain ⟨b, hb⟩ := hnote
        rw [hb]
        have hi := ih (p + if takesRow s.cfg a.toNat n p then s.cfg.rowSize else 4) (if worst = .ok then r else worst)
          { u with fl.first := b } (by show flashRangeFits u.cfg a n; rw [hc]; exact hfit) h.2.2.1
        have hi' : FlashEnds (fun x => inTarget a n x ∧ flashRangeFits s.cfg a n) { u with fl.first := b } _ :=
          hi.mono fun x hx => ⟨hx.1, hfit⟩
        exact h.andThen (u := { u with fl.first := b }) ⟨rfl, rfl, rfl, rfl, rfl, rfl, rfl, rfl⟩ rfl rfl rfl hi'

/-- R206: the range of `FL.WRANGE`, which is flash. -/
theorem flWrange_ends (a n off : Word) (s : State) (hidle : s.fl.state = .idle) :
    FlashEnds (fun p => inTarget a n.toNat p ∧ flashRangeFits s.cfg a n.toNat) s (flWrange a n off s) := by
  have same : ∀ r, FlashEnds (fun p => inTarget a n.toNat p ∧ flashRangeFits s.cfg a n.toNat) s (.ends r s) := fun r =>
    ⟨FlashOnly.refl s, ArrayReach.refl _ _ _, hidle, rfl, rfl⟩
  unfold flWrange
  split
  · exact same _
  · rename_i hfit
    split
    · exact same _
    · rename_i hn
      split
      · exact same _
      · rename_i hal
        have hfit : flashRangeFits s.cfg a n.toNat := by
          rw [← flashFits_iff_flashRangeFits]; simp only [Bool.or_eq_true, not_or] at hfit; simpa using hfit.2
        have ha : a.toNat % 4 = 0 := by
          simp only [Bool.or_eq_true, not_or] at hal; simpa [aligned] using hal.1
        have h := rangeLoop_ends (off := off) (n.toNat / 4) 0 .ok { s with fl.first := resCode .ok } hfit (by omega) ha hidle
        exact h.before ⟨rfl, rfl, rfl, rfl, rfl, rfl, rfl, rfl⟩ rfl rfl rfl

end Sys2Proof.Machine
end

