-- ==== Sys2Proof/Laws/Frame.lean ====
section
/-! SUPPORT. What a reception can do, said once: which parts of the state it reaches, how it can end, and that it is
stuck only with an unkeyed cipher past packet #1. -/

namespace Sys2Proof.Machine

/-- A reception leaves alone everything but the CRC and cipher registers, the frame unit and the receive channel. -/
structure RecvOnly (s t : State) : Prop where
  port : t.port = s.port
  fl : t.fl = s.fl
  hw : t.hw = s.hw
  env : t.env = s.env
  tx : t.tx = s.tx
  draws : t.draws = s.draws
  inputs : t.inputs = s.inputs
  cfg : t.cfg = s.cfg

theorem RecvOnly.refl (s : State) : RecvOnly s s := ⟨rfl, rfl, rfl, rfl, rfl, rfl, rfl, rfl⟩

theorem RecvOnly.trans {s t u : State} (h : RecvOnly s t) (h' : RecvOnly t u) : RecvOnly s u :=
  ⟨h'.port.trans h.port, h'.fl.trans h.fl, h'.hw.trans h.hw, h'.env.trans h.env, h'.tx.trans h.tx,
    h'.draws.trans h.draws, h'.inputs.trans h.inputs, h'.cfg.trans h.cfg⟩

theorem RecvOnly.eq {s t : State} (h : RecvOnly s t) : t = { s with crc := t.crc, ciph := t.ciph, fr := t.fr, rx := t.rx } := by
  obtain ⟨h1, h2, h3, h4, h5, h6, h7, h8⟩ := h
  cases t
  simp_all

/-- The results a reception ends with (R253). -/
def recvResults : List Res := [.okIv, .okWrite, .okEnd, .errChecksum, .errTooLarge, .errSize]

/-- How a reception that goes on from `s` can come out. -/
def Receives (s : State) : OpResult → Prop
  | .ends r u => RecvOnly s u ∧ u.fr.state = .idle ∧ r ∈ recvResults
  | .blocks u => RecvOnly s u ∧ u.rx = [] ∧ u.fr.state ∈ [FrState.len0, .len1, .body, .drain]
  | .noMeaning _ => s.ciph.keyed = false ∧ s.fr.seq ≠ 0#32

theorem Receives.lift {s t : State} {r : OpResult} (h' : Receives t r) (h : RecvOnly s t)
    (hk : t.ciph.keyed = s.ciph.keyed) (hs : t.fr.seq = s.fr.seq) : Receives s r := by
  cases r with
  | ends r u => exact ⟨h.trans h'.1, h'.2⟩
  | blocks u => exact ⟨h.trans h'.1, h'.2⟩
  | noMeaning f => exact ⟨hk ▸ h'.1, hs ▸ h'.2⟩

theorem frEnds_receives {r : Res} {s : State} (hr : r ∈ recvResults) : Receives s (frEnds r s) :=
  ⟨⟨rfl, rfl, rfl, rfl, rfl, rfl, rfl, rfl⟩, rfl, hr⟩

theorem extractFirst_receives (s : State) : Receives s (extractFirst s) := by
  unfold extractFirst
  split
  · exact frEnds_receives (by decide)
  · exact ⟨⟨rfl, rfl, rfl, rfl, rfl, rfl, rfl, rfl⟩, rfl, by decide⟩

theorem extractWrite_receives (s : State) : Receives s (extractWrite s) := by
  unfold extractWrite
  simp only
  split
  · exact frEnds_receives (by decide)
  · split <;> exact ⟨⟨rfl, rfl, rfl, rfl, rfl, rfl, rfl, rfl⟩, rfl, by decide⟩

/-- A checksum verification always ends. -/
theorem verifyChecksum_ends (first : Bool) (s : State) :
    ∃ r u, verifyChecksum first s = .ends r u ∧ RecvOnly s u ∧ u.fr.state = .idle ∧ r ∈ recvResults := by
  have ex : ∀ t : State, RecvOnly s t →
      ∃ r u, (if first then extractFirst t else extractWrite t) = .ends r u ∧ RecvOnly s u ∧ u.fr.state = .idle
        ∧ r ∈ recvResults := by
    intro t ht
    have h1 : Receives t (if first then extractFirst t else extractWrite t) := by
      cases first
      · exact extractWrite_receives t
      · exact extractFirst_receives t
    have h2 : ∃ r u, (if first then extractFirst t else extractWrite t) = .ends r u := by
      cases first
      · simp only [Bool.false_eq_true, if_false]; unfold extractWrite; simp only; split
        · exact ⟨_, _, rfl⟩
        · split <;> exact ⟨_, _, rfl⟩
      · simp only [if_true]; unfold extractFirst; split <;> exact ⟨_, _, rfl⟩
    obtain ⟨r, u, hu⟩ := h2
    rw [hu] at h1
    exact ⟨r, u, hu, ht.trans h1.1, h1.2⟩
  unfold verifyChecksum
  simp only
  split
  · exact ⟨_, _, rfl, ⟨rfl, rfl, rfl, rfl, rfl, rfl, rfl, rfl⟩, rfl, by decide⟩
  · split
    · exact ⟨_, _, rfl, ⟨rfl, rfl, rfl, rfl, rfl, rfl, rfl, rfl⟩, rfl, by decide⟩
    · exact ex _ ⟨rfl, rfl, rfl, rfl, rfl, rfl, rfl, rfl⟩

theorem cipherRange_recvOnly (off n : Nat) (s : State) (hn : n < 2 ^ 32) : RecvOnly s (cipherRange off n s) := by
  obtain ⟨sc, ks, buf, h, -⟩ := cipherRange_eq off n s hn
  rw [h]; exact ⟨rfl, rfl, rfl, rfl, rfl, rfl, rfl, rfl⟩

theorem packetComplete_ne_blocks (s u : State) : packetComplete s ≠ .blocks u := by
  unfold packetComplete
  simp only
  split
  · obtain ⟨r, v, h, -⟩ := verifyChecksum_ends true { s with fr.cur := s.fr.plen }
    rw [h]; intro h; cases h
  · split
    · rename_i v _
      obtain ⟨r, w, h, -⟩ := verifyChecksum_ends false v
      rw [h]; intro h; cases h
    · rename_i h
      exfalso
      unfold ciphProc at h
      split at h
      · cases h
      · split at h <;> cases h
    · intro h; cases h

/-- A complete packet that fits the buffer: packet #1 or a keyed cipher, and it ends; else there is no meaning. -/
theorem packetComplete_receives {s : State} (hcap : s.fr.plen.toNat ≤ s.cfg.bufCap) : Receives s (packetComplete s) := by
  unfold packetComplete
  simp only
  split
  · obtain ⟨r, u, h, hu⟩ := verifyChecksum_ends true { s with fr.cur := s.fr.plen }
    rw [h]
    exact Receives.lift (r := .ends r u) hu ⟨rfl, rfl, rfl, rfl, rfl, rfl, rfl, rfl⟩ rfl rfl
  · rename_i hfirst
    have hlt : (s.fr.plen.setWidth 32).toNat = s.fr.plen.toNat := by
      rw [BitVec.toNat_setWidth]; have := s.fr.plen.isLt; omega
    have h0 : (0#32).toNat = 0 := rfl
    by_cases hk : s.fr.plen.setWidth 32 ≠ 0#32 ∧ s.ciph.keyed = false
    · simp only [ciphProc, bufFits, hlt, h0, Nat.zero_add, decide_eq_true hcap, if_pos hk]
      exact ⟨hk.2, by simpa [State.firstPacket] using hfirst⟩
    · simp only [ciphProc, bufFits, hlt, decide_eq_true hcap, if_neg hk, h0, Nat.zero_add]
      simp only [Bool.not_true, Bool.false_eq_true, if_false]
      obtain ⟨r, u, h, hu⟩ := verifyChecksum_ends false (cipherRange 0 s.fr.plen.toNat
        { s with fr.cur := s.fr.plen, fr.state := .decrypt })
      rw [h]
      refine ⟨RecvOnly.trans ?_ hu.1, hu.2⟩
      exact RecvOnly.trans (t := { s with fr.cur := s.fr.plen, fr.state := .decrypt })
        ⟨rfl, rfl, rfl, rfl, rfl, rfl, rfl, rfl⟩ (cipherRange_recvOnly _ _ _ (by have := s.fr.plen.isLt; omega))

theorem receiveBody_receives {s : State} (hcap : s.fr.plen.toNat ≤ s.cfg.bufCap) (hst : s.fr.state = .body) :
    Receives s (receiveBody s) := by
  unfold receiveBody
  simp only
  split
  · rename_i h
    refine ⟨⟨rfl, rfl, rfl, rfl, rfl, rfl, rfl, rfl⟩, ?_, by simp [hst]⟩
    simp only [List.length_take] at h
    exact List.drop_eq_nil_of_le (by omega)
  · exact Receives.lift (packetComplete_receives (by exact hcap)) ⟨rfl, rfl, rfl, rfl, rfl, rfl, rfl, rfl⟩ rfl rfl

theorem drainBody_receives {s : State} (hst : s.fr.state = .drain) : Receives s (drainBody s) := by
  unfold drainBody
  simp only
  split
  · rename_i h
    refine ⟨⟨rfl, rfl, rfl, rfl, rfl, rfl, rfl, rfl⟩, ?_, by simp [hst]⟩
    simp only [List.length_take] at h
    exact List.drop_eq_nil_of_le (by omega)
  · exact ⟨⟨rfl, rfl, rfl, rfl, rfl, rfl, rfl, rfl⟩, rfl, by decide⟩

theorem afterLength_receives (p : Half) (s : State) : Receives s (afterLength p s) := by
  unfold afterLength
  simp only
  split
  · exact ⟨⟨rfl, rfl, rfl, rfl, rfl, rfl, rfl, rfl⟩, rfl, by decide⟩
  · split
    · split
      · exact Receives.lift (drainBody_receives (by rfl)) ⟨rfl, rfl, rfl, rfl, rfl, rfl, rfl, rfl⟩ rfl rfl
      · exact ⟨⟨rfl, rfl, rfl, rfl, rfl, rfl, rfl, rfl⟩, rfl, by decide⟩
    · rename_i h
      exact Receives.lift (receiveBody_receives (Nat.le_of_not_lt h) (by rfl)) ⟨rfl, rfl, rfl, rfl, rfl, rfl, rfl, rfl⟩ rfl rfl

theorem receiveLength_receives {s : State} (hst : s.fr.state = .len0) : Receives s (receiveLength s) := by
  unfold receiveLength
  split
  · exact Receives.lift (afterLength_receives _ _) ⟨rfl, rfl, rfl, rfl, rfl, rfl, rfl, rfl⟩ rfl rfl
  · exact ⟨⟨rfl, rfl, rfl, rfl, rfl, rfl, rfl, rfl⟩, rfl, by simp⟩
  · rename_i h; exact ⟨RecvOnly.refl s, h, by simp [hst]⟩

/-- R233: how `FR.RECV` can come out. -/
theorem frRecv_receives (s : State) : Receives s (frRecv s) :=
  Receives.lift (t := frStart s) (receiveLength_receives rfl) ⟨rfl, rfl, rfl, rfl, rfl, rfl, rfl, rfl⟩ rfl rfl

theorem frameLength_receives (p : Half) (s : State) : Receives s (frameLength p s) :=
  Receives.lift (t := frStart s) (afterLength_receives _ _) ⟨rfl, rfl, rfl, rfl, rfl, rfl, rfl, rfl⟩ rfl rfl

theorem framePacket_receives (payload : List Byte) (s : State) : Receives s (framePacket payload s) :=
  Receives.lift (t := { s with rx := payload ++ s.rx }) (frameLength_receives _ _) ⟨rfl, rfl, rfl, rfl, rfl, rfl, rfl, rfl⟩ rfl rfl

end Sys2Proof.Machine
end

