-- ==== Sys2Proof/Laws/Kept.lean ====
section
/-! SUPPORT. What a property of the state must be closed under for every step of the machine to keep it: `Kept`. -/

namespace Sys2Proof.Machine

/-- `BUF` stands in its canonical form inside its capacity, whatever is being received. -/
structure BufOk (s : State) : Prop where
  buf : Memory.wf 0#8 s.fr.buf
  inCap : ∀ c ∈ s.fr.buf, c.1 < s.cfg.bufCap
  body : s.fr.state = .body → s.fr.plen.toNat ≤ s.cfg.bufCap

/-- R31, R249. -/
structure CipherOk (s : State) : Prop where
  counters : s.ciph.cRem = 0#32 ∧ s.ciph.cOff = 0#32
  keyed : s.fr.seq ≠ 0#32 → s.ciph.keyed = true

/-- The parts of the state that no property of this file looks at may differ. -/
structure Alike (s t : State) : Prop where
  res : t.port.res = s.port.res
  start : t.port.start = s.port.start
  ciph : t.ciph = s.ciph
  fl : t.fl = s.fl
  hw : t.hw = s.hw
  fr : t.fr = s.fr
  inputs : t.inputs = s.inputs
  cfg : t.cfg = s.cfg

/-- The frame-unit states between steps (R250). -/
def frRestStates : List FrState := [.idle, .len0, .len1, .body, .drain]

/-- A flash byte that the controller may target: one the Guard does not protect, or one of the boot-entry page. -/
def Permitted (cfg : Params) (p : Nat) : Prop :=
  isFlash cfg.flashRanges p = true ∧ (protectedByte cfg p = true → entryByte cfg p = true)

/-- What `A` must be closed under for the flash operations of the controller to keep it. `T` says where a flash operation
may have its target. -/
structure KeptFlash (A : State → Prop) (T : Params → Nat → Prop) : Prop where
  permitted : ∀ cfg p, Permitted cfg p → T cfg p
  alike : ∀ s t, A s → Alike s t → A t
  res : ∀ s r, A s → A (s.setRes r)
  flash : ∀ s u r, A s → s.fl.state = .idle → s.fl.halted = false → FlashEnds (T s.cfg) s (.ends r u) → A u
  flashWaits : ∀ s u, A s → s.fl.state = .idle → s.fl.halted = false → FlashEnds (T s.cfg) s (.blocks u) → A u

/-- What `A` must be closed under for every step to keep it. -/
structure Kept (A : State → Prop) (T : Params → Nat → Prop) : Prop extends KeptFlash A T where
  recv : ∀ s u, A s → RecvOnly s u → (BufOk s → BufOk u) → (CipherOk s → CipherOk u) →
    u.fr.state ∈ frRestStates → A u
  zeroise : ∀ s, A s → s.fl.state = .idle → A (zeroise s)
  reset : ∀ s, A s → A s.resetBlock
  inputs : ∀ s i rest, A s → s.inputs = i :: rest → A { s with inputs := rest }
  start : ∀ s, A s → A { s with port.start := false }
  port : ∀ s, A s → s.port.start = true → ∀ p, isFlash s.cfg.flashRanges p = true → T s.cfg p
  portOp : ∀ s op rest, A s → s.inputs = .portOp op :: rest →
    A { s with inputs := rest, port.op := op, port.start := true }
  portKey : ∀ s (i : Fin 32) b, A s → A { s with ciph.keyr := s.ciph.keyr.set i b }
  portIv : ∀ s (i : Fin 8) b, A s → A { s with ciph.ivr := s.ciph.ivr.set i b }

/-! ### The frame unit keeps `BUF` and the cipher registers in order -/

theorem ArrayReach.store {d : Byte} {T : Nat → Prop} (m : Memory) (lo : Nat) (bytes : List Byte)
    (h : ∀ p, lo ≤ p → p < lo + bytes.length → T p) : ArrayReach d T m (Memory.writeRange d m lo bytes) :=
  fun _ hP hm => hP m lo bytes h hm

theorem ArrayReach.forall_mem {d : Byte} {T : Nat → Prop} {m m' : Memory} (h : ArrayReach d T m m')
    (hm : ∀ c ∈ m, T c.1) : ∀ c ∈ m', T c.1 :=
  h (fun m => ∀ c ∈ m, T c.1)
    (fun m lo bytes hb hm c hc => by
      rcases Memory.mem_writeRange hc with h' | h'
      · exact hm c h'
      · exact hb _ h'.1 h'.2) hm

/-- What the end of a reception, or a wait in it, leaves of `BUF` and of the cipher registers. -/
structure FrameKept (s u : State) : Prop where
  cfg : u.cfg = s.cfg
  buf : ArrayReach 0#8 (fun p => p < s.cfg.bufCap) s.fr.buf u.fr.buf
  body : u.fr.state = .body → u.fr.plen.toNat ≤ s.cfg.bufCap
  cipher : CipherOk s → CipherOk u

theorem FrameKept.bufOk {s u : State} (h : FrameKept s u) (hs : BufOk s) : BufOk u :=
  ⟨h.buf.wf hs.buf, by rw [h.cfg]; exact h.buf.forall_mem hs.inCap, by rw [h.cfg]; exact h.body⟩

theorem FrameKept.trans {s t u : State} (h : FrameKept s t) (h' : FrameKept t u) : FrameKept s u := by
  obtain ⟨c1, b1, d1, e1⟩ := h
  obtain ⟨c2, b2, d2, e2⟩ := h'
  rw [c1] at b2 d2
  exact ⟨c2.trans c1, b1.trans b2, d2, e2 ∘ e1⟩

/-- Nothing that matters here differs. -/
theorem FrameKept.of_eq {s u : State} (hcfg : u.cfg = s.cfg) (hbuf : u.fr.buf = s.fr.buf) (hst : u.fr.state ≠ .body)
    (hc : u.ciph = s.ciph) (hq : u.fr.seq = s.fr.seq) : FrameKept s u :=
  ⟨hcfg, by rw [hbuf]; exact ArrayReach.refl _ _ _, fun h => absurd h hst,
    fun h => ⟨by rw [hc]; exact h.counters, by rw [hc, hq]; exact h.keyed⟩⟩

theorem cipherPasses_reach (k off r o cap : Nat) (s : State) (hr : s.ciph.cRem.toNat = r) (ho : s.ciph.cOff.toNat = o)
    (hlt : o + r < 2 ^ 32) (hcap : off + o + r ≤ cap) :
    ArrayReach 0#8 (fun p => p < cap) s.fr.buf (cipherPasses k off s).fr.buf := by
  induction k generalizing s r o with
  | zero => exact ArrayReach.refl _ _ _
  | succ k ih =>
    obtain ⟨sc, ks, buf, hp, -⟩ := cipherPass_eq off s
    rw [hr] at hp
    have hm : min 64 r ≤ r := Nat.min_le_right _ _
    have hrem : (cipherPass off s).ciph.cRem.toNat = r - min 64 r := by
      rw [hp]; simp only [BitVec.toNat_sub, hr, BitVec.toNat_ofNat]; omega
    have hoff : (cipherPass off s).ciph.cOff.toNat = o + min 64 r := by
      rw [hp]; simp only [BitVec.toNat_add, ho, BitVec.toNat_ofNat]; omega
    have h2 := ih (r - min 64 r) (o + min 64 r) (cipherPass off s) hrem hoff (by omega) (by omega)
    refine ArrayReach.trans ?_ h2
    show ArrayReach _ _ _ (cipherPass off s).fr.buf
    unfold cipherPass
    refine ArrayReach.store _ _ _ fun p _ h' => ?_
    have h1 : (cipherBlock s).ciph.cOff = s.ciph.cOff := rfl
    have h3 : (cipherBlock s).ciph.cRem = s.ciph.cRem := rfl
    simp only [h1, h3, List.length_zipWith, State.length_bufRange, Vector.length_toList, hr, ho] at h'
    omega

theorem cipherRange_kept {off n : Nat} {s : State} (hn : n < 2 ^ 32) (hcap : off + n ≤ s.cfg.bufCap)
    (hst : s.fr.state ≠ .body) : FrameKept s (cipherRange off n s) := by
  obtain ⟨sc, ks, buf, he, -⟩ := cipherRange_eq off n s hn
  have hr := cipherPasses_reach ((n + 63) / 64) off n 0 s.cfg.bufCap
    { s with ciph.cRem := BitVec.ofNat 32 n, ciph.cOff := 0#32 } (by simp; omega) rfl (by omega) (by omega)
  have hb : (cipherRange off n s).fr.buf = buf := by rw [he]
  refine ⟨by rw [he], hr, ?_, fun h => ?_⟩
  · rw [he]; exact fun h => absurd h hst
  · rw [he]; exact ⟨⟨rfl, rfl⟩, h.keyed⟩

theorem extractFirst_kept {r : Res} {s u : State} (h : extractFirst s = .ends r u) : FrameKept s u := by
  unfold extractFirst at h
  split at h
  · cases h; exact FrameKept.of_eq rfl rfl (by simp) rfl rfl
  · cases h
    exact ⟨rfl, ArrayReach.refl _ _ _, by simp, fun h => ⟨h.counters, fun _ => rfl⟩⟩

theorem extractWrite_kept {r : Res} {s u : State} (hq : s.ciph.keyed = true) (h : extractWrite s = .ends r u) :
    FrameKept s u := by
  unfold extractWrite at h
  simp only at h
  split at h
  · cases h; exact FrameKept.of_eq rfl rfl (by simp) rfl rfl
  · split at h
    · cases h; exact FrameKept.of_eq rfl rfl (by simp) rfl rfl
    · cases h
      exact ⟨rfl, ArrayReach.refl _ _ _, by simp, fun h => ⟨h.counters, fun _ => hq⟩⟩

theorem verifyChecksum_kept {first : Bool} {r : Res} {s u : State} (hq : first = false → s.ciph.keyed = true)
    (h : verifyChecksum first s = .ends r u) : FrameKept s u := by
  unfold verifyChecksum at h
  simp only at h
  split at h
  · cases h; exact FrameKept.of_eq rfl rfl (by simp) rfl rfl
  · split at h
    · cases h; exact FrameKept.of_eq rfl rfl (by simp) rfl rfl
    · split at h
      · obtain ⟨c, b, d, e⟩ := extractFirst_kept h
        exact ⟨c, b, d, fun hs => e ⟨hs.counters, hs.keyed⟩⟩
      · rename_i hf
        obtain ⟨c, b, d, e⟩ := extractWrite_kept (by exact hq (by simpa using hf)) h
        exact ⟨c, b, d, fun hs => e ⟨hs.counters, hs.keyed⟩⟩

theorem packetComplete_kept {r : Res} {s u : State} (hcap : s.fr.plen.toNat ≤ s.cfg.bufCap)
    (h : packetComplete s = .ends r u) : FrameKept s u := by
  have start : ∀ st : FrState, st ≠ .body → FrameKept s { s with fr.cur := s.fr.plen, fr.state := st } := fun st hs =>
    FrameKept.of_eq rfl rfl hs rfl rfl
  unfold packetComplete at h
  simp only at h
  split at h
  · obtain ⟨c, b, d, e⟩ := verifyChecksum_kept (by simp) h
    exact ⟨c, b, d, fun hs => e ⟨hs.counters, hs.keyed⟩⟩
  · have hlt : (s.fr.plen.setWidth 32).toNat = s.fr.plen.toNat := by
      rw [BitVec.toNat_setWidth]; have := s.fr.plen.isLt; omega
    have h0 : (0#32).toNat = 0 := rfl
    by_cases hk : s.fr.plen.setWidth 32 ≠ 0#32 ∧ s.ciph.keyed = false
    · simp only [ciphProc, bufFits, hlt, h0, Nat.zero_add, decide_eq_true hcap, if_pos hk] at h
      cases h
    · simp only [ciphProc, bufFits, hlt, h0, Nat.zero_add, decide_eq_true hcap, if_neg hk, Bool.not_true,
        Bool.false_eq_true, if_false] at h
      have hc := cipherRange_kept (off := 0) (n := s.fr.plen.toNat)
        (s := { s with fr.cur := s.fr.plen, fr.state := .decrypt }) (by have := s.fr.plen.isLt; omega) (by simpa using hcap)
        (by simp)
      by_cases hkey : s.ciph.keyed = true
      · have hkey' : (cipherRange 0 s.fr.plen.toNat { s with fr.cur := s.fr.plen, fr.state := .decrypt }).ciph.keyed = true := by
          obtain ⟨sc, ks, buf, he, -⟩ := cipherRange_eq 0 s.fr.plen.toNat
            { s with fr.cur := s.fr.plen, fr.state := .decrypt } (by have := s.fr.plen.isLt; omega)
          rw [he]; exact hkey
        exact ((start .decrypt (by simp)).trans hc).trans (verifyChecksum_kept (fun _ => hkey') h)
      · -- an empty packet: too short for a checksum
        have hz : s.fr.plen.setWidth 32 = 0#32 := by
          by_contra hne; exact hk ⟨hne, by simpa using hkey⟩
        have hp : s.fr.plen.toNat = 0 := by rw [← hlt, hz]; rfl
        obtain ⟨sc, ks, buf, he, -⟩ := cipherRange_eq 0 s.fr.plen.toNat
            { s with fr.cur := s.fr.plen, fr.state := .decrypt } (by have := s.fr.plen.isLt; omega)
        have hplen : (cipherRange 0 s.fr.plen.toNat { s with fr.cur := s.fr.plen, fr.state := .decrypt }).fr.plen.toNat = 0 := by
          rw [he]; exact hp
        refine ((start .decrypt (by simp)).trans hc).trans ?_
        unfold verifyChecksum at h
        simp only [hplen, show (0 : Nat) < 4 by omega, if_true] at h
        cases h
        exact FrameKept.of_eq rfl rfl (by simp) rfl rfl

theorem receiveBody_kept {s u : State} (hcap : s.fr.plen.toNat ≤ s.cfg.bufCap) (hst : s.fr.state = .body)
    (h : (∃ r, receiveBody s = .ends r u) ∨ receiveBody s = .blocks u) : FrameKept s u := by
  have stored : ArrayReach 0#8 (fun p => p < s.cfg.bufCap) s.fr.buf
      (Memory.writeRange 0#8 s.fr.buf s.fr.fill.toNat (s.rx.take (s.fr.plen.toNat - s.fr.fill.toNat))) := by
    refine ArrayReach.store _ _ _ fun p h1 h2 => ?_
    rw [List.length_take] at h2
    omega
  unfold receiveBody at h
  simp only at h
  split at h
  · rcases h with ⟨r, h⟩ | h
    · cases h
    · cases h
      exact ⟨rfl, stored, fun _ => hcap, fun h => ⟨h.counters, h.keyed⟩⟩
  · have key : ∀ r u, packetComplete
        { s.storeBuf s.fr.fill.toNat (s.rx.take (s.fr.plen.toNat - s.fr.fill.toNat)) with
          rx := s.rx.drop (s.fr.plen.toNat - s.fr.fill.toNat)
          fr.fill := s.fr.fill + BitVec.ofNat 16 (s.rx.take (s.fr.plen.toNat - s.fr.fill.toNat)).length } = .ends r u →
        FrameKept s u := by
      intro r u h
      obtain ⟨c, b, d, e⟩ := packetComplete_kept (by exact hcap) h
      exact ⟨c, stored.trans b, d, fun hs => e ⟨hs.counters, hs.keyed⟩⟩
    rcases h with ⟨r, h⟩ | h
    · exact key r u h
    · exact absurd h (packetComplete_ne_blocks _ _)

theorem drainBody_kept {s u : State} (hst : s.fr.state = .drain)
    (h : (∃ r, drainBody s = .ends r u) ∨ drainBody s = .blocks u) : FrameKept s u := by
  unfold drainBody at h
  simp only at h
  split at h
  · rcases h with ⟨r, h⟩ | h
    · cases h
    · cases h; exact FrameKept.of_eq rfl rfl (by simp [hst]) rfl rfl
  · rcases h with ⟨r, h⟩ | h
    · cases h; exact FrameKept.of_eq rfl rfl (by simp) rfl rfl
    · cases h

theorem afterLength_kept {p : Half} {s u : State} (h : (∃ r, afterLength p s = .ends r u) ∨ afterLength p s = .blocks u) :
    FrameKept s u := by
  unfold afterLength at h
  simp only at h
  split at h
  · rcases h with ⟨r, h⟩ | h
    · cases h; exact FrameKept.of_eq rfl rfl (by simp) rfl rfl
    · cases h
  · split at h
    · split at h
      · obtain ⟨c, b, d, e⟩ := drainBody_kept (by rfl) h
        exact ⟨c, b, d, fun hs => e ⟨hs.counters, hs.keyed⟩⟩
      · rcases h with ⟨r, h⟩ | h
        · cases h; exact FrameKept.of_eq rfl rfl (by simp) rfl rfl
        · cases h
    · rename_i hle
      obtain ⟨c, b, d, e⟩ := receiveBody_kept (Nat.le_of_not_lt hle) rfl h
      exact ⟨c, b, d, fun hs => e ⟨hs.counters, hs.keyed⟩⟩

theorem receiveLength_kept {s u : State} (hst : s.fr.state ≠ .body)
    (h : (∃ r, receiveLength s = .ends r u) ∨ receiveLength s = .blocks u) : FrameKept s u := by
  unfold receiveLength at h
  split at h
  · obtain ⟨c, b, d, e⟩ := afterLength_kept h
    exact ⟨c, b, d, fun hs => e ⟨hs.counters, hs.keyed⟩⟩
  · rcases h with ⟨r, h⟩ | h
    · cases h
    · cases h; exact FrameKept.of_eq rfl rfl (by simp) rfl rfl
  · rcases h with ⟨r, h⟩ | h
    · cases h
    · cases h; exact FrameKept.of_eq rfl rfl hst rfl rfl

theorem frStart_kept (s : State) : FrameKept s (frStart s) := FrameKept.of_eq rfl rfl (by simp [frStart]) rfl rfl

theorem frRecv_kept {s u : State} (h : (∃ r, frRecv s = .ends r u) ∨ frRecv s = .blocks u) : FrameKept s u :=
  (frStart_kept s).trans (receiveLength_kept (by simp [frStart]) h)

theorem frameLength_kept {p : Half} {s u : State} (h : (∃ r, frameLength p s = .ends r u) ∨ frameLength p s = .blocks u) :
    FrameKept s u := (frStart_kept s).trans (afterLength_kept h)

theorem framePacket_kept {payload : List Byte} {s u : State}
    (h : (∃ r, framePacket payload s = .ends r u) ∨ framePacket payload s = .blocks u) : FrameKept s u := by
  obtain ⟨c, b, d, e⟩ := frameLength_kept h
  exact ⟨c, b, d, fun hs => e ⟨hs.counters, hs.keyed⟩⟩

end Sys2Proof.Machine
end

