-- ==== Sys2Proof/Laws/Packet.lean ====
section
/-! SUPPORT. A whole packet (R237 to R244): it is stored at the start of `BUF` and is complete; the verification of
its checksum. -/

namespace Sys2Proof.Machine

/-- The state with a payload stored whole (R237). -/
def packed (payload : List Byte) (s : State) : State :=
  { s with
    fr :=
      { s.fr with
        state := .body, buf := Memory.writeRange 0#8 s.fr.buf 0 payload, fill := BitVec.ofNat 16 payload.length
        cur := 0#16, plen := BitVec.ofNat 16 payload.length
        lenHi := (BitVec.ofNat 16 payload.length).extractLsb' 8 8 } }

/-- R237: a packet that fits the buffer is stored and complete. -/
theorem framePacket_eq {s : State} {payload : List Byte} (h0 : 0 < payload.length) (hc : payload.length ≤ s.cfg.bufCap)
    (hl : payload.length < 65536) :
    framePacket payload s = packetComplete (packed payload s) := by
  have hn : (BitVec.ofNat 16 payload.length).toNat = payload.length := by simp; omega
  have hne : BitVec.ofNat 16 payload.length ≠ 0#16 := by
    intro h; have := congrArg BitVec.toNat h; rw [hn] at this; simp at this; subst this; simp at h0
  unfold framePacket frameLength afterLength
  simp only [if_neg hne, frStart, hn, if_neg (Nat.not_lt.mpr hc), receiveBody]
  have z : (0#16).toNat = 0 := rfl
  simp only [z, Nat.sub_zero, List.take_left, List.drop_left]
  rw [if_neg (by omega)]
  simp [packed, State.storeBuf]

theorem packed_bufByte (payload : List Byte) (s : State) (j : Nat) :
    (packed payload s).bufByte j = if j < payload.length then payload.getD j 0#8 else s.bufByte j := by
  simp [packed, State.bufByte, Memory.read_writeRange]

/-- A buffer range by its bytes. -/
theorem State.bufRange_eq_take {t : State} {l : List Byte} {n : Nat} (h : ∀ j, j < n → t.bufByte j = l.getD j 0#8)
    (hn : n ≤ l.length) : t.bufRange 0 n = l.take n := by
  apply List.ext_getElem
  · simp; omega
  · intro i h1 h2
    simp only [State.length_bufRange] at h1
    simp only [State.bufRange, Memory.getElem_readRange h1, List.getElem_take, Nat.zero_add]
    have := h i h1
    simp only [State.bufByte] at this
    rw [this]; simp [List.getD_eq_getElem?_getD, show i < l.length by omega]

/-- R244: what the verification of a payload of `p` bytes leaves in the CRC and frame registers. -/
def verified (p : Nat) (sum got : Word) (st : FrState) (t : State) : State :=
  { t with fr.state := st, fr.cur := BitVec.ofNat 16 (p - 4), crc := ⟨sum, sum, got, decide (sum = got)⟩ }

/-- R242 to R244: the verification, case by case, of a payload whose plain bytes are `l`. -/
theorem verifyChecksum_eq {t : State} {l : List Byte} {n : Nat} {sum got : Word} (first : Bool)
    (hn : t.fr.plen.toNat = n) (hl : l.length = n) (h : ∀ j, j < n → t.bufByte j = l.getD j 0#8)
    (hsum : crcBytes t.cfg.crcPoly 0#32 (l.take (n - 4)) = sum)
    (hgot : be32 (l.getD (n - 4) 0#8) (l.getD (n - 3) 0#8) (l.getD (n - 2) 0#8) (l.getD (n - 1) 0#8) = got) :
    verifyChecksum first t = if n < 4 then frEnds .errSize { t with fr.state := .verify }
      else if sum ≠ got then frEnds .errChecksum (verified n sum got .verify t)
      else if first = true then extractFirst (verified n sum got .extract t) else extractWrite
          (verified n sum got .extract t) := by
  have r1 : t.bufRange 0 (n - 4) = l.take (n - 4) := State.bufRange_eq_take (fun j hj => h j (by omega)) (by omega)
  unfold verifyChecksum
  simp only [hn]
  by_cases h4 : n < 4
  · rw [if_pos h4, if_pos h4]
  · rw [if_neg h4, if_neg h4]
    simp only [State.bufRange] at r1
    simp only [State.bufByte] at h
    simp only [State.bufRange, State.bufByte, r1, crcRecord]
    rw [h (n-4) (by omega), h (n-3) (by omega), h (n-2) (by omega), h (n-1) (by omega)]
    simp only [crcMatch, hsum, hgot]
    by_cases hs : sum = got
    · subst hs
      simp only [beq_self_eq_true, Bool.not_true, Bool.false_eq_true, if_false, ne_eq, not_true_eq_false]
      simp [verified]
    · have : (sum == got) = false := by simpa using hs
      simp only [this, Bool.not_false, if_true, ne_eq, hs, not_false_eq_true]
      simp [verified, hs]

end Sys2Proof.Machine
end

