-- ==== Sys2Proof/Laws/PerInstr.lean ====
section
/-! SUPPORT. The length of every instruction's encoding (R90: all operations have the same length; R101 to R104: a
packet is its two-byte prefix and its payload; R109: a command is one byte), constructor by constructor. -/

namespace Sys2Proof

/-- How many bytes an instruction's encoding has. -/
def Instr.encodedLength : Instr → Nat
  | .pktEnd => 2
  | .pktIv _ _ => 14
  | .pktWrite payload => 2 + payload.length
  | .len _ => 2
  | .handshake | .cmdInfo | .cmdErase | .cmdCrc | .cmdWrite | .cmdQuit | .cmdUnknown _ => 1
  | _ => 13

/-- An instruction's encoding has the length its format says, for every value of its operands. -/
def Laws.EncodedLength.Statement (i : Instr) : Prop := (encode i).length = i.encodedLength

theorem Laws.EncodedLength.crcInit : Laws.EncodedLength.Statement .crcInit := rfl
theorem Laws.EncodedLength.crcUpd (opa : Word) : Laws.EncodedLength.Statement (.crcUpd opa) := rfl
theorem Laws.EncodedLength.crcBuf (off n : Word) : Laws.EncodedLength.Statement (.crcBuf off n) := rfl
theorem Laws.EncodedLength.crcMem (a n : Word) : Laws.EncodedLength.Statement (.crcMem a n) := rfl
theorem Laws.EncodedLength.crcChk (e : Word) : Laws.EncodedLength.Statement (.crcChk e) := rfl
theorem Laws.EncodedLength.ciphKeysetup (kbits : Word) : Laws.EncodedLength.Statement (.ciphKeysetup kbits) := rfl
theorem Laws.EncodedLength.ciphBlock : Laws.EncodedLength.Statement .ciphBlock := rfl
theorem Laws.EncodedLength.ciphProc (off n : Word) : Laws.EncodedLength.Statement (.ciphProc off n) := rfl
theorem Laws.EncodedLength.flErase (a : Word) : Laws.EncodedLength.Statement (.flErase a) := rfl
theorem Laws.EncodedLength.flWword (a v : Word) : Laws.EncodedLength.Statement (.flWword a v) := rfl
theorem Laws.EncodedLength.flWrow (a off : Word) : Laws.EncodedLength.Statement (.flWrow a off) := rfl
theorem Laws.EncodedLength.flWrange (a n off : Word) : Laws.EncodedLength.Statement (.flWrange a n off) := rfl
theorem Laws.EncodedLength.flCmp (a n off : Word) : Laws.EncodedLength.Statement (.flCmp a n off) := rfl
theorem Laws.EncodedLength.flNop : Laws.EncodedLength.Statement .flNop := rfl
theorem Laws.EncodedLength.frReset : Laws.EncodedLength.Statement .frReset := rfl
theorem Laws.EncodedLength.frRecv : Laws.EncodedLength.Statement .frRecv := rfl
theorem Laws.EncodedLength.sysZeroise : Laws.EncodedLength.Statement .sysZeroise := rfl
theorem Laws.EncodedLength.reserved (code : Byte) : Laws.EncodedLength.Statement (.reserved code) := rfl
theorem Laws.EncodedLength.pktEnd : Laws.EncodedLength.Statement .pktEnd := rfl

theorem Laws.EncodedLength.pktIv (iv : Vector Byte 8) (checksum : Word) :
    Laws.EncodedLength.Statement (.pktIv iv checksum) := by
  show (Machine.bytesBE16 12#16 ++ iv.toList ++ Machine.bytesBE32 checksum).length = 14
  rw [List.length_append, List.length_append, Vector.length_toList]
  rfl

theorem Laws.EncodedLength.pktWrite (payload : List Byte) : Laws.EncodedLength.Statement (.pktWrite payload) := by
  show (Machine.bytesBE16 (BitVec.ofNat 16 payload.length) ++ payload).length = 2 + payload.length
  rw [List.length_append]
  rfl

theorem Laws.EncodedLength.len (p : Half) : Laws.EncodedLength.Statement (.len p) := rfl
theorem Laws.EncodedLength.handshake : Laws.EncodedLength.Statement .handshake := rfl
theorem Laws.EncodedLength.cmdInfo : Laws.EncodedLength.Statement .cmdInfo := rfl
theorem Laws.EncodedLength.cmdErase : Laws.EncodedLength.Statement .cmdErase := rfl
theorem Laws.EncodedLength.cmdCrc : Laws.EncodedLength.Statement .cmdCrc := rfl
theorem Laws.EncodedLength.cmdWrite : Laws.EncodedLength.Statement .cmdWrite := rfl
theorem Laws.EncodedLength.cmdQuit : Laws.EncodedLength.Statement .cmdQuit := rfl
theorem Laws.EncodedLength.cmdUnknown (b : Byte) : Laws.EncodedLength.Statement (.cmdUnknown b) := rfl

end Sys2Proof
end

