-- ==== Sys2Proof/Laws/Reset.lean ====
section
/-! SUPPORT. What a reset makes of the block (R360), written out, and what of it the invariants look at. -/

namespace Sys2Proof.Machine

/-- R360: the block after a reset, written out. -/
theorem resetBlock_eq (s : State) : ∃ x sc ks keyr ivr buf lv we draws, buf.length = s.cfg.bufCap ∧ s.resetBlock =
    { s.resetFlash with
      port := { op := 0, opa := 0, opb := 0, opc := 0, res := resCode .ok, start := false }
      crc := { acc := 0, computed := 0, received := 0, matched := false }
      ciph := { x := x, s := sc, ks := ks, cRem := 0, cOff := 0, keyed := false, keyr := keyr, ivr := ivr }
      fl :=
        { state := .idle, kind := .nop, addr := 0, data := 0, src := 0, eraseAtt := 0, eraseFail := 0, writeFail := 0
          halted := false, first := resCode .ok }
      hw := { s.resetFlash.hw with done := true, lowVoltage := lv, writeError := we, issued := [] }
      fr :=
        { state := .idle, buf := Memory.writeRange 0#8 [] 0 buf, fill := 0, cur := 0, plen := 0, seq := 0,
            final := false
          wAddr := 0, wLen := 0, lenHi := 0, toDrain := 0 }
      draws := draws } := by
  have hc : s.resetFlash.cfg = s.cfg := by
    unfold State.resetFlash; split <;> rfl
  unfold State.resetBlock
  generalize s.resetFlash = v at hc ⊢
  simp only
  generalize drawWords v.draws = q
  obtain ⟨x, d⟩ := q
  simp only
  generalize drawWords d = q
  obtain ⟨sc, d⟩ := q
  simp only
  generalize drawVec 64 d = q
  obtain ⟨ks, d⟩ := q
  simp only
  generalize drawVec 32 d = q
  obtain ⟨keyr, d⟩ := q
  simp only
  generalize drawVec 8 d = q
  obtain ⟨ivr, d⟩ := q
  simp only
  have hl := Draws.length_take v.cfg.bufCap d
  rw [hc] at hl ⊢
  generalize Draws.take s.cfg.bufCap d = q at hl ⊢
  obtain ⟨buf, d⟩ := q
  exact ⟨x, sc, ks, keyr, ivr, buf, _, _, _, hl, rfl⟩

/-- R360: what the invariants look at. -/
theorem resetBlock_parts (s : State) : ∃ buf, buf.length = s.cfg.bufCap ∧ s.resetBlock.cfg = s.cfg ∧ s.resetBlock.inputs
    = s.inputs ∧ s.resetBlock.port = { op := 0, opa := 0, opb := 0, opc := 0, res := resCode .ok, start := false }
  ∧ s.resetBlock.fl.state = .idle ∧ s.resetBlock.fl.halted = false ∧ s.resetBlock.fr.state = .idle ∧ s.resetBlock.fr.seq
      = 0#32 ∧ s.resetBlock.ciph.cRem = 0#32 ∧ s.resetBlock.ciph.cOff = 0#32
  ∧ s.resetBlock.fr.buf = Memory.writeRange 0#8 [] 0 buf
  ∧ ArrayReach s.cfg.erasedByte (fun p => s.inFlight = true ∧ within s.fl.addr.toNat (flashSpan s.cfg s.fl.kind) p
      = true) s.hw.array s.resetBlock.hw.array := by
  have hc : s.resetFlash.cfg = s.cfg ∧ s.resetFlash.inputs = s.inputs := by
    unfold State.resetFlash; split <;> exact ⟨rfl, rfl⟩
  have ha :
      ArrayReach s.cfg.erasedByte (fun p => s.inFlight = true ∧ within s.fl.addr.toNat (flashSpan s.cfg s.fl.kind) p
      = true) s.hw.array s.resetFlash.hw.array := by
    unfold State.resetFlash
    split
    · rename_i h
      refine ArrayReach.store _ _ _ fun p h1 h2 => ⟨h, ?_⟩
      rw [Draws.length_take] at h2
      simp [within]; omega
    · exact ArrayReach.refl _ _ _
  obtain ⟨x, sc, ks, keyr, ivr, buf, lv, we, draws, hl, he⟩ := resetBlock_eq s
  rw [he]
  exact ⟨buf, hl, hc.1, hc.2, rfl, rfl, rfl, rfl, rfl, rfl, rfl, rfl, ha⟩

end Sys2Proof.Machine
end

