-- ==== Sys2Proof/Laws/Resume.lean ====
section
/-! SUPPORT. A reception that waited goes on (R250): its next move, over the bytes that came late, is what the
operation does over all of them; the step that takes that move; and a reception does not look at the controller's
fields. -/

namespace Sys2Proof.Machine

theorem cellsFrom_filter_lt (d : Byte) (b k : Nat) (x : List Byte) (h : b + x.length ≤ k) :
    (cellsFrom d b x).filter (fun c => decide (c.1 < k)) = cellsFrom d b x := by
  rw [List.filter_eq_self]; intro c hc
  have := mem_cellsFrom hc
  simp; omega

theorem cellsFrom_filter_ge (d : Byte) (b k : Nat) (x : List Byte) (h : b + x.length ≤ k) :
    (cellsFrom d b x).filter (fun c => decide (k ≤ c.1)) = [] := by
  rw [List.filter_eq_nil_iff]; intro c hc
  have := mem_cellsFrom hc
  simp; omega

theorem cellsFrom_append (d : Byte) (b : Nat) (x y : List Byte) : cellsFrom d b (x ++ y) = cellsFrom d b x
    ++ cellsFrom d (b + x.length) y := by
  induction x generalizing b with
  | nil => simp [cellsFrom]
  | cons c x ih => simp only [List.cons_append, cellsFrom, ih, List.length_cons]; rw
      [show b + 1 + x.length = b + (x.length + 1) by omega]; split <;> rfl

/-- Bytes stored in two parts. -/
theorem Memory.writeRange_append (d : Byte) (m : Memory) (b : Nat) (x y : List Byte) :
    Memory.writeRange d (Memory.writeRange d m b x) (b + x.length) y = Memory.writeRange d m b (x ++ y) := by
  unfold Memory.writeRange
  simp only [List.filter_append, List.filter_filter, cellsFrom_filter_lt d b _ x (Nat.le_refl _),
      cellsFrom_filter_ge d b _ x (show b + x.length ≤ b + x.length + y.length by omega), cellsFrom_append,
      List.length_append]
  have e1 : m.filter (fun c => decide (c.1 < b + x.length) && decide (c.1 < b)) = m.filter (fun c => decide (c.1 < b))
      := by
    congr 1; funext c; rw [Bool.eq_iff_iff]; simp; omega
  have e2 : m.filter (fun c => decide (c.1 < b + x.length) && decide (b + x.length ≤ c.1)) = [] := by
    rw [List.filter_eq_nil_iff]; intro c _; simp
  have e3 : m.filter (fun c => decide (b + x.length + y.length ≤ c.1) && decide (c.1 < b)) = [] := by
    rw [List.filter_eq_nil_iff]; intro c _; simp; omega
  have e4 : m.filter (fun c => decide (b + x.length + y.length ≤ c.1) && decide (b + x.length ≤ c.1))
      = m.filter (fun c => decide (b + (x.length + y.length) ≤ c.1)) := by
    congr 1; funext c; rw [Bool.eq_iff_iff]; simp; omega
  rw [e1, e2, e3, e4]; simp

/-! ##### The next move of a waiting reception -/

/-- The next move of a waiting reception. -/
def resume (s : State) : OpResult :=
  match s.fr.state with
  | .len0 => receiveLength s
  | .len1 => match s.rx with
    | [] => .blocks s
    | b1 :: rest => afterLength (be16 s.fr.lenHi b1) { s with rx := rest }
  | .body => receiveBody s
  | .drain => drainBody s
  | _ => .blocks s

theorem receiveBody_resume {s u : State} {late : List Byte} (hle : s.fr.fill.toNat ≤ s.fr.plen.toNat)
    (h : receiveBody s = .blocks u) (hst : s.fr.state = .body) :
    u.fr.state = .body ∧ receiveBody { u with rx := late } = receiveBody { s with rx := s.rx ++ late } := by
  unfold receiveBody at h
  simp only at h
  split at h
  · rename_i hlt
    cases h
    refine ⟨hst, ?_⟩
    have hl : s.rx.length < s.fr.plen.toNat - s.fr.fill.toNat := by rw [List.length_take] at hlt; omega
    have e1 : s.rx.take (s.fr.plen.toNat - s.fr.fill.toNat) = s.rx := List.take_of_length_le (by omega)
    have e2 : (s.fr.fill + BitVec.ofNat 16 s.rx.length).toNat = s.fr.fill.toNat + s.rx.length := by
      have := s.fr.plen.isLt
      rw [BitVec.toNat_add, BitVec.toNat_ofNat]; omega
    have e3 : (s.rx ++ late).take (s.fr.plen.toNat - s.fr.fill.toNat) = s.rx
        ++ late.take (s.fr.plen.toNat - (s.fr.fill.toNat + s.rx.length)) := by
      rw [List.take_append, List.take_of_length_le (by omega)]; congr 2; omega
    have e4 : (s.rx ++ late).drop (s.fr.plen.toNat - s.fr.fill.toNat)
        = late.drop (s.fr.plen.toNat - (s.fr.fill.toNat + s.rx.length)) := by
      rw [List.drop_append, List.drop_of_length_le (by omega)]; simp; congr 1; omega
    unfold receiveBody
    simp only [State.storeBuf, e1, e2, e3, e4, Memory.writeRange_append]
    have e5 : ∀ k, s.fr.fill + BitVec.ofNat 16 s.rx.length + BitVec.ofNat 16 k = s.fr.fill + BitVec.ofNat 16
        (s.rx.length + k) := by
      intro k; rw [BitVec.add_assoc, ← BitVec.ofNat_add]
    simp only [List.length_append, e5]
    by_cases hc : (late.take (s.fr.plen.toNat - (s.fr.fill.toNat + s.rx.length))).length < s.fr.plen.toNat -
        (s.fr.fill.toNat + s.rx.length)
    · rw [if_pos hc, if_pos (by omega)]
    · rw [if_neg hc, if_neg (by omega)]
  · exact absurd h (packetComplete_ne_blocks _ _)

theorem drainBody_resume {s u : State} {late : List Byte} (h : drainBody s = .blocks u) (hst : s.fr.state = .drain) :
    u.fr.state = .drain ∧ drainBody { u with rx := late } = drainBody { s with rx := s.rx ++ late } := by
  unfold drainBody at h
  simp only at h
  split at h
  · rename_i hlt
    cases h
    refine ⟨hst, ?_⟩
    have hl : s.rx.length < s.fr.toDrain.toNat := by rw [List.length_take] at hlt; omega
    have e1 : s.rx.take s.fr.toDrain.toNat = s.rx := List.take_of_length_le (by omega)
    have e2 : (s.fr.toDrain - BitVec.ofNat 16 s.rx.length).toNat = s.fr.toDrain.toNat - s.rx.length := by
      have := s.fr.toDrain.isLt
      rw [BitVec.toNat_sub, BitVec.toNat_ofNat]; omega
    have e3 : (s.rx ++ late).take s.fr.toDrain.toNat = s.rx ++ late.take (s.fr.toDrain.toNat - s.rx.length) := by
      rw [List.take_append, List.take_of_length_le (by omega)]
    have e4 : (s.rx ++ late).drop s.fr.toDrain.toNat = late.drop (s.fr.toDrain.toNat - s.rx.length) := by
      rw [List.drop_append, List.drop_of_length_le (by omega)]; simp
    unfold drainBody
    simp only [e1, e2, e3, e4]
    have e5 : ∀ k, s.fr.toDrain - BitVec.ofNat 16 s.rx.length - BitVec.ofNat 16 k = s.fr.toDrain - BitVec.ofNat 16
        (s.rx.length + k) := by
      intro k; rw [BitVec.sub_sub, ← BitVec.ofNat_add]
    simp only [List.length_append, e5]
    by_cases hc : (late.take (s.fr.toDrain.toNat - s.rx.length)).length < s.fr.toDrain.toNat - s.rx.length
    · rw [if_pos hc, if_pos (by omega)]
    · rw [if_neg hc, if_neg (by omega)]
  · cases h

theorem afterLength_resume {p : Half} {s u : State} {late : List Byte} (hf : s.fr.fill = 0#16)
    (h : afterLength p s = .blocks u) :
    resume { u with rx := late } = afterLength p { s with rx := s.rx ++ late } := by
  unfold afterLength at h ⊢
  simp only at h ⊢
  split at h
  · cases h
  · rename_i h0
    rw [if_neg h0]
    split at h
    · rename_i h1
      rw [if_pos h1]
      split at h
      · rename_i h2
        rw [if_pos h2]
        obtain ⟨h3, h4⟩ := drainBody_resume (late := late) h rfl
        unfold resume
        simp only [h3]
        exact h4
      · cases h
    · rename_i h1
      rw [if_neg h1]
      obtain ⟨h3, h4⟩ := receiveBody_resume (late := late) (by simp [hf]) h rfl
      unfold resume
      simp only [h3]
      exact h4

/-- While the length prefix is awaited nothing has been stored. -/
theorem frRecv_waits {s u : State} (h : frRecv s = .blocks u) : u.fr.state = .len0 ∨ u.fr.state = .len1 → u.fr.fill
    = 0#16 ∧ u.fr.cur = 0#16 := by
  unfold frRecv receiveLength at h
  split at h
  · intro hst
    exfalso
    unfold afterLength at h
    simp only at h
    split at h
    · cases h
    · split at h
      · split at h
        · have := (drainBody_resume (late := []) h rfl).1
          rw [this] at hst; rcases hst with h | h <;> cases h
        · cases h
      · have := (receiveBody_resume (late := []) (by simp [frStart]) h rfl).1
        rw [this] at hst; rcases hst with h | h <;> cases h
  · cases h; intro _; exact ⟨rfl, rfl⟩
  · cases h; intro _; exact ⟨rfl, rfl⟩

/-- R250: `FR.RECV` in two parts. -/
theorem frRecv_resume {s u : State} {early late : List Byte} (h : frRecv { s with rx := early } = .blocks u) :
    resume { u with rx := late } = frRecv { s with rx := early ++ late } := by
  rcases early with _ | ⟨b0, _ | ⟨b1, rest⟩⟩
  · simp only [frRecv, receiveLength, frStart] at h
    cases h
    rfl
  · simp only [frRecv, receiveLength, frStart] at h
    cases h
    rcases late with _ | ⟨b1, rest⟩
    · rfl
    · rfl
  · simp only [frRecv, receiveLength, frStart] at h
    exact afterLength_resume rfl h

/-! ##### The step that takes it -/

/-- R234: the instruction that a frame decodes to does what its length prefix does over its body. -/
theorem decodeFrame_exec {s : State} {p : Half} {body rest : List Byte} {i : Instr} (hf : s.frameFree) (first : Bool)
    (h : decodeFrame s.cfg.bufCap first p body = .instr i rest) :
    exec i { s with rx := rest } = (afterLength p (frStart { s with rx := body })).outcome := by
  have hlen : exec (.len p) { s with rx := body } = (afterLength p (frStart { s with rx := body })).outcome :=
    runFrame_free (s := { s with rx := body }) hf.1 hf.2
  unfold decodeFrame at h
  split at h
  · rename_i h0
    cases h
    subst h0
    exact runFrame_free (s := { s with rx := body }) hf.1 hf.2
  · split at h
    · split at h
      · rename_i h12
        unfold decodeIvPayload at h
        split at h
        · cases h
          rename_i i0 i1 i2 i3 i4 i5 i6 i7 c0 c1 c2 c3
          have : exec (.pktIv #v[i0,i1,i2,i3,i4,i5,i6,i7] (be32 c0 c1 c2 c3)) { s with rx := rest } = _ := runFrame_free
              (s := { s with rx := rest }) hf.1 hf.2
          rw [this, h12.1]
          unfold framePacket
          have e : (#v[i0,i1,i2,i3,i4,i5,i6,i7] : Vector Byte 8).toList ++ bytesBE32 (be32 c0 c1 c2 c3)
              = [i0,i1,i2,i3,i4,i5,i6,i7,c0,c1,c2,c3] := by
            rw [bytesBE32_be32]; rfl
          rw [e]; rfl
        · cases h
      · cases h; exact hlen
    · split at h
      · rename_i h10
        cases h
        have : exec (.pktWrite (body.take p.toNat)) { s with rx := body.drop p.toNat } = _ := runFrame_free
            (s := { s with rx := body.drop p.toNat }) hf.1 hf.2
        rw [this]
        unfold framePacket
        have e : BitVec.ofNat 16 (body.take p.toNat).length = p := by
            rw [List.length_take, Nat.min_eq_left h10.2.2]; simp
        rw [e]
        simp only [List.take_append_drop]
        rfl
      · cases h; exact hlen

/-- A frame with its length prefix is an instruction. -/
theorem decodeFrame_ne_rejected {cap : Nat} {first : Bool} {p : Half} {body : List Byte} {e : DecodeError} :
    decodeFrame cap first p body ≠ .rejected e := by
  intro hd
  unfold decodeFrame at hd
  split at hd
  · cases hd
  · split at hd
    · split at hd
      · rename_i h12
        unfold decodeIvPayload at hd
        split at hd
        · cases hd
        · rename_i hne
          have hl := h12.2
          rcases body with _ |
              ⟨_, _ | ⟨_, _ | ⟨_, _ | ⟨_, _ | ⟨_, _ | ⟨_, _ | ⟨_, _ | ⟨_, _ | ⟨_, _ | ⟨_, _ | ⟨_, _ | ⟨_, _⟩⟩⟩⟩⟩⟩⟩⟩⟩⟩⟩⟩
              <;>
            first
            | exact absurd rfl (hne _ _ _ _ _ _ _ _ _ _ _ _ _)
            | simp at hl
      · cases hd
    · split at hd <;> cases hd

/-- R250: the step of the machine while a reception waits. -/
theorem step_resume {u : State} (hin : u.inputs = []) (hf : u.frameFree)
    (hst : u.fr.state ∈ [FrState.len0, .len1, .body, .drain])
    (hfill : u.fr.state = .len0 ∨ u.fr.state = .len1 → u.fr.fill = 0#16 ∧ u.fr.cur = 0#16) :
        step u = settle (resume u).outcome := by
  have e0 : step u = machineStep u := by unfold step; rw [hin]
  rw [e0]
  unfold machineStep fetch
  rw [if_neg (by simp [hf.1]), if_neg (by simp [hf.2])]
  have hstart : ∀ body : List Byte, u.fr.state = .len0 ∨ u.fr.state = .len1 → ∀ p,
      afterLength p (frStart { u with rx := body }) = afterLength p { u with rx := body } := by
    intro body h p
    obtain ⟨h1, h2⟩ := hfill h
    have : frStart { u with rx := body } = { u with rx := body, fr.state := .len0 } := by
      unfold frStart; simp only [h1, h2]
    rw [this]; rfl
  simp only [List.mem_cons, List.not_mem_nil, or_false] at hst
  rcases hst with h | h | h | h
  · rw [h]
    simp only [resume, h, fetchFrame, List.nil_append, receiveLength]
    rcases hr : u.rx with _ | ⟨b0, _ | ⟨b1, rest⟩⟩
    · simp only [decode]
    · simp only [decode]
    · simp only [decode]
      cases hd : decodeFrame u.cfg.bufCap u.firstPacket (be16 b0 b1) rest with
      | rejected e => exact absurd hd decodeFrame_ne_rejected
      | instr i r =>
        simp only
        rw [decodeFrame_exec hf _ hd, hstart _ (.inl h)]
  · rw [h]
    simp only [resume, h]
    rcases hr : u.rx with _ | ⟨b1, rest⟩
    · rw [if_pos rfl]; rfl
    · rw [if_neg (by simp)]
      simp only [fetchFrame, hr, List.cons_append, List.nil_append, decode]
      cases hd : decodeFrame u.cfg.bufCap u.firstPacket (be16 u.fr.lenHi b1) rest with
      | rejected e => exact absurd hd decodeFrame_ne_rejected
      | instr i r =>
        simp only
        rw [decodeFrame_exec hf _ hd, hstart _ (.inr h)]
  · rw [h]; simp only [resume, h]
  · rw [h]; simp only [resume, h]

/-! ##### The controller's fields -/

/-- The controller's fields are `e`. -/
def OpResult.withEnv (e : Env) : OpResult → OpResult
  | .ends r s => .ends r { s with env := e }
  | .blocks s => .blocks { s with env := e }
  | .noMeaning f => .noMeaning f

theorem frEnds_env (e : Env) (r s) : frEnds r { s with env := e } = OpResult.withEnv e (frEnds r s) := rfl

theorem extractFirst_env (e : Env) (s) : extractFirst { s with env := e } = OpResult.withEnv e (extractFirst s) := by
  unfold extractFirst; simp only; split <;> rfl

theorem ite_withEnv {e : Env} {c : Prop} [Decidable c] {a b a' b' : OpResult} (h1 : a = OpResult.withEnv e a')
    (h2 : b = OpResult.withEnv e b') : ite c a b = OpResult.withEnv e (ite c a' b') := by
  split <;> assumption

theorem extractWrite_env (e : Env) (s) : extractWrite { s with env := e } = OpResult.withEnv e (extractWrite s) := by
  unfold extractWrite
  refine ite_withEnv rfl (ite_withEnv rfl rfl)

theorem verifyChecksum_env (e : Env) (f : Bool) (s) : verifyChecksum f { s with env := e } = OpResult.withEnv e
    (verifyChecksum f s) := by
  unfold verifyChecksum
  refine ite_withEnv rfl (ite_withEnv rfl ?_)
  set p := s.fr.plen.toNat
  let q : State := crcRecord (be32 (s.bufByte (p - 4)) (s.bufByte (p - 3)) (s.bufByte (p - 2)) (s.bufByte (p - 1)))
    { s with
      fr.state := .verify, fr.cur := BitVec.ofNat 16 (p - 4)
      crc.acc := crcBytes s.cfg.crcPoly 0#32 (s.bufRange 0 (p - 4)) }
  exact ite_withEnv (extractFirst_env e { q with fr.state := .extract })
      (extractWrite_env e { q with fr.state := .extract })

theorem cipherPasses_env (e : Env) (k off s) : cipherPasses k off { s with env := e }
    = { cipherPasses k off s with env := e } := by
  induction k generalizing s with
  | zero => rfl
  | succ k ih => unfold cipherPasses; exact ih (cipherPass off s)

theorem cipherRange_env (e : Env) (o n s) : cipherRange o n { s with env := e } = { cipherRange o n s with env := e } :=
    by
  have := cipherPasses_env e ((n+63)/64) o { s with ciph.cRem := BitVec.ofNat 32 n, ciph.cOff := 0#32 }
  unfold cipherRange; simp only [this]

theorem ciphProc_env (e : Env) (o n s) : ciphProc o n { s with env := e } = OpResult.withEnv e (ciphProc o n s) := by
  unfold ciphProc
  refine ite_withEnv rfl (ite_withEnv rfl ?_)
  simp only [OpResult.withEnv, cipherRange_env]

theorem packetComplete_env (e : Env) (s) : packetComplete { s with env := e } = OpResult.withEnv e (packetComplete s) :=
    by
  unfold packetComplete
  refine ite_withEnv (verifyChecksum_env e true { s with fr.cur := s.fr.plen }) ?_
  have := ciphProc_env e 0#32 (s.fr.plen.setWidth 32) { s with fr.cur := s.fr.plen, fr.state := .decrypt }
  simp only at this ⊢
  rw [this]
  cases ciphProc 0#32 (s.fr.plen.setWidth 32) { s with fr.cur := s.fr.plen, fr.state := .decrypt } with
  | ends r u => exact verifyChecksum_env e _ _
  | blocks u => rfl
  | noMeaning f => rfl

theorem receiveBody_env (e : Env) (s) : receiveBody { s with env := e } = OpResult.withEnv e (receiveBody s) := by
  unfold receiveBody
  refine ite_withEnv rfl ?_
  exact packetComplete_env e
    { s.storeBuf s.fr.fill.toNat (s.rx.take (s.fr.plen.toNat - s.fr.fill.toNat)) with
      rx := s.rx.drop (s.fr.plen.toNat - s.fr.fill.toNat)
      fr.fill := s.fr.fill + BitVec.ofNat 16 (s.rx.take (s.fr.plen.toNat - s.fr.fill.toNat)).length }

theorem drainBody_env (e : Env) (s) : drainBody { s with env := e } = OpResult.withEnv e (drainBody s) := by
  unfold drainBody
  exact ite_withEnv rfl rfl

theorem afterLength_env (e : Env) (p s) : afterLength p { s with env := e } = OpResult.withEnv e (afterLength p s) := by
  unfold afterLength
  refine ite_withEnv rfl (ite_withEnv (ite_withEnv ?_ rfl) ?_)
  · exact drainBody_env e { s with fr.plen := p, fr.lenHi := p.extractLsb' 8 8, fr.state := .drain, fr.toDrain := p }
  · exact receiveBody_env e { s with fr.plen := p, fr.lenHi := p.extractLsb' 8 8, fr.state := .body }

theorem receiveLength_env (e : Env) (s) : receiveLength { s with env := e } = OpResult.withEnv e (receiveLength s) := by
  rcases s with ⟨p, c, ci, fl, hw, fr, env, rx, tx, dr, inp, cfg⟩
  rcases rx with _ | ⟨b0, _ | ⟨b1, rest⟩⟩
  · rfl
  · rfl
  · exact afterLength_env e _ ⟨p, c, ci, fl, hw, fr, env, rest, tx, dr, inp, cfg⟩

theorem resume_env (e : Env) (s) : resume { s with env := e } = OpResult.withEnv e (resume s) := by
  rcases s with ⟨p, c, ci, fl, hw, ⟨st, f2, f3, f4, f5, f6, f7, f8, f9, f10, f11⟩, env, rx, tx, dr, inp, cfg⟩
  cases st with
  | len0 => exact receiveLength_env e _
  | len1 =>
    rcases rx with _ | ⟨b1, rest⟩
    · rfl
    · exact afterLength_env e _ ⟨p, c, ci, fl, hw, ⟨_, f2, f3, f4, f5, f6, f7, f8, f9, f10, f11⟩, env, rest, tx, dr,
        inp, cfg⟩
  | body => exact receiveBody_env e _
  | drain => exact drainBody_env e _
  | _ => rfl

/-- `FR.RECV` does not look at the controller's fields. -/
theorem frRecv_env (e : Env) (s) : frRecv { s with env := e } = OpResult.withEnv e (frRecv s) := receiveLength_env e
    (frStart s)

/-- R95: the codes are distinct. -/
theorem resCode_roundtrip (r : Res) : resOfCode (resCode r) = some r := by cases r <;> decide

end Sys2Proof.Machine
end

