-- ==== Sys2Proof/Laws/StepKept.lean ====
section
/-! SUPPORT. Every step keeps a property that is closed under what the parts of the machine do: `step_keeps`. An
invariant is then one `Kept`, whose fields are about named updates and not about the step. -/

namespace Sys2Proof.Machine

/-- `A` holds, and the block can take the next operation. -/
structure Ready (A : State → Prop) (s : State) : Prop where
  kept : A s
  fl : s.fl.state = .idle
  halted : s.fl.halted = false
  fr : s.fr.state = .idle

/-- An operation that ends leaves the block ready; one that waits keeps `A`. -/
def OpKeeps (A : State → Prop) : OpResult → Prop
  | .ends _ u => Ready A u
  | .blocks u => A u
  | .noMeaning _ => True

/-! ### Facts that need no closure -/

variable {A : State → Prop} {T : Params → Nat → Prop}

/-- A next state has `A`. -/
def OutKeeps (A : State → Prop) (o : Host.Outcome State Fault Refusal) : Prop := ∀ t, o = .next t → A t

theorem outKeeps_next {t : State} (h : A t) : OutKeeps A (.next t) := fun _ e => by cases e; exact h

theorem outKeeps_fault (f) : OutKeeps A (.fault f) := fun _ e => by cases e

theorem outKeeps_refused (f) : OutKeeps A (.refused f) := fun _ e => by cases e

theorem thenNext_keeps {r : OpResult} {k : State → State} (h : OpKeeps A r) (hk : ∀ u, Ready A u → A (k u)) :
    OutKeeps A (r.thenNext k) := by
  cases r with
  | ends r u => exact outKeeps_next (hk u h)
  | blocks u => exact outKeeps_next h
  | noMeaning f => exact outKeeps_fault f

/-- An attempt at a write that ends leaves the block ready; one that waits keeps `A`. -/
def AttKeeps (A : State → Prop) : Attempt → Prop
  | .success u => Ready A u
  | .rejected _ u => Ready A u
  | .failed u => Ready A u
  | .blocked u => A u

/-- No byte of the range is protected, but for bytes of the boot-entry page. -/
def WriteOk (cfg : Params) (a : Word) (n : Nat) : Prop := ∀ x, inTarget a n x → protectedByte cfg x = true
    → entryByte cfg x = true

theorem flash_of_fits {cfg : Params} {a : Word} {n p : Nat} (h : flashRangeFits cfg a n) (hp : inTarget a n p) :
    isFlash cfg.flashRanges p = true := by
  rw [isFlash_iff]; exact h.2 p hp.1 hp.2

/-- A write that passes steps 1 to 5 meets no protected byte outside the boot-entry page. -/
theorem preCheck_ok {s : State} {a : Word} {l : Half} (h : preCheck s a l = none) : WriteOk s.cfg a l.toNat := by
  unfold preCheck at h
  split at h
  · cases h
  · split at h
    · cases h
    · rename_i hl
      split at h
      · cases h
      · split at h
        · cases h
        · split at h
          · cases h
          · split at h
            · rename_i he
              intro x hx _
              have he : phys a = phys s.cfg.entryPage := by simpa [atEntryPage] using he
              have : l.toNat ≤ s.cfg.pageSize := by omega
              simp only [inTarget, he] at hx
              simp only [entryByte, within, Bool.and_eq_true, decide_eq_true_eq]
              omega
            · split at h
              · rename_i g hg
                intro x hx hpr
                exfalso
                have := (meets_protected_iff s.cfg a l.toNat).mp ⟨x, hx, hpr⟩
                unfold isMutationAllowed at hg
                simp only at hg
                rcases this with h | h | h
                · simp [h] at hg
                · simp only [h, Bool.and_true] at hg; split at hg <;> simp at hg
                · rw [h] at hg; split at hg
                  · simp at hg
                  · split at hg <;> simp at hg
              · cases h

theorem erased_cfg {s u : State} {r : Res} {op : State → OpResult} {code a b c}
    (hop : ∀ t v r, op t = .ends r v → v.cfg = t.cfg) (h : issue code a b c op s = .ends r u) : u.cfg = s.cfg := by
  obtain ⟨v, hv, rfl⟩ := issue_ends h
  exact (hop _ _ _ hv :)

/-- A complete packet, whatever its length: stuck, or ended with the block ready. -/
theorem packetComplete_out (s : State) : (∃ f, packetComplete s = .noMeaning f) ∨
    ∃ r u, packetComplete s = .ends r u ∧ RecvOnly s u ∧ u.fr.state = .idle ∧ (CipherOk s → CipherOk u) := by
  by_cases hcap : s.fr.plen.toNat ≤ s.cfg.bufCap
  · have hr := packetComplete_receives hcap
    cases h : packetComplete s with
    | ends r u => rw [h] at hr; exact .inr ⟨r, u, rfl, hr.1, hr.2.1, (packetComplete_kept hcap h).cipher⟩
    | blocks u => exact absurd h (packetComplete_ne_blocks _ _)
    | noMeaning f => exact .inl ⟨f, rfl⟩
  · refine .inr ?_
    unfold packetComplete
    simp only
    split
    · obtain ⟨r, u, h, ho, hi, -⟩ := verifyChecksum_ends true { s with fr.cur := s.fr.plen }
      refine ⟨r, u, h, ⟨ho.port, ho.fl, ho.hw, ho.env, ho.tx, ho.draws, ho.inputs, ho.cfg⟩, hi, fun hs => ?_⟩
      exact (verifyChecksum_kept (by simp) h).cipher ⟨hs.counters, hs.keyed⟩
    · rename_i hfirst
      have hlt : (s.fr.plen.setWidth 32).toNat = s.fr.plen.toNat := by
        rw [BitVec.toNat_setWidth]; have := s.fr.plen.isLt; omega
      have h0 : (0#32).toNat = 0 := rfl
      simp only [ciphProc, bufFits, hlt, h0, Nat.zero_add, decide_eq_false hcap, Bool.not_false, if_true]
      obtain ⟨r, u, h, ho, hi, -⟩ := verifyChecksum_ends false { s with fr.cur := s.fr.plen, fr.state := .decrypt }
      refine ⟨r, u, h, ⟨ho.port, ho.fl, ho.hw, ho.env, ho.tx, ho.draws, ho.inputs, ho.cfg⟩, hi, fun hs => ?_⟩
      refine (verifyChecksum_kept (fun _ => ?_) h).cipher ⟨hs.counters, hs.keyed⟩
      exact hs.keyed (by simpa [State.firstPacket] using hfirst)

theorem decodeFrame_no_port {cap first p body i rest} (h : decodeFrame cap first p body = .instr i rest) :
    operationWords i = none := by
  unfold decodeFrame at h
  split at h
  · cases h; rfl
  · split at h
    · split at h
      · unfold decodeIvPayload at h
        split at h
        · cases h; rfl
        · cases h
      · cases h; rfl
    · split at h <;> (cases h; rfl)

theorem decodeCommand_no_port (b : Byte) : operationWords (decodeCommand b) = none := by
  unfold decodeCommand
  repeat (first | rfl | split)

/-- Only the command port decodes to an operation of the block. -/
theorem decode_no_port {sp bs i rest} (hsp : sp ≠ .port) (h : decode sp bs = .instr i rest) :
    operationWords i = none := by
  unfold decode at h
  split at h
  · exact absurd rfl hsp
  · cases h
  · cases h; exact decodeCommand_no_port _
  · cases h
  · exact decodeFrame_no_port h
  · cases h

/-! ### The flash operations and the write path -/

section

variable (K : KeptFlash A T)
include K

theorem Ready.alike {s t : State} (h : Ready A s) (ha : Alike s t) : Ready A t :=
  ⟨K.alike _ _ h.kept ha, by rw [ha.fl]; exact h.fl, by rw [ha.fl]; exact h.halted, by rw [ha.fr]; exact h.fr⟩

theorem Ready.setRes {s : State} (h : Ready A s) (r : Res) :
    Ready A (s.setRes r) := ⟨K.res _ _ h.kept, h.fl, h.halted, h.fr⟩

theorem flash_keeps {s : State} {T' : Nat → Prop} {r : OpResult} (h : Ready A s) (hf : FlashEnds T' s r)
    (hT : ∀ p, T' p → T s.cfg p) : OpKeeps A r := by
  have hf := hf.mono hT
  cases r with
  | ends r u =>
      exact ⟨K.flash _ _ _ h.kept h.fl h.halted hf, hf.2.2.1, hf.2.2.2.1.trans h.halted, by rw [hf.1.fr]; exact h.fr⟩
  | blocks u => exact K.flashWaits _ _ h.kept h.fl h.halted hf
  | noMeaning f => trivial

theorem crc_keeps {s : State} (h : Ready A s) (r : Res) (c : Crc) : OpKeeps A (.ends r { s with crc := c }) :=
  h.alike K ⟨rfl, rfl, rfl, rfl, rfl, rfl, rfl, rfl⟩

theorem crcInit_keeps {s : State} (h : Ready A s) : OpKeeps A (crcInit s) := crc_keeps K h _ _

theorem crcUpd_keeps {s : State} (h : Ready A s) (a) : OpKeeps A (crcUpd a s) := by
  unfold crcUpd; split
  · exact h
  · exact crc_keeps K h _ _

theorem crcBuf_keeps {s : State} (h : Ready A s) (a n) : OpKeeps A (crcBuf a n s) := by
  unfold crcBuf; split
  · exact h
  · exact crc_keeps K h _ _

theorem crcMem_keeps {s : State} (h : Ready A s) (a n) : OpKeeps A (crcMem a n s) := by
  unfold crcMem; split
  · exact h
  · exact crc_keeps K h _ _

theorem crcChk_keeps {s : State} (h : Ready A s) (e) : OpKeeps A (crcChk e s) := crc_keeps K h _ _

omit K in
theorem cmp_keeps {s : State} (h : Ready A s) (a n o) : OpKeeps A (flCmp a n o s) := by
  unfold flCmp
  split
  · exact h
  · split <;> exact h

theorem issue_keeps {s : State} (h : Ready A s) (code a b c) {op : State → OpResult}
    (hop : ∀ t, Ready A t → t.cfg = s.cfg → OpKeeps A (op t)) :
    OpKeeps A (issue code a b c op s) := by
  have := hop (s.writePort code a b c) (h.alike K ⟨rfl, rfl, rfl, rfl, rfl, rfl, rfl, rfl⟩) rfl
  unfold issue
  cases he : op (s.writePort code a b c) with
  | ends r u => rw [he] at this; exact this.setRes K r
  | blocks u => rw [he] at this; exact this
  | noMeaning f => trivial

theorem erasePages_keeps (n : Nat) (p : Word) {s : State} (h : Ready A s) : OpKeeps A (erasePages n p s) := by
  induction n generalizing p s with
  | zero => exact h
  | succ n ih =>
    have prog : ∀ t r, Ready A t → Ready A (State.progress t r) := by
      intro t r ht; unfold State.progress; split
      · exact ht.alike K ⟨rfl, rfl, rfl, rfl, rfl, rfl, rfl, rfl⟩
      · exact ht
    unfold erasePages
    simp only
    split
    · exact ih _ (prog _ _ h)
    · rename_i hskip
      have hi := issue_keeps K h 0x20#8 (some p) none none (op := flErase p) (fun t ht hc => by
        refine flash_keeps K ht (flErase_ends p t)
            (fun x hx => K.permitted _ _ ⟨flash_of_fits hx.2 hx.1, fun hpr => ?_⟩)
        exfalso
        rw [hc] at hx hpr
        apply hskip
        unfold skipsPage
        rw [Bool.or_eq_true]; right
        have := (meets_protected_iff s.cfg p s.cfg.pageSize).mp ⟨x, hx.1, hpr⟩
        unfold isMutationAllowed
        simp only
        rcases this with h | h | h
        · simp [h]
        · simp only [h, Bool.and_true]; split <;> simp
        · rw [h]; split
          · rfl
          · split <;> rfl)
      split
      · rename_i u hu; rw [hu] at hi; exact ih _ (prog _ _ hi)
      · rename_i r u hne hu; rw [hu] at hi; exact ih _ hi
      · rename_i u hu; rw [hu] at hi; exact hi
      · trivial

theorem crcCommand_keeps {s : State} (h : Ready A s) : OutKeeps A (crcCommand s) := by
  refine thenNext_keeps ?_ (fun u h => K.alike _ _ h.kept ⟨rfl, rfl, rfl, rfl, rfl, rfl, rfl, rfl⟩)
  unfold crcRegions
  have h1 := issue_keeps K h 0x00#8 none none none (op := crcInit) (fun t ht _ => crcInit_keeps K ht)
  split
  · rename_i u hu
    rw [hu] at h1
    have h2 := issue_keeps K h1 0x03#8 (some u.cfg.progBase) (some (BitVec.ofNat 32 u.cfg.progSize)) none
        (fun t ht _ => crcMem_keeps K ht u.cfg.progBase (BitVec.ofNat 32 u.cfg.progSize))
    simp only
    split
    · rename_i w hw; rw [hw] at h2
      exact issue_keeps K h2 _ _ _ _ (fun t ht _ => crcMem_keeps K ht _ _)
    · rename_i w hw; rw [hw] at h2; exact h2
    · trivial
  · rename_i u hu; rw [hu] at h1; exact h1
  · trivial

theorem writeSteps_keeps {s : State} (h : Ready A s) {a : Word} {l : Half} (hw : WriteOk s.cfg a l.toNat) :
    AttKeeps A (writeSteps a l s) := by
  unfold writeSteps
  split
  · exact h
  · have hl : (l.setWidth 32).toNat = l.toNat := by rw [BitVec.toNat_setWidth]; have := l.isLt; omega
    have hi := issue_keeps K h 0x23#8 (some a) (some (l.setWidth 32)) (some 0#32)
        (op := flWrange a (l.setWidth 32) 0#32) (fun t ht hc => by
      refine flash_keeps K ht (flWrange_ends _ _ _ t ht.fl)
          (fun x hx => K.permitted _ _ ⟨flash_of_fits hx.2 hx.1, fun hpr => ?_⟩)
      rw [hc] at hpr ⊢
      rw [hl] at hx
      exact hw x hx.1 hpr)
    split
    · rename_i u hu; rw [hu] at hi; exact hi
    · rename_i r u hne hu; rw [hu] at hi; exact hi
    · rename_i u hu; rw [hu] at hi; exact hi
    · rename_i f hu; exact h

theorem attempt_keeps {s : State} (h : Ready A s) (a : Word) (l : Half) : AttKeeps A (attemptWrite a l s) := by
  have ho : AttKeeps A (orchestrate a l s) := by
    unfold orchestrate
    split
    · exact h
    · rename_i hpre
      have hok := preCheck_ok hpre
      split
      · split
        · exact h
        · have hi := issue_keeps K h 0x20#8 (some s.cfg.entryPage) none none (op := flErase s.cfg.entryPage)
            (fun t ht hc => by
            refine flash_keeps K ht (flErase_ends _ t)
                (fun x hx => K.permitted _ _ ⟨flash_of_fits hx.2 hx.1, fun _ => ?_⟩)
            rw [hc] at hx ⊢
            simp only [entryByte, within, Bool.and_eq_true, decide_eq_true_eq]
            exact hx.1)
          split
          · rename_i u hu
            rw [hu] at hi
            have : u.cfg = s.cfg := erased_cfg
                (fun t v r hv => by have := flErase_ends s.cfg.entryPage t; rw [hv] at this; exact this.1.cfg) hu
            exact writeSteps_keeps K hi (by rw [this]; exact hok)
          · rename_i r u hne hu; rw [hu] at hi; exact hi
          · rename_i u hu; rw [hu] at hi; exact hi
          · exact h
      · exact writeSteps_keeps K h hok
  unfold attemptWrite
  split
  · rename_i u hu
    rw [hu] at ho
    unfold readBack
    have hi := issue_keeps K ho 0x24#8 (some a) (some (l.setWidth 32)) (some 0#32)
        (fun t ht _ => cmp_keeps ht a (l.setWidth 32) 0#32)
    split
    · rename_i w hw; rw [hw] at hi; exact hi
    · rename_i r w hne hw; rw [hw] at hi; exact hi
    · rename_i w hw; rw [hw] at hi; exact hi
    · exact ho
  · exact ho

theorem retry_keeps (a : Word) (l : Half) (n : Nat) {s : State} (h : Ready A s) : AttKeeps A (retryWrite a l n s) := by
  induction n generalizing s with
  | zero =>
    have := attempt_keeps K h a l
    unfold retryWrite
    split
    · rename_i u hu; rw [hu] at this; exact this
    · exact this
  | succ n ih =>
    have := attempt_keeps K h a l
    unfold retryWrite
    split
    · rename_i u hu; rw [hu] at this; exact ih (this.alike K ⟨rfl, rfl, rfl, rfl, rfl, rfl, rfl, rfl⟩)
    · exact this

theorem writeReply_keeps {s : State} (h : Ready A s) (r : Res) : A (writeReply r s) := by
  have h0 : Ready A { s with env.writing := false } := h.alike K ⟨rfl, rfl, rfl, rfl, rfl, rfl, rfl, rfl⟩
  have rep : ∀ t q, Ready A t → A (State.reply t q) := fun t q ht =>
      K.alike _ _ ht.kept ⟨rfl, rfl, rfl, rfl, rfl, rfl, rfl, rfl⟩
  unfold writeReply
  simp only
  split
  · exact rep _ _ h0
  · exact rep _ _ h0
  · exact rep _ _ h0
  · exact rep _ _ h0
  · exact rep _ _ h0
  · unfold writeData writeWithRetry
    have hw := retry_keeps K s.fr.wAddr s.fr.wLen s.cfg.maxWriteRetries
        (h0.alike (t := { s with env.writing := false, env.wretry := 0 }) K ⟨rfl, rfl, rfl, rfl, rfl, rfl, rfl, rfl⟩)
    split
    · rename_i u hu; rw [hu] at hw; exact rep _ _ hw
    · rename_i q u hu; rw [hu] at hw; exact rep _ _ hw
    · rename_i u hu; rw [hu] at hw; exact rep _ _ hw
    · rename_i u hu; rw [hu] at hw; exact hw
  · exact h0.kept

theorem resume_keeps {s : State} (h : A s) : A (resumeWrite s) := by
  unfold resumeWrite
  split
  · rename_i hc
    simp only [Bool.and_eq_true, Bool.not_eq_true'] at hc
    have hb := hc.2
    simp [State.busy] at hb
    split
    · exact writeReply_keeps K ⟨h, hb.1, hc.1.2, hb.2⟩ _
    · exact h
  · exact h

theorem settle_keeps {o : Host.Outcome State Fault Refusal} (h : OutKeeps A o) : OutKeeps A (settle o) := by
  cases o with
  | next s => exact outKeeps_next (resume_keeps K (h s rfl))
  | fault f => exact outKeeps_fault f
  | refused f => exact outKeeps_refused f

end

/-! ### Every other part, and the step -/

variable (K : Kept A T)
include K

theorem recv_ready {s u : State} (h : Ready A s) (ho : RecvOnly s u) (hk : FrameKept s u) (hst : u.fr.state = .idle) :
    Ready A u :=
  ⟨K.recv s u h.kept ho hk.bufOk hk.cipher (by rw [hst]; decide),
    by rw [ho.fl]; exact h.fl, by rw [ho.fl]; exact h.halted, hst⟩

theorem keysetup_keeps {s : State} (h : Ready A s) (k) : OpKeeps A (ciphKeysetup k s) := by
  have key : ∀ b l m, Ready A (keySetup b l m s) := fun b l m =>
    recv_ready K h ⟨rfl, rfl, rfl, rfl, rfl, rfl, rfl, rfl⟩ ⟨rfl, ArrayReach.refl _ _ _, fun h' =>
        absurd (h.fr.symm.trans h') (by decide), fun hc => ⟨hc.counters, fun _ => rfl⟩⟩ h.fr
  unfold ciphKeysetup
  split
  · exact key _ _ _
  · split
    · exact key _ _ _
    · exact h

theorem block_keeps {s : State} (h : Ready A s) : OpKeeps A (ciphBlock s) := by
  unfold ciphBlock
  split
  · trivial
  · exact recv_ready K h ⟨rfl, rfl, rfl, rfl, rfl, rfl, rfl, rfl⟩ ⟨rfl, ArrayReach.refl _ _ _, fun h' =>
      absurd (h.fr.symm.trans h') (by decide), fun hc => ⟨hc.counters, hc.keyed⟩⟩ h.fr

theorem proc_keeps {s : State} (h : Ready A s) (o n) : OpKeeps A (ciphProc o n s) := by
  unfold ciphProc
  split
  · exact h
  · rename_i hfit
    split
    · trivial
    · have hfit : o.toNat + n.toNat ≤ s.cfg.bufCap := by simpa [bufFits] using hfit
      have hk := cipherRange_kept (s := s) n.isLt hfit (by rw [h.fr]; decide)
      have ho := cipherRange_recvOnly o.toNat n.toNat s n.isLt
      refine recv_ready K h ho hk ?_
      obtain ⟨_, _, _, he, -⟩ := cipherRange_eq o.toNat n.toNat s n.isLt
      rw [he]; exact h.fr

theorem frReset_keeps {s : State} (h : Ready A s) : OpKeeps A (frReset s) :=
  recv_ready K h ⟨rfl, rfl, rfl, rfl, rfl, rfl, rfl, rfl⟩ ⟨rfl, ArrayReach.refl _ _ _, fun h' => absurd h' (by simp),
      fun hc => ⟨hc.counters, fun h => absurd rfl h⟩⟩ rfl

theorem frRecv_keeps {s : State} (h : Ready A s) : OpKeeps A (frRecv s) := by
  have hr := frRecv_receives s
  cases he : frRecv s with
  | ends r u => rw [he] at hr; exact recv_ready K h hr.1 (frRecv_kept (.inl ⟨r, he⟩)) hr.2.1
  | blocks u =>
    rw [he] at hr
    have hk := frRecv_kept (.inr he)
    refine K.recv s u h.kept hr.1 hk.bufOk hk.cipher ?_
    have := hr.2.2
    simp only [List.mem_cons, List.not_mem_nil, or_false] at this
    rcases this with h | h | h | h <;> rw [h] <;> decide
  | noMeaning f => trivial

theorem zeroise_keeps {s : State} (h : Ready A s) : OpKeeps A (sysZeroise s) :=
  ⟨K.zeroise s h.kept h.fl, h.fl, h.halted, rfl⟩

theorem leave_keeps {s : State} (h : Ready A s) (st : Byte) : OpKeeps A (leaveLoop st s) :=
  issue_keeps K.toKeptFlash
      (h.alike (t := { s with env.status := st, env.eraseDone := false, env.wretry := 0, env.loop := .exited })
      K.toKeptFlash ⟨rfl, rfl, rfl, rfl, rfl, rfl, rfl, rfl⟩) _ _ _ _ (fun t ht _ => zeroise_keeps K ht)

theorem eraseCommand_keeps {s : State} (h : Ready A s) : OutKeeps A (eraseCommand s) := by
  have h0 : Ready A { s with env.eraseDone := false } := h.alike K.toKeptFlash ⟨rfl, rfl, rfl, rfl, rfl, rfl, rfl, rfl⟩
  have hr : OpKeeps A (eraseRegions { s with env.eraseDone := false }) := by
    unfold eraseRegions
    have h1 := erasePages_keeps K.toKeptFlash (s.cfg.progSize / s.cfg.pageSize) s.cfg.progBase h0
    simp only
    split
    · rename_i u hu; rw [hu] at h1; exact erasePages_keeps K.toKeptFlash _ _ h1
    · rename_i u hu; rw [hu] at h1; exact h1
    · trivial
  unfold eraseCommand
  split
  · rename_i u hu
    rw [hu] at hr
    refine thenNext_keeps ?_ (fun u h => h.kept)
    unfold eraseFinish
    have h2 := issue_keeps K.toKeptFlash
        (hr.alike (t := { u with env.eraseDone := true }) K.toKeptFlash ⟨rfl, rfl, rfl, rfl, rfl, rfl, rfl, rfl⟩)
        0x30#8 none none none (fun t ht _ => frReset_keeps K ht)
    split
    · rename_i w hw; rw [hw] at h2; exact h2.alike K.toKeptFlash ⟨rfl, rfl, rfl, rfl, rfl, rfl, rfl, rfl⟩
    · rename_i w hw; rw [hw] at h2; exact h2
    · trivial
  · rename_i u hu; rw [hu] at hr; exact outKeeps_next hr
  · exact outKeeps_fault _

theorem runOperation_keeps {op : State → OpResult} {s : State} (h : A s) (hop : Ready A s → OpKeeps A (op s)) :
    OutKeeps A (runOperation op s) := by
  intro t ht
  rcases runOperation_next ht with ⟨-, rfl⟩ | ⟨hh, hb, h'⟩
  · exact h
  · simp [State.busy] at hb
    have := hop ⟨h, hb.1, hh, hb.2⟩
    rcases h' with ⟨r, u, ho, rfl⟩ | ho
    · rw [ho] at this; exact K.res _ _ this.kept
    · rw [ho] at this; exact this

theorem runFrame_keeps {op : State → OpResult} {s : State} (h : A s) (hr : Receives s (op s))
    (hk : ∀ u, ((∃ r, op s = .ends r u) ∨ op s = .blocks u) → FrameKept s u) : OutKeeps A (runFrame op s) := by
  intro t ht
  rcases runFrame_next ht with ⟨-, rfl⟩ | ⟨hh, hb, h'⟩
  · exact h
  · rcases h' with ⟨r, u, ho, rfl⟩ | ho
    · rw [ho] at hr
      have hk := hk u (.inl ⟨r, ho⟩)
      exact K.res _ _ (K.recv _ _ h hr.1 hk.bufOk hk.cipher (by rw [hr.2.1]; decide))
    · rw [ho] at hr
      have hk := hk t (.inr ho)
      refine K.recv _ _ h hr.1 hk.bufOk hk.cipher ?_
      have := hr.2.2
      simp only [List.mem_cons, List.not_mem_nil, or_false] at this
      rcases this with h | h | h | h <;> rw [h] <;> decide

theorem outcome_keeps {s : State} {r : OpResult} (h : A s) (hr : Receives s r)
    (hk : ∀ u, ((∃ q, r = .ends q u) ∨ r = .blocks u) → FrameKept s u) : OutKeeps A r.outcome := by
  intro t ht
  cases r with
  | ends q u =>
    cases ht
    have hk := hk u (.inl ⟨q, rfl⟩)
    exact K.res _ _ (K.recv _ _ h hr.1 hk.bufOk hk.cipher (by rw [hr.2.1]; decide))
  | blocks u =>
    cases ht
    have hk := hk _ (.inr rfl)
    refine K.recv _ _ h hr.1 hk.bufOk hk.cipher ?_
    have := hr.2.2
    simp only [List.mem_cons, List.not_mem_nil, or_false] at this
    rcases this with h | h | h | h <;> rw [h] <;> decide
  | noMeaning f => cases ht

omit K in
theorem runActive_keeps {c : State → Host.Outcome State Fault Refusal} {s : State} (h : A s)
    (hc : Ready A s → OutKeeps A (c s)) : OutKeeps A (runActive c s) := by
  unfold runActive runCommand
  split
  · exact outKeeps_next h
  · rename_i hh
    split
    · exact outKeeps_refused _
    · rename_i hb
      simp [State.busy] at hb
      show OutKeeps A (if s.env.loop = .active then c s else .next s)
      split
      · exact hc ⟨h, hb.1, by simpa using hh, hb.2⟩
      · exact outKeeps_next h

/-- Every instruction; an operation of the command port may target any flash byte. -/
theorem exec_keeps {s : State} (h : A s) (i : Instr) (hi : operationWords i ≠ none → ∀ p, isFlash s.cfg.flashRanges p
    = true → T s.cfg p) : OutKeeps A (exec i s) := by
  have rep : ∀ t q, Ready A t → A (State.reply t q) := fun t q ht =>
      K.alike _ _ ht.kept ⟨rfl, rfl, rfl, rfl, rfl, rfl, rfl, rfl⟩
  cases i with
  | crcInit => exact runOperation_keeps K h (crcInit_keeps K.toKeptFlash)
  | crcUpd a => exact runOperation_keeps K h (fun h => crcUpd_keeps K.toKeptFlash h a)
  | crcBuf a n => exact runOperation_keeps K h (fun h => crcBuf_keeps K.toKeptFlash h a n)
  | crcMem a n => exact runOperation_keeps K h (fun h => crcMem_keeps K.toKeptFlash h a n)
  | crcChk e => exact runOperation_keeps K h (fun h => crcChk_keeps K.toKeptFlash h e)
  | ciphKeysetup k => exact runOperation_keeps K h (fun h => keysetup_keeps K h k)
  | ciphBlock => exact runOperation_keeps K h (fun h => block_keeps K h)
  | ciphProc a n => exact runOperation_keeps K h (fun h => proc_keeps K h a n)
  | flErase a =>
    exact runOperation_keeps K h fun h =>
      flash_keeps K.toKeptFlash h (flErase_ends a s) fun p hp => hi (by simp [operationWords]) p (flash_of_fits hp.2 hp.1)
  | flWword a v =>
    exact runOperation_keeps K h fun h =>
      flash_keeps K.toKeptFlash h (flWword_ends a v s) fun p hp =>
        hi (by simp [operationWords]) p (flash_of_fits hp.2.2 hp.1)
  | flWrow a v =>
    exact runOperation_keeps K h fun h =>
      flash_keeps K.toKeptFlash h (flWrow_ends a v s) fun p hp =>
        hi (by simp [operationWords]) p (flash_of_fits hp.2 hp.1)
  | flWrange a n v =>
    exact runOperation_keeps K h fun h =>
      flash_keeps K.toKeptFlash h (flWrange_ends a n v s h.fl) fun p hp =>
        hi (by simp [operationWords]) p (flash_of_fits hp.2 hp.1)
  | flCmp a n o => exact runOperation_keeps K h (fun h => cmp_keeps h a n o)
  | flNop => exact runOperation_keeps K h (fun h => flash_keeps K.toKeptFlash h (flNop_ends s) (fun p hp => hp.elim))
  | frReset => exact runOperation_keeps K h (fun h => frReset_keeps K h)
  | frRecv => exact runOperation_keeps K h (fun h => frRecv_keeps K h)
  | sysZeroise => exact runOperation_keeps K h (fun h => zeroise_keeps K h)
  | reserved c => exact runOperation_keeps K h (fun h => h)
  | pktEnd => exact runFrame_keeps K h (frameLength_receives _ _) (fun u hu => frameLength_kept hu)
  | pktIv iv c => exact runFrame_keeps K h (framePacket_receives _ _) (fun u hu => framePacket_kept hu)
  | pktWrite p => exact runFrame_keeps K h (framePacket_receives _ _) (fun u hu => framePacket_kept hu)
  | len p => exact runFrame_keeps K h (frameLength_receives _ _) (fun u hu => frameLength_kept hu)
  | handshake =>
    show OutKeeps A (runCommand handshake s)
    unfold runCommand
    split
    · exact outKeeps_next h
    · split
      · exact outKeeps_refused _
      · unfold handshake
        split
        · exact outKeeps_next (K.alike _ _ h ⟨rfl, rfl, rfl, rfl, rfl, rfl, rfl, rfl⟩)
        · exact outKeeps_next (K.alike _ _ h ⟨rfl, rfl, rfl, rfl, rfl, rfl, rfl, rfl⟩)
        · exact outKeeps_next h
  | cmdInfo =>
    exact runActive_keeps h (fun h => outKeeps_next (K.alike _ _ h.kept ⟨rfl, rfl, rfl, rfl, rfl, rfl, rfl, rfl⟩))
  | cmdErase => exact runActive_keeps h (fun h => eraseCommand_keeps K h)
  | cmdCrc => exact runActive_keeps h (fun h => crcCommand_keeps K.toKeptFlash h)
  | cmdWrite =>
    refine runActive_keeps h (fun h => ?_)
    unfold writeCommand
    have h1 := frRecv_keeps K
        (h.alike (t := s.writePort 0x31#8 none none none) K.toKeptFlash ⟨rfl, rfl, rfl, rfl, rfl, rfl, rfl, rfl⟩)
    cases he : frRecv (s.writePort 0x31#8 none none none) with
    | ends r u => rw [he] at h1; exact outKeeps_next (writeReply_keeps K.toKeptFlash (h1.setRes K.toKeptFlash r) r)
    | blocks u => rw [he] at h1; exact outKeeps_next (K.alike _ _ h1 ⟨rfl, rfl, rfl, rfl, rfl, rfl, rfl, rfl⟩)
    | noMeaning f => exact outKeeps_fault f
  | cmdQuit => exact runActive_keeps h (fun h => thenNext_keeps (leave_keeps K h _) (fun u h => h.kept))
  | cmdUnknown b =>
    refine runActive_keeps h (fun h => ?_)
    unfold unknownCommand
    refine outKeeps_next ?_
    split
    · exact K.alike _ _ h.kept ⟨rfl, rfl, rfl, rfl, rfl, rfl, rfl, rfl⟩
    · exact rep _ _ h

theorem receiveBody_keeps {s : State} (h : A s) (hst : s.fr.state = .body) : OutKeeps A (receiveBody s).outcome := by
  intro t ht
  have buf : ∀ u, ((∃ r, receiveBody s = .ends r u) ∨ receiveBody s = .blocks u) → BufOk s → BufOk u := fun u hu hs =>
    (receiveBody_kept (hs.body hst) hst hu).bufOk hs
  cases he : receiveBody s with
  | ends r u =>
    rw [he] at ht; cases ht
    have hb := buf u (.inl ⟨r, he⟩)
    unfold receiveBody at he
    simp only at he
    split at he
    · cases he
    · have key : ∀ v, RecvOnly s v → (CipherOk s → CipherOk v) → packetComplete v = .ends r u → A (u.setRes r) := by
        intro v hv hcv he
        rcases packetComplete_out v with ⟨f, hf⟩ | ⟨r', u', hu, ho, hi, hc⟩
        · rw [hf] at he; cases he
        · rw [hu] at he; cases he
          exact K.res _ _ (K.recv s u h (hv.trans ho) hb (fun hs => hc (hcv hs)) (by rw [hi]; decide))
      refine key _ ?_ ?_ he
      · exact ⟨rfl, rfl, rfl, rfl, rfl, rfl, rfl, rfl⟩
      · exact fun hs => ⟨hs.counters, hs.keyed⟩
  | blocks u =>
    rw [he] at ht; cases ht
    have hb := buf _ (.inr he)
    unfold receiveBody at he
    simp only at he
    split at he
    · cases he
      exact K.recv s _ h ⟨rfl, rfl, rfl, rfl, rfl, rfl, rfl, rfl⟩ hb (fun hs => ⟨hs.counters, hs.keyed⟩)
          (by simp [hst, frRestStates])
    · exact absurd he (packetComplete_ne_blocks _ _)
  | noMeaning f => rw [he] at ht; cases ht

theorem receiveLength_keeps {s : State} (h : A s) (hst : s.fr.state = .len0 ∨ s.fr.state = .len1) :
    OutKeeps A (receiveLength s).outcome := by
  refine outcome_keeps K (r := receiveLength s) h ?_
      (fun u hu => receiveLength_kept (by rcases hst with h | h <;> rw [h] <;> decide) hu)
  unfold receiveLength
  split
  · exact Receives.lift (afterLength_receives _ _) ⟨rfl, rfl, rfl, rfl, rfl, rfl, rfl, rfl⟩ rfl rfl
  · exact ⟨⟨rfl, rfl, rfl, rfl, rfl, rfl, rfl, rfl⟩, rfl, by simp⟩
  · rename_i h; exact ⟨RecvOnly.refl s, h, by rcases hst with h | h <;> simp [h]⟩

theorem fetchFrame_keeps {s : State} (h : A s) (hst : s.fr.state = .len0 ∨ s.fr.state = .len1) (tk : List Byte) :
    OutKeeps A (match fetchFrame tk s with | .run i s => settle (exec i s) | .moves o => settle o) := by
  unfold fetchFrame
  cases hd : decode (.frame s.cfg.bufCap s.firstPacket) (tk ++ s.rx) with
  | instr i rest =>
    refine settle_keeps K.toKeptFlash
        (exec_keeps (s := { s with rx := rest }) K
        (K.alike s { s with rx := rest } h ⟨rfl, rfl, rfl, rfl, rfl, rfl, rfl, rfl⟩) i ?_)
    intro hn
    exfalso
    apply hn
    exact decode_no_port (by simp) hd
  | rejected e => exact settle_keeps K.toKeptFlash (receiveLength_keeps K h hst)

theorem fetchCommand_keeps {s : State} (h : A s) :
    OutKeeps A (match fetchCommand s with | .run i s => settle (exec i s) | .moves o => settle o) := by
  unfold fetchCommand
  cases hd : decode .loop s.rx with
  | instr i rest =>
    refine settle_keeps K.toKeptFlash
        (exec_keeps (s := { s with rx := rest }) K
        (K.alike s { s with rx := rest } h ⟨rfl, rfl, rfl, rfl, rfl, rfl, rfl, rfl⟩) i ?_)
    intro hn
    exfalso
    apply hn
    exact decode_no_port (by simp) hd
  | rejected e => exact settle_keeps K.toKeptFlash (outKeeps_next h)

theorem machineStep_keeps {s : State} (h : A s) :
    OutKeeps A (machineStep s) := by
  unfold machineStep fetch
  by_cases hh : s.fl.halted = true
  · simp only [hh, if_true]; exact settle_keeps K.toKeptFlash (outKeeps_next h)
  by_cases hf : s.fl.state = .idle
  swap
  · simp only [hh, hf, if_false, ne_eq, not_false_eq_true, if_true]
    exact settle_keeps K.toKeptFlash (outKeeps_next h)
  simp only [hh, hf, if_false, ne_eq, not_true_eq_false, Bool.false_eq_true]
  cases hst : s.fr.state with
  | len0 => exact fetchFrame_keeps K h (.inl hst) _
  | len1 =>
    simp only
    by_cases hr : s.rx = []
    · simp only [hr, if_true]; exact settle_keeps K.toKeptFlash (outKeeps_next h)
    · simp only [hr, if_false]; exact fetchFrame_keeps K h (.inr hst) _
  | body => exact settle_keeps K.toKeptFlash (receiveBody_keeps K h hst)
  | drain =>
    exact settle_keeps K.toKeptFlash
      (outcome_keeps K h (drainBody_receives hst) (fun u hu => drainBody_kept hst hu))
  | decrypt => exact settle_keeps K.toKeptFlash (outKeeps_next h)
  | verify => exact settle_keeps K.toKeptFlash (outKeeps_next h)
  | extract => exact settle_keeps K.toKeptFlash (outKeeps_next h)
  | idle =>
    simp only
    by_cases hp : s.port.start = true
    · simp only [hp, if_true, fetchPort]
      exact settle_keeps K.toKeptFlash (exec_keeps K (K.start s h) _ (fun _ => K.port s h hp))
    · simp only [hp, Bool.false_eq_true, if_false, fetchLoop]
      cases he : s.env.loop with
      | idle =>
        simp only
        by_cases hw : windowPassed s = true
        · simp only [hw, if_true]
          refine settle_keeps K.toKeptFlash
              (thenNext_keeps (leave_keeps K ⟨h, hf, by simpa using hh, hst⟩ _) (fun u h => h.kept))
        · simp only [hw, Bool.false_eq_true, if_false]; exact fetchCommand_keeps K h
      | active => exact fetchCommand_keeps K h
      | exited => exact settle_keeps K.toKeptFlash (outKeeps_next h)

omit K in
theorem portWrite_keeps {w : State → State} {s : State} (h : A s) (hw : A s → A (w s)) :
    OutKeeps A (portWrite w s) := by
  unfold portWrite
  split
  · exact outKeeps_next h
  · split
    · exact outKeeps_refused _
    · exact outKeeps_next (hw h)

theorem applyReset_keeps {s : State} (h : A s) (c l sh ch) : OutKeeps A (applyReset c l sh ch s) := by
  have al : ∀ t : State, Alike t ({ t with rx := ch, tx := [] }.bootStatus c).enterIdle := fun t => by
    cases c <;> exact ⟨rfl, rfl, rfl, rfl, rfl, rfl, rfl, rfl⟩
  have h1 : Ready A ({ s.resetBlock with rx := ch, tx := [] }.bootStatus c).enterIdle :=
    Ready.alike K.toKeptFlash (s := s.resetBlock)
        ⟨K.reset s h, (by unfold State.resetBlock; rfl), (by unfold State.resetBlock; rfl),
        (by unfold State.resetBlock; rfl)⟩ (al _)
  unfold applyReset bootLoop
  simp only
  split
  · exact outKeeps_next (K.alike _ _ h1.kept ⟨rfl, rfl, rfl, rfl, rfl, rfl, rfl, rfl⟩)
  · split
    · exact thenNext_keeps (leave_keeps K h1 _) (fun u h => h.kept)
    · exact outKeeps_next h1.kept

/-- Every step keeps `A`. -/
theorem step_keeps {s : State} (h : A s) : OutKeeps A (step s) := by
  unfold step
  split
  · exact machineStep_keeps K h
  · rename_i rest hi
    exact machineStep_keeps K (K.inputs s _ rest h hi)
  · rename_i i rest hne hi
    have h' := K.inputs s i rest h hi
    cases i with
    | quiet => exact outKeeps_next h'
    | rxByte b => exact outKeeps_next (K.alike _ _ h' ⟨rfl, rfl, rfl, rfl, rfl, rfl, rfl, rfl⟩)
    | ticks n => exact outKeeps_next (K.alike _ _ h' ⟨rfl, rfl, rfl, rfl, rfl, rfl, rfl, rfl⟩)
    | reset c l sh ch => exact applyReset_keeps K h' _ _ _ _
    | portOp op =>
      exact portWrite_keeps (w := fun s => { s with port.op := op, port.start := true }) h'
        (fun _ => K.portOp s op rest h hi)
    | portOpa v =>
      exact portWrite_keeps (w := fun s => { s with port.opa := v }) h'
        (fun h => K.alike _ _ h ⟨rfl, rfl, rfl, rfl, rfl, rfl, rfl, rfl⟩)
    | portOpb v =>
      exact portWrite_keeps (w := fun s => { s with port.opb := v }) h'
        (fun h => K.alike _ _ h ⟨rfl, rfl, rfl, rfl, rfl, rfl, rfl, rfl⟩)
    | portOpc v =>
      exact portWrite_keeps (w := fun s => { s with port.opc := v }) h'
        (fun h => K.alike _ _ h ⟨rfl, rfl, rfl, rfl, rfl, rfl, rfl, rfl⟩)
    | portKey k b =>
      exact portWrite_keeps (w := fun s => { s with ciph.keyr := s.ciph.keyr.set k b }) h'
        (fun h => K.portKey _ k b h)
    | portIv k b =>
      exact portWrite_keeps (w := fun s => { s with ciph.ivr := s.ciph.ivr.set k b }) h'
        (fun h => K.portIv _ k b h)

end Sys2Proof.Machine
end

