-- ==== Sys2Proof/Laws/WritePath.lean ====
section
/-! SUPPORT. The Write command (R290 to R299, R306): how its reception ends, its pure steps, one attempt over settled
outcomes, the read-back, attempts that all fail, and any chain of attempts. -/

namespace Sys2Proof.Machine

theorem frRecv_cases {s u : State} (hf : s.free) (hu : exec .frRecv s = .next u) :
   (∃ r v, frRecv s = .ends r v ∧ u = v.setRes r) ∨ frRecv s = .blocks u := by
  rcases runOperation_next hu with ⟨h, _⟩ | ⟨_, _, h⟩
  · rw [hf.1] at h; cases h
  · exact h

theorem resCode_inj {a b : Res} (h : resCode a = resCode b) : a = b := by
  cases a <;> cases b <;> first | rfl | (exfalso; revert h; decide)

theorem cmdWrite_eq {s : State} (hf : s.commandFree) :
    exec .cmdWrite s = finishWrite (frRecv { s with port.op := 0x31#8 }) := by
  show runActive _ s = _
  rw [runActive_active hf.1.1 hf.1.2 hf.2]; rfl

/-- R306: the reception of a Write command waits, or ends and is answered. -/
theorem cmdWrite_cases {s u : State} (hf : s.commandFree) (hu : exec .frRecv { s with port.op := 0x31#8 } = .next u) :
   (u.fr.state ≠ .idle ∧ exec .cmdWrite s = .next { u with env.writing := true }) ∨
   (u.fr.state = .idle ∧ ∃ r ∈ recvResults, u.port.res = resCode r ∧ u.env = s.env ∧ u.cfg = s.cfg ∧ u.fl = s.fl ∧ u.tx
       = s.tx ∧ u.hw = s.hw ∧ exec .cmdWrite s = .next (writeReply r u)) := by
  rw [cmdWrite_eq hf]
  have hr := frRecv_receives { s with port.op := 0x31#8 }
  rcases frRecv_cases (s := { s with port.op := 0x31#8 }) ⟨hf.1.1, hf.1.2⟩ hu with ⟨r, v, h, rfl⟩ | h
  · rw [h] at hr ⊢
    exact .inr ⟨hr.2.1, r, hr.2.2, rfl, hr.1.env, hr.1.cfg, hr.1.fl, hr.1.tx, hr.1.hw, rfl⟩
  · rw [h] at hr ⊢
    refine .inl ⟨?_, rfl⟩
    intro e; have := hr.2.2; rw [e] at this; revert this; decide

/-! ##### The pure steps -/

/-- R293 to R295: the pure steps from the third on. -/
theorem preCheck_eq {u : State} {a : Word} {l : Half} (he : u.env.eraseDone = true) (h1 : 0 < l.toNat)
    (h2 : l.toNat ≤ u.cfg.pageSize) (h3 : l.toNat % 4 = 0) :
   preCheck u a l = if a.toNat % 4 ≠ 0 then some .alignmentError
  else if 2 ^ 32 < a.toNat + l.toNat then some .wraparound
  else if !insideOneRange u.cfg (phys a).toNat l.toNat then some .outOfBounds
  else if atEntryPage u.cfg a then none
  else if (isMutationAllowed u.cfg a l.toNat).1 then none else some (guardReply (isMutationAllowed u.cfg a l.toNat).2)
      := by
  have hn : ¬(l = 0#16 ∨ u.cfg.pageSize < l.toNat ∨ l.toNat % 4 ≠ 0) := by
    rintro (h | h | h)
    · subst h; simp at h1
    · omega
    · omega
  unfold preCheck
  rw [he, if_neg hn]
  simp only [Bool.not_true, Bool.false_eq_true, if_false]
  generalize isMutationAllowed u.cfg a l.toNat = x
  obtain ⟨b, g⟩ := x
  cases b <;> rfl

/-- R286, R295: the engine region or the boot sector is met. -/
theorem guard_engineOrBoot {cfg : Params} {a : Word}
    {l : Nat} (h : hitsEngine cfg (phys a).toNat ((phys a).toNat + l) = true
    ∨ (cfg.bootProtect = true ∧ hitsBoot cfg (phys a).toNat ((phys a).toNat + l) = true)) :
   (isMutationAllowed cfg a l).1 = false ∧ guardReply (isMutationAllowed cfg a l).2 = .outOfBounds := by
  unfold isMutationAllowed
  simp only
  split
  · exact ⟨rfl, rfl⟩
  · rcases h with h | ⟨h, h'⟩
    · contradiction
    · rw [h, h']; exact ⟨rfl, rfl⟩

/-- R286, R295: only the configuration pages are met. -/
theorem guard_config {cfg : Params} {a : Word}
    {l : Nat}
    (h : ¬(hitsEngine cfg (phys a).toNat ((phys a).toNat + l) = true
    ∨ (cfg.bootProtect = true ∧ hitsBoot cfg (phys a).toNat ((phys a).toNat + l) = true)))
   (hc : hitsConfig cfg (phys a).toNat ((phys a).toNat + l) = true) :
   (isMutationAllowed cfg a l).1 = false ∧ guardReply (isMutationAllowed cfg a l).2 = .overConfiguration := by
  unfold isMutationAllowed
  simp only
  rw [if_neg (by tauto), if_neg (by rw [Bool.and_eq_true]; tauto), if_pos hc]
  exact ⟨rfl, rfl⟩

/-- A decoded write packet that may go to the flash, the block being ready. -/
structure Writable (s : State) (a : Word) (l : Half) : Prop where
  fl : s.fl.state = .idle
  halted : s.fl.halted = false
  fr : s.fr.state = .idle
  wf : s.cfg.wf = true
  envWf : s.cfg.envWf = true
  shape : acceptedShape s a l.toNat

/-- R290 to R295: the pure steps pass. -/
theorem preCheck_none {s : State} {a : Word} {l : Half} (W : Writable s a l)
    (h : atEntryPage s.cfg a = true ∨ (isMutationAllowed s.cfg a l.toNat).1 = true) : preCheck s a l = none := by
  obtain ⟨he, h1, h2, h3, h4, h5, h6⟩ := W.shape
  have h7 : insideOneRange s.cfg (phys a).toNat l.toNat = true := (insideOneRange_iff ..).mpr h6
  rw [preCheck_eq he h1 h2 h3, if_neg (by simpa using h4), if_neg (Nat.not_lt.mpr h5), h7]
  rcases h with h | h
  · simp [h]
  · simp [h]

/-- R286: a range with no protected byte passes the Guard and step 7. -/
theorem allowed_of_unprotected {cfg : Params} {a : Word}
    {n : Nat} (h : ∀ p, inTarget a n p → protectedByte cfg p = false) : isMutationAllowed cfg a n = (true, .none)
    ∧ hitsConfig cfg (phys a).toNat ((phys a).toNat + n) = false := by
  have hm : ¬(∃ x, inTarget a n x ∧ protectedByte cfg x = true) := by
    rintro ⟨x, h1, h2⟩; rw [h x h1] at h2; cases h2
  rw [meets_protected_iff] at hm
  simp only [not_or, not_and, Bool.not_eq_true] at hm
  obtain ⟨h1, h2, h3⟩ := hm
  refine ⟨?_, h3⟩
  unfold isMutationAllowed
  simp only [h1, h3, Bool.false_eq_true, if_false]
  cases hb : cfg.bootProtect with
  | false => simp
  | true => simp [h2 hb]

/-! ##### One attempt -/

theorem toNat_setWidth_half (l : Half) : (l.setWidth 32).toNat = l.toNat := by
  rw [BitVec.toNat_setWidth]; have := l.isLt; omega

theorem Writable.passes {s : State} {a : Word} {l : Half} (W : Writable s a l) :
    rangePassesChecks s.cfg a (l.setWidth 32) 0#32 := by
  obtain ⟨-, h1, h2, h3, h4, -, r, hr, hr1, hr2⟩ := W.shape
  have hl := l.isLt
  have hcap : s.cfg.pageSize ≤ s.cfg.bufCap := by unfold Params.bufCap; omega
  obtain ⟨R1, R2, -⟩ := Params.envWf_regions W.envWf
  have hrange :
      s.cfg.flashRanges = [⟨physBase s.cfg.progBase, s.cfg.progSize⟩, ⟨physBase s.cfg.bootBase, s.cfg.bootSize⟩] := by
    have h := W.envWf
    simp only [Params.envWf, Bool.and_eq_true, beq_iff_eq] at h
    exact h.1.1.2
  rw [rangePassesChecks, toNat_setWidth_half]
  refine ⟨hl, by simp; omega, ⟨?_, fun p hp hp' => ⟨r, hr, by omega, by omega⟩⟩, h3, h4, rfl⟩
  rw [hrange] at hr
  simp only [List.mem_cons, List.not_mem_nil, or_false] at hr
  rcases hr with rfl | rfl
  · exact Nat.le_trans hr2 R1.lim
  · exact Nat.le_trans hr2 R2.lim

theorem Writable.free {s : State} {a : Word} {l : Half} (W : Writable s a l) :
    s.free := ⟨W.halted, by simp [State.busy, W.fl, W.fr]⟩

theorem chunks_pos {s : State} {a : Word} {l : Half} (W : Writable s a l) : 0 < (chunks s a.toNat l.toNat 0).length :=
    by
  obtain ⟨w1, w2, -⟩ := Params.wf_row W.wf
  obtain ⟨-, h1, h2, h3, h4, -⟩ := W.shape
  rw [← loopPieces_chunks s a.toNat l.toNat 0 w1 w2 h4 h3]
  obtain ⟨k, hk⟩ : ∃ k, l.toNat / 4 = k + 1 := ⟨l.toNat / 4 - 1, by omega⟩
  rw [hk, loopPieces, if_neg (by omega)]
  simp

/-- R297, R298: steps 7 to 9 over settled outcomes. -/
theorem writeSteps_settled {s : State} {a : Word} {l : Half} {flags rest} (W : Writable s a l)
    (hc : overConfig s.cfg a l = false)
    (hlen : flags.length = (chunks s a.toNat l.toNat 0).length) (hs : s.hw.script = settledOutcomes flags ++ rest) :
    ∃ t, writeSteps a l s = (if faults flags = 0 then .success t else .failed t) ∧ t.port =
          { s.port with
            op := 0x23#8, opa := a, opb := l.setWidth 32, opc := 0#32
            res := if faults flags = 0 then resCode .ok else resCode .errFlash }
      ∧ t = { s with port := t.port, fl := t.fl, hw := t.hw, draws := t.draws }
      ∧ t.fl =
          { s.fl with
            kind := t.fl.kind, addr := t.fl.addr, data := t.fl.data, src := t.fl.src
            writeFail := s.fl.writeFail + BitVec.ofNat 32 (faults flags)
            first := if faults flags = 0 then resCode .ok else resCode .errFlash }
      ∧ t.hw.script = rest ∧ t.hw.issued = s.hw.issued ++ settledCommands (chunks s a.toNat l.toNat 0) flags
      ∧ (∀ p, ¬inTarget a l.toNat p → t.flashByte p = s.flashByte p)
      ∧ (faults flags = 0 → (∀ p, inTarget a l.toNat p → s.flashByte p = s.cfg.erasedByte) → ∀ i, i < l.toNat
          → t.flashByte ((phys a).toNat + i) = s.bufByte i) := by
  have hch : chunks (s.writePort 0x23#8 (some a) (some (l.setWidth 32)) (some 0#32)) a.toNat l.toNat 0
      = chunks s a.toNat l.toNat 0 := chunks_congr rfl rfl _ _ _
  obtain ⟨t, ht, hp⟩ := flWrange_settled (a := a) (n := l.setWidth 32) (off := 0#32) (flags := flags) (rest := rest)
    (s := s.writePort 0x23#8 (some a) (some (l.setWidth 32)) (some 0#32)) W.free W.wf W.passes
        (by rw [toNat_setWidth_half]; exact hlen.trans (congrArg _ hch).symm) hs
  unfold writeSteps issue
  rw [hc, ht]
  have hpi := hp.issued
  rw [toNat_setWidth_half] at hpi
  rw [show (0#32).toNat = 0 from rfl, hch] at hpi
  have hport : t.port = { s.port with op := 0x23#8, opa := a, opb := l.setWidth 32, opc := 0#32 } := by
      rw [hp.only]; rfl
  have hfl : t.fl =
      { s.fl with
        kind := t.fl.kind, addr := t.fl.addr, data := t.fl.data, src := t.fl.src
        writeFail := s.fl.writeFail + BitVec.ofNat 32 (faults flags)
        first := if faults flags = 0 then resCode .ok else resCode .errFlash } :=
    hp.fl.trans (by simp [State.writePort])
  have hout : ∀ p, ¬inTarget a l.toNat p → t.flashByte p = s.flashByte p := fun p hx =>
      hp.outside p (by rw [toNat_setWidth_half]; simpa [inTarget] using hx)
  by_cases h0 : faults flags = 0
  · simp only [h0, ne_eq, not_true_eq_false, if_false, if_true, Bool.false_eq_true]
    refine ⟨_, rfl, by simp only [State.setRes, hport], ?_, ?_, hp.script, hpi, hout, fun _ her i hi => ?_⟩
    · rw [hp.only]; rfl
    · simpa [h0] using hfl
    · have := hp.written h0 (fun x h1 h2 => her x ⟨by omega, by rw [toNat_setWidth_half] at h2; exact h2⟩) i
        (Nat.zero_le _) (by rw [toNat_setWidth_half]; exact hi)
      rw [show (0#32).toNat + i = i by simp] at this
      exact this
  · simp only [h0, ne_eq, not_false_eq_true, if_false, if_true, Bool.false_eq_true]
    refine ⟨_, rfl, by simp only [State.setRes, hport], ?_, ?_, hp.script, hpi, hout, fun h => h.elim⟩
    · rw [hp.only]; rfl
    · simpa [h0] using hfl

/-- R299: the read-back of data that has landed. -/
theorem readBack_ok {t : State} {a : Word} {l : Half} (hp : rangePassesChecks t.cfg a (l.setWidth 32) 0#32)
    (he : ∀ i, i < l.toNat → t.flashByte ((phys a).toNat + i) = t.bufByte i) :
    readBack a l t = .success
        { t with port := { t.port with op := 0x24#8, opa := a, opb := l.setWidth 32, opc := 0#32, res := resCode .ok } }
        := by
  have : flCmp a (l.setWidth 32) 0#32 (t.writePort 0x24#8 (some a) (some (l.setWidth 32)) (some 0#32))
      = .ends .ok (t.writePort 0x24#8 (some a) (some (l.setWidth 32)) (some 0#32)) := by
    unfold flCmp
    have h1 :
        (!fitsBits 16 (l.setWidth 32) || !bufFits (t.writePort 0x24#8 (some a) (some (l.setWidth 32)) (some 0#32)).cfg
        (0#32).toNat (l.setWidth 32).toNat || !flashFits
        (t.writePort 0x24#8 (some a) (some (l.setWidth 32)) (some 0#32)).cfg a (l.setWidth 32).toNat) = false :=
        rangeFits_eq_true (cfg := t.cfg) ⟨hp.1, hp.2.1, hp.2.2.1⟩
    rw [h1, if_neg (by decide), if_pos]
    rw [toNat_setWidth_half]
    apply List.map_congr_left
    intro i hi
    rw [show (0#32).toNat + i = i by simp]
    exact he i (List.mem_range.mp hi)
  unfold readBack issue
  rw [this]
  rfl

/-- R299: an attempt whose range write fails. -/
theorem attempt_failed {s t : State} {a : Word} {l : Half} (W : Writable s a l)
    (hal : (isMutationAllowed s.cfg a l.toNat).1 = true) (hne : atEntryPage s.cfg a = false)
    (h : writeSteps a l s = .failed t) : attemptWrite a l s = .failed t := by
  unfold attemptWrite orchestrate
  rw [preCheck_none W (.inr hal)]
  simp only [hne, Bool.false_eq_true, if_false, h]

/-! ##### Attempts that all fail -/

/-- R299: every attempt fails. -/
theorem retry_failing {a : Word} {l : Half} (pieces : Nat) (rest) (n : Nat) (s : State) (W : Writable s a l)
    (hal : (isMutationAllowed s.cfg a l.toNat).1 = true) (hcf : overConfig s.cfg a l = false)
    (hne : atEntryPage s.cfg a = false)
    (hpieces : pieces = (chunks s a.toNat l.toNat 0).length)
        (hs : s.hw.script = settledOutcomes (List.replicate ((1 + n) * pieces) (false, true)) ++ rest) :
    ∃ t, retryWrite a l n s = .rejected .writesFailed t ∧ t
        = { s with port := t.port, fl := t.fl, hw := t.hw, draws := t.draws, env.wretry := s.env.wretry + n }
      ∧ t.fl.writeFail = s.fl.writeFail + BitVec.ofNat 32 ((1 + n) * pieces) ∧ t.fl.halted = false
      ∧ t.hw.issued.length = s.hw.issued.length + 2 * ((1 + n) * pieces)
      ∧ (∀ p, ¬inTarget a l.toNat p → t.flashByte p = s.flashByte p) := by
  have hpos : 0 < pieces := by rw [hpieces]; exact chunks_pos W
  induction n generalizing s with
  | zero =>
    rw [Nat.add_zero, Nat.one_mul] at hs
    obtain ⟨t, ht, hport, honly, htfl, hscr, hiss, hout, -⟩ := writeSteps_settled W hcf
        (by rw [List.length_replicate]; exact hpieces) hs
    rw [faults_replicate_true] at ht htfl
    rw [if_neg (by omega)] at ht
    have hatt := attempt_failed W hal hne ht
    have hlen : t.hw.issued.length = s.hw.issued.length + 2 * pieces := by
      rw [hiss, List.length_append, length_settledCommands _ _ (by rw [List.length_replicate]; exact hpieces.symm),
          faults_replicate_true, List.length_replicate]; omega
    refine ⟨t, by simp only [retryWrite, hatt], honly, ?_, ?_, by omega, hout⟩
    · rw [htfl]; simp
    · rw [htfl]; exact W.halted
  | succ n ih =>
    rw [show (1 + (n + 1)) * pieces = pieces + (1 + n) * pieces by
        rw [Nat.add_mul, Nat.add_mul, Nat.add_mul]; omega, List.replicate_add, settledOutcomes_append,
        List.append_assoc] at hs
    obtain ⟨t, ht, hport, honly, htfl, hscr, hiss, hout, -⟩ := writeSteps_settled W hcf
        (by rw [List.length_replicate]; exact hpieces) hs
    rw [faults_replicate_true] at ht htfl
    rw [if_neg (by omega)] at ht
    have hatt := attempt_failed W hal hne ht
    have hlen : t.hw.issued.length = s.hw.issued.length + 2 * pieces := by
      rw [hiss, List.length_append, length_settledCommands _ _ (by rw [List.length_replicate]; exact hpieces.symm),
          faults_replicate_true, List.length_replicate]; omega
    have hcfg : t.cfg = s.cfg := by rw [honly]
    have hfr : t.fr = s.fr := by rw [honly]
    have henv : t.env = s.env := by rw [honly]
    have hch := chunks_congr (s := s) (t := { t with env.wretry := t.env.wretry + 1 }) hcfg hfr a.toNat l.toNat 0
    have W' : Writable { t with env.wretry := t.env.wretry + 1 } a l := by
      refine ⟨by rw [htfl]; exact W.fl, by rw [htfl]; exact W.halted,
        by rw [hfr]; exact W.fr, by rw [hcfg]; exact W.wf, by rw [hcfg]; exact W.envWf, ?_⟩
      obtain ⟨h1, h2, h3, h4, h5, h6, h7⟩ := W.shape
      exact ⟨by show t.env.eraseDone = true; rw [henv]; exact h1, h2,
        by show _ ≤ t.cfg.pageSize; rw [hcfg]; exact h3, h4, h5, h6, by show inOneRange t.cfg _ _; rw [hcfg]; exact h7⟩
    obtain ⟨w, hw1, hw2, hw3, hw4, hw5, hw6⟩ := ih { t with env.wretry := t.env.wretry + 1 } W'
        (by rw [hcfg]; exact hal) (by rw [hcfg]; exact hcf) (by rw [hcfg]; exact hne) (by rw [hch]; exact hpieces) hscr
    refine ⟨w, by rw [retryWrite, hatt]; exact hw1, ?_, ?_, hw4, ?_, fun p hp => ?_⟩
    · rw [hw2, honly]; simp only [State.mk.injEq, Env.mk.injEq, true_and, and_true]; omega
    · rw [hw3]; show t.fl.writeFail + _ = _
      rw [htfl]
      show s.fl.writeFail + _ + _ = _
      rw [BitVec.add_assoc, ← BitVec.ofNat_add]; congr 2
      rw [Nat.add_mul, Nat.add_mul, Nat.add_mul]; omega
    · rw [hw5]; show t.hw.issued.length + _ = _
      rw [hlen, Nat.add_mul, Nat.add_mul, Nat.add_mul]; omega
    · rw [hw6 p hp]; exact hout p hp

/-! ##### Any chain of attempts -/

/-- A write command may go to the flash without the entry page's detour: steps 1 to 7 pass. -/
structure Passes (s : State) (a : Word) (l : Half) : Prop extends Writable s a l where
  allowed : (isMutationAllowed s.cfg a l.toNat).1 = true
  offConfig : overConfig s.cfg a l = false
  offEntry : atEntryPage s.cfg a = false

/-- R210: a compare always ends and changes nothing. -/
theorem flCmp_ends (a n off : Word) (s : State) : ∃ r, flCmp a n off s = .ends r s := by
  unfold flCmp
  split
  · exact ⟨_, rfl⟩
  · split <;> exact ⟨_, rfl⟩

/-- R298, R299: what one attempt does, by the two operations it issues. -/
theorem attemptWrite_leaves {s w : State} {a : Word} {l : Half} (P : Passes s a l) (h : attemptLeaves a l s w) :
    attemptWrite a l s = (if w.free then if w.port.res = resCode .ok then .success w else .failed w else .blocked w)
      ∧ w = { s with port := w.port, fl := w.fl, hw := w.hw, draws := w.draws, env.status := w.env.status } := by
  obtain ⟨x, hx, hxw⟩ := h
  have e0 : exec (.flWrange a (l.setWidth 32) 0#32)
      { s with port.op := 0x23#8, port.opa := a, port.opb := l.setWidth 32, port.opc := 0#32 }
      = (flWrange a (l.setWidth 32) 0#32
          (s.writePort 0x23#8 (some a) (some (l.setWidth 32)) (some 0#32))).outcome := by
    show runOperation _ _ = _
    have h1 := P.free.1
    have h2 := P.free.2
    unfold runOperation
    simp only [State.busy] at h2 ⊢
    simp only [h1, h2]
    rfl
  have horch : orchestrate a l s = writeSteps a l s := by
    unfold orchestrate
    rw [preCheck_none P.toWritable (.inr P.allowed)]
    simp only [P.offEntry, Bool.false_eq_true, if_false]
  have hE := flWrange_ends a (l.setWidth 32) 0#32
    (s.writePort 0x23#8 (some a) (some (l.setWidth 32)) (some 0#32)) P.fl
  replace hx := e0.symm.trans hx
  unfold attemptWrite
  rw [horch]
  unfold writeSteps issue
  rw [P.offConfig]
  cases hr : flWrange a (l.setWidth 32) 0#32
      (s.writePort 0x23#8 (some a) (some (l.setWidth 32)) (some 0#32)) with
  | noMeaning f => rw [hr] at hx; cases hx
  | blocks y =>
    rw [hr] at hx hE
    have hx : y = x := by cases hx; rfl
    subst hx
    obtain ⟨ho, -, hE⟩ := hE
    have hnf : ¬y.free := by
      rintro ⟨h1, h2⟩
      simp only [State.busy, Bool.or_eq_false_iff, bne_eq_false_iff_eq] at h2
      rcases hE with ⟨-, -, h | h⟩ | h
      · rw [h] at h2; cases h2.1
      · rw [h.1] at h2; cases h2.1
      · rw [h.1] at h2; cases h2.1
    rw [if_neg (fun h => hnf h.1)] at hxw
    subst hxw
    refine ⟨by rw [if_neg hnf]; rfl, ?_⟩
    have henv : w.env = { s.env with status := w.env.status } := by
      rcases hE with ⟨-, h, -⟩ | ⟨-, -, h⟩ <;> rw [h] <;> rfl
    refine ho.eq.trans ?_
    rw [henv, ho.port]; rfl
  | ends r y =>
    rw [hr] at hx hE
    cases hx
    obtain ⟨ho, -, hst, hh, henv⟩ := hE
    have hyf : y.free := by
      refine ⟨hh.trans P.halted, ?_⟩
      simp [State.busy, hst, ho.fr, P.fr]
    have hy : (y.setRes r).free := hyf
    have hfr : ∀ p : Port,
        ({ y with port := p } : State) = { s with port := p, fl := y.fl, hw := y.hw, draws := y.draws } := by
      intro p
      have := ho.eq
      rw [henv] at this
      rw [this]; rfl
    by_cases hok : r = .ok
    · subst hok
      rw [if_pos ⟨hy, rfl⟩] at hxw
      obtain ⟨r', hr'⟩ := flCmp_ends a (l.setWidth 32) 0#32
        ((y.setRes .ok).writePort 0x24#8 (some a) (some (l.setWidth 32)) (some 0#32))
      have e1 : exec (.flCmp a (l.setWidth 32) 0#32)
          { y.setRes .ok with port.op := 0x24#8, port.opa := a, port.opb := l.setWidth 32, port.opc := 0#32 }
          = (flCmp a (l.setWidth 32) 0#32
              ((y.setRes .ok).writePort 0x24#8 (some a) (some (l.setWidth 32)) (some 0#32))).outcome := by
        show runOperation _ _ = _
        unfold runOperation
        have h1 := hyf.1
        have h2 := hyf.2
        simp only [State.busy] at h2
        simp only [State.busy, State.setRes, h1, h2]
        rfl
      replace hxw := e1.symm.trans hxw
      rw [hr'] at hxw
      cases hxw
      have hwf : (((y.setRes .ok).writePort 0x24#8 (some a) (some (l.setWidth 32)) (some 0#32)).setRes r').free :=
        hyf
      refine ⟨?_, ?_⟩
      · simp only [Bool.false_eq_true, if_false, readBack, issue, hr']
        rw [if_pos hwf]
        cases r' <;> rfl
      · have hst : (((y.setRes .ok).writePort 0x24#8 (some a) (some (l.setWidth 32)) (some 0#32)).setRes r').env.status
            = s.env.status := by
          show y.env.status = _
          rw [henv]; rfl
        exact (hfr _).trans (by rw [hst]; rfl)
    · have hne : (y.setRes r).port.res ≠ resCode .ok := fun h => hok (resCode_inj h)
      rw [if_neg (fun h => hne h.2)] at hxw
      subst hxw
      refine ⟨?_, ?_⟩
      · rw [if_pos hy, if_neg hne]
        cases r <;> first | rfl | exact absurd rfl hok
      · have hst : (y.setRes r).env.status = s.env.status := by
          show y.env.status = _
          rw [henv]; rfl
        exact (hfr _).trans (by rw [hst]; rfl)

/-- The next attempt can start after one that failed. -/
theorem Passes.again {s w : State} {a : Word} {l : Half} (P : Passes s a l)
    (hw : w = { s with port := w.port, fl := w.fl, hw := w.hw, draws := w.draws, env.status := w.env.status })
    (hf : w.free) (n : Nat) : Passes { w with env.wretry := n } a l := by
  have hc : w.cfg = s.cfg := by rw [hw]
  have hfr : w.fr = s.fr := by rw [hw]
  have he : w.env.eraseDone = s.env.eraseDone := by rw [hw]
  obtain ⟨h1, h2, h3, h4, h5, h6, h7⟩ := P.shape
  refine ⟨⟨State.free_flIdle hf, hf.1, by rw [hfr]; exact P.fr, by rw [hc]; exact P.wf, by rw [hc]; exact P.envWf,
    he.trans h1, h2, by rw [hc]; exact h3, h4, h5, h6, by rw [hc]; exact h7⟩, by rw [hc]; exact P.allowed,
    by rw [hc]; exact P.offConfig, by rw [hc]; exact P.offEntry⟩

/-- R299: attempts one after another, each but the last of them failed. -/
theorem retryWrite_chain {a : Word} {l : Half} (k : Nat) (m j : Nat) (v : State) (left : Nat → State) (P : Passes v a l)
    (hj : v.env.wretry = j) (hk : k ≤ m) (h0 : attemptLeaves a l v (left 0))
    (hs : ∀ i, i < k → (left i).free ∧ (left i).port.res ≠ resCode .ok
      ∧ attemptLeaves a l { left i with env.wretry := j + i + 1 } (left (i + 1))) :
    let t := left k
    (t.free → t.port.res = resCode .ok → retryWrite a l m v = .success t)
      ∧ (t.free → t.port.res ≠ resCode .ok → k = m → retryWrite a l m v = .rejected .writesFailed t)
      ∧ (¬t.free → retryWrite a l m v = .blocked t)
      ∧ t = { v with
          port := t.port, fl := t.fl, hw := t.hw, draws := t.draws, env.status := t.env.status
          env.wretry := j + k } := by
  obtain ⟨ha, ho⟩ := attemptWrite_leaves P h0
  induction k generalizing m j v left with
  | zero =>
    refine ⟨fun hf hr => ?_, fun hf hr hm => ?_, fun hf => ?_, by rw [Nat.add_zero, ← hj]; exact ho⟩
    · rw [if_pos hf, if_pos hr] at ha
      cases m <;> simp only [retryWrite, ha]
    · rw [if_pos hf, if_neg hr] at ha
      subst hm
      simp only [retryWrite, ha]
    · rw [if_neg hf] at ha
      cases m <;> simp only [retryWrite, ha]
  | succ k ih =>
    obtain ⟨hf0, hr0, h1⟩ := hs 0 (by omega)
    rw [if_pos hf0, if_neg hr0] at ha
    obtain ⟨m, rfl⟩ : ∃ m', m = m' + 1 := ⟨m - 1, by omega⟩
    have hwr : (left 0).env.wretry = j := by rw [ho]; exact hj
    have P1 := P.again ho hf0 (j + 1)
    obtain ⟨ha1, ho1⟩ := attemptWrite_leaves P1 h1
    obtain ⟨i1, i2, i3, i4⟩ := ih m (j + 1) { left 0 with env.wretry := j + 1 } (fun i => left (i + 1)) P1 rfl
      (by omega) h1 (fun i hi => by
        have := hs (i + 1) (by omega)
        rw [show j + (i + 1) + 1 = j + 1 + i + 1 by omega] at this
        exact this) ha1 ho1
    have hret : retryWrite a l (m + 1) v = retryWrite a l m { left 0 with env.wretry := j + 1 } := by
      simp only [retryWrite, ha, hwr]
    rw [hret]
    refine ⟨i1, fun h h' h'' => i2 h h' (by omega), i3, ?_⟩
    rw [i4, ho]
    simp only [State.mk.injEq, Env.mk.injEq, true_and, and_true]
    omega

end Sys2Proof.Machine
end

