-- ==== Sys2Proof/Tests/Slice0.lean ====
section
/-! SUPPORT. Tests. Expected values are those of spec/95_test_vectors.md (the vector's number stands in the docstring) or
worked out by hand from the rule named. After the tests, one witness for each statement that has hypotheses: a concrete
state and operands that meet all of them together. -/

namespace Sys2Proof.Tests

set_option Elab.async false

open Sys2Proof.Machine

/-! ### Helpers -/

/-- The outcome is a next state of which `p` holds. -/
def after (o : Host.Outcome State Fault Refusal) (p : State → Bool) : Bool :=
  match o with
  | .next t => p t
  | _ => false

/-- The next state, where there is one. -/
def nextOf (o : Host.Outcome State Fault Refusal) : State :=
  match o with
  | .next t => t
  | _ => State.reset

theorem eq_next {o : Host.Outcome State Fault Refusal} (h : after o (fun _ => true) = true) : o = .next (nextOf o) := by
  cases o <;> simp_all [after, nextOf]

theorem forall_inTarget {a : Word} {n : Nat} {P : Nat → Prop} (h : ∀ i, i < n → P ((phys a).toNat + i)) (p : Nat)
    (hp : inTarget a n p) : P p := by
  have := h (p - (phys a).toNat) (by have := hp.1; have := hp.2; omega)
  rwa [show (phys a).toNat + (p - (phys a).toNat) = p by have := hp.1; omega] at this

/-- The reset state, with hardware that reports no fault for a while. -/
def idle : State := { State.reset with hw.script := List.replicate 40 (.done false false) }

/-- The Command Loop is active. -/
def active : State := { idle with env.loop := .active }

/-- `idle` with bytes in `BUF`. -/
def withBuf (bytes : List Byte) : State := { idle with fr.buf := Memory.writeRange 0#8 [] 0 bytes }

/-- `idle` with the outcomes of the flash hardware. -/
def withOutcomes (outcomes : List HwOutcome) : State := { idle with hw.script := outcomes }

/-- A cipher keyed with `00 .. 1F` and the initialization vector `00 .. 07` (V5.1). -/
def keyedSession (seq : Word) (s : State) : State :=
  { s with ciph.x := keyedBlock true Params.i2.key.toList [0#8, 1#8, 2#8, 3#8, 4#8, 5#8, 6#8, 7#8], ciph.keyed := true, fr.seq := seq }

/-- The bytes of a number, the first byte in its highest place. -/
def bytesOf (n k : Nat) : List Byte := (List.range n).map fun i => BitVec.ofNat 8 (k >>> (8 * (n - 1 - i)))

/-- V2.7's message. -/
def digits : List Byte := bytesOf 9 0x313233343536373839

/-- V5.1's packet. -/
def ivPacket : List Byte := bytesOf 14 0x000C000102030405060723CE674B

/-- V6.1's packet. -/
def writePacket : List Byte := bytesOf 22 0x00142935_1F66F097E56D2845C2FB740BB77DEB0F8339

/-- V6.1's payload, decrypted. -/
def plainPayload : List Byte := bytesOf 20 0xDEADBEEF01020304AA559D00100000089458_1E9A

/-! ### Well-formed instructions and parameters: each check refuses its ill-formed term -/

theorem test_wf_refuses_operation_code_as_reserved : (Instr.reserved 0x25#8).wf 4106 = false := by decide
theorem test_wf_takes_reserved_code : (Instr.reserved 0x26#8).wf 4106 = true := by decide
theorem test_wf_refuses_short_write : (Instr.pktWrite (List.replicate 9 0#8)).wf 4106 = false := by decide
theorem test_wf_refuses_write_past_capacity : (Instr.pktWrite (List.replicate 13 0#8)).wf 12 = false := by decide
theorem test_wf_refuses_write_longer_than_a_prefix :
    (Instr.pktWrite (List.replicate 65536 0#8)).wf 70000 = false := by
  dsimp only [Instr.wf]; rw [List.length_replicate]; decide
theorem test_wf_refuses_zero_length_prefix : (Instr.len 0#16).wf 4106 = false := by decide
theorem test_wf_refuses_command_byte_as_unknown : (Instr.cmdUnknown 0x57#8).wf 4106 = false := by decide
theorem test_params_i2_wf : (Params.i2.wf && Params.i2.envWf) = true := by decide +kernel
theorem test_params_refuse_no_rounds : { Params.i2 with nDoubleRounds := 0 }.wf = false := by decide +kernel
theorem test_params_refuse_page_size :
    ({ Params.i2 with pageSize := 5120 }.wf || { Params.i2 with pageSize := 65536 }.wf) = false := by decide +kernel
theorem test_params_refuse_row_size :
    ({ Params.i2 with rowSize := 768 }.wf || { Params.i2 with rowSize := 2 }.wf || { Params.i2 with rowSize := 4096 }.wf)
      = false := by decide +kernel
theorem test_params_refuse_overhead :
    ({ Params.i2 with bufOverhead := 9 }.wf || { Params.i2 with bufOverhead := 61440 }.wf) = false := by decide +kernel
theorem test_params_refuse_flash_ranges :
    ({ Params.i2 with flashRanges := [⟨0x1D000004, 0x4000⟩] }.wf
      || { Params.i2 with flashRanges := [⟨0x1D000000, 0x4004⟩] }.wf) = false := by decide +kernel
theorem test_environment_refuses_program_region :
    ({ Params.i2 with progBase := 0x1D000004#32 }.envWf || { Params.i2 with progSize := 0x4004 }.envWf
      || { Params.i2 with progSize := 2 ^ 29 }.envWf) = false := by decide +kernel
theorem test_environment_refuses_boot_region :
    ({ Params.i2 with bootBase := 0x1FC00004#32 }.envWf || { Params.i2 with bootSize := 0x3004 }.envWf
      || { Params.i2 with bootSize := 2 ^ 29 }.envWf) = false := by decide +kernel
theorem test_environment_refuses_entry_page : { Params.i2 with entryPage := 0x1FC00010#32 }.envWf = false := by decide +kernel
theorem test_environment_refuses_shim_length : { Params.i2 with shimSeq := [1#8, 2#8] }.envWf = false := by decide +kernel
theorem test_environment_refuses_other_ranges :
    { Params.i2 with flashRanges := [⟨0x1D000000, 0x4000⟩] }.envWf = false := by decide +kernel
theorem test_replies_refuse_equal_bytes : { Params.i2.resp with pageErased := 0xF1#8 }.wf = false := by decide +kernel
theorem test_replies_refuse_ack_out_of_range : { Params.i2.resp with genericOk := 0xFD#8 }.wf = false := by decide +kernel
theorem test_replies_refuse_nack_out_of_range : { Params.i2.resp with sizeError := 0xDF#8 }.wf = false := by decide +kernel
theorem test_status_refuses_equal_values : { Params.i2.status with success := 1#8 }.wf = false := by decide +kernel

/-! ### Decoding: words written out from R91, R93, R101 to R104 and R109 -/

/-- A command-port operation: `OP`, then `OPA`, `OPB`, `OPC`, each least significant byte first (log entry 4). -/
def opWord (op : Nat) (operands : Nat) : List Byte := BitVec.ofNat 8 op :: bytesOf 12 operands

theorem test_decode_crcInit : decode .port (opWord 0x00 0) = .instr .crcInit [] := by decide +kernel
theorem test_decode_crcUpd :
    decode .port (opWord 0x01 0x80000000_00000000_00000000) = .instr (.crcUpd 0x00000080#32) [] := by decide +kernel
theorem test_decode_crcBuf :
    decode .port (opWord 0x02 0x01000000_09000000_00000000) = .instr (.crcBuf 1#32 9#32) [] := by decide +kernel
theorem test_decode_crcMem :
    decode .port (opWord 0x03 0xFE3F009D_04000000_00000000) = .instr (.crcMem 0x9D003FFE#32 4#32) [] := by decide +kernel
theorem test_decode_crcChk :
    decode .port (opWord 0x04 0x7F89A189_00000000_00000000) = .instr (.crcChk 0x89A1897F#32) [] := by decide +kernel
theorem test_decode_ciphKeysetup :
    decode .port (opWord 0x10 0x00010000_00000000_00000000) = .instr (.ciphKeysetup 256#32) [] := by decide +kernel
theorem test_decode_ciphBlock : decode .port (opWord 0x11 0) = .instr .ciphBlock [] := by decide +kernel
theorem test_decode_ciphProc :
    decode .port (opWord 0x12 0x0A000000_5A000000_00000000) = .instr (.ciphProc 10#32 90#32) [] := by decide +kernel
theorem test_decode_flErase :
    decode .port (opWord 0x20 0x0010009D_00000000_00000000) = .instr (.flErase 0x9D001000#32) [] := by decide +kernel
theorem test_decode_flWword :
    decode .port (opWord 0x21 0x0010009D_78563412_00000000) = .instr (.flWword 0x9D001000#32 0x12345678#32) [] := by
  decide +kernel
theorem test_decode_flWrow :
    decode .port (opWord 0x22 0x0010001D_100E0000_00000000) = .instr (.flWrow 0x1D001000#32 3600#32) [] := by decide +kernel
theorem test_decode_flWrange :
    decode .port (opWord 0x23 0xF811001D_10020000_04000000) = .instr (.flWrange 0x1D0011F8#32 528#32 4#32) [] := by
  decide +kernel
theorem test_decode_flCmp :
    decode .port (opWord 0x24 0x0110009D_02000000_03000000) = .instr (.flCmp 0x9D001001#32 2#32 3#32) [] := by
  decide +kernel
theorem test_decode_flNop : decode .port (opWord 0x25 0) = .instr .flNop [] := by decide +kernel
theorem test_decode_frReset : decode .port (opWord 0x30 0) = .instr .frReset [] := by decide +kernel
theorem test_decode_frRecv : decode .port (opWord 0x31 0) = .instr .frRecv [] := by decide +kernel
theorem test_decode_sysZeroise : decode .port (opWord 0x40 0) = .instr .sysZeroise [] := by decide +kernel
theorem test_decode_reserved : decode .port (opWord 0x32 0) = .instr (.reserved 0x32#8) [] := by decide +kernel
theorem test_decode_port_truncated : decode .port ((opWord 0x40 0).dropLast) = .rejected .truncated := by decide +kernel
theorem test_decode_pktEnd : decode (.frame 4106 true) [0x00#8, 0x00#8, 0x31#8] = .instr .pktEnd [0x31#8] := by decide +kernel
theorem test_decode_pktIv :
    decode (.frame 4106 true) (ivPacket ++ [0x57#8])
      = .instr (.pktIv #v[0#8, 1#8, 2#8, 3#8, 4#8, 5#8, 6#8, 7#8] 0x23CE674B#32) [0x57#8] := by decide +kernel
theorem test_decode_pktWrite :
    decode (.frame 4106 false) (writePacket ++ [0x57#8])
      = .instr (.pktWrite (bytesOf 20 0x2935_1F66F097E56D2845C2FB740BB77DEB0F8339)) [0x57#8] := by decide +kernel
theorem test_decode_len_oversize : decode (.frame 4106 false) [0x10#8, 0x0B#8, 0x31#8] = .instr (.len 4107#16) [0x31#8] := by
  decide +kernel
theorem test_decode_len_partial : decode (.frame 4106 true) [0x00#8, 0x0C#8, 0x01#8] = .instr (.len 12#16) [0x01#8] := by
  decide +kernel
theorem test_decode_frame_truncated : decode (.frame 4106 true) [0x00#8] = .rejected .truncated := by decide +kernel
theorem test_decode_commands :
    [0xFC#8, 0x49#8, 0x45#8, 0x43#8, 0x57#8, 0x51#8, 0x5A#8].map decodeCommand
      = [.handshake, .cmdInfo, .cmdErase, .cmdCrc, .cmdWrite, .cmdQuit, .cmdUnknown 0x5A#8] := by decide +kernel
theorem test_decode_loop : decode .loop [0x51#8, 0x45#8] = .instr .cmdQuit [0x45#8] := by decide +kernel

/-- V6.1's packet from its instruction. -/
theorem test_encode_write_packet :
    encode (.pktWrite (bytesOf 20 0x2935_1F66F097E56D2845C2FB740BB77DEB0F8339)) = writePacket := by decide +kernel

theorem test_table_words :
    [decodeTableWord 8 0x40, decodeTableWord 8 0x26, decodeTableWord 8 0xFC, decodeTableWord 8 0x57,
      decodeTableWord 16 0x0000, decodeTableWord 16 0x0B10]
      = [some .sysZeroise, some (.reserved 0x26#8), some .handshake, some .cmdWrite, some .pktEnd, some (.len 0x100B#16)] := by
  decide +kernel

/-! ### CRC unit -/

/-- V2.20. -/
theorem test_crcInit :
    after (exec .crcInit { idle with crc := ⟨0x89A1897F#32, 1#32, 2#32, true⟩ })
      (fun t => t.crc == ⟨0#32, 1#32, 2#32, true⟩ && t.port.res == 0x00#8) = true := by decide +kernel

/-- V2.21. -/
theorem test_crcUpd :
    after (exec (.crcUpd 0x80#32) idle) (fun t => t.crc.acc == 0x690CE0EE#32 && t.port.res == 0x00#8) = true := by
  decide +kernel

/-- V2.22. -/
theorem test_crcUpd_wide_operand :
    after (exec (.crcUpd 0x100#32) { idle with crc.acc := 5#32 }) (fun t => t.crc.acc == 5#32 && t.port.res == 0x17#8)
      = true := by decide +kernel

/-- V2.23. -/
theorem test_crcBuf :
    after (exec (.crcBuf 0#32 9#32) (withBuf digits)) (fun t => t.crc.acc == 0x89A1897F#32) = true := by decide +kernel

/-- V2.25, with the last range that fits beside it. -/
theorem test_crcBuf_range :
    (after (exec (.crcBuf 4100#32 7#32) idle) (fun t => t.port.res == 0x17#8)
      && after (exec (.crcBuf 4100#32 6#32) idle) (fun t => t.port.res == 0x00#8)) = true := by decide +kernel

/-- V2.26. -/
theorem test_crcMem :
    after (exec (.crcMem 0x9D001000#32 4#32) idle) (fun t => t.crc.acc == 0xC704DD7B#32) = true := by decide +kernel

/-- P5 line 4. -/
theorem test_crcMem_past_flash :
    after (exec (.crcMem 0x9D003FFE#32 4#32) idle) (fun t => t.crc.acc == 0#32 && t.port.res == 0x17#8) = true := by
  decide +kernel

/-- V2.27. -/
theorem test_crcChk_match :
    after (exec (.crcChk 0x89A1897F#32) { idle with crc.acc := 0x89A1897F#32 })
      (fun t => t.crc == ⟨0x89A1897F#32, 0x89A1897F#32, 0x89A1897F#32, true⟩ && t.port.res == 0x00#8) = true := by
  decide +kernel

/-- V2.28. -/
theorem test_crcChk_mismatch :
    after (exec (.crcChk 0x89A1897E#32) { idle with crc.acc := 0x89A1897F#32 })
      (fun t => t.crc == ⟨0x89A1897F#32, 0x89A1897F#32, 0x89A1897E#32, false⟩ && t.port.res == 0x10#8) = true := by
  decide +kernel

/-! ### Cipher unit -/

/-- V3.1. -/
theorem test_quarterRound :
    let v := vecOf 16 fun i => [0x11111111#32, 0x01020304#32, 0x9B8D6F43#32, 0x01234567#32].getD i 0#32
    (quarterRound v 0 1 2 3).toList.take 4 = [0xEA2A92F4#32, 0xCB1CF8CE#32, 0x4581472E#32, 0x5881C4BB#32] := by
  decide +kernel

/-- `idle` with `KEYR = 00 .. 1F` and `IVR = 00 .. 07`. -/
def keyRegisters : State :=
  { idle with ciph.keyr := Params.i2.key, ciph.ivr := #v[0#8, 1#8, 2#8, 3#8, 4#8, 5#8, 6#8, 7#8] }

/-- V3.3. -/
theorem test_ciphKeysetup_256 :
    after (exec (.ciphKeysetup 256#32) keyRegisters) (fun t => t.ciph.keyed && t.ciph.x.toList ==
      [0x61707865#32, 0x3320646E#32, 0x79622D32#32, 0x6B206574#32, 0x03020100#32, 0x07060504#32, 0x0B0A0908#32, 0x0F0E0D0C#32,
       0x13121110#32, 0x17161514#32, 0x1B1A1918#32, 0x1F1E1D1C#32, 0#32, 0#32, 0x03020100#32, 0x07060504#32]) = true := by
  decide +kernel

/-- V3.4. -/
theorem test_ciphKeysetup_128 :
    after (exec (.ciphKeysetup 128#32) keyRegisters) (fun t => t.ciph.keyed && t.ciph.x.toList ==
      [0x61707865#32, 0x3120646E#32, 0x79622D36#32, 0x6B206574#32, 0x03020100#32, 0x07060504#32, 0x0B0A0908#32, 0x0F0E0D0C#32,
       0x03020100#32, 0x07060504#32, 0x0B0A0908#32, 0x0F0E0D0C#32, 0#32, 0#32, 0x03020100#32, 0x07060504#32]) = true := by
  decide +kernel

/-- V3.2: the cipher keyed with zeros. -/
def zeroKeyed : State := { idle with ciph.x := keyedBlock true (List.replicate 32 0#8) (List.replicate 8 0#8), ciph.keyed := true }

/-- V3.6. -/
theorem test_ciphBlock_zero_key :
    after (exec .ciphBlock zeroKeyed) (fun t => blockCounter t.ciph.x == 1#64 && t.ciph.ks.toList == bytesOf 64
      0x76B8E0ADA0F13D90405D6AE55386BD28BDD219B8A08DED1AA836EFCC8B770DC7DA41597C5157488D7724E03FB8D84A376A43B8F41518A11CC387B669B2EE6586)
      = true := by decide +kernel

/-- V3.16: the carry of the block counter, and the keystream of block `00000000FFFFFFFF`. -/
theorem test_ciphBlock_counter_carries :
    after (exec .ciphBlock { zeroKeyed with ciph.x := zeroKeyed.ciph.x.set 12 0xFFFFFFFF#32 }) (fun t =>
      t.ciph.x[12] == 0#32 && t.ciph.x[13] == 1#32
        && t.ciph.ks.toList.take 16 == bytesOf 16 0xACE4CD09E294D1912D4AD205D06F95D9) = true := by decide +kernel

/-- V3.24: 65 bytes take two blocks. -/
theorem test_ciphProc_two_blocks :
    after (exec (.ciphProc 0#32 65#32)
        { zeroKeyed with fr.buf := Memory.writeRange 0#8 [] 0 ((List.range 65).map (BitVec.ofNat 8)) }) (fun t =>
      blockCounter t.ciph.x == 2#64 && t.bufRange 0 4 == bytesOf 4 0x76B9E2AE && t.bufRange 61 4 == bytesOf 4 0xD35BB9DF
        && t.ciph.cRem == 0#32 && t.ciph.cOff == 0#32) = true := by decide +kernel

/-- V3.26, the second of its two calls: it starts at byte 0 of the next block. -/
theorem test_ciphProc_discards_the_rest_of_a_block :
    after (exec (.ciphProc 10#32 90#32) { zeroKeyed with ciph.x := zeroKeyed.ciph.x.set 12 1#32 }) (fun t =>
      blockCounter t.ciph.x == 3#64 && t.bufRange 8 6 == bytesOf 6 0x00009F07E7BE) = true := by decide +kernel

/-! ### Flash units -/

/-- V4.1, over a page of which three bytes are not erased. -/
theorem test_flErase :
    after (exec (.flErase 0x9D001000#32)
        { idle with hw.array := [(0x1D000FFF, 0#8), (0x1D001000, 1#8), (0x1D001FFF, 2#8), (0x1D002000, 3#8)] }) (fun t =>
      t.hw.array == [(0x1D000FFF, 0#8), (0x1D002000, 3#8)] && t.fl.eraseAtt == 1#32 && t.fl.eraseFail == 0#32
        && t.fl.state == .idle && t.port.res == 0x00#8) = true := by decide +kernel

/-- V4.6: the halt. -/
theorem test_flErase_halts :
    after (exec (.flErase 0x9D002000#32) (withOutcomes [.done true false, .done true false])) (fun t =>
      t.fl.state == .halt && t.fl.halted && t.fl.eraseAtt == 1#32 && t.fl.eraseFail == 0#32
        && t.env.status == Params.i2.status.hardwareFailed
        && t.hw.issued.map (fun c => (c.kind, c.addr)) == [(.erase, 0x1D002000#32), (.nop, 0x1D002000#32)]) = true := by
  decide +kernel

/-- V4.7. -/
theorem test_flWword :
    after (exec (.flWword 0x9D001000#32 0x12345678#32) idle) (fun t =>
      t.hw.array == [(0x1D001000, 0x78#8), (0x1D001001, 0x56#8), (0x1D001002, 0x34#8), (0x1D001003, 0x12#8)]
        && t.port.res == 0x00#8) = true := by decide +kernel

/-- V4.9: a target that is not erased becomes drawn bytes, whatever is written. -/
theorem test_flWword_over_unerased :
    after (exec (.flWword 0x9D001000#32 0xFFFFFFFF#32)
        { idle with hw.array := [(0x1D001000, 0x78#8)], draws.bytes := [0xA0#8, 0xA1#8, 0xA2#8, 0xA3#8] }) (fun t =>
      t.hw.array == [(0x1D001000, 0xA0#8), (0x1D001001, 0xA1#8), (0x1D001002, 0xA2#8), (0x1D001003, 0xA3#8)]
        && t.port.res == 0x00#8) = true := by decide +kernel

/-- V4.10 with a row of 32 bytes: every byte of the row, and the byte behind it. -/
theorem test_flWrow :
    after (exec (.flWrow 0x1D001000#32 0#32)
        { withBuf ((List.range 40).map (BitVec.ofNat 8)) with cfg := { Params.i2 with rowSize := 32 } }) (fun t =>
      t.flashRange 0x1D001000 33 == (List.range 32).map (BitVec.ofNat 8) ++ [0xFF#8] && t.port.res == 0x00#8) = true := by
  decide +kernel

/-- V4.11, V4.12, V4.13. -/
theorem test_flWrow_checks :
    ([(0x1D001000#32, 2#32, 0x13#8), (0x1D001100#32, 0#32, 0x13#8), (0x1D001000#32, 3600#32, 0x17#8)].all fun (a, off, r) =>
      after (exec (.flWrow a off) idle) fun t =>
        t.port.res == r && t.fl == { idle.fl with writeFail := 1#32 } && t.hw.issued == []) = true := by
  decide +kernel

/-- V4.20: the five sub-operations. -/
theorem test_flWrange_chunks :
    after (exec (.flWrange 0x1D0011F8#32 528#32 0#32) idle) (fun t =>
      t.hw.issued.map (fun c => (c.kind, c.addr)) ==
        [(.word, 0x1D0011F8#32), (.word, 0x1D0011FC#32), (.row, 0x1D001200#32), (.word, 0x1D001400#32), (.word, 0x1D001404#32)]
      && t.fl.src == 8#32 && t.port.res == 0x00#8) = true := by decide +kernel

/-- V4.31: the second sub-operation fails, all five are issued. -/
theorem test_flWrange_goes_on :
    after (exec (.flWrange 0x1D0011F8#32 528#32 0#32)
        { withOutcomes ([.done false false, .done false true] ++ List.replicate 4 (.done false false)) with
          draws.bytes := [1#8, 2#8, 3#8, 4#8] }) (fun t =>
      t.hw.issued.map (fun c => c.kind) == [.word, .word, .nop, .row, .word, .word] && t.fl.first == 0x14#8
        && t.port.res == 0x14#8 && t.fl.writeFail == 1#32
        && t.flashRange 0x1D0011F8 9 == bytesOf 9 0x0000000001020304_00) = true := by decide +kernel

/-- V4.40, V4.41. -/
theorem test_flCmp :
    ([(0x78563412, 0x00#8), (0x79563412, 0x15#8)].all fun (inBuf, r) =>
      after (exec (.flCmp 0x9D001000#32 4#32 0#32)
          { withBuf (bytesOf 4 inBuf) with hw.array := Memory.writeRange 0xFF#8 [] 0x1D001000 (bytesOf 4 0x78563412) })
        fun t => t.port.res == r) = true := by decide +kernel

/-- V4.42, V4.43. -/
theorem test_flCmp_empty_and_past_flash :
    (after (exec (.flCmp 0x9D001001#32 0#32 3#32) idle) (fun t => t.port.res == 0x00#8)
      && after (exec (.flCmp 0x9D003FFF#32 2#32 0#32) idle) (fun t => t.port.res == 0x17#8)) = true := by decide +kernel

/-- V4.14, V4.15. -/
theorem test_flNop :
    (after (exec .flNop (withOutcomes [.done false false])) (fun t => t.port.res == 0x00#8)
      && after (exec .flNop (withOutcomes [.done false true]))
        (fun t => t.port.res == 0x14#8 && !t.fl.halted && t.fl.state == .idle && t.hw.array == [])) = true := by decide +kernel

/-! ### Frame unit -/

/-- V5.14. -/
theorem test_frReset :
    after (exec .frReset { idle with fr.seq := 7#32, fr.final := true, fr.fill := 3#16, fr.plen := 4#16, ciph.keyed := true })
      (fun t => t.fr == { State.reset.fr with seq := 0#32 } && t.ciph.keyed && t.port.res == 0x00#8) = true := by
  decide +kernel

/-- V5.1. -/
theorem test_frRecv_first_packet :
    after (exec .frRecv { idle with rx := ivPacket ++ [0x57#8] }) (fun t =>
      t.port.res == 0x01#8 && t.fr.plen == 12#16 && t.crc == ⟨0x23CE674B#32, 0x23CE674B#32, 0x23CE674B#32, true⟩
        && t.ciph.keyed && t.ciph.x[11] == 0x1F1E1D1C#32 && t.ciph.x[15] == 0x07060504#32 && t.fr.seq == 1#32
        && t.fr.fill == 12#16 && t.rx == [0x57#8]) = true := by decide +kernel

/-- V5.15: the reception waits. -/
theorem test_frRecv_waits :
    after (exec .frRecv { idle with rx := [0x00#8, 0x0C#8, 0x00#8, 0x01#8], port.res := 0x17#8 }) (fun t =>
      t.fr.state == .body && t.fr.fill == 2#16 && t.port.res == 0x17#8) = true := by decide +kernel

/-- V6.1. -/
theorem test_pktWrite :
    after (exec (.pktWrite (writePacket.drop 2)) (keyedSession 1#32 idle)) (fun t =>
      t.bufRange 0 20 == plainPayload && t.port.res == 0x02#8 && t.fr.wAddr == 0x9D001000#32 && t.fr.wLen == 8#16
        && t.fr.seq == 2#32 && blockCounter t.ciph.x == 1#64 && t.fr.cur == 10#16) = true := by decide +kernel

/-- V5.9: a corrupted checksum. -/
theorem test_pktWrite_checksum :
    after (exec (.pktWrite ((writePacket.drop 2).dropLast ++ [0x38#8])) (keyedSession 1#32 idle)) (fun t =>
      t.port.res == 0x10#8 && t.crc == ⟨0x94581E9A#32, 0x94581E9A#32, 0x94581E9B#32, false⟩ && t.fr.seq == 1#32
        && t.fr.wAddr == 0#32 && blockCounter t.ciph.x == 1#64) = true := by decide +kernel

/-- V5.2. -/
theorem test_pktIv_checksum :
    after (exec (.pktIv #v[0#8, 1#8, 2#8, 3#8, 4#8, 5#8, 6#8, 7#8] 0x23CE674C#32) idle) (fun t =>
      t.port.res == 0x10#8 && !t.crc.matched && t.fr.seq == 0#32 && !t.ciph.keyed) = true := by decide +kernel

/-- V5.4. -/
theorem test_pktEnd :
    after (exec .pktEnd { idle with fr.seq := 5#32 }) (fun t =>
      t.port.res == 0x03#8 && t.fr.final && t.fr.seq == 5#32 && t.fr.state == .idle) = true := by decide +kernel

/-- V5.5, both ways of `DRAIN_OVERSIZE`. -/
theorem test_len_oversize :
    ([(false, 4200), (true, 93)].all fun (drain, left) =>
      after (exec (.len 4107#16) { idle with rx := List.replicate 4200 0x55#8, cfg := { Params.i2 with drainOversize := drain } })
        fun t => t.port.res == 0x11#8 && t.rx.length == left && t.fr.buf == [] && t.fr.seq == 0#32) = true := by
  decide +kernel

/-- V5.6: the prefix and then its three bytes. -/
theorem test_len_short_packet :
    after (exec (.len 3#16) { idle with rx := [0xAA#8, 0xBB#8, 0xCC#8] }) (fun t =>
      t.port.res == 0x12#8 && t.bufRange 0 4 == [0xAA#8, 0xBB#8, 0xCC#8, 0x00#8] && t.fr.seq == 0#32) = true := by
  decide +kernel

/-! ### System operations -/

/-- P2 line 7, R271. -/
theorem test_sysZeroise :
    after (exec .sysZeroise
        { keyedSession 3#32 (withBuf digits) with port := ⟨0x40#8, 1#32, 2#32, 3#32, 0x1F#8, false⟩, hw.array := [(0x1D001000, 1#8)], env.status := 9#8 })
      (fun t => t.fr == State.reset.fr && t.ciph == State.reset.ciph && t.port == State.reset.port && t.hw.array == [(0x1D001000, 1#8)]
        && t.env.status == 9#8 && t.port.res == 0x00#8) = true := by decide +kernel

/-- P5 lines 1 to 3. -/
theorem test_reserved :
    ([0x05#8, 0x32#8, 0xFF#8].all fun code => after (exec (.reserved code) idle) fun t =>
      t.port.res == 0x1F#8 && t.fr == idle.fr && t.crc == idle.crc) = true := by decide +kernel

/-! ### Address Guard and Command Loop -/

/-- V6.10 to V6.19. -/
theorem witness_GuardVetoesExactlyOverlaps :
    0 < Params.i2.pageSize ∧ configLow Params.i2 = 0x1FC02000 ∧ configHigh Params.i2 = 0x1FC03000
      ∧ configLow { Params.i2 with configBase := 0xBFC02000#32, configSize := 0x1001 } = 0x1FC02000
      ∧ configHigh { Params.i2 with configBase := 0xBFC02000#32, configSize := 0x1001 } = 0x1FC04000 := by decide +kernel

theorem test_guard :
    let open_ := { Params.i2 with bootProtect := false }
    [isMutationAllowed .i2 0x9D000FFC#32 4, isMutationAllowed .i2 0x9D000FFC#32 8, isMutationAllowed .i2 0x9D001000#32 4096,
      isMutationAllowed .i2 0x1D001000#32 4096, isMutationAllowed .i2 0x9D000800#32 0, isMutationAllowed .i2 0xBFC01000#32 4,
      isMutationAllowed .i2 0xBFC02FF0#32 4, isMutationAllowed open_ 0xBFC02FF0#32 4, isMutationAllowed open_ 0xBFC02000#32 4,
      isMutationAllowed open_ 0xBFC01FFC#32 4]
      = [(false, .engine), (false, .engine), (true, .none), (true, .none), (true, .none), (false, .boot), (false, .boot),
        (false, .config), (false, .config), (true, .none)] := by decide +kernel

/-- Section 7, step 1. -/
theorem test_handshake :
    after (exec .handshake idle) (fun t =>
      t.tx == [0xFC#8] && t.env.loop == .active && t.env.status == Params.i2.status.started) = true := by decide +kernel

/-- R303, R313. -/
theorem test_cmdInfo :
    ∃ t, exec .cmdInfo { active with fl.eraseAtt := 3#32 } = .next t
      ∧ t.tx = Params.i2.infoText 3#32 0#32 0#32 ++ [0xF3#8] := ⟨_, rfl, rfl⟩

/-- Section 7, step 2. -/
theorem test_cmdErase :
    after (exec .cmdErase { active with hw.array := [(0x1D000004, 0#8), (0x1D002004, 0#8), (0x1FC01004, 0#8)] }) (fun t =>
      t.hw.issued.map (fun c => c.addr) == [0x1D001000#32, 0x1D002000#32, 0x1D003000#32]
        && t.hw.array == [(0x1D000004, 0#8), (0x1FC01004, 0#8)] && t.env.eraseDone && t.fl.eraseAtt == 3#32
        && t.fl.eraseFail == 0#32 && t.tx == [Params.i2.resp.eraseDone]) = true := by decide +kernel

/-- R304 with `ERASE_PROGRESS`: the second of the three erases fails and has no reply of its own. -/
theorem test_cmdErase_progress :
    after (exec .cmdErase
        { active with
          cfg := { Params.i2 with eraseProgress := true }
          hw.script := [.done false false, .done false true, .done false false, .done false false] }) (fun t =>
      t.tx == [0xF1#8, 0xF0#8, 0xF0#8, 0xF1#8, 0xF1#8, 0xF1#8, 0xED#8] && t.env.eraseDone && t.fl.eraseFail == 1#32)
      = true := by decide +kernel

/-- R305 over erased flash of 16 bytes (V2.15), the program's 8 and the boot sector's 8. -/
theorem test_cmdCrc :
    after (exec .cmdCrc
        { active with
          cfg := { Params.i2 with
            pageSize := 8, progSize := 8, bootSize := 8, flashRanges := [⟨0x1D000000, 8⟩, ⟨0x1FC00000, 8⟩] } }) (fun t =>
      t.crc.acc == 0xF2B110CB#32 && t.port.opa == 0x1FC00000#32 && t.port.opb == 8#32 && t.port.res == 0x00#8) = true := by
  decide +kernel

/-- Section 7, step 4. -/
theorem test_cmdWrite :
    after (exec .cmdWrite { keyedSession 1#32 active with rx := writePacket, env.eraseDone := true }) (fun t =>
      t.hw.issued == [presented Params.i2 .word 0x1D001000#32 (bytesOf 4 0xDEADBEEF),
          presented Params.i2 .word 0x1D001004#32 (bytesOf 4 0x01020304)]
        && t.flashRange 0x1D001000 9 == bytesOf 9 0xDEADBEEF01020304FF && t.env.wretry == 0 && t.rx == []
        && t.tx == [Params.i2.resp.genericOk]) = true := by decide +kernel

/-- V7.10: the first word write fails in every attempt. -/
theorem test_cmdWrite_gives_up :
    after (exec .cmdWrite
        { keyedSession 1#32 active with
          rx := writePacket, env.eraseDone := true, draws.bytes := List.replicate 24 0x5A#8
          hw.script := (List.replicate 3 [.done false true, .done false false, .done false false]).flatten }) (fun t =>
      t.tx == [Params.i2.resp.writesFailed] && t.fl.writeFail == 3#32 && t.env.wretry == 2 && !t.fl.halted) = true := by
  decide +kernel

/-- Section 7, step 6. -/
theorem test_cmdQuit :
    after (exec .cmdQuit { keyedSession 2#32 active with env.eraseDone := true, fl.eraseAtt := 3#32 }) (fun t =>
      t.env.status == Params.i2.status.success && t.env.loop == .exited && !t.env.eraseDone && !t.ciph.keyed
        && t.fr.seq == 0#32 && t.fl.eraseAtt == 0#32 && t.tx == []) = true := by decide +kernel

/-- R308. -/
theorem test_cmdUnknown :
    after (exec (.cmdUnknown 0x5A#8) active) (fun t => t.tx == [Params.i2.resp.unknownCommand]) = true := by decide +kernel

/-! ### Steps -/

/-- Section 7, step 3: the Write command waits for its packet, and the reply comes when the packet is complete. -/
theorem test_step_resumes_a_write :
    after (step { nextOf (step { active with rx := 0x57#8 :: ivPacket.take 5 }) with rx := ivPacket.drop 5 }) (fun t =>
      t.tx == [Params.i2.resp.genericOk] && t.fr.seq == 1#32 && !t.env.writing && t.fr.state == .idle) = true := by
  decide +kernel

/-- R24: `OP` starts its operation at the next step. -/
theorem test_step_runs_the_port :
    after (step { idle with port := ⟨0x01#8, 0x31#32, 0#32, 0#32, 0#8, true⟩ }) (fun t =>
      t.crc.acc == 0xD0F37027#32 && !t.port.start) = true := by decide +kernel

/-- The word of a table row runs as the next instruction. -/
theorem test_withFetchWord :
    (after (step (State.reset.withFetchWord 8 0x51)) (fun t => t.env.loop == .exited && t.env.status == Params.i2.status.success)
      && after (step (State.reset.withFetchWord 16 0x0000)) (fun t => t.fr.final && t.port.res == 0x03#8)
      && after (step (State.reset.withFetchWord 8 0x10)) (fun t => t.port.res == 0x16#8)) = true := by decide +kernel

/-! ### Witnesses: for each statement with hypotheses, a state and operands that meet them -/

/-- A state in which the flash unit waits for its hardware. -/
def waiting : State := nextOf (exec (.flWword 0x9D001000#32 1#32) (withOutcomes [.hang]))

/-- A state in which a packet is being received. -/
def receiving : State := nextOf (exec .frRecv { idle with rx := [0x00#8, 0x0C#8, 0x00#8] })

/-- A state in the halt. -/
def halted : State := nextOf (exec (.flErase 0x9D001000#32) (withOutcomes [.done true false, .done false true]))

theorem witness_ResetGivesTheRegistersTheirValues :
    waiting.inFlight = true ∧ waiting.fl.addr = 0x1D001000#32 ∧ halted.fl.halted = true
      ∧ ∀ (s : State), ∃ t cause linked shim channel rest, t = { s with inputs := [.reset .external false false [0xFC#8]] }
        ∧ t.inputs = .reset cause linked shim channel :: rest ∧ (cause = .external ∨ (linked = true ∧ shim = true)) :=
  ⟨by decide +kernel, by decide +kernel, by decide +kernel, fun _ => ⟨_, _, _, _, _, _, rfl, rfl, .inl rfl⟩⟩

theorem witness_BootEndsAsTheResetReasonSays (s : State) :
    { s with inputs := [.reset .powerOn true false []] }.inputs = [.reset .powerOn true false []] ∧ (true = false ∨ false = false) :=
  ⟨rfl, .inr rfl⟩

theorem witness_DecodeAfterEncodeGivesTheInstruction :
    (4106 ≤ 65535) ∧ (Instr.pktWrite (List.replicate 10 1#8)).wf 4106 = true
      ∧ (Instr.pktWrite (List.replicate 4106 1#8)).wf 4106 = true ∧ (Instr.len 0xFFFF#16).wf 4106 = true
      ∧ (Instr.reserved 0xFF#8).wf 4106 = true ∧ (Instr.cmdUnknown 0x00#8).wf 4106 = true := by decide +kernel

theorem witness_EveryCodeKeepsItsOwnInstruction : idle.free := by decide +kernel

theorem witness_OutsideWritesLand :
    idle.free ∧ idle.port.start = false ∧ receiving.fl.halted = false ∧ receiving.busy = true := by decide +kernel

theorem witness_StepRunsTheDecodedInstruction :
    (let s := { idle with port.start := true };
      s.inputs = [] ∧ s.free ∧ s.port.start = true)
    ∧ (let s := { idle with fr.state := .len0, rx := [0x00#8, 0x00#8] };
      s.inputs = [] ∧ s.frameFree ∧ s.fr.state = .len0
        ∧ decode (.frame s.cfg.bufCap (s.fr.seq == 0#32)) s.rx = .instr .pktEnd [])
    ∧ (let s := { idle with fr.state := .len1, fr.lenHi := 0x10#8, rx := [0x0B#8] };
      s.inputs = [] ∧ s.frameFree ∧ s.fr.state = .len1 ∧ s.rx ≠ []
        ∧ decode (.frame s.cfg.bufCap (s.fr.seq == 0#32)) (s.fr.lenHi :: s.rx) = .instr (.len 0x100B#16) [])
    ∧ (let s := { idle with rx := [0xFC#8] };
      s.inputs = [] ∧ s.free ∧ s.port.start = false ∧ s.env.loop = .idle ∧ s.env.ticks - s.env.t0 < s.cfg.handshakeWindow
        ∧ decode .loop s.rx = .instr .handshake [])
    ∧ (let s := { active with rx := [0x51#8] };
      s.inputs = [] ∧ s.free ∧ s.port.start = false ∧ s.env.loop = .active ∧ decode .loop s.rx = .instr .cmdQuit [])
    ∧ idle.env.writing = false := by decide +kernel

theorem witness_CrcInitUpdAndChkSetTheirRegisters :
    idle.free ∧ (0x100#32).extractLsb' 8 24 ≠ 0#24 ∧ (0xFF#32).extractLsb' 8 24 = 0#24 := by decide +kernel

theorem witness_CrcBufThreadsTheBuffer :
    idle.free ∧ idle.cfg.bufCap < (4100#32).toNat + (7#32).toNat ∧ (4100#32).toNat + (6#32).toNat ≤ idle.cfg.bufCap := by
  decide +kernel

theorem fits_of {a : Word} {n : Nat} (h : flashFits Params.i2 a n = true) : flashRangeFits Params.i2 a n :=
  (flashFits_iff_flashRangeFits ..).mp h

theorem not_fits_of {a : Word} {n : Nat} (h : flashFits Params.i2 a n = false) : ¬flashRangeFits Params.i2 a n := by
  intro h'; rw [← flashFits_iff_flashRangeFits, h] at h'; exact absurd h' (by decide)

theorem witness_CrcMemThreadsTheFlash :
    idle.free ∧ flashRangeFits idle.cfg 0x9D003FFC#32 (4#32).toNat ∧ ¬flashRangeFits idle.cfg 0x9D003FFD#32 (4#32).toNat :=
  ⟨by decide +kernel, fits_of (by decide +kernel), not_fits_of (by decide +kernel)⟩

theorem witness_CrcMemThreadsTheFlash_union :
    idle.free ∧ (1#32).toNat + (3#32).toNat < 2 ^ 32 ∧ flashRangeFits idle.cfg 0x9D003FFC#32 ((1#32).toNat + (3#32).toNat)
      ∧ ∃ u, exec (.crcMem 0x9D003FFC#32 1#32) idle = .next u :=
  ⟨by decide +kernel, by decide +kernel, fits_of (by decide +kernel), _, eq_next (by decide +kernel)⟩

theorem witness_KeySetupFillsTheRegister :
    keyRegisters.free ∧ (257#32 ≠ 256#32 ∧ 257#32 ≠ 128#32) ∧ ((128#32 = 256#32) ∨ 128#32 = 128#32) := by decide +kernel

theorem witness_QuarterRoundUpdatesItsFourWords : [(3 : Fin 16), 4, 9, 14].Nodup := by decide

/-- Two column quarter-rounds and two diagonal ones (R148). -/
theorem witness_DisjointQuarterRoundsCommute : [(0 : Fin 16), 5, 10, 15, 1, 6, 11, 12].Nodup := by decide

theorem witness_CipherBlockMakesKeystreamAndCounts : zeroKeyed.free ∧ zeroKeyed.ciph.keyed = true := by decide +kernel

theorem witness_UnkeyedCipherFaults :
    idle.free ∧ idle.ciph.keyed = false ∧ (4105#32).toNat + (1#32).toNat ≤ idle.cfg.bufCap ∧ 1#32 ≠ 0#32 := by decide +kernel

theorem witness_CipherProcAppliesTheKeystream :
    zeroKeyed.free ∧ zeroKeyed.ciph.keyed = true ∧ zeroKeyed.cfg.bufCap < (4100#32).toNat + (7#32).toNat
      ∧ (4106#32).toNat ≤ zeroKeyed.cfg.bufCap ∧ (4041#32).toNat + (65#32).toNat ≤ zeroKeyed.cfg.bufCap := by decide +kernel

theorem witness_CipherProcIsItsOwnInverse :
    idle.free ∧ (256#32 = 256#32 ∨ 256#32 = 128#32) ∧ (10#32).toNat + (200#32).toNat ≤ idle.cfg.bufCap := by decide +kernel

theorem witness_FlEraseChecksThenErases :
    idle.free ∧ (0x9D001004#32).toNat % idle.cfg.pageSize ≠ 0
      ∧ (0x9D004000#32).toNat % idle.cfg.pageSize = 0 ∧ ¬flashRangeFits idle.cfg 0x9D004000#32 idle.cfg.pageSize
      ∧ (0x9D003000#32).toNat % idle.cfg.pageSize = 0 ∧ flashRangeFits idle.cfg 0x9D003000#32 idle.cfg.pageSize
      ∧ idle.nextOutcome = .done false false :=
  ⟨by decide +kernel, by decide +kernel, by decide +kernel, not_fits_of (by decide +kernel), by decide +kernel,
    fits_of (by decide +kernel), by decide +kernel⟩

theorem witness_FlWwordChecksThenWrites :
    idle.free ∧ (0x9D001002#32).toNat % 4 ≠ 0 ∧ (0x9D004000#32).toNat % 4 = 0 ∧ ¬flashRangeFits idle.cfg 0x9D004000#32 4
      ∧ (0x9D003FFC#32).toNat % 4 = 0 ∧ flashRangeFits idle.cfg 0x9D003FFC#32 4 ∧ idle.nextOutcome = .done false false
      ∧ ∀ p, inTarget 0x9D003FFC#32 4 p → idle.flashByte p = idle.cfg.erasedByte :=
  ⟨by decide +kernel, by decide +kernel, by decide +kernel, not_fits_of (by decide +kernel), by decide +kernel,
    fits_of (by decide +kernel), by decide +kernel, forall_inTarget (by decide +kernel)⟩

theorem witness_FlWrowChecksThenWrites :
    idle.free ∧ ((0x1D001000#32).toNat % idle.cfg.rowSize ≠ 0 ∨ (2#32).toNat % 4 ≠ 0)
      ∧ (0x1D003E00#32).toNat % idle.cfg.rowSize = 0 ∧ (3592#32).toNat % 4 = 0
      ∧ (3592#32).toNat + idle.cfg.rowSize ≤ idle.cfg.bufCap ∧ flashRangeFits idle.cfg 0x1D003E00#32 idle.cfg.rowSize
      ∧ idle.nextOutcome = .done false false ∧ idle.cfg.bufCap < (3596#32).toNat + idle.cfg.rowSize
      ∧ ¬flashRangeFits idle.cfg 0x1D004000#32 idle.cfg.rowSize
      ∧ ∀ p, inTarget 0x1D003E00#32 idle.cfg.rowSize p → idle.flashByte p = idle.cfg.erasedByte :=
  ⟨by decide +kernel, by decide +kernel, by decide +kernel, by decide +kernel, by decide +kernel, fits_of (by decide +kernel),
    by decide +kernel, by decide +kernel, not_fits_of (by decide +kernel), forall_inTarget (by decide +kernel)⟩

theorem witness_FaultyFlashOperationIsClearedOrHalts :
    (∀ s ∈ [withOutcomes [.done false true, .done false false], withOutcomes [.done false true, .done true false],
        withOutcomes [.done false true, .hang]], s.free ∧ s.nextOutcome = .done false true)
      ∧ passesChecks Params.i2 (.flErase 0x9D003000#32) .erase 0x9D003000#32 4096
      ∧ passesChecks Params.i2 (.flWword 0x9D003FFC#32 0#32) .word 0x9D003FFC#32 4
      ∧ passesChecks Params.i2 (.flWrow 0x9D003E00#32 3592#32) .row 0x9D003E00#32 512 :=
  ⟨by decide +kernel, ⟨rfl, rfl, rfl, by decide +kernel, fits_of (by decide +kernel)⟩,
    ⟨rfl, rfl, rfl, by decide +kernel, fits_of (by decide +kernel)⟩,
    ⟨rfl, rfl, rfl, by decide +kernel, by decide +kernel, by decide +kernel, fits_of (by decide +kernel)⟩⟩

/-- What each kind of second outcome leaves in the hardware flags. -/
theorem witness_FaultyFlashOperationIsClearedOrHalts_cases :
    after (exec (.flErase 0x9D003000#32) (withOutcomes [.done false true, .done false false]))
        (fun t => t.hw.done && !t.hw.lowVoltage && !t.hw.writeError) = true
      ∧ after (exec (.flErase 0x9D003000#32) (withOutcomes [.done false true, .done true false]))
        (fun t => t.hw.done && (t.hw.lowVoltage || t.hw.writeError)) = true
      ∧ after (exec (.flErase 0x9D003000#32) (withOutcomes [.done false true, .hang])) (fun t => !t.hw.done) = true := by
  decide +kernel

theorem witness_UncompletedFlashOperationWaits :
    (withOutcomes [.hang]).free ∧ (withOutcomes [.hang]).nextOutcome = .hang ∧ (withOutcomes [.hang]).inputs = []
      ∧ passesChecks Params.i2 (.flErase 0x9D003000#32) .erase 0x9D003000#32 4096 :=
  ⟨by decide +kernel, by decide +kernel, rfl, rfl, rfl, rfl, by decide +kernel, fits_of (by decide +kernel)⟩

theorem witness_FlNopReportsTheFlags :
    (withOutcomes [.done false true]).free ∧ (withOutcomes [.done false true]).nextOutcome = .done false true := by
  decide +kernel

theorem witness_FlWrangeChecksFirst :
    idle.free
      ∧ ¬((0x10008#32).toNat < 2 ^ 16 ∧ (0#32).toNat + (0x10008#32).toNat ≤ idle.cfg.bufCap
          ∧ flashRangeFits idle.cfg 0x9D001000#32 (0x10008#32).toNat)
      ∧ ((6#32).toNat < 2 ^ 16 ∧ (4100#32).toNat + (6#32).toNat ≤ idle.cfg.bufCap
          ∧ flashRangeFits idle.cfg 0x9D001000#32 (6#32).toNat) ∧ (6#32).toNat % 4 ≠ 0
      ∧ ((8#32).toNat < 2 ^ 16 ∧ (2#32).toNat + (8#32).toNat ≤ idle.cfg.bufCap
          ∧ flashRangeFits idle.cfg 0x9D001000#32 (8#32).toNat) ∧ (8#32).toNat % 4 = 0 ∧ (2#32).toNat % 4 ≠ 0
      ∧ ((0#32).toNat < 2 ^ 16 ∧ (4104#32).toNat + (0#32).toNat ≤ idle.cfg.bufCap
          ∧ flashRangeFits idle.cfg 0x9D004000#32 (0#32).toNat) ∧ (0x9D004000#32).toNat % 4 = 0 ∧ (4104#32).toNat % 4 = 0 :=
  ⟨by decide +kernel, fun h => absurd h.1 (by decide +kernel),
    ⟨by decide +kernel, by decide +kernel, fits_of (by decide +kernel)⟩, by decide +kernel,
    ⟨by decide +kernel, by decide +kernel, fits_of (by decide +kernel)⟩, by decide +kernel, by decide +kernel,
    ⟨by decide +kernel, by decide +kernel, fits_of (by decide +kernel)⟩, by decide +kernel, by decide +kernel⟩

theorem rangeChecks_of {a n off : Word}
    (h : (n.toNat < 2 ^ 16 ∧ off.toNat + n.toNat ≤ Params.i2.bufCap ∧ n.toNat % 4 = 0 ∧ a.toNat % 4 = 0 ∧ off.toNat % 4 = 0)
      ∧ flashFits Params.i2 a n.toNat = true) : rangePassesChecks Params.i2 a n off :=
  ⟨h.1.1, h.1.2.1, fits_of h.2, h.1.2.2.1, h.1.2.2.2.1, h.1.2.2.2.2⟩

theorem witness_FlWrangeWritesItsChunks :
    idle.free ∧ idle.cfg.wf = true ∧ rangePassesChecks idle.cfg 0x1D0011F8#32 528#32 0#32
      ∧ (chunks idle 0x1D0011F8 528 0).length = 5 ∧ goodOutcomes 5 idle
      ∧ ∀ p, inTarget 0x1D0011F8#32 528 p → idle.flashByte p = idle.cfg.erasedByte :=
  ⟨by decide +kernel, by decide +kernel, rangeChecks_of (by decide +kernel), by decide +kernel,
    by unfold goodOutcomes; decide +kernel, forall_inTarget (by decide +kernel)⟩

theorem witness_FlWrangeGoesOnAfterFailures :
    let flags := [(false, false), (false, true), (false, false), (true, true), (false, false)]
    let s := withOutcomes (settledOutcomes flags ++ [.hang])
    s.free ∧ s.cfg.wf = true ∧ rangePassesChecks s.cfg 0x1D0011F8#32 528#32 0#32
      ∧ flags.length = (chunks s 0x1D0011F8 528 0).length ∧ s.hw.script = settledOutcomes flags ++ [.hang]
      ∧ let c := rangePiece s .row 512 0x1D0011F8 0 0x1D001200
        (c, (false, false)) ∈ (chunks s 0x1D0011F8 528 0).zip flags
        ∧ ∀ i, i < c.data.length → s.flashByte (c.addr.toNat + i) = s.cfg.erasedByte :=
  ⟨by decide +kernel, by decide +kernel, rangeChecks_of (by decide +kernel), by decide +kernel, rfl, by decide +kernel,
    by decide +kernel⟩

theorem witness_FlWrangeHaltsWithItsSubOperation :
    let flags := [(false, false), (false, true)]
    rangePassesChecks Params.i2 0x1D0011F8#32 528#32 0#32
      ∧ ∀ stop ∈ [[HwOutcome.hang], [.done true false, .hang], [.done true false, .done true false]],
        let s := withOutcomes (settledOutcomes flags ++ stop ++ [])
        s.free ∧ s.cfg = Params.i2 ∧ s.cfg.wf = true ∧ neverEnds stop = true
          ∧ flags.length < (chunks s 0x1D0011F8 528 0).length ∧ s.hw.script = settledOutcomes flags ++ stop ++ [] :=
  ⟨rangeChecks_of (by decide +kernel), by decide +kernel⟩

theorem witness_FlCmpComparesEveryByte :
    let fits (n : Nat) (a : Word) := n < 2 ^ 16 ∧ 0 + n ≤ idle.cfg.bufCap ∧ flashRangeFits idle.cfg a n
    idle.free ∧ ¬fits 2 0x9D003FFF#32 ∧ fits 1 0x9D003FFF#32
      ∧ ¬(∀ i, i < 1 → idle.flashByte ((phys 0x9D003FFF#32).toNat + i) = idle.bufByte (0 + i))
      ∧ fits 0 0x9D003FFF#32 ∧ ∀ i, i < 0 → idle.flashByte ((phys 0x9D003FFF#32).toNat + i) = idle.bufByte (0 + i) :=
  ⟨by decide +kernel, fun h => not_fits_of (a := 0x9D003FFF#32) (n := 2) (by decide +kernel) h.2.2,
    ⟨by decide +kernel, by decide +kernel, fits_of (by decide +kernel)⟩, by decide +kernel,
    ⟨by decide +kernel, by decide +kernel, fits_of (by decide +kernel)⟩, by decide +kernel⟩

theorem witness_FrResetClearsTheSequence : ({ idle with fr.seq := 7#32 }).free := by decide +kernel

theorem witness_ZeroLengthIsTheEndMarker :
    (let s := { active with rx := [0x00#8, 0x00#8, 0x51#8], fr.seq := 5#32 };
      s.free ∧ s.commandFree ∧ s.rx = [0x00#8, 0x00#8] ++ [0x51#8])
    ∧ receiving.frameFree := by decide +kernel

theorem witness_LengthPrefixAnnouncesTheBody :
    (let s := { idle with rx := List.replicate 4107 1#8 };
      s.frameFree ∧ 4107#16 ≠ 0#16 ∧ s.cfg.bufCap < (4107#16).toNat ∧ s.cfg.drainOversize = false
        ∧ (4107#16).toNat ≤ s.rx.length ∧ (4106#16).toNat ≤ s.cfg.bufCap ∧ (4106#16).toNat ≤ s.rx.length)
    ∧ (let s := { idle with rx := [1#8, 2#8], cfg := { Params.i2 with drainOversize := true } };
      s.frameFree ∧ s.cfg.bufCap < (4107#16).toNat ∧ s.cfg.drainOversize = true ∧ s.rx.length < (4107#16).toNat
        ∧ (3#16).toNat ≤ s.cfg.bufCap ∧ s.rx.length < (3#16).toNat) := by decide +kernel

/-- V5.1, V5.2, V5.6 and V5.7: each case of packet #1. -/
theorem witness_FirstPacketKeysTheCipher :
    idle.frameFree ∧ idle.fr.seq = 0#32
      ∧ (∀ payload ∈ [ivPacket.drop 2, (ivPacket.drop 2).dropLast ++ [0x4C#8], [0xAA#8, 0xBB#8, 0xCC#8], List.replicate 4 0#8],
          0 < payload.length ∧ payload.length ≤ idle.cfg.bufCap ∧ payload.length < 65536)
      ∧ ivPacket.drop 2 = (#v[0#8, 1#8, 2#8, 3#8, 4#8, 5#8, 6#8, 7#8] : Vector Byte 8).toList ++ bytesBE32 0x23CE674B#32
      ∧ crcBytes Params.i2.crcPoly 0#32 (List.replicate 0 0#8) = be32 0#8 0#8 0#8 0#8
      ∧ crcBytes Params.i2.crcPoly 0#32 ((ivPacket.drop 2).take 8) = be32 0x23#8 0xCE#8 0x67#8 0x4B#8 := by decide +kernel

theorem witness_FrRecvTakesOneFrame :
    let s := { idle with rx := encode (.len 0x100B#16) ++ [1#8, 2#8] }
    s.free ∧ (∃ p, Instr.len 0x100B#16 = .len p) ∧ s.rx = encode (.len 0x100B#16) ++ [1#8, 2#8] :=
  ⟨by decide +kernel, ⟨_, rfl⟩, rfl⟩

theorem witness_ReceptionResumesWhereItWaited :
    let early := ivPacket.take 5
    active.inputs = [] ∧ active.free ∧ active.commandFree ∧ active.env.writing = false
      ∧ (∃ u, exec .frRecv { active with rx := early } = .next u ∧ u.fr.state ≠ .idle)
      ∧ ∃ u, exec .cmdWrite { active with rx := early } = .next u ∧ u.fr.state ≠ .idle :=
  ⟨rfl, by decide +kernel, by decide +kernel, by decide +kernel, ⟨_, eq_next (by decide +kernel), by decide +kernel⟩,
    _, eq_next (by decide +kernel), by decide +kernel⟩

theorem witness_ZeroiseClearsTheSession : (keyedSession 3#32 (withBuf digits)).free := by decide +kernel

theorem witness_HaltAndBusyStopEveryOperation :
    halted.fl.halted = true ∧ halted.inputs = [] ∧ waiting.fl.halted = false ∧ waiting.busy = true
      ∧ operationWords .sysZeroise ≠ none := by decide +kernel

theorem witness_OperationsReachOnlyTheirSpaces :
    operationWords (.flWword 0x9D001000#32 1#32) ≠ none
      ∧ (∃ t, exec (.flWword 0x9D001000#32 1#32) idle = .next t) ∧ ¬inTarget 0x9D001000#32 4 0x1D001004 :=
  ⟨by decide, ⟨_, eq_next (by decide +kernel)⟩, by decide +kernel⟩

theorem witness_HandshakeStartsTheSession :
    idle.free ∧ idle.env.loop = .idle ∧ active.free ∧ active.env.loop = .active ∧ 0x57#8 ≠ 0xFC#8
      ∧ ({ idle with env.loop := .exited }).free := by decide +kernel

theorem witness_SessionEndsZeroised :
    active.commandFree ∧ (let s := { idle with env.ticks := 0x01000000#32 };
      s.inputs = [] ∧ s.free ∧ s.port.start = false ∧ s.env.writing = false ∧ s.env.loop = .idle
        ∧ s.cfg.handshakeWindow ≤ s.env.ticks - s.env.t0) := by decide +kernel

theorem witness_InfoAndUnknownBytesAreAnswered : active.commandFree := by decide +kernel

theorem witness_EraseCommandErasesTheUnprotectedPages :
    active.commandFree ∧ active.cfg.wf = true ∧ active.cfg.envWf = true
      ∧ erasedPages active.cfg = [0x1D001000#32, 0x1D002000#32, 0x1D003000#32] ∧ goodOutcomes 3 active :=
  ⟨by decide +kernel, by decide +kernel, by decide +kernel, by decide +kernel, by unfold goodOutcomes; decide +kernel⟩

theorem witness_EraseCommandReportsFailures :
    let flags := [(false, false), (true, false), (false, false)]
    let s := { active with hw.script := settledOutcomes flags ++ [HwOutcome.hang] }
    s.commandFree ∧ s.cfg.wf = true ∧ s.cfg.envWf = true ∧ flags.length = (erasedPages s.cfg).length
      ∧ s.hw.script = settledOutcomes flags ++ [.hang] :=
  ⟨by decide +kernel, by decide +kernel, by decide +kernel, by decide +kernel, rfl⟩

/-- Each way in which an erase never ends, at the first page and at the last. -/
theorem witness_EraseCommandReportsFailures_stops :
    ∀ stop ∈ [[HwOutcome.hang], [.done true false, .hang], [.done true false, .done true false]],
      ∀ flags ∈ [[], [(false, true), (false, false)]],
        let s := { active with hw.script := settledOutcomes flags ++ stop ++ [] }
        s.commandFree ∧ s.cfg.wf = true ∧ s.cfg.envWf = true ∧ neverEnds stop = true
          ∧ flags.length < (erasedPages s.cfg).length ∧ s.hw.script = settledOutcomes flags ++ stop ++ []
          ∧ s.inputs = [] := by decide +kernel

theorem witness_CrcCommandChecksumsProgramAndBoot : active.commandFree ∧ active.cfg.wf = true ∧ active.cfg.envWf = true := by
  decide +kernel

/-- A Write command over the bytes in the channel, with `ERASE_DONE` set. -/
def writer (rx : List Byte) : State := { keyedSession 1#32 active with rx := rx, env.eraseDone := true }

/-- What its reception leaves. -/
def received (s : State) : State := nextOf (exec .frRecv { s with port.op := 0x31#8 })

theorem received_eq {s : State} (h : after (exec .frRecv { s with port.op := 0x31#8 }) (fun _ => true) = true) :
    exec .frRecv { s with port.op := 0x31#8 } = .next (received s) := eq_next h

/-- The results that end a Write command at once, and a reception that waits. -/
theorem witness_WriteCommandAnswersItsReception :
    (∀ c ∈ [(ivPacket, 0x01#8, 0#32), ([0x00#8, 0x00#8], 0x03#8, 1#32), (writePacket.dropLast ++ [0x38#8], 0x10#8, 1#32),
        ([0x10#8, 0x0B#8], 0x11#8, 1#32), ([0x00#8, 0x01#8, 0x00#8], 0x12#8, 1#32)],
      let s := { writer c.1 with fr.seq := c.2.2 }
      s.commandFree ∧ after (exec .frRecv { s with port.op := 0x31#8 })
        (fun u => u.fr.state == .idle && u.port.res == c.2.1) = true)
    ∧ after (exec .frRecv { writer (writePacket.take 7) with port.op := 0x31#8 }) (fun u => u.fr.state != .idle) = true := by
  decide +kernel

/-! The witnesses of the write path start from a packet in the clear: the cipher's words are 0 and so is its keystream
(R146: the sums of two zero blocks). -/

/-- `I2` with a single double-round. -/
def quick : Params := { Params.i2 with nDoubleRounds := 1 }

/-- A write packet with an address, its data, padding of no byte, and its checksum. -/
def plainPacket (a : Word) (data : List Byte) : List Byte :=
  let body := data ++ bytesBE32 a ++ bytesBE16 (BitVec.ofNat 16 data.length)
  bytesBE16 (BitVec.ofNat 16 (body.length + 4)) ++ body ++ bytesBE32 (crcBytes Params.i2.crcPoly 0#32 body)

/-- An active session whose keystream is 0, with a packet waiting. -/
def clearSession (a : Word) (data : List Byte) : State :=
  { active with
    ciph.x := Vector.replicate 16 0#32, ciph.keyed := true, fr.seq := 1#32, env.eraseDone := true, rx := plainPacket a data
    cfg := quick }

/-- A packet accepted, with a wrong checksum (V5.9), too short for its trailer (V5.10), claiming more data than it has
(V5.11), and too short for a checksum. -/
theorem witness_LaterPacketIsDecryptedCheckedAndRead :
    let s := clearSession 0x9D001000#32 [1#8]
    let claims := bytesOf 10 0x9D0010000004_5952F8C3
    s.frameFree ∧ s.fr.seq ≠ 0#32 ∧ s.ciph.keyed = true
      ∧ ∀ c ∈ [(s.rx.drop 2, 0x02#8), (s.rx.drop 2 ++ [1#8], 0x10#8), (List.replicate 4 0#8, 0x12#8), (claims, 0x12#8),
          ([0#8], 0x12#8)],
        0 < c.1.length ∧ c.1.length ≤ s.cfg.bufCap ∧ c.1.length < 65536
          ∧ after (exec (.pktWrite c.1) s) (fun t => t.port.res == c.2) = true := by decide +kernel

/-- The hypotheses the statements about a decoded write share: the reception of the Write command ends with one. -/
def receivesWrite (s : State) : Prop :=
  s.commandFree ∧ exec .frRecv { s with port.op := 0x31#8 } = .next (received s)
    ∧ (received s).fr.state = .idle ∧ (received s).port.res = resCode .okWrite

theorem receivesWrite_of {s : State}
    (h : s.commandFree ∧ after (exec .frRecv { s with port.op := 0x31#8 }) (fun _ => true) = true
      ∧ (received s).fr.state = .idle ∧ (received s).port.res = resCode .okWrite) : receivesWrite s :=
  ⟨h.1, received_eq h.2.1, h.2.2.1, h.2.2.2⟩

/-- … with the boot sector open. -/
def openBoot : Params := { quick with bootProtect := false }

theorem witness_RejectedWritesTouchNothing_erase :
    let s := { clearSession 0x9D001000#32 [1#8, 2#8, 3#8, 4#8] with env.eraseDone := false }
    receivesWrite s ∧ (received s).env.eraseDone = false := ⟨receivesWrite_of (by decide +kernel), by decide +kernel⟩

theorem witness_RejectedWritesTouchNothing_size :
    let s := clearSession 0x9D001000#32 [1#8, 2#8, 3#8, 4#8, 5#8, 6#8]
    receivesWrite s ∧ (received s).env.eraseDone = true ∧ (received s).fr.wLen.toNat % 4 ≠ 0
      ∧ receivesWrite (clearSession 0x9D001000#32 []) ∧ (received (clearSession 0x9D001000#32 [])).fr.wLen.toNat = 0 :=
  ⟨receivesWrite_of (by decide +kernel), by decide +kernel, by decide +kernel, receivesWrite_of (by decide +kernel),
    by decide +kernel⟩

/-- More data than a page: `BUF_CAP` takes it where `BUF_OVERHEAD` is more than the 10 bytes of the trailer. -/
theorem witness_RejectedWritesTouchNothing_over_page :
    let s := { clearSession 0x9D001000#32 (List.replicate 20 1#8) with
      cfg := { quick with pageSize := 16, rowSize := 8, bufOverhead := 14 } }
    receivesWrite s ∧ (received s).env.eraseDone = true ∧ s.cfg.pageSize < (received s).fr.wLen.toNat :=
  ⟨receivesWrite_of (by decide +kernel), by decide +kernel, by decide +kernel⟩

/-- V7.4: the boot sector is protected. -/
theorem witness_RejectedWritesTouchNothing_boot :
    let s := clearSession 0xBFC02FF0#32 [1#8, 2#8, 3#8, 4#8]
    receivesWrite s ∧ acceptedShape (received s) (received s).fr.wAddr (received s).fr.wLen.toNat
      ∧ phys (received s).fr.wAddr ≠ phys s.cfg.entryPage ∧ s.cfg.bootProtect = true
      ∧ ∃ x, inTarget (received s).fr.wAddr (received s).fr.wLen.toNat x
        ∧ within (phys s.cfg.bootBase).toNat s.cfg.bootSize x = true :=
  ⟨receivesWrite_of (by decide +kernel), by unfold acceptedShape inOneRange; decide +kernel, by decide +kernel, rfl,
    0x1FC02FF0, by decide +kernel, by decide +kernel⟩

theorem witness_RejectedWritesTouchNothing_alignment :
    let s := clearSession 0x9D001002#32 [1#8, 2#8, 3#8, 4#8]
    receivesWrite s ∧ (received s).env.eraseDone = true ∧ (received s).fr.wLen.toNat = 4
      ∧ (received s).fr.wAddr.toNat % 4 ≠ 0 :=
  ⟨receivesWrite_of (by decide +kernel), by decide +kernel, by decide +kernel, by decide +kernel⟩

theorem witness_RejectedWritesTouchNothing_wraparound :
    let s := clearSession 0xFFFFFFFC#32 [1#8, 2#8, 3#8, 4#8, 5#8, 6#8, 7#8, 8#8]
    receivesWrite s ∧ (received s).env.eraseDone = true ∧ (received s).fr.wLen.toNat = 8
      ∧ (received s).fr.wAddr.toNat % 4 = 0 ∧ 2 ^ 32 < (received s).fr.wAddr.toNat + 8 :=
  ⟨receivesWrite_of (by decide +kernel), by decide +kernel, by decide +kernel, by decide +kernel, by decide +kernel⟩

/-- The last four bytes of the address space: no wrap, and no flash. -/
theorem witness_RejectedWritesTouchNothing_bounds :
    let s := clearSession 0xFFFFFFFC#32 [1#8, 2#8, 3#8, 4#8]
    receivesWrite s ∧ (received s).env.eraseDone = true ∧ (received s).fr.wLen.toNat = 4
      ∧ (received s).fr.wAddr.toNat % 4 = 0 ∧ (received s).fr.wAddr.toNat + 4 ≤ 2 ^ 32
      ∧ ¬inOneRange (received s).cfg (received s).fr.wAddr 4 :=
  ⟨receivesWrite_of (by decide +kernel), by decide +kernel, by decide +kernel, by decide +kernel, by decide +kernel,
    by unfold inOneRange; decide +kernel⟩

theorem witness_RejectedWritesTouchNothing_engine :
    let s := clearSession 0x9D000FFC#32 [1#8, 2#8, 3#8, 4#8, 5#8, 6#8, 7#8, 8#8]
    receivesWrite s ∧ acceptedShape (received s) (received s).fr.wAddr (received s).fr.wLen.toNat
      ∧ phys (received s).fr.wAddr ≠ phys s.cfg.entryPage
      ∧ ∃ x, inTarget (received s).fr.wAddr (received s).fr.wLen.toNat x
        ∧ within (phys s.cfg.engineBase).toNat s.cfg.engineSize x = true :=
  ⟨receivesWrite_of (by decide +kernel), by unfold acceptedShape inOneRange; decide +kernel, by decide +kernel,
    0x1D000FFF, by decide +kernel, by decide +kernel⟩

/-- V7.3. -/
theorem witness_RejectedWritesTouchNothing_configuration :
    let s := { clearSession 0xBFC02FF0#32 [1#8, 2#8, 3#8, 4#8] with cfg := openBoot }
    let meets (p : Nat → Bool) := ∃ x, inTarget (received s).fr.wAddr (received s).fr.wLen.toNat x ∧ p x = true
    receivesWrite s ∧ acceptedShape (received s) (received s).fr.wAddr (received s).fr.wLen.toNat
      ∧ phys (received s).fr.wAddr ≠ phys s.cfg.entryPage
      ∧ ¬meets (within (phys s.cfg.engineBase).toNat s.cfg.engineSize) ∧ s.cfg.bootProtect = false
      ∧ meets (within (configLow s.cfg) (configHigh s.cfg - configLow s.cfg)) :=
  ⟨receivesWrite_of (by decide +kernel), by unfold acceptedShape inOneRange; decide +kernel, by decide +kernel,
    fun h => absurd ((hitsEngine_iff ..).mpr h) (by decide +kernel), rfl, 0x1FC02FF0, by decide +kernel, by decide +kernel⟩

theorem witness_RejectedWritesTouchNothing_shim :
    let s := clearSession 0xBFC00000#32 [1#8, 2#8, 3#8, 4#8]
    receivesWrite s ∧ acceptedShape (received s) (received s).fr.wAddr (received s).fr.wLen.toNat
      ∧ phys (received s).fr.wAddr = phys s.cfg.entryPage ∧ ¬carriesShim (received s) (received s).fr.wLen.toNat :=
  ⟨receivesWrite_of (by decide +kernel), by unfold acceptedShape inOneRange; decide +kernel, by decide +kernel,
    fun h => absurd ((shimPresent_iff ..).mpr h) (by decide +kernel)⟩

theorem witness_AcceptedWriteLandsAndIsAcknowledged :
    let s := clearSession 0x9D001000#32 [1#8, 2#8, 3#8, 4#8]
    let u := received s
    receivesWrite s ∧ s.cfg.wf = true ∧ s.cfg.envWf = true ∧ acceptedShape u u.fr.wAddr u.fr.wLen.toNat
      ∧ phys u.fr.wAddr ≠ phys s.cfg.entryPage
      ∧ (∀ p, inTarget u.fr.wAddr u.fr.wLen.toNat p → protectedByte s.cfg p = false ∧ u.flashByte p = s.cfg.erasedByte)
      ∧ goodOutcomes (chunks u u.fr.wAddr.toNat u.fr.wLen.toNat 0).length u :=
  ⟨receivesWrite_of (by decide +kernel), by decide +kernel, by decide +kernel,
    by unfold acceptedShape inOneRange; decide +kernel, by decide +kernel, forall_inTarget (by decide +kernel),
    by unfold goodOutcomes; decide +kernel⟩

/-- A write at the boot-entry page that carries the shim; and parameters in which that page is a configuration page. -/
theorem witness_EntryPageIsErasedForItsShim :
    let s := clearSession 0xBFC00000#32 [0xDE#8, 0xAD#8, 0xBE#8, 0xEF#8]
    let s' := { s with cfg := { quick with configBase := 0x1FC00FF0#32 } }
    let hyps (s : State) := receivesWrite s ∧ s.cfg.wf = true ∧ s.cfg.envWf = true
      ∧ acceptedShape (received s) (received s).fr.wAddr (received s).fr.wLen.toNat
      ∧ phys (received s).fr.wAddr = phys s.cfg.entryPage ∧ carriesShim (received s) (received s).fr.wLen.toNat
      ∧ goodOutcomes (1 + (chunks (received s) (received s).fr.wAddr.toNat (received s).fr.wLen.toNat 0).length) (received s)
    let overlapsConfig (s : State) := ∃ p, inTarget (received s).fr.wAddr (received s).fr.wLen.toNat p
      ∧ within (configLow s.cfg) (configHigh s.cfg - configLow s.cfg) p = true
    hyps s ∧ ¬overlapsConfig s ∧ hyps s' ∧ overlapsConfig s' :=
  ⟨⟨receivesWrite_of (by decide +kernel), by decide +kernel, by decide +kernel,
      by unfold acceptedShape inOneRange; decide +kernel, by decide +kernel, (shimPresent_iff ..).mp (by decide +kernel),
      by unfold goodOutcomes; decide +kernel⟩,
    fun h => absurd ((hitsConfig_iff ..).mpr h) (by decide +kernel),
    ⟨receivesWrite_of (by decide +kernel), by decide +kernel, by decide +kernel,
      by unfold acceptedShape inOneRange; decide +kernel, by decide +kernel, (shimPresent_iff ..).mp (by decide +kernel),
      by unfold goodOutcomes; decide +kernel⟩,
    0x1FC00000, by decide +kernel, by decide +kernel⟩

theorem witness_FailingWriteIsRetriedToTheBound :
    let script := settledOutcomes (List.replicate 3 (false, true)) ++ [HwOutcome.hang]
    let s := { clearSession 0x9D001000#32 [1#8, 2#8, 3#8, 4#8] with hw.script := script }
    let u := received s
    receivesWrite s ∧ s.cfg.wf = true ∧ s.cfg.envWf = true ∧ acceptedShape u u.fr.wAddr u.fr.wLen.toNat
      ∧ phys u.fr.wAddr ≠ phys s.cfg.entryPage
      ∧ (∀ p, inTarget u.fr.wAddr u.fr.wLen.toNat p → protectedByte s.cfg p = false)
      ∧ (1 + s.cfg.maxWriteRetries) * (chunks u u.fr.wAddr.toNat u.fr.wLen.toNat 0).length = 3 ∧ u.hw.script = script :=
  ⟨receivesWrite_of (by decide +kernel), by decide +kernel, by decide +kernel,
    by unfold acceptedShape inOneRange; decide +kernel, by decide +kernel, forall_inTarget (by decide +kernel),
    by decide +kernel, by decide +kernel⟩

/-- The state one attempt leaves (R299). -/
def attempted (a : Word) (l : Half) (v : State) : State :=
  let issued (op : Byte) (s : State) : State :=
    { s with port.op := op, port.opa := a, port.opb := l.setWidth 32, port.opc := 0#32 }
  let x := nextOf (exec (.flWrange a (l.setWidth 32) 0#32) (issued 0x23#8 v))
  if x.free ∧ x.port.res = resCode .ok then nextOf (exec (.flCmp a (l.setWidth 32) 0#32) (issued 0x24#8 x)) else x

/-- Both operations of an attempt answer a next state. -/
def attemptRuns (a : Word) (l : Half) (v : State) : Bool :=
  let issued (op : Byte) (s : State) : State :=
    { s with port.op := op, port.opa := a, port.opb := l.setWidth 32, port.opc := 0#32 }
  let o := exec (.flWrange a (l.setWidth 32) 0#32) (issued 0x23#8 v)
  after o (fun _ => true)
    && (!decide ((nextOf o).free ∧ (nextOf o).port.res = resCode .ok)
      || after (exec (.flCmp a (l.setWidth 32) 0#32) (issued 0x24#8 (nextOf o))) (fun _ => true))

theorem attemptLeaves_attempted {a : Word} {l : Half} {v : State} (h : attemptRuns a l v = true) :
    attemptLeaves a l v (attempted a l v) := by
  simp only [attemptRuns, Bool.and_eq_true, Bool.or_eq_true, Bool.not_eq_true', decide_eq_false_iff_not] at h
  refine ⟨_, eq_next h.1, ?_⟩
  split
  · rename_i hc
    rw [attempted, if_pos hc]
    exact eq_next (h.2.resolve_left fun hn => hn hc)
  · rename_i hc
    rw [attempted, if_neg hc]

/-- The states the attempts at a write leave, one after another (R299). -/
def attempts (u : State) : Nat → State
  | 0 => attempted u.fr.wAddr u.fr.wLen { u with env.writing := false, env.wretry := 0 }
  | i + 1 => attempted u.fr.wAddr u.fr.wLen { attempts u i with env.wretry := i + 1 }

/-- A write over a byte that is not erased, so that what the flash holds after it is drawn. -/
def overwriter (draws : List Byte) (script : List HwOutcome) : State :=
  { clearSession 0x9D001000#32 [1#8, 2#8, 3#8, 4#8] with
    hw.array := [(0x1D001001, 0#8)], draws.bytes := draws, hw.script := script }

/-- The hypotheses of the statement about the attempts at a write, for `k` retries of the write `s` receives. -/
def retries (s : State) (k : Nat) : Prop :=
  let u := received s
  receivesWrite s ∧ s.cfg.wf = true ∧ s.cfg.envWf = true ∧ acceptedShape u u.fr.wAddr u.fr.wLen.toNat
    ∧ phys u.fr.wAddr ≠ phys s.cfg.entryPage
    ∧ (∀ p, inTarget u.fr.wAddr u.fr.wLen.toNat p → protectedByte s.cfg p = false) ∧ k ≤ s.cfg.maxWriteRetries
    ∧ attemptLeaves u.fr.wAddr u.fr.wLen { u with env.writing := false, env.wretry := 0 } (attempts u 0)
    ∧ ∀ i, i < k → (attempts u i).free ∧ (attempts u i).port.res ≠ resCode .ok
      ∧ attemptLeaves u.fr.wAddr u.fr.wLen { attempts u i with env.wretry := i + 1 } (attempts u (i + 1))

theorem retries_of {s : State} {k : Nat}
    (h : let u := received s
      s.commandFree ∧ after (exec .frRecv { s with port.op := 0x31#8 }) (fun _ => true) = true ∧ u.fr.state = .idle
      ∧ u.port.res = resCode .okWrite ∧ s.cfg.wf = true ∧ s.cfg.envWf = true
      ∧ acceptedShape u u.fr.wAddr u.fr.wLen.toNat ∧ phys u.fr.wAddr ≠ phys s.cfg.entryPage
      ∧ (∀ i, i < u.fr.wLen.toNat → protectedByte s.cfg ((phys u.fr.wAddr).toNat + i) = false)
      ∧ k ≤ s.cfg.maxWriteRetries
      ∧ attemptRuns u.fr.wAddr u.fr.wLen { u with env.writing := false, env.wretry := 0 } = true
      ∧ ∀ i, i < k → (attempts u i).free ∧ (attempts u i).port.res ≠ resCode .ok
        ∧ attemptRuns u.fr.wAddr u.fr.wLen { attempts u i with env.wretry := i + 1 } = true) : retries s k := by
  obtain ⟨h1, h2, h3, h4, h5, h6, h7, h8, h9, h10, h11, h12⟩ := h
  exact ⟨receivesWrite_of ⟨h1, h2, h3, h4⟩, h5, h6, h7, h8, forall_inTarget h9, h10, attemptLeaves_attempted h11,
    fun i hi => ⟨(h12 i hi).1, (h12 i hi).2.1, attemptLeaves_attempted (h12 i hi).2.2⟩⟩

/-- A write that compares different twice and lands on its second retry; one that compares different every time; one that
halts, and one that does not complete, in its first retry. -/
theorem witness_FailingWriteIsRetriedToTheBound_attempts :
    let good := List.replicate 3 (HwOutcome.done false false)
    let nines := List.replicate 8 9#8
    let lands := overwriter (nines ++ [1#8, 2#8, 3#8, 4#8]) good
    let fails := overwriter (nines ++ [9#8, 9#8, 9#8, 9#8]) good
    let halts := overwriter nines [.done false false, .done true false, .done true false]
    let hangs := overwriter nines [.done false false, .hang]
    (retries lands 2 ∧ (attempts (received lands) 2).free ∧ (attempts (received lands) 2).port.res = resCode .ok)
    ∧ (retries fails 2 ∧ (attempts (received fails) 2).free ∧ (attempts (received fails) 2).port.res ≠ resCode .ok
      ∧ 2 = fails.cfg.maxWriteRetries)
    ∧ (retries halts 1 ∧ ¬(attempts (received halts) 1).free)
    ∧ retries hangs 1 ∧ ¬(attempts (received hangs) 1).free := by
  refine ⟨⟨retries_of ?_, ?_⟩, ⟨retries_of ?_, ?_⟩, ⟨retries_of ?_, ?_⟩, retries_of ?_, ?_⟩ <;>
    (try unfold acceptedShape inOneRange) <;> decide +kernel

/-- A session with a byte in `BUF`, one in flash, and a command waiting. -/
def working : State :=
  { active with rx := [0x57#8], fr.buf := [(0, 1#8)], hw.array := [(0x1D000004, 0#8), (0x1D001004, 0#8)] }

theorem working_steps : ∃ t, step working = .next t ∧ t.fr.state ≠ working.fr.state :=
  ⟨_, eq_next (by decide +kernel), by decide +kernel⟩

theorem witness_ParametersNeverChange : ∃ t, step working = .next t := working_steps.imp fun _ h => h.1

theorem witness_StepKeepsTheMemoriesCanonical : working.MemInv ∧ ∃ t, step working = .next t :=
  ⟨⟨by decide +kernel, by decide +kernel, by decide +kernel, by decide +kernel⟩, witness_ParametersNeverChange⟩

theorem witness_StepKeepsFlashWhereFlashIs :
    working.FlashInv ∧ (∃ t, step working = .next t) ∧ waiting.FlashInv ∧ waiting.inFlight = true
      ∧ ∃ t, step waiting = .next t := by
  refine ⟨⟨by decide +kernel, fun h => absurd h (by decide +kernel)⟩, witness_ParametersNeverChange,
    ⟨by decide +kernel, fun _ p hp => ?_⟩, by decide +kernel, _, eq_next (by decide +kernel)⟩
  have h : ∀ i, i < 4 → isFlash Params.i2.flashRanges ((phys 0x1D001000#32).toNat + i) = true := by decide +kernel
  have e : waiting.fl.addr = phys 0x1D001000#32 ∧ flashSpan waiting.cfg waiting.fl.kind = 4
      ∧ waiting.cfg.flashRanges = Params.i2.flashRanges := by decide +kernel
  rw [e.1, e.2.1] at hp
  rw [e.2.2]
  exact forall_inTarget (P := fun p => isFlash Params.i2.flashRanges p = true) h p (by
    simp only [within, Bool.and_eq_true, decide_eq_true_eq] at hp; exact hp)

theorem witness_StepKeepsTheRegistersConsistent : working.RegInv ∧ ∃ t, step working = .next t :=
  ⟨⟨by decide +kernel, by decide +kernel, by decide +kernel, by decide +kernel, by decide +kernel, by decide +kernel⟩,
    witness_ParametersNeverChange⟩

/-- Relative to flash in which one byte of the engine's region is 0. -/
theorem witness_StepKeepsProtectedFlash : working.GuardInv working.flashByte ∧ ∃ t, step working = .next t :=
  ⟨⟨fun _ _ _ => rfl, fun h => absurd h (by decide +kernel), rfl, by intro op h; exact absurd h (by simp [working, active, idle, State.reset])⟩,
    witness_ParametersNeverChange⟩

end Sys2Proof.Tests
end

section
/-! What every step keeps (R20, R31, R38, R42, R61, R95, R249, R250): each invariant is one `Kept`, from which
`step_keeps` makes the statement about the step. -/

namespace Sys2Proof.Machine

/-! ### The canonical memories -/

theorem State.MemInv.bufOk {s : State} (h : s.MemInv) : BufOk s := ⟨h.buf, h.inCap, h.body⟩

theorem BufOk.memInv {s : State} (h : BufOk s) (hf : Memory.wf s.cfg.erasedByte s.hw.array) : s.MemInv :=
  ⟨hf, h.buf, h.inCap, h.body⟩

/-- Stores into the flash array keep the canonical form, wherever they land. -/
theorem State.MemInv.of_reach {s u : State} {T : Nat → Prop} (h : s.MemInv) (hcfg : u.cfg = s.cfg) (hfr : u.fr = s.fr)
    (harray : ArrayReach s.cfg.erasedByte T s.hw.array u.hw.array) : u.MemInv :=
  ⟨by rw [hcfg]; exact harray.wf h.flash, by rw [hfr]; exact h.buf, by rw [hfr, hcfg]; exact h.inCap,
    by rw [hfr, hcfg]; exact h.body⟩

theorem State.MemInv.of_eq {s u : State} (h : s.MemInv) (hcfg : u.cfg = s.cfg) (hfr : u.fr = s.fr)
    (hhw : u.hw = s.hw) : u.MemInv :=
  h.of_reach hcfg hfr (by rw [hhw]; exact ArrayReach.refl _ (fun _ => True) _)

/-- R42, R51: the drawn bytes fill `BUF` from its start up to its capacity. -/
theorem State.MemInv.resetBlock {s : State} (h : s.MemInv) : s.resetBlock.MemInv := by
  obtain ⟨buf, hlen, hcfg, -, -, -, -, hidle, -, -, -, hbuf, harray⟩ := resetBlock_parts s
  refine ⟨by rw [hcfg]; exact harray.wf h.flash, by rw [hbuf]; exact Memory.wf_writeRange (Memory.wf_nil _) _ _, ?_,
    fun hb => absurd (hidle.symm.trans hb) (by simp)⟩
  intro c hc
  rw [hbuf] at hc
  rw [hcfg, ← hlen]
  rcases Memory.mem_writeRange hc with hc | hc
  · exact absurd hc (by simp)
  · omega

theorem memInv_kept : Kept State.MemInv fun _ _ => True where
  permitted _ _ _ := trivial
  alike _ _ h a := h.of_eq a.cfg a.fr a.hw
  res _ _ h := h.of_eq rfl rfl rfl
  flash _ _ _ h _ _ e := h.of_reach e.1.cfg e.1.fr e.2.1
  flashWaits _ _ h _ _ e := h.of_reach e.1.cfg e.1.fr e.2.1
  recv _ _ h o hbuf _ _ := (hbuf h.bufOk).memInv (by rw [o.cfg, o.hw]; exact h.flash)
  zeroise _ h _ := ⟨h.flash, Memory.wf_nil _, by simp, by simp⟩
  reset _ h := h.resetBlock
  inputs _ _ _ h _ := h.of_eq rfl rfl rfl
  start _ h := h.of_eq rfl rfl rfl
  port _ _ _ _ _ := trivial
  portOp _ _ _ h _ := h.of_eq rfl rfl rfl
  portKey _ _ _ h := h.of_eq rfl rfl rfl
  portIv _ _ _ h := h.of_eq rfl rfl rfl

/-- Settles O56: every store of the machine is a `Memory.writeRange`, and those into `BUF` end below its capacity. -/
theorem stepKeepsTheMemoriesCanonical : Obligations.StepKeepsTheMemoriesCanonical := fun _ t h =>
  step_keeps memInv_kept h t

/-! ### The registers -/

theorem State.RegInv.cipherOk {s : State} (h : s.RegInv) : CipherOk s := ⟨h.counters, h.keyed⟩

theorem mem_frRestStates {st : FrState} : st ∈ frRestStates ↔ st ≠ .decrypt ∧ st ≠ .verify ∧ st ≠ .extract := by
  cases st <;> decide

theorem isSome_resOfCode (r : Res) : (resOfCode (resCode r)).isSome = true := by rw [resCode_roundtrip]; rfl

/-- R38, R185: what the registers of the sequencer say of one another. -/
structure SequencerOk (s : State) : Prop where
  halted : s.fl.halted = true ↔ s.fl.state = .halt
  rests : s.fl.state = .idle ∨ s.fl.state = .wait ∨ s.fl.state = .clrWait ∨ s.fl.state = .halt

theorem State.RegInv.sequencerOk {s : State} (h : s.RegInv) : SequencerOk s := ⟨h.halted, h.flRests⟩

/-- An operation that ends leaves the sequencer idle. -/
theorem FlashEnds.sequencerOk_of_ends {T : Nat → Prop} {s u : State} {r : Res} (hh : s.fl.halted = false)
    (h : FlashEnds T s (.ends r u)) : SequencerOk u := by
  obtain ⟨-, -, hidle, hhalted, -⟩ := h
  exact ⟨by rw [hhalted, hh, hidle]; decide, .inl hidle⟩

/-- One that does not end leaves it waiting, or halted. -/
theorem FlashEnds.sequencerOk_of_blocks {T : Nat → Prop} {s u : State} (hh : s.fl.halted = false)
    (h : FlashEnds T s (.blocks u)) : SequencerOk u := by
  obtain ⟨-, -, ⟨hhalted, -, hwait⟩ | ⟨hhalt, hhalted, -⟩⟩ := h
  · rw [hh] at hhalted
    rcases hwait with hc | ⟨hw, -⟩
    · exact ⟨by rw [hhalted, hc]; decide, .inr (.inr (.inl hc))⟩
    · exact ⟨by rw [hhalted, hw]; decide, .inr (.inl hw)⟩
  · exact ⟨by rw [hhalted, hhalt]; decide, .inr (.inr (.inr hhalt))⟩

/-- Only the sequencer has changed. -/
theorem State.RegInv.of_flashOnly {s u : State} (h : s.RegInv) (o : FlashOnly s u) (q : SequencerOk u) : u.RegInv :=
  ⟨q.halted, q.rests, by rw [o.fr]; exact h.frRests, by rw [o.ciph]; exact h.counters,
    by rw [o.fr, o.ciph]; exact h.keyed, by rw [o.port]; exact h.result⟩

/-- Nothing that the registers say of one another has changed. -/
theorem State.RegInv.of_eq {s u : State} (h : s.RegInv) (hfl : u.fl = s.fl) (hfr : u.fr = s.fr)
    (hciph : u.ciph.cRem = s.ciph.cRem ∧ u.ciph.cOff = s.ciph.cOff ∧ u.ciph.keyed = s.ciph.keyed)
    (hres : u.port.res = s.port.res) : u.RegInv := by
  obtain ⟨hrem, hoff, hkeyed⟩ := hciph
  exact ⟨by rw [hfl]; exact h.halted, by rw [hfl]; exact h.flRests, by rw [hfr]; exact h.frRests,
    by rw [hrem, hoff]; exact h.counters, by rw [hfr, hkeyed]; exact h.keyed, by rw [hres]; exact h.result⟩

theorem State.RegInv.setRes {s : State} (h : s.RegInv) (r : Res) : (s.setRes r).RegInv :=
  ⟨h.halted, h.flRests, h.frRests, h.counters, h.keyed, isSome_resOfCode r⟩

theorem State.RegInv.of_recvOnly {s u : State} (h : s.RegInv) (o : RecvOnly s u) (c : CipherOk u)
    (hst : u.fr.state ∈ frRestStates) : u.RegInv :=
  ⟨by rw [o.fl]; exact h.halted, by rw [o.fl]; exact h.flRests, mem_frRestStates.mp hst, c.counters, c.keyed,
    by rw [o.port]; exact h.result⟩

/-- R271: the cipher is unkeyed and `SEQ` is 0; the sequencer's state and `RES` stay. -/
theorem State.RegInv.zeroise {s : State} (h : s.RegInv) : (zeroise s).RegInv :=
  ⟨h.halted, h.flRests, by simp, by simp, by simp, h.result⟩

/-- R51, R360. -/
theorem regInv_resetBlock (s : State) : s.resetBlock.RegInv := by
  obtain ⟨-, -, -, -, hport, hfl, hhalted, hfr, hseq, hrem, hoff, -, -⟩ := resetBlock_parts s
  exact ⟨by rw [hhalted, hfl]; decide, .inl hfl, by rw [hfr]; decide, ⟨hrem, hoff⟩, fun h => absurd hseq h,
    by rw [hport]; exact isSome_resOfCode .ok⟩

theorem regInv_kept : Kept State.RegInv fun _ _ => True where
  permitted _ _ _ := trivial
  alike _ _ h a := h.of_eq a.fl a.fr (by simp [a.ciph]) a.res
  res _ r h := h.setRes r
  flash _ _ _ h _ hh e := h.of_flashOnly e.1 (e.sequencerOk_of_ends hh)
  flashWaits _ _ h _ hh e := h.of_flashOnly e.1 (e.sequencerOk_of_blocks hh)
  recv _ _ h o _ hciph hst := h.of_recvOnly o (hciph h.cipherOk) hst
  zeroise _ h _ := h.zeroise
  reset s _ := regInv_resetBlock s
  inputs _ _ _ h _ := h.of_eq rfl rfl ⟨rfl, rfl, rfl⟩ rfl
  start _ h := h.of_eq rfl rfl ⟨rfl, rfl, rfl⟩ rfl
  port _ _ _ _ _ := trivial
  portOp _ _ _ h _ := h.of_eq rfl rfl ⟨rfl, rfl, rfl⟩ rfl
  portKey _ _ _ h := h.of_eq rfl rfl ⟨rfl, rfl, rfl⟩ rfl
  portIv _ _ _ h := h.of_eq rfl rfl ⟨rfl, rfl, rfl⟩ rfl

/-- Settles O58: a flash operation leaves the sequencer idle, waiting or halted (`FlashEnds`), a reception leaves the
frame unit and the cipher in order, and `RES` is written with a result of R95 or not at all. -/
theorem stepKeepsTheRegistersConsistent : Obligations.StepKeepsTheRegistersConsistent := fun _ t h =>
  step_keeps regInv_kept h t

/-! ### The parameters -/

theorem cfg_kept (c : Params) : Kept (fun s => s.cfg = c) fun _ _ => True where
  permitted _ _ _ := trivial
  alike _ _ h a := a.cfg.trans h
  res _ _ h := h
  flash _ _ _ h _ _ e := e.1.cfg.trans h
  flashWaits _ _ h _ _ e := e.1.cfg.trans h
  recv _ _ h o _ _ _ := o.cfg.trans h
  zeroise _ h _ := h
  reset s h := by
    obtain ⟨-, -, hcfg, -⟩ := resetBlock_parts s
    exact hcfg.trans h
  inputs _ _ _ h _ := h
  start _ h := h
  port _ _ _ _ _ := trivial
  portOp _ _ _ h _ := h
  portKey _ _ _ h := h
  portIv _ _ _ h := h

/-- Settles O55: to keep the parameters at the values they have is one of the properties a step keeps. -/
theorem parametersNeverChange : Obligations.ParametersNeverChange := fun s t =>
  step_keeps (cfg_kept s.cfg) rfl t

end Sys2Proof.Machine
end

section
/-! The state after reset (R51, R281), and what the next step does from a given state: an event of the outside world that
lands (R24, R34, R66), or the instruction fetched where the machine fetches (R234, R300). -/

namespace Sys2Proof.Machine

/-! ### The reset state -/

/-- Settles O1: each register is written out in `State.reset`. -/
theorem resetStateHoldsTheResetValues : Obligations.ResetStateHoldsTheResetValues :=
  ⟨rfl, rfl, rfl, rfl, rfl, rfl, rfl, rfl, rfl, rfl, rfl, rfl, rfl, rfl, rfl, rfl, rfl⟩

theorem not_inFlight_reset : ¬State.reset.inFlight = true := by simp [State.inFlight, State.reset]

/-- Both memories are empty. -/
theorem reset_memInv : State.reset.MemInv :=
  ⟨Memory.wf_nil _, Memory.wf_nil _, fun _ hc => absurd hc List.not_mem_nil, fun h => absurd h (by simp [State.reset])⟩

theorem reset_flashInv : State.reset.FlashInv :=
  ⟨fun _ hc => absurd hc List.not_mem_nil, fun h => absurd h not_inFlight_reset⟩

/-- The sequencers are idle, the cipher is unkeyed with `SEQ` 0, and `RES` is `RES_OK`. -/
theorem reset_regInv : State.reset.RegInv :=
  ⟨by simp [State.reset], .inl rfl, by simp [State.reset], ⟨rfl, rfl⟩, fun h => absurd rfl h, isSome_resOfCode .ok⟩

/-- No event is pending, so none writes the port. -/
theorem reset_guardInv : State.reset.GuardInv fun p => State.reset.flashByte p :=
  ⟨fun _ _ _ => rfl, fun h => absurd h not_inFlight_reset, rfl, fun _ => List.not_mem_nil⟩

/-- Settles O60. -/
theorem resetStateMeetsTheInvariants : Obligations.ResetStateMeetsTheInvariants :=
  ⟨reset_memInv, reset_flashInv, reset_regInv, reset_guardInv⟩

/-! ### Events of the outside world -/

theorem step_of_event {s : State} {i : Input} {rest : List Input} (hin : s.inputs = i :: rest) (hq : i ≠ .quiet) :
    step s = deliver i { s with inputs := rest } := by
  unfold step
  rw [hin]
  cases i with
  | quiet => exact absurd rfl hq
  | _ => rfl

theorem portWrite_of_free {w : State → State} {s : State} (hf : s.free) (hp : s.port.start = false) :
    portWrite w s = .next (w s) := by simp [portWrite, hf.1, hf.2, hp]

theorem portWrite_of_busy {w : State → State} {s : State} (hh : s.fl.halted = false) (hb : s.busy = true) :
    portWrite w s = .refused .portBusy := by simp [portWrite, hh, hb]

/-- R24, R34, R372: an event that writes the port lands when the block is free and is refused when it is busy. -/
theorem step_of_portWrite {s : State} {i : Input} {rest : List Input} {w : State → State} (hin : s.inputs = i :: rest)
    (hi : deliver i = portWrite w) (hq : i ≠ .quiet) :
    (s.free → s.port.start = false → step s = .next (w { s with inputs := rest }))
      ∧ (s.fl.halted = false → s.busy = true → step s = .refused .portBusy) := by
  rw [step_of_event hin hq, hi]
  exact ⟨fun hf hp => portWrite_of_free (s := { s with inputs := rest }) hf hp,
    fun hh hb => portWrite_of_busy (s := { s with inputs := rest }) hh hb⟩

/-- Settles O8. -/
theorem outsideWritesLand : Obligations.OutsideWritesLand := by
  refine ⟨fun s b rest hin => step_of_event hin (by simp), fun s rest i t hin hi => ?_⟩
  rcases hi with ⟨op, rfl, rfl⟩ | ⟨v, rfl, rfl⟩ | ⟨v, rfl, rfl⟩ | ⟨v, rfl, rfl⟩ | ⟨k, b, rfl, rfl⟩ | ⟨k, b, rfl, rfl⟩
  · exact step_of_portWrite (w := fun s => { s with port.op := op, port.start := true }) hin rfl (by simp)
  · exact step_of_portWrite (w := fun s => { s with port.opa := v }) hin rfl (by simp)
  · exact step_of_portWrite (w := fun s => { s with port.opb := v }) hin rfl (by simp)
  · exact step_of_portWrite (w := fun s => { s with port.opc := v }) hin rfl (by simp)
  · exact step_of_portWrite (w := fun s => { s with ciph.keyr := s.ciph.keyr.set k b }) hin rfl (by simp)
  · exact step_of_portWrite (w := fun s => { s with ciph.ivr := s.ciph.ivr.set k b }) hin rfl (by simp)

/-! ### Where the machine fetches -/

/-- R372: the block is not busy exactly when both sequencers are idle. -/
theorem busy_eq_false_iff {s : State} : s.busy = false ↔ s.fl.state = .idle ∧ s.fr.state = .idle := by
  simp [State.busy]

/-- R234: a frame unit that awaits its first length byte. -/
theorem fetch_of_len0 {s : State} (hf : s.frameFree) (hst : s.fr.state = .len0) : fetch s = fetchFrame [] s := by
  simp [fetch, hf.1, hf.2, hst]

/-- R234: one that awaits its second, with a byte there. -/
theorem fetch_of_len1 {s : State} (hf : s.frameFree) (hst : s.fr.state = .len1) (hrx : s.rx ≠ []) :
    fetch s = fetchFrame [s.fr.lenHi] s := by simp [fetch, hf.1, hf.2, hst, hrx]

/-- R24, R300: the operation that `OP` has started goes before the Command Loop. -/
theorem fetch_of_free {s : State} (hf : s.free) : fetch s = if s.port.start then fetchPort s else fetchLoop s := by
  obtain ⟨hfl, hfr⟩ := busy_eq_false_iff.mp hf.2
  simp [fetch, hf.1, hfl, hfr]

theorem fetchFrame_of_decode {s : State} {taken : List Byte} {i : Instr} {rest : List Byte}
    (hd : decode (.frame s.cfg.bufCap (s.fr.seq == 0#32)) (taken ++ s.rx) = .instr i rest) :
    fetchFrame taken s = .run i { s with rx := rest } := by
  unfold fetchFrame State.firstPacket
  rw [hd]

theorem fetchCommand_of_decode {s : State} {i : Instr} {rest : List Byte} (hd : decode .loop s.rx = .instr i rest) :
    fetchCommand s = .run i { s with rx := rest } := by
  unfold fetchCommand
  rw [hd]

/-- R300, R301: in `Active`, and in `Idle` until the handshake window has passed, the Command Loop takes a byte. -/
theorem fetchLoop_of_waiting {s : State}
    (hl : s.env.loop = .active ∨ (s.env.loop = .idle ∧ s.env.ticks - s.env.t0 < s.cfg.handshakeWindow)) :
    fetchLoop s = fetchCommand s := by
  unfold fetchLoop
  rcases hl with hl | ⟨hl, hw⟩
  · rw [hl]
  · rw [hl]
    have hopen : windowPassed s = false := by simpa [windowPassed] using hw
    simp [hopen]

theorem step_of_fetch_run {s t : State} {i : Instr} (hin : s.inputs = []) (hf : fetch s = .run i t) :
    step s = settle (exec i t) := by
  unfold step machineStep
  rw [hin, hf]

theorem settle_of_not_writing {s : State} (h : s.env.writing = false) : settle (.next s) = .next s := by
  simp [settle, resumeWrite, h]

/-- Settles O9: the fetch place of each clause gives the instruction that is decoded there. -/
theorem stepRunsTheDecodedInstruction : Obligations.StepRunsTheDecodedInstruction := by
  refine ⟨fun s hin hf hp => ?_, fun s i rest hin hf hst hd => ?_, fun s i rest hin hf hst hrx hd => ?_,
    fun s i rest hin hf hp hl hd => ?_, fun s => settle_of_not_writing⟩
  · exact step_of_fetch_run hin (by rw [fetch_of_free hf, if_pos hp, fetchPort])
  · exact step_of_fetch_run hin ((fetch_of_len0 hf hst).trans (fetchFrame_of_decode hd))
  · exact step_of_fetch_run hin ((fetch_of_len1 hf hst hrx).trans (fetchFrame_of_decode hd))
  · refine step_of_fetch_run hin ?_
    rw [fetch_of_free hf, if_neg (by simp [hp]), fetchLoop_of_waiting hl]
    exact fetchCommand_of_decode hd

end Sys2Proof.Machine
end

section
/-! Flash stays where flash is (R61, R97): a step stores into the flash array at flash addresses only, and a flash
operation that waits for the hardware targets flash addresses only. -/

namespace Sys2Proof.Machine

/-- R360 d: an idle sequencer has no operation in flight. -/
theorem not_inFlight_of_idle {s : State} (h : s.fl.state = .idle) : ¬s.inFlight = true := by simp [State.inFlight, h]

/-- Stores at flash addresses, and a target of flash addresses if an operation is in flight afterwards. -/
theorem State.FlashInv.of_reach {s u : State} (h : s.FlashInv) (hcfg : u.cfg = s.cfg)
    (harray : ArrayReach s.cfg.erasedByte (fun p => isFlash s.cfg.flashRanges p = true) s.hw.array u.hw.array)
    (htarget : u.inFlight = true →
      ∀ p, within u.fl.addr.toNat (flashSpan s.cfg u.fl.kind) p = true → isFlash s.cfg.flashRanges p = true) :
    u.FlashInv :=
  ⟨by rw [hcfg]; exact harray.forall_mem h.mapped, by rw [hcfg]; exact htarget⟩

/-- Neither the sequencer nor the flash hardware has changed. -/
theorem State.FlashInv.of_eq {s u : State} (h : s.FlashInv) (hcfg : u.cfg = s.cfg) (hfl : u.fl = s.fl)
    (hhw : u.hw = s.hw) : u.FlashInv :=
  h.of_reach hcfg (by rw [hhw]; exact ArrayReach.refl _ _ _)
    (by simpa only [State.inFlight, hfl] using h.target)

/-- An operation that ends has stored inside its target and leaves the sequencer idle. -/
theorem State.FlashInv.of_ends {s u : State} {r : Res} (h : s.FlashInv)
    (e : FlashEnds (fun p => isFlash s.cfg.flashRanges p = true) s (.ends r u)) : u.FlashInv := by
  obtain ⟨only, harray, hidle, -, -⟩ := e
  exact h.of_reach only.cfg harray fun hf => absurd hf (not_inFlight_of_idle hidle)

/-- One that does not end is in flight only where it waits for its own completion (`FL_WAIT`); its target has passed the
range check of R97 then. -/
theorem State.FlashInv.of_blocks {s u : State} (h : s.FlashInv)
    (e : FlashEnds (fun p => isFlash s.cfg.flashRanges p = true) s (.blocks u)) : u.FlashInv := by
  obtain ⟨only, harray, hends⟩ := e
  refine h.of_reach only.cfg harray fun hf => ?_
  rcases hends with ⟨-, -, hclear | ⟨-, htarget⟩⟩ | ⟨hhalt, -, -⟩
  · simp [State.inFlight, hclear] at hf
  · exact htarget
  · simp [State.inFlight, hhalt] at hf

/-- R360 d: a reset draws the bytes of a target in flight, which are flash. -/
theorem State.FlashInv.resetBlock {s : State} (h : s.FlashInv) : s.resetBlock.FlashInv := by
  obtain ⟨-, -, hcfg, -, -, hidle, -, -, -, -, -, -, harray⟩ := resetBlock_parts s
  exact h.of_reach hcfg (harray.mono fun p ⟨hf, hp⟩ => h.target hf p hp) fun hf => absurd hf (not_inFlight_of_idle hidle)

theorem flashInv_kept : Kept State.FlashInv fun cfg p => isFlash cfg.flashRanges p = true where
  permitted _ _ h := h.1
  alike _ _ h a := h.of_eq a.cfg a.fl a.hw
  res _ _ h := h.of_eq rfl rfl rfl
  flash _ _ _ h _ _ e := h.of_ends e
  flashWaits _ _ h _ _ e := h.of_blocks e
  recv _ _ h o _ _ _ := h.of_eq o.cfg o.fl o.hw
  zeroise _ h hidle := ⟨h.mapped, fun hf => absurd hf (not_inFlight_of_idle hidle)⟩
  reset _ h := h.resetBlock
  inputs _ _ _ h _ := h.of_eq rfl rfl rfl
  start _ h := h.of_eq rfl rfl rfl
  port _ _ _ _ hp := hp
  portOp _ _ _ h _ := h.of_eq rfl rfl rfl
  portKey _ _ _ h := h.of_eq rfl rfl rfl
  portIv _ _ _ h := h.of_eq rfl rfl rfl

/-- Settles O57: every target has passed the range check of R97, and a reset in the middle of an operation draws bytes of
its target only. -/
theorem stepKeepsFlashWhereFlashIs : Obligations.StepKeepsFlashWhereFlashIs := fun _ t h =>
  step_keeps flashInv_kept h t

end Sys2Proof.Machine
end

section
/-! What an operation of the command port reaches (R81): of the flash array the target that its operands name, of `BUF`
and of the receive channel nothing unless its row of the reach table says so. -/

namespace Sys2Proof.Machine

/-- R81, R175: a flash byte of the target that the operands of an operation name. -/
def operationTarget (cfg : Params) : Instr → Nat → Prop
  | .flErase a, p => inTarget a cfg.pageSize p
  | .flWword a _, p => inTarget a 4 p
  | .flWrow a _, p => inTarget a cfg.rowSize p
  | .flWrange a n _, p => inTarget a n.toNat p
  | _, _ => False

/-- R81: the operations that write `BUF`. -/
def writesBuf : Instr → Prop
  | .ciphProc _ _ | .frRecv | .sysZeroise => True
  | _ => False

/-- R81: what has changed from `s` to `t` is in reach of the operation. -/
structure WithinReach (i : Instr) (s t : State) : Prop where
  tx : t.tx = s.tx
  cfg : t.cfg = s.cfg
  inputs : t.inputs = s.inputs
  env : t.env = { s.env with status := t.env.status }
  rx : i ≠ .frRecv → t.rx = s.rx
  buf : ¬writesBuf i → t.fr.buf = s.fr.buf
  flash : ∀ p, ¬operationTarget s.cfg i p → t.flashByte p = s.flashByte p

/-- However the operation comes out, what has changed is in its reach. -/
def EndsWithinReach (i : Instr) (s : State) : OpResult → Prop
  | .ends _ u => WithinReach i s u
  | .blocks u => WithinReach i s u
  | .noMeaning _ => True

namespace WithinReach

variable {i : Instr} {s t : State}

theorem refl (i : Instr) (s : State) : WithinReach i s s :=
  ⟨rfl, rfl, rfl, rfl, fun _ => rfl, fun _ => rfl, fun _ _ => rfl⟩

theorem setRes (h : WithinReach i s t) (r : Res) : WithinReach i s (t.setRes r) :=
  ⟨h.tx, h.cfg, h.inputs, h.env, h.rx, h.buf, h.flash⟩

/-- The CRC unit, the cipher and the frame unit reach no flash. -/
theorem of_recvOnly (h : RecvOnly s t) (hrx : i ≠ .frRecv → t.rx = s.rx) (hbuf : ¬writesBuf i → t.fr.buf = s.fr.buf) :
    WithinReach i s t :=
  ⟨h.tx, h.cfg, h.inputs, by rw [h.env], hrx, hbuf, fun p _ => by simp only [State.flashByte, h.cfg, h.hw]⟩

/-- A flash operation reaches its target; `STATUS` changes at the halt. -/
theorem of_flashOnly {T : Nat → Prop} (h : FlashOnly s t) (henv : t.env = { s.env with status := t.env.status })
    (harray : ArrayReach s.cfg.erasedByte T s.hw.array t.hw.array) (hT : ∀ p, T p → operationTarget s.cfg i p) :
    WithinReach i s t :=
  ⟨h.tx, h.cfg, h.inputs, henv, fun _ => h.rx, fun _ => by rw [h.fr],
    fun p hp => by simpa only [State.flashByte, h.cfg] using harray.outside fun ht => hp (hT p ht)⟩

end WithinReach

variable {i : Instr} {s t : State}

theorem FlashEnds.withinReach {T : Nat → Prop} {r : OpResult} (h : FlashEnds T s r)
    (hT : ∀ p, T p → operationTarget s.cfg i p) : EndsWithinReach i s r := by
  cases r with
  | ends r u =>
    obtain ⟨only, harray, -, -, henv⟩ := h
    exact .of_flashOnly only (by rw [henv]) harray hT
  | blocks u =>
    obtain ⟨only, harray, ⟨-, henv, -⟩ | ⟨-, -, henv⟩⟩ := h
    · exact .of_flashOnly only (by rw [henv]) harray hT
    · exact .of_flashOnly only (by rw [henv]) harray hT
  | noMeaning f => trivial

/-- A CRC operation writes CRC registers. -/
theorem crc_withinReach (i : Instr) (s : State) (c : Crc) : WithinReach i s { s with crc := c } :=
  .of_recvOnly ⟨rfl, rfl, rfl, rfl, rfl, rfl, rfl, rfl⟩ (fun _ => rfl) fun _ => rfl

theorem crcUpd_withinReach (a : Word) : EndsWithinReach i s (crcUpd a s) := by
  unfold crcUpd
  split
  · exact .refl i s
  · exact crc_withinReach i s _

theorem crcBuf_withinReach (off n : Word) : EndsWithinReach i s (crcBuf off n s) := by
  unfold crcBuf
  split
  · exact .refl i s
  · exact crc_withinReach i s _

theorem crcMem_withinReach (a n : Word) : EndsWithinReach i s (crcMem a n s) := by
  unfold crcMem
  split
  · exact .refl i s
  · exact crc_withinReach i s _

/-- Key setup and a keystream block write cipher registers. -/
theorem ciph_withinReach (i : Instr) (s : State) (c : Cipher) : WithinReach i s { s with ciph := c } :=
  .of_recvOnly ⟨rfl, rfl, rfl, rfl, rfl, rfl, rfl, rfl⟩ (fun _ => rfl) fun _ => rfl

theorem ciphKeysetup_withinReach (kbits : Word) : EndsWithinReach i s (ciphKeysetup kbits s) := by
  unfold ciphKeysetup
  split
  · exact ciph_withinReach i s _
  · split
    · exact ciph_withinReach i s _
    · exact .refl i s

theorem ciphBlock_withinReach : EndsWithinReach i s (ciphBlock s) := by
  unfold ciphBlock
  split
  · trivial
  · exact ciph_withinReach i s _

theorem ciphProc_withinReach (off n : Word) : EndsWithinReach (.ciphProc off n) s (ciphProc off n s) := by
  unfold ciphProc
  split
  · exact .refl _ s
  · split
    · trivial
    · obtain ⟨sc, ks, buf, he, -⟩ := cipherRange_eq off.toNat n.toNat s n.isLt
      exact .of_recvOnly (cipherRange_recvOnly _ _ _ n.isLt) (fun _ => by rw [he]) fun h => absurd trivial h

theorem flCmp_withinReach (a n off : Word) : EndsWithinReach i s (flCmp a n off s) := by
  unfold flCmp
  split
  · exact .refl i s
  · split <;> exact .refl i s

theorem frRecv_withinReach : EndsWithinReach .frRecv s (frRecv s) := by
  have hr := frRecv_receives s
  cases he : frRecv s with
  | ends r u => rw [he] at hr; exact .of_recvOnly hr.1 (fun h => absurd rfl h) fun h => absurd trivial h
  | blocks u => rw [he] at hr; exact .of_recvOnly hr.1 (fun h => absurd rfl h) fun h => absurd trivial h
  | noMeaning f => trivial

/-- R271: of the memories `SYS.ZEROISE` clears `BUF` only. -/
theorem zeroise_withinReach : WithinReach .sysZeroise s (zeroise s) :=
  ⟨rfl, rfl, rfl, rfl, fun _ => rfl, fun h => absurd trivial h, fun _ _ => rfl⟩

/-- Halted, an operation changes nothing (R92); free, it stays within its reach, and writing `RES` leaves it there. -/
theorem runOperation_withinReach {op : State → OpResult} (h : runOperation op s = .next t)
    (hop : s.busy = false → EndsWithinReach i s (op s)) : WithinReach i s t := by
  rcases runOperation_next h with ⟨-, rfl⟩ | ⟨-, hfree, ⟨r, u, ho, rfl⟩ | ho⟩
  · exact .refl i t
  · have := hop hfree
    rw [ho] at this
    exact this.setRes r
  · have := hop hfree
    rwa [ho] at this

theorem exec_withinReach (hi : operationWords i ≠ none) (h : exec i s = .next t) : WithinReach i s t := by
  cases i with
  | crcInit => exact runOperation_withinReach h fun _ => crc_withinReach _ s _
  | crcUpd a => exact runOperation_withinReach h fun _ => crcUpd_withinReach a
  | crcBuf off n => exact runOperation_withinReach h fun _ => crcBuf_withinReach off n
  | crcMem a n => exact runOperation_withinReach h fun _ => crcMem_withinReach a n
  | crcChk e => exact runOperation_withinReach h fun _ => crc_withinReach _ s _
  | ciphKeysetup kbits => exact runOperation_withinReach h fun _ => ciphKeysetup_withinReach kbits
  | ciphBlock => exact runOperation_withinReach h fun _ => ciphBlock_withinReach
  | ciphProc off n => exact runOperation_withinReach h fun _ => ciphProc_withinReach off n
  | flErase a => exact runOperation_withinReach h fun _ => (flErase_ends a s).withinReach fun _ hp => hp.1
  | flWword a v => exact runOperation_withinReach h fun _ => (flWword_ends a v s).withinReach fun _ hp => hp.1
  | flWrow a off => exact runOperation_withinReach h fun _ => (flWrow_ends a off s).withinReach fun _ hp => hp.1
  | flWrange a n off =>
    exact runOperation_withinReach h fun hfree =>
      (flWrange_ends a n off s (busy_eq_false_iff.mp hfree).1).withinReach fun _ hp => hp.1
  | flCmp a n off => exact runOperation_withinReach h fun _ => flCmp_withinReach a n off
  | flNop => exact runOperation_withinReach h fun _ => (flNop_ends s).withinReach fun _ hp => hp.elim
  | frReset =>
    exact runOperation_withinReach h fun _ =>
      .of_recvOnly ⟨rfl, rfl, rfl, rfl, rfl, rfl, rfl, rfl⟩ (fun _ => rfl) fun _ => rfl
  | frRecv => exact runOperation_withinReach h fun _ => frRecv_withinReach
  | sysZeroise => exact runOperation_withinReach h fun _ => zeroise_withinReach
  | reserved code => exact runOperation_withinReach h fun _ => .refl _ s
  | pktEnd | pktIv | pktWrite | len | handshake | cmdInfo | cmdErase | cmdCrc | cmdWrite | cmdQuit | cmdUnknown =>
    exact absurd rfl hi

theorem not_writesBuf (hproc : ∀ off n, i ≠ .ciphProc off n) (hrecv : i ≠ .frRecv) (hzero : i ≠ .sysZeroise) :
    ¬writesBuf i := by
  intro h
  cases i with
  | ciphProc off n => exact hproc off n rfl
  | frRecv => exact hrecv rfl
  | sysZeroise => exact hzero rfl
  | _ => exact h

theorem not_operationTarget {cfg : Params} {p : Nat} (herase : ∀ a, i = .flErase a → ¬inTarget a cfg.pageSize p)
    (hword : ∀ a v, i = .flWword a v → ¬inTarget a 4 p) (hrow : ∀ a off, i = .flWrow a off → ¬inTarget a cfg.rowSize p)
    (hrange : ∀ a n off, i = .flWrange a n off → ¬inTarget a n.toNat p) : ¬operationTarget cfg i p := by
  intro h
  cases i with
  | flErase a => exact herase a rfl h
  | flWword a v => exact hword a v rfl h
  | flWrow a off => exact hrow a off rfl h
  | flWrange a n off => exact hrange a n off rfl h
  | _ => exact h

/-- Settles O42: what an operation changes is within its reach, and the hypotheses of each clause exclude the operations
that reach further. -/
theorem operationsReachOnlyTheirSpaces : Obligations.OperationsReachOnlyTheirSpaces := fun _ _ _ hi h =>
  have reach := exec_withinReach hi h
  ⟨reach.tx, reach.cfg, reach.inputs, reach.env, reach.rx,
    fun hproc hrecv hzero => reach.buf (not_writesBuf hproc hrecv hzero),
    fun p herase hword hrow hrange => reach.flash p (not_operationTarget herase hword hrow hrange)⟩

end Sys2Proof.Machine
end

section
/-! The encoder and the decoder (R90 to R93, R101 to R105, R109): what the decoder of each space makes of the bytes the
encoder writes there, and the round trip. -/

namespace Sys2Proof.Machine

/-- Settles O4. -/
theorem resultCodesAreTheTable : Obligations.ResultCodesAreTheTable :=
  ⟨rfl, rfl, rfl, rfl, rfl, rfl, rfl, rfl, rfl, rfl, rfl, rfl, rfl⟩

/-! ### The command port -/

/-- R90: the port reads the operation code and the three operand words that the encoder writes, least significant byte
first (log entry 4). -/
theorem decode_port_words (op : Byte) (a b c : Word) (rest : List Byte) :
    decode .port (op :: (bytesLE32 a ++ bytesLE32 b ++ bytesLE32 c) ++ rest) = .instr (decodeOperation op a b c) rest := by
  simp [bytesLE32, decode]

/-- R93: a code that is none of the seventeen is reserved, whatever the operands. -/
theorem decodeOperation_of_not_operationCode {op : Byte} (h : isOperationCode op = false) (a b c : Word) :
    decodeOperation op a b c = .reserved op := by
  simp only [isOperationCode, List.contains_eq_mem, decide_eq_false_iff_not, List.mem_cons, List.not_mem_nil, or_false,
    not_or] at h
  simp only [decodeOperation, h, if_false]

/-- R91: an operation's code and words decode to the operation. -/
theorem decodeOperation_of_operationWords {cap : Nat} {i : Instr} {op : Byte} {a b c : Word} (hwf : i.wf cap = true)
    (h : operationWords i = some (op, a, b, c)) : decodeOperation op a b c = i := by
  cases i with
  | reserved code =>
    cases h
    exact decodeOperation_of_not_operationCode (by simpa [Instr.wf] using hwf) ..
  | pktEnd | pktIv | pktWrite | len | handshake | cmdInfo | cmdErase | cmdCrc | cmdWrite | cmdQuit | cmdUnknown =>
    cases h
  | _ => cases h; rfl

theorem space_of_operationWords {cap : Nat} {i : Instr} (h : operationWords i ≠ none) : i.space cap = .port := by
  cases i with
  | pktEnd | pktIv | pktWrite | len | handshake | cmdInfo | cmdErase | cmdCrc | cmdWrite | cmdQuit | cmdUnknown =>
    exact absurd rfl h
  | _ => rfl

/-- R90 to R93: the round trip of the command port. -/
theorem decode_encode_of_operation {cap : Nat} {i : Instr} (rest : List Byte) (hwf : i.wf cap = true)
    (h : operationWords i ≠ none) : decode (i.space cap) (encode i ++ rest) = .instr i rest := by
  obtain ⟨⟨op, a, b, c⟩, hw⟩ := Option.ne_none_iff_exists'.mp h
  rw [space_of_operationWords h, encode, hw]
  exact (decode_port_words op a b c rest).trans (by rw [decodeOperation_of_operationWords hwf hw])

/-! ### The Command Loop -/

/-- R308: a byte that is none of the six is an unknown command. -/
theorem decodeCommand_of_not_commandByte {b : Byte} (h : isCommandByte b = false) : decodeCommand b = .cmdUnknown b := by
  simp only [isCommandByte, List.contains_eq_mem, decide_eq_false_iff_not, List.mem_cons, List.not_mem_nil, or_false,
    not_or] at h
  simp only [decodeCommand, h, if_false]

/-! ### The wire frames -/

/-- R101: the decoder of frames reads the length prefix that the encoder writes. -/
theorem decode_frame_prefix (cap : Nat) (first : Bool) (p : Half) (body : List Byte) :
    decode (.frame cap first) (bytesBE16 p ++ body) = decodeFrame cap first p body := by
  simp [bytesBE16, decode]

/-- R103, R105: twelve bytes behind their prefix are packet #1. -/
theorem decodeFrame_ivPacket (cap : Nat) (iv : Vector Byte 8) (checksum : Word) (rest : List Byte) :
    decodeFrame cap true 12#16 (iv.toList ++ bytesBE32 checksum ++ rest) = .instr (.pktIv iv checksum) rest := by
  obtain ⟨i0, i1, i2, i3, i4, i5, i6, i7, rfl⟩ :
      ∃ i0 i1 i2 i3 i4 i5 i6 i7 : Byte, iv = #v[i0, i1, i2, i3, i4, i5, i6, i7] :=
    ⟨iv[0], iv[1], iv[2], iv[3], iv[4], iv[5], iv[6], iv[7], by
      ext k hk
      interval_cases k <;> rfl⟩
  simp [decodeFrame, decodeIvPayload, bytesBE32]

/-- R104, R105, R107: in a later packet, a payload of at least 10 bytes that fits `BUF` and is all there is a write
packet. -/
theorem decodeFrame_writePacket {cap : Nat} {payload : List Byte} (rest : List Byte) (hmin : 10 ≤ payload.length)
    (hcap : payload.length ≤ cap) (hlt : payload.length < 65536) :
    decodeFrame cap false (BitVec.ofNat 16 payload.length) (payload ++ rest) = .instr (.pktWrite payload) rest := by
  have hp : (BitVec.ofNat 16 payload.length).toNat = payload.length := Nat.mod_eq_of_lt hlt
  have h0 : BitVec.ofNat 16 payload.length ≠ 0#16 := by
    intro h
    rw [h, BitVec.toNat_zero] at hp
    omega
  simp only [decodeFrame, if_neg h0, hp, Bool.false_eq_true, if_false]
  rw [if_pos ⟨hmin, hcap, by simp⟩, List.take_left, List.drop_left]

/-- R101, R234: a length prefix with nothing behind it stands for itself. -/
theorem decodeFrame_nil (cap : Nat) (first : Bool) {p : Half} (h : p ≠ 0#16) :
    decodeFrame cap first p [] = .instr (.len p) [] := by
  have hnoIv : ¬(p = 12#16 ∧ 12 ≤ ([] : List Byte).length) := by simp
  have hnoWrite : ¬(10 ≤ p.toNat ∧ p.toNat ≤ cap ∧ p.toNat ≤ ([] : List Byte).length) := by
    rw [List.length_nil]
    omega
  simp only [decodeFrame, if_neg h, if_neg hnoIv, if_neg hnoWrite, ite_self]

/-! ### The round trip -/

/-- Settles O6: an operation goes through the command port, a wire command through the byte that names it, and a wire
frame through its length prefix, which tells the formats apart. -/
theorem decodeAfterEncodeGivesTheInstruction : Obligations.DecodeAfterEncodeGivesTheInstruction := by
  intro cap i rest _ hwf hlen
  cases i with
  | pktEnd => exact decode_frame_prefix cap false 0#16 rest
  | pktIv iv checksum =>
    exact (decode_frame_prefix cap true 12#16 (iv.toList ++ bytesBE32 checksum ++ rest)).trans
      (decodeFrame_ivPacket cap iv checksum rest)
  | pktWrite payload =>
    obtain ⟨⟨hmin, hcap⟩, hlt⟩ : (10 ≤ payload.length ∧ payload.length ≤ cap) ∧ payload.length < 65536 := by
      simpa [Instr.wf] using hwf
    exact (decode_frame_prefix cap false _ (payload ++ rest)).trans (decodeFrame_writePacket rest hmin hcap hlt)
  | len p =>
    obtain rfl := hlen p rfl
    exact (decode_frame_prefix cap false p []).trans (decodeFrame_nil cap false (by simpa [Instr.wf] using hwf))
  | cmdUnknown b =>
    exact congrArg (Decoded.instr · rest) (decodeCommand_of_not_commandByte (by simpa [Instr.wf] using hwf))
  | handshake | cmdInfo | cmdErase | cmdCrc | cmdWrite | cmdQuit => rfl
  | _ => exact decode_encode_of_operation rest hwf (by simp [operationWords])

/-- Settles O5: the decoder evaluates each word. -/
theorem wordsOfTheSpecDecode : Obligations.WordsOfTheSpecDecode :=
  ⟨rfl, rfl, rfl, rfl, rfl, rfl⟩

end Sys2Proof.Machine
end

section
/-! The checksum (R120, R123): the update is linear, an accumulator whose top bits are clear is only shifted, and a byte
equal to the accumulator's top byte cancels it. -/

namespace Sys2Proof.Machine

/-! ### The steps of the update -/

theorem crcStep_of_msb {x : Word} (poly : Word) (h : x.msb = true) : crcStep poly x = x <<< 1 ^^^ poly := if_pos h

theorem crcStep_of_not_msb {x : Word} (poly : Word) (h : x.msb = false) : crcStep poly x = x <<< 1 := by
  simp [crcStep, h]

/-- Where both top bits are set, the polynomial goes in twice on the right and cancels. -/
theorem crcStep_xor (poly x y : Word) : crcStep poly (x ^^^ y) = crcStep poly x ^^^ crcStep poly y := by
  have hmsb := BitVec.msb_xor (x := x) (y := y)
  have hshift := BitVec.shiftLeft_xor_distrib x y 1
  cases hx : x.msb <;> cases hy : y.msb <;> rw [hx, hy] at hmsb
  · rw [crcStep_of_not_msb poly hmsb, crcStep_of_not_msb poly hx, crcStep_of_not_msb poly hy, hshift]
  · rw [crcStep_of_msb poly hmsb, crcStep_of_not_msb poly hx, crcStep_of_msb poly hy, hshift, BitVec.xor_assoc]
  · rw [crcStep_of_msb poly hmsb, crcStep_of_msb poly hx, crcStep_of_not_msb poly hy, hshift]
    ac_rfl
  · rw [crcStep_of_not_msb poly hmsb, crcStep_of_msb poly hx, crcStep_of_msb poly hy, hshift]
    calc x <<< 1 ^^^ y <<< 1 = x <<< 1 ^^^ y <<< 1 ^^^ (poly ^^^ poly) := by rw [BitVec.xor_self, BitVec.xor_zero]
      _ = x <<< 1 ^^^ poly ^^^ (y <<< 1 ^^^ poly) := by ac_rfl

theorem repeat_crcStep_xor (poly : Word) (k : Nat) (x y : Word) :
    Nat.repeat (crcStep poly) k (x ^^^ y) = Nat.repeat (crcStep poly) k x ^^^ Nat.repeat (crcStep poly) k y := by
  induction k with
  | zero => rfl
  | succ k ih => simp only [Nat.repeat, ih, crcStep_xor]

/-- While no set bit comes to the top, the steps only shift. -/
theorem repeat_crcStep_of_not_msb (poly : Word) {x : Word} {k : Nat} (h : ∀ i < k, (x <<< i).msb = false) :
    Nat.repeat (crcStep poly) k x = x <<< k := by
  induction k with
  | zero => exact (BitVec.shiftLeft_zero x).symm
  | succ k ih =>
    rw [Nat.repeat, ih fun i hi => h i (by omega), crcStep_of_not_msb poly (h k (by omega)), BitVec.shiftLeft_add]

/-! ### The update by one byte -/

/-- R123, linearity. -/
theorem crcUpdate_xor (poly x y : Word) (b c : Byte) :
    crcUpdate poly (x ^^^ y) (b ^^^ c) = crcUpdate poly x b ^^^ crcUpdate poly y c := by
  have regroup (p q : Word) : x ^^^ y ^^^ (p ^^^ q) = (x ^^^ p) ^^^ (y ^^^ q) := by ac_rfl
  unfold crcUpdate
  rw [BitVec.setWidth_xor, BitVec.shiftLeft_xor_distrib, regroup, repeat_crcStep_xor]

/-- R123: a zero byte leaves the accumulator 0. -/
theorem crcUpdate_zero_zero (poly : Word) : crcUpdate poly 0#32 0#8 = 0#32 :=
  repeat_crcStep_of_not_msb poly (x := 0#32) (k := 8) (by decide)

/-- R123, single byte: seven steps bring its bit to the top, and the eighth puts the polynomial in its place. -/
theorem crcUpdate_zero_one (poly : Word) : crcUpdate poly 0#32 0x01#8 = poly := by
  have seven : Nat.repeat (crcStep poly) 7 0x01000000#32 = 0x80000000#32 :=
    repeat_crcStep_of_not_msb poly (by decide)
  calc crcUpdate poly 0#32 0x01#8 = crcStep poly (Nat.repeat (crcStep poly) 7 0x01000000#32) := rfl
    _ = 0x80000000#32 <<< 1 ^^^ poly := by rw [seven, crcStep_of_msb poly (by decide)]
    _ = poly := BitVec.zero_xor

/-- The top byte of a word, folded in at the top, clears it. -/
theorem getLsbD_xor_own_top_byte (w : Word) (i : Nat) :
    (w ^^^ (w.extractLsb' 24 8).setWidth 32 <<< 24).getLsbD i = (w.getLsbD i && decide (i < 24)) := by
  by_cases h24 : i < 24
  · simp [h24]
  · by_cases h32 : i < 32
    · simp [h24, h32, show i - 24 < 8 by omega, show 24 + (i - 24) = i by omega]
    · simp [BitVec.getLsbD_of_ge _ _ (Nat.le_of_not_lt h32)]

/-- A byte equal to the accumulator's top byte cancels it, and the other three move up. -/
theorem crcUpdate_own_top_byte (poly acc : Word) : crcUpdate poly acc (acc.extractLsb' 24 8) = acc <<< 8 := by
  have clear : ∀ i < 8, ((acc ^^^ (acc.extractLsb' 24 8).setWidth 32 <<< 24) <<< i).msb = false := fun i hi => by
    rw [BitVec.msb_eq_getLsbD_last, BitVec.getLsbD_shiftLeft, getLsbD_xor_own_top_byte,
      decide_eq_false (p := 32 - 1 - i < 24) (by omega), Bool.and_false, Bool.and_false]
  rw [crcUpdate, repeat_crcStep_of_not_msb poly clear]
  refine BitVec.eq_of_getLsbD_eq fun i hi => ?_
  rw [BitVec.getLsbD_shiftLeft, BitVec.getLsbD_shiftLeft, getLsbD_xor_own_top_byte,
    decide_eq_true (p := i - 8 < 24) (by omega), Bool.and_true]

/-! ### The checksum of a byte string -/

/-- R123, chaining. -/
theorem crcBytes_append (poly seed : Word) (a b : List Byte) :
    crcBytes poly seed (a ++ b) = crcBytes poly (crcBytes poly seed a) b := List.foldl_append

theorem crcBytes_zeros (poly : Word) (k : Nat) : crcBytes poly 0#32 (List.replicate k 0#8) = 0#32 := by
  induction k with
  | zero => rfl
  | succ k ih => rwa [List.replicate_succ, crcBytes, List.foldl_cons, crcUpdate_zero_zero]

/-- A byte of a word comes to the top as the word is shifted. -/
theorem extractLsb'_eq_top_of_shiftLeft (w : Word) {k : Nat} (hk : k ≤ 24) :
    w.extractLsb' (24 - k) 8 = (w <<< k).extractLsb' 24 8 := by
  refine BitVec.eq_of_getLsbD_eq fun i hi => ?_
  have hlow : ¬24 + i < k := by omega
  have htop : 24 + i < 32 := by omega
  have hplace : 24 + i - k = 24 - k + i := by omega
  simp only [BitVec.getLsbD_extractLsb', BitVec.getLsbD_shiftLeft, hi, hlow, htop, hplace, decide_true, decide_false,
    Bool.not_false, Bool.true_and]

/-- Each byte of the accumulator, in wire order, meets itself at the top. -/
theorem crcBytes_own_bytesBE32 (poly acc : Word) : crcBytes poly acc (bytesBE32 acc) = 0#32 := by
  have moved (k : Nat) (hk : k ≤ 24) : crcUpdate poly (acc <<< k) (acc.extractLsb' (24 - k) 8) = acc <<< (k + 8) := by
    rw [extractLsb'_eq_top_of_shiftLeft acc hk, crcUpdate_own_top_byte, BitVec.shiftLeft_add]
  calc crcBytes poly acc (bytesBE32 acc)
      = crcUpdate poly (crcUpdate poly (crcUpdate poly (crcUpdate poly acc (acc.extractLsb' 24 8))
        (acc.extractLsb' 16 8)) (acc.extractLsb' 8 8)) (acc.extractLsb' 0 8) := rfl
    _ = acc <<< 32 := by rw [crcUpdate_own_top_byte, moved 8 (by omega), moved 16 (by omega), moved 24 (by omega)]
    _ = 0#32 := BitVec.shiftLeft_eq_zero (by omega)

/-! ### The statements about the checksum -/

/-- Settles O13: leading zero bytes are a chaining from 0 to 0. -/
theorem checksumLaws : Obligations.ChecksumLaws := fun poly =>
  ⟨fun a b seed => crcBytes_append poly seed a b, rfl, fun k m => by rw [crcBytes_append, crcBytes_zeros],
    crcUpdate_xor poly, crcUpdate_zero_one poly⟩

/-- Settles O14: the message leaves its checksum, whose bytes then cancel it. -/
theorem messageAndItsChecksumLeaveZero : Obligations.MessageAndItsChecksumLeaveZero := fun poly m =>
  (crcBytes_append poly 0#32 m _).trans (crcBytes_own_bytesBE32 poly _)

end Sys2Proof.Machine
end

section
/-! The operations of the CRC unit from a block that is free (R121, R122, R124 to R126), one law for each way an operation
ends. -/

namespace Sys2Proof.Machine

/-! ### The operands -/

/-- R90: the operand of `CRC.UPD` is a byte when no bit above the byte is set. -/
theorem fitsBits_byte_iff (v : Word) : fitsBits 8 v = true ↔ v.extractLsb' 8 24 = 0#24 := by
  rw [fitsBits, decide_eq_true_eq, ← BitVec.toNat_inj, BitVec.extractLsb'_toNat, Nat.shiftRight_eq_div_pow,
    BitVec.toNat_zero]
  have := v.isLt
  omega

/-- R62: an address that stays below the end of the physical space moves in its physical form as it does itself. -/
theorem toNat_phys_add {a m : Word} (h : (phys a).toNat + m.toNat < physSpace) :
    (phys (a + m)).toNat = (phys a).toNat + m.toNat := by
  rw [toNat_phys] at h ⊢
  rw [toNat_phys, BitVec.toNat_add]
  simp only [physSpace] at *
  omega

/-- The bytes of a flash range and then those of the range behind it; at the end of the physical space the range behind
it is empty. -/
theorem flashRange_adjacent (s : State) {a m : Word} {n : Nat} (h : (phys a).toNat + (m.toNat + n) ≤ physSpace) :
    s.flashRange (phys a).toNat (m.toNat + n)
      = s.flashRange (phys a).toNat m.toNat ++ s.flashRange (phys (a + m)).toNat n := by
  rw [State.flashRange, Memory.readRange_add]
  cases n with
  | zero => rfl
  | succ n => rw [← toNat_phys_add (by omega)]; rfl

theorem flashRangeFits_left {cfg : Params} {a : Word} {m n : Nat} (h : flashRangeFits cfg a (m + n)) :
    flashRangeFits cfg a m := by
  obtain ⟨hend, hflash⟩ := h
  exact ⟨by omega, fun p hlo hhi => hflash p hlo (by omega)⟩

theorem flashRangeFits_right {cfg : Params} {a m : Word} {n : Nat} (h : flashRangeFits cfg a (m.toNat + n)) :
    flashRangeFits cfg (a + m) n := by
  obtain ⟨hend, hflash⟩ := h
  cases n with
  | zero =>
    have := toNat_phys (a + m)
    exact ⟨by simp only [physSpace] at this; omega, fun p hlo hhi => absurd hhi (by omega)⟩
  | succ n =>
    have hphys : (phys (a + m)).toNat = (phys a).toNat + m.toNat := toNat_phys_add (by simp only [physSpace]; omega)
    rw [flashRangeFits, hphys]
    exact ⟨by omega, fun p hlo hhi => hflash p (by omega) (by omega)⟩

/-! ### How each operation ends -/

/-- R122, an operand with a bit above the byte. -/
theorem crcUpd_of_wide (s : State) {opa : Word} (h : opa.extractLsb' 8 24 ≠ 0#24) :
    crcUpd opa s = .ends .errRange s := by
  have hfits : fitsBits 8 opa = false := by rwa [← Bool.not_eq_true, fitsBits_byte_iff]
  rw [crcUpd, hfits]
  rfl

/-- R122, an operand that is a byte. -/
theorem crcUpd_of_byte (s : State) {opa : Word} (h : opa.extractLsb' 8 24 = 0#24) :
    crcUpd opa s = .ends .ok { s with crc.acc := crcUpdate s.cfg.crcPoly s.crc.acc (opa.extractLsb' 0 8) } := by
  rw [crcUpd, (fitsBits_byte_iff opa).mpr h, BitVec.setWidth_eq_extractLsb' (by omega)]
  rfl

/-- R124, a range that passes `BUF_CAP`. -/
theorem crcBuf_of_not_fits {s : State} {off n : Word} (h : s.cfg.bufCap < off.toNat + n.toNat) :
    crcBuf off n s = .ends .errRange s := by
  have hfits : bufFits s.cfg off.toNat n.toNat = false := by rw [← Bool.not_eq_true, bufFits_eq_true]; omega
  rw [crcBuf, hfits]
  rfl

/-- R124, a range that fits. -/
theorem crcBuf_of_fits {s : State} {off n : Word} (h : off.toNat + n.toNat ≤ s.cfg.bufCap) :
    crcBuf off n s
      = .ends .ok { s with crc.acc := crcBytes s.cfg.crcPoly s.crc.acc (s.bufRange off.toNat n.toNat) } := by
  rw [crcBuf, (bufFits_eq_true ..).mpr h]
  rfl

/-- R125, a range that does not fit. -/
theorem crcMem_of_not_fits {s : State} {a n : Word} (h : ¬flashRangeFits s.cfg a n.toNat) :
    crcMem a n s = .ends .errRange s := by
  rw [crcMem, flashFits_eq_false h]
  rfl

/-- R125, a range that fits. -/
theorem crcMem_of_fits {s : State} {a n : Word} (h : flashRangeFits s.cfg a n.toNat) :
    crcMem a n s
      = .ends .ok { s with crc.acc := crcBytes s.cfg.crcPoly s.crc.acc (s.flashRange (phys a).toNat n.toNat) } := by
  rw [crcMem, (flashFits_iff_flashRangeFits ..).mpr h]
  rfl

/-! ### From a free block -/

/-- An operation that a free block runs to its end leaves `RES` written over what it has done (R24, R95). -/
theorem runOperation_of_ends {op : State → OpResult} {s t : State} {r : Res} (hf : s.free) (h : op s = .ends r t) :
    runOperation op s = .next (t.setRes r) := by
  rw [runOperation_free hf.1 hf.2, h]
  rfl

/-- R125, a range that fits. -/
theorem exec_crcMem_of_fits {s : State} (hf : s.free) {a n : Word} (h : flashRangeFits s.cfg a n.toNat) :
    exec (.crcMem a n) s = .next
      { s with
        crc.acc := crcBytes s.cfg.crcPoly s.crc.acc (s.flashRange (phys a).toNat n.toNat)
        port.res := resCode .ok } :=
  runOperation_of_ends hf (crcMem_of_fits h)

/-- R125: the second of two calls over adjacent ranges goes on from the accumulator that the first has left. -/
theorem exec_crcMem_adjacent {s u : State} {a m n : Word} (hf : s.free) (hlen : m.toNat + n.toNat < 2 ^ 32)
    (hfit : flashRangeFits s.cfg a (m.toNat + n.toNat)) (hfirst : exec (.crcMem a m) s = .next u) :
    exec (.crcMem (a + m) n) u = exec (.crcMem a (m + n)) s := by
  have hsum : (m + n).toNat = m.toNat + n.toNat := by rw [BitVec.toNat_add, Nat.mod_eq_of_lt hlen]
  have hunion : exec (.crcMem a (m + n)) s = _ := exec_crcMem_of_fits hf (by rwa [hsum])
  rw [exec_crcMem_of_fits hf (flashRangeFits_left hfit)] at hfirst
  have hu := (Host.Outcome.next.inj hfirst).symm
  have hcfg : u.cfg = s.cfg := by rw [hu]
  have hfree : u.free := by rw [hu]; exact hf
  have hright : flashRangeFits u.cfg (a + m) n.toNat := by rw [hcfg]; exact flashRangeFits_right hfit
  rw [hunion, hsum, flashRange_adjacent s hfit.1, crcBytes_append, exec_crcMem_of_fits hfree hright, hu]
  rfl

/-! ### The statements about the operations -/

/-- Settles O10, by the ways the three operations end. -/
theorem crcInitUpdAndChkSetTheirRegisters : Obligations.CrcInitUpdAndChkSetTheirRegisters := by
  refine ⟨fun s hf => runOperation_of_ends (op := crcInit) hf rfl, fun s opa hf => ⟨fun hwide => ?_, fun hbyte => ?_⟩,
    fun s e hf => ?_⟩
  · exact runOperation_of_ends hf (crcUpd_of_wide s hwide)
  · exact runOperation_of_ends hf (crcUpd_of_byte s hbyte)
  · refine (runOperation_of_ends (op := crcChk e) hf rfl).trans ?_
    by_cases h : s.crc.acc = e <;> simp [crcRecord, crcMatch, State.setRes, h]

/-- Settles O11, by the two ways the operation ends. -/
theorem crcBufThreadsTheBuffer : Obligations.CrcBufThreadsTheBuffer := fun _ _ _ hf =>
  ⟨fun h => runOperation_of_ends hf (crcBuf_of_not_fits h), fun h => runOperation_of_ends hf (crcBuf_of_fits h)⟩

/-- Settles O12: the union of two adjacent ranges reads as the one and then the other, and the checksum chains. -/
theorem crcMemThreadsTheFlash : Obligations.CrcMemThreadsTheFlash :=
  ⟨fun _ _ _ hf => ⟨fun h => runOperation_of_ends hf (crcMem_of_not_fits h), exec_crcMem_of_fits hf⟩,
    fun _ _ _ _ _ => exec_crcMem_adjacent⟩

end Sys2Proof.Machine
end

section
/-! The quarter-rounds (R144, R145, R148): each writes its own four words from its own four words, so that those on
disjoint words commute. -/

namespace Sys2Proof.Machine

/-! ### One quarter-round -/

theorem getElem_set_fin_self (v : Block) (i : Fin 16) (x : Word) : (v.set i x)[i] = x := Vector.getElem_set_self _

theorem getElem_set_fin_ne (v : Block) {i j : Fin 16} (x : Word) (h : i ≠ j) : (v.set i x)[j] = v[j] :=
  Vector.getElem_set_ne _ _ fun e => h (Fin.ext e)

/-- R144: the first six of the twelve assignments and, with two other rotations, the last six. -/
def halfQuarterRound (m n : Nat) (v : Block) (a b c d : Fin 16) : Block :=
  let v := v.set a (v[a] + v[b])
  let v := v.set d (rotl32 (v[d] ^^^ v[a]) m)
  let v := v.set c (v[c] + v[d])
  v.set b (rotl32 (v[b] ^^^ v[c]) n)

theorem quarterRound_eq_halves (v : Block) (a b c d : Fin 16) :
    quarterRound v a b c d = halfQuarterRound 8 7 (halfQuarterRound 16 12 v a b c d) a b c d := rfl

theorem getElem_halfQuarterRound (m n : Nat) (v : Block) {a b c d : Fin 16} (h : [a, b, c, d].Nodup) :
    let a1 := v[a] + v[b]; let d1 := rotl32 (v[d] ^^^ a1) m
    let c1 := v[c] + d1; let b1 := rotl32 (v[b] ^^^ c1) n
    let w := halfQuarterRound m n v a b c d
    w[a] = a1 ∧ w[b] = b1 ∧ w[c] = c1 ∧ w[d] = d1 := by
  simp only [List.nodup_cons, List.mem_cons, List.not_mem_nil, or_false, not_or] at h
  obtain ⟨⟨hab, hac, had⟩, ⟨hbc, hbd⟩, hcd, -⟩ := h
  simp only [halfQuarterRound, getElem_set_fin_self, getElem_set_fin_ne, hab, hac, had, hbc, hbd, hcd, Ne.symm hab,
    Ne.symm hac, Ne.symm had, Ne.symm hbc, Ne.symm hbd, Ne.symm hcd, ne_eq, not_false_eq_true, and_self]

theorem getElem_halfQuarterRound_of_notMem (m n : Nat) (v : Block) {a b c d i : Fin 16} (h : i ∉ [a, b, c, d]) :
    (halfQuarterRound m n v a b c d)[i] = v[i] := by
  simp only [List.mem_cons, List.not_mem_nil, or_false, not_or] at h
  obtain ⟨ha, hb, hc, hd⟩ := h
  simp only [halfQuarterRound, getElem_set_fin_ne, Ne.symm ha, Ne.symm hb, Ne.symm hc, Ne.symm hd, ne_eq,
    not_false_eq_true]

theorem getElem_quarterRound_of_notMem (v : Block) {a b c d i : Fin 16} (h : i ∉ [a, b, c, d]) :
    (quarterRound v a b c d)[i] = v[i] := by
  rw [quarterRound_eq_halves, getElem_halfQuarterRound_of_notMem _ _ _ h, getElem_halfQuarterRound_of_notMem _ _ _ h]

/-- What a half leaves in its four words depends on these four words only. -/
theorem getElem_halfQuarterRound_congr (m n : Nat) {v w : Block} {a b c d : Fin 16} (h : [a, b, c, d].Nodup)
    (hvw : ∀ i ∈ [a, b, c, d], v[i] = w[i]) :
    ∀ i ∈ [a, b, c, d], (halfQuarterRound m n v a b c d)[i] = (halfQuarterRound m n w a b c d)[i] := by
  obtain ⟨va, vb, vc, vd⟩ := getElem_halfQuarterRound m n v h
  obtain ⟨wa, wb, wc, wd⟩ := getElem_halfQuarterRound m n w h
  simp only [List.forall_mem_cons, List.not_mem_nil, false_imp_iff, forall_const, and_true] at hvw ⊢
  obtain ⟨ha, hb, hc, hd⟩ := hvw
  rw [va, vb, vc, vd, wa, wb, wc, wd, ha, hb, hc, hd]
  exact ⟨rfl, rfl, rfl, rfl⟩

theorem getElem_quarterRound_congr {v w : Block} {a b c d : Fin 16} (h : [a, b, c, d].Nodup)
    (hvw : ∀ i ∈ [a, b, c, d], v[i] = w[i]) :
    ∀ i ∈ [a, b, c, d], (quarterRound v a b c d)[i] = (quarterRound w a b c d)[i] :=
  getElem_halfQuarterRound_congr 8 7 h (getElem_halfQuarterRound_congr 16 12 h hvw)

/-! ### Two quarter-rounds on disjoint words -/

/-- On the words of the first of two disjoint quarter-rounds, the second changes nothing in either order. -/
theorem getElem_quarterRound_swap (v : Block) {a b c d e f g h : Fin 16} (hn : [a, b, c, d].Nodup)
    (hd : [a, b, c, d].Disjoint [e, f, g, h]) : ∀ i ∈ [a, b, c, d],
      (quarterRound (quarterRound v a b c d) e f g h)[i] = (quarterRound (quarterRound v e f g h) a b c d)[i] :=
  fun i hi => calc (quarterRound (quarterRound v a b c d) e f g h)[i]
      = (quarterRound v a b c d)[i] := getElem_quarterRound_of_notMem _ (hd hi)
    _ = (quarterRound (quarterRound v e f g h) a b c d)[i] :=
      getElem_quarterRound_congr hn (fun _ hj => (getElem_quarterRound_of_notMem v (hd hj)).symm) i hi

theorem quarterRound_comm (v : Block) {a b c d e f g h : Fin 16} (hn : [a, b, c, d, e, f, g, h].Nodup) :
    quarterRound (quarterRound v a b c d) e f g h = quarterRound (quarterRound v e f g h) a b c d := by
  obtain ⟨hfst, hsnd, hdisj⟩ := List.nodup_append'.mp (show ([a, b, c, d] ++ [e, f, g, h]).Nodup from hn)
  have pointwise (i : Fin 16) : (quarterRound (quarterRound v a b c d) e f g h)[i]
      = (quarterRound (quarterRound v e f g h) a b c d)[i] := by
    by_cases h1 : i ∈ [a, b, c, d]
    · exact getElem_quarterRound_swap v hfst hdisj i h1
    by_cases h2 : i ∈ [e, f, g, h]
    · exact (getElem_quarterRound_swap v hsnd hdisj.symm i h2).symm
    · simp only [getElem_quarterRound_of_notMem _ h1, getElem_quarterRound_of_notMem _ h2]
  exact Vector.ext fun i hi => pointwise ⟨i, hi⟩

/-! ### The double-rounds -/

theorem doubleRounds_eq_iterate (n : Nat) (v : Block) : doubleRounds n v = doubleRound^[n] v := by
  induction n generalizing v with
  | zero => rfl
  | succ n ih => rw [Function.iterate_succ_apply, ← ih, doubleRounds]

/-! ### The statements about the rounds -/

/-- Settles O16: the last six assignments read what the first six have written. -/
theorem quarterRoundUpdatesItsFourWords : Obligations.QuarterRoundUpdatesItsFourWords := by
  intro v a b c d h
  obtain ⟨ha1, hb1, hc1, hd1⟩ := getElem_halfQuarterRound 16 12 v h
  obtain ⟨ha2, hb2, hc2, hd2⟩ := getElem_halfQuarterRound 8 7 (halfQuarterRound 16 12 v a b c d) h
  simp only [ha1, hb1, hc1, hd1] at ha2 hb2 hc2 hd2
  exact ⟨ha2, hb2, hc2, hd2, fun i hi => getElem_quarterRound_of_notMem v hi⟩

/-- Settles O17: each of two quarter-rounds on disjoint words neither writes nor reads the other's words. -/
theorem disjointQuarterRoundsCommute : Obligations.DisjointQuarterRoundsCommute :=
  ⟨fun _ => rfl, doubleRounds_eq_iterate, fun v _ _ _ _ _ _ _ _ => quarterRound_comm v⟩

end Sys2Proof.Machine
end

section
/-! The operations of the cipher unit from a block that is free (R141 to R143, R145 to R147, R150 to R154), one law for
each way an operation ends. -/

namespace Sys2Proof.Machine

/-! ### The words of the keyed register (R141, R142) -/

theorem wordAt_toList {n : Nat} (v : Vector Byte n) (i : Nat) (h : i + 3 < n) :
    wordAt v.toList i = le32 v[i] v[i + 1] v[i + 2] v[i + 3] := by
  rw [wordAt, getD_toList v i (by omega), getD_toList v (i + 1) (by omega), getD_toList v (i + 2) (by omega),
    getD_toList v (i + 3) h]

theorem wordAt_drop (bytes : List Byte) (k i : Nat) : wordAt (bytes.drop k) i = wordAt bytes (k + i) := by
  simp only [wordAt, List.getD_eq_getElem?_getD, List.getElem?_drop, Nat.add_assoc]

theorem keyedBlock_constants (bits256 : Bool) (key iv : List Byte) (i : Nat) (h : i < 4) :
    (keyedBlock bits256 key iv)[i] = (keyConstants bits256).getD i 0#32 := by
  rw [keyedBlock, getElem_vecOf, if_pos h]

theorem keyedBlock_key (bits256 : Bool) (key iv : List Byte) (i : Nat) (h : i < 4) :
    (keyedBlock bits256 key iv)[4 + i] = wordAt key (4 * i) := by
  rw [keyedBlock, getElem_vecOf, if_neg (by omega), if_pos (by omega), Nat.add_sub_cancel_left]

theorem keyedBlock_key_256 (key iv : List Byte) (i : Nat) (h : i < 4) :
    (keyedBlock true key iv)[8 + i] = wordAt key (16 + 4 * i) := by
  rw [keyedBlock, getElem_vecOf, if_neg (by omega), if_neg (by omega), if_pos (by omega), Nat.add_sub_cancel_left,
    if_pos rfl, wordAt_drop]

/-- R156: a 128-bit key stands in both halves. -/
theorem keyedBlock_key_128 (key iv : List Byte) (i : Nat) (h : i < 4) :
    (keyedBlock false key iv)[8 + i] = (keyedBlock false key iv)[4 + i] := by
  rw [keyedBlock_key false key iv i h, keyedBlock, getElem_vecOf, if_neg (by omega), if_neg (by omega),
    if_pos (by omega), Nat.add_sub_cancel_left, if_neg Bool.false_ne_true]

theorem blockCounter_keyedBlock (bits256 : Bool) (key iv : List Byte) :
    blockCounter (keyedBlock bits256 key iv) = 0#64 := by
  have h12 : (keyedBlock bits256 key iv)[12] = 0#32 := getElem_vecOf ..
  have h13 : (keyedBlock bits256 key iv)[13] = 0#32 := getElem_vecOf ..
  rw [blockCounter, h12, h13]
  rfl

theorem keyedBlock_iv (bits256 : Bool) (key iv : List Byte) (i : Nat) (h : i < 2) :
    (keyedBlock bits256 key iv)[14 + i] = wordAt iv (4 * i) := by
  rw [keyedBlock, getElem_vecOf, if_neg (by omega), if_neg (by omega), if_neg (by omega), if_neg (by omega),
    Nat.add_sub_cancel_left]

/-! ### How each operation ends -/

/-- R154: an operation without a meaning stops with its fault. -/
theorem runOperation_of_noMeaning {op : State → OpResult} {s : State} {f : Fault} (hf : s.free)
    (h : op s = .noMeaning f) :
    runOperation op s = .fault f := by
  rw [runOperation_free hf.1 hf.2, h]
  rfl

theorem ciphKeysetup_of_unsupported (s : State) {kbits : Word} (h256 : kbits ≠ 256#32) (h128 : kbits ≠ 128#32) :
    ciphKeysetup kbits s = .ends .errKeylen s := by
  rw [ciphKeysetup, if_neg h256, if_neg h128]

theorem ciphKeysetup_of_supported (s : State) {kbits : Word} (h : kbits = 256#32 ∨ kbits = 128#32) :
    ciphKeysetup kbits s = .ends .ok (keySetup (kbits = 256#32) s.ciph.keyr.toList s.ciph.ivr.toList s) := by
  obtain rfl | rfl := h <;> rfl

theorem ciphBlock_of_unkeyed {s : State} (h : s.ciph.keyed = false) : ciphBlock s = .noMeaning .cipherNotKeyed := by
  rw [ciphBlock, h]
  rfl

theorem ciphBlock_of_keyed {s : State} (h : s.ciph.keyed = true) : ciphBlock s = .ends .ok (cipherBlock s) := by
  rw [ciphBlock, h]
  rfl

theorem ciphProc_of_not_fits {s : State} {off n : Word} (h : s.cfg.bufCap < off.toNat + n.toNat) :
    ciphProc off n s = .ends .errRange s := by
  have hfits : bufFits s.cfg off.toNat n.toNat = false := by rw [← Bool.not_eq_true, bufFits_eq_true]; omega
  rw [ciphProc, hfits]
  rfl

/-- R154, a range with bytes in it. -/
theorem ciphProc_of_unkeyed {s : State} {off n : Word} (hfits : off.toNat + n.toNat ≤ s.cfg.bufCap) (hn : n ≠ 0#32)
    (hk : s.ciph.keyed = false) : ciphProc off n s = .noMeaning .cipherNotKeyed := by
  rw [ciphProc, (bufFits_eq_true ..).mpr hfits, if_neg (by decide), if_pos ⟨hn, hk⟩]

/-- An empty range asks for no key. -/
theorem ciphProc_of_fits {s : State} {off n : Word} (hfits : off.toNat + n.toNat ≤ s.cfg.bufCap)
    (h : n = 0#32 ∨ s.ciph.keyed = true) : ciphProc off n s = .ends .ok (cipherRange off.toNat n.toNat s) := by
  have hmeaning : ¬(n ≠ 0#32 ∧ s.ciph.keyed = false) := by
    rintro ⟨hn, hk⟩
    obtain h | h := h
    · exact hn h
    · exact absurd (h.symm.trans hk) (by decide)
  rw [ciphProc, (bufFits_eq_true ..).mpr hfits, if_neg (by decide), if_neg hmeaning]

/-- The empty range: no pass of the loop. -/
theorem cipherRange_zero (off : Nat) (s : State) :
    cipherRange off 0 s = { s with ciph.cRem := 0#32, ciph.cOff := 0#32 } := rfl

/-! ### The keystream over a range -/

/-- R146: byte `k` of word `i` in the serialised block. -/
theorem getElem_keystreamBytes_word (v : Block) (i k : Nat) (hi : i < 16) (hk : k < 4) :
    (keystreamBytes v)[4 * i + k] = v[i].extractLsb' (8 * k) 8 := by
  have hword : (4 * i + k) / 4 = i := by omega
  have hbyte : (4 * i + k) % 4 = k := by omega
  simp only [getElem_keystreamBytes, hword, hbyte]

/-- R151: what the byte at a buffer position is XORed with, the registers being those at the start: the keystream of its
position within the range, and nothing outside. -/
def rangeKeystream (rounds : Nat) (x : Block) (off n p : Nat) : Byte :=
  if off ≤ p ∧ p < off + n then
    (keystreamBlock rounds x (blockCounter x + BitVec.ofNat 64 ((p - off) / 64))).toList.getD ((p - off) % 64) 0#8
  else 0#8

theorem rangeKeystream_at (rounds : Nat) (x : Block) (off : Nat) {n j : Nat} (h : j < n) :
    rangeKeystream rounds x off n (off + j)
      = (keystreamBlock rounds x (blockCounter x + BitVec.ofNat 64 (j / 64))).toList.getD (j % 64) 0#8 := by
  rw [rangeKeystream, if_pos (by omega), Nat.add_sub_cancel_left]

theorem rangeKeystream_outside (rounds : Nat) (x : Block) {off n p : Nat} (h : ¬(off ≤ p ∧ p < off + n)) :
    rangeKeystream rounds x off n p = 0#8 := if_neg h

/-- R150 to R153, a range that fits under a keyed cipher. -/
theorem exec_ciphProc_of_fits {s : State} (hf : s.free) {off n : Word} (hfits : off.toNat + n.toNat ≤ s.cfg.bufCap)
    (hk : s.ciph.keyed = true) :
    ∃ t, exec (.ciphProc off n) s = .next t
      ∧ t = { s with
          ciph :=
            { s.ciph with
              x := withCounter s.ciph.x (blockCounter s.ciph.x + BitVec.ofNat 64 ((n.toNat + 63) / 64))
              s := t.ciph.s, ks := t.ciph.ks, cRem := 0#32, cOff := 0#32 }
          fr.buf := t.fr.buf, port.res := resCode .ok }
      ∧ ∀ p, t.bufByte p = s.bufByte p ^^^ rangeKeystream s.cfg.nDoubleRounds s.ciph.x off.toNat n.toNat p := by
  obtain ⟨sc, ks, buf, hrange, hbuf⟩ := cipherRange_eq off.toNat n.toNat s n.isLt
  refine ⟨_, runOperation_of_ends hf (ciphProc_of_fits hfits (.inr hk)), by rw [hrange]; rfl, fun p => ?_⟩
  rw [State.bufByte_setRes, hrange]
  refine (hbuf p).trans ?_
  by_cases hp : off.toNat ≤ p ∧ p < off.toNat + n.toNat
  · rw [if_pos hp, rangeKeystream, if_pos hp]
  · rw [if_neg hp, rangeKeystream_outside _ _ hp, BitVec.xor_zero]

/-- R143, R151: the keystream of a range processed right after key setup depends on the key registers and the range
alone, and these outlive both operations. -/
theorem exec_ciphKeysetup_ciphProc {s : State} (hf : s.free) {kbits off n : Word}
    (hkbits : kbits = 256#32 ∨ kbits = 128#32) (hfits : off.toNat + n.toNat ≤ s.cfg.bufCap) :
    ∃ t u, exec (.ciphKeysetup kbits) s = .next t ∧ exec (.ciphProc off n) t = .next u
      ∧ u.free ∧ u.cfg = s.cfg ∧ u.ciph.keyr = s.ciph.keyr ∧ u.ciph.ivr = s.ciph.ivr
      ∧ ∀ p, u.bufByte p = s.bufByte p ^^^ rangeKeystream s.cfg.nDoubleRounds
          (keyedBlock (kbits = 256#32) s.ciph.keyr.toList s.ciph.ivr.toList) off.toNat n.toNat p := by
  obtain ⟨u, hproc, hu, hbuf⟩ := exec_ciphProc_of_fits (off := off) (n := n)
    (s := (keySetup (kbits = 256#32) s.ciph.keyr.toList s.ciph.ivr.toList s).setRes .ok) hf hfits rfl
  refine ⟨_, u, runOperation_of_ends hf (ciphKeysetup_of_supported s hkbits), hproc, ?_, ?_, ?_, ?_, hbuf⟩
  · rw [hu]; exact hf
  all_goals rw [hu]; rfl

/-! ### The statements about the operations -/

/-- Settles O15: each group of words by its own law of `keyedBlock`. -/
theorem keySetupFillsTheRegister : Obligations.KeySetupFillsTheRegister := by
  refine fun s kbits hf => ⟨fun h256 h128 => runOperation_of_ends hf (ciphKeysetup_of_unsupported s h256 h128),
    fun hkbits => ⟨_, runOperation_of_ends hf (ciphKeysetup_of_supported s hkbits), rfl, ?_⟩⟩
  simp only [State.setRes_ciph, keySetup_ciph_x]
  refine ⟨?_, ?_, ?_, ?_, fun i => ⟨?_, ?_, ?_⟩, blockCounter_keyedBlock .., ?_, ?_⟩
  · obtain rfl | rfl := hkbits <;> exact keyedBlock_constants _ _ _ 0 (by decide)
  · obtain rfl | rfl := hkbits <;> exact keyedBlock_constants _ _ _ 3 (by decide)
  · rintro rfl
    exact ⟨keyedBlock_constants _ _ _ 1 (by decide), keyedBlock_constants _ _ _ 2 (by decide)⟩
  · rintro rfl
    exact ⟨keyedBlock_constants _ _ _ 1 (by decide), keyedBlock_constants _ _ _ 2 (by decide)⟩
  · exact (keyedBlock_key _ _ _ i.val i.isLt).trans (wordAt_toList s.ciph.keyr _ (by omega))
  · rintro rfl
    refine (keyedBlock_key_256 _ _ i.val i.isLt).trans ((wordAt_toList s.ciph.keyr _ (by omega)).trans ?_)
    simp only [Nat.add_right_comm, Nat.reduceAdd]
  · rintro rfl
    exact keyedBlock_key_128 _ _ i.val i.isLt
  · exact (keyedBlock_iv _ _ _ 0 (by decide)).trans (wordAt_toList s.ciph.ivr 0 (by decide))
  · exact (keyedBlock_iv _ _ _ 1 (by decide)).trans (wordAt_toList s.ciph.ivr 4 (by decide))

/-- Settles O18. -/
theorem cipherBlockMakesKeystreamAndCounts : Obligations.CipherBlockMakesKeystreamAndCounts := by
  refine fun s hf hk => ⟨_, runOperation_of_ends hf (ciphBlock_of_keyed hk), ?_, fun i => ?_⟩
  · rw [cipherBlock_eq]
    rfl
  · have byte (k : Nat) (h : k < 4) :=
      getElem_keystreamBytes_word (keystreamWords s.cfg.nDoubleRounds s.ciph.x) i k i.isLt h
    exact ⟨getElem_keystreamWords _ _ i i.isLt, byte 0 (by decide), byte 1 (by decide), byte 2 (by decide),
      byte 3 (by decide)⟩

/-- Settles O19. -/
theorem unkeyedCipherFaults : Obligations.UnkeyedCipherFaults := fun _ hf hk =>
  ⟨runOperation_of_noMeaning hf (ciphBlock_of_unkeyed hk),
    fun _ _ hfits hn => runOperation_of_noMeaning hf (ciphProc_of_unkeyed hfits hn hk)⟩

/-- Settles O20, by the ways the operation ends. -/
theorem cipherProcAppliesTheKeystream : Obligations.CipherProcAppliesTheKeystream := by
  refine fun s off n hf => ⟨fun h => runOperation_of_ends hf (ciphProc_of_not_fits h), fun h => ?_, fun hk hfits => ?_⟩
  · have hends : ciphProc off 0#32 s = _ := ciphProc_of_fits h (.inl rfl)
    exact runOperation_of_ends hf (hends.trans (congrArg _ (cipherRange_zero off.toNat s)))
  · obtain ⟨t, hexec, hframe, hbuf⟩ := exec_ciphProc_of_fits hf hfits hk
    refine ⟨t, hexec, hframe, fun j hj => ?_, fun p hp => ?_⟩
    · rw [hbuf, rangeKeystream_at _ _ _ hj]
    · rw [hbuf, rangeKeystream_outside _ _ hp, BitVec.xor_zero]

/-- Settles O21: the second key setup finds the key registers of the first, so the same keystream is XORed twice. -/
theorem cipherProcIsItsOwnInverse : Obligations.CipherProcIsItsOwnInverse := by
  intro s kbits off n hf hkbits hfits
  obtain ⟨s1, s2, hkey, hproc, hf2, hcfg, hkeyr, hivr, hbuf⟩ := exec_ciphKeysetup_ciphProc hf hkbits hfits
  obtain ⟨s3, s4, hkey', hproc', -, -, -, -, hbuf'⟩ := exec_ciphKeysetup_ciphProc hf2 hkbits (hcfg ▸ hfits)
  refine ⟨s1, s2, s3, s4, hkey, hproc, hkey', hproc', fun p => ?_⟩
  rw [hbuf', hcfg, hkeyr, hivr, hbuf, BitVec.xor_assoc, BitVec.xor_self, BitVec.xor_zero]

end Sys2Proof.Machine
end

section
/-! The single flash operations from a block that is free (R171 to R185, R201 to R203): what an operation that passes its
checks runs, and what each outcome of the hardware makes of it. -/

namespace Sys2Proof.Machine

/-! ### An operation that passes its checks -/

/-- The sequencer's registers where the flash sequence of an operation begins: its own operand is latched (R36), an
erase is counted (R37). -/
def checkedSequencer (fl : FlashSeq) : Instr → FlashSeq
  | .flErase _ => { fl with eraseAtt := fl.eraseAtt + 1#32, state := .check }
  | .flWword _ v => { fl with data := v, state := .check }
  | .flWrow _ off => { fl with src := off, state := .check }
  | _ => fl

/-- R180, R181, R201 to R203: how an operation ends after its flash sequence. -/
def singleEnd (i : Instr) : SeqEnd × State → OpResult
  | (.ok, u) => .ends .ok u
  | (.fail, u) => .ends .errFlash { u with fl := { countedFailure u.fl i with state := .idle } }
  | (.never, u) => .blocks u

section
variable {s : State} {i : Instr} {kind : FlashKind} {a : Word} {n : Nat}

theorem passesChecks_cases {cfg : Params} (h : passesChecks cfg i kind a n) :
    (i = .flErase a ∧ kind = .erase ∧ n = cfg.pageSize ∧ a.toNat % cfg.pageSize = 0 ∧ flashRangeFits cfg a cfg.pageSize)
    ∨ (∃ v, i = .flWword a v ∧ kind = .word ∧ n = 4 ∧ a.toNat % 4 = 0 ∧ flashRangeFits cfg a 4)
    ∨ (∃ off, i = .flWrow a off ∧ kind = .row ∧ n = cfg.rowSize ∧ a.toNat % cfg.rowSize = 0 ∧ off.toNat % 4 = 0
      ∧ off.toNat + cfg.rowSize ≤ cfg.bufCap ∧ flashRangeFits cfg a cfg.rowSize) := by
  cases i with
  | flErase _ =>
    obtain ⟨hkind, rfl, hn, hchecks⟩ := h
    exact .inl ⟨rfl, hkind, hn, hchecks⟩
  | flWword _ v =>
    obtain ⟨hkind, rfl, hn, hchecks⟩ := h
    exact .inr (.inl ⟨v, rfl, hkind, hn, hchecks⟩)
  | flWrow _ off =>
    obtain ⟨hkind, rfl, hn, hchecks⟩ := h
    exact .inr (.inr ⟨off, rfl, hkind, hn, hchecks⟩)
  | _ => exact h.elim

theorem flashSpan_of_passesChecks {cfg : Params} (h : passesChecks cfg i kind a n) : flashSpan cfg kind = n := by
  obtain ⟨-, rfl, rfl, -⟩ | ⟨-, -, rfl, rfl, -⟩ | ⟨-, -, rfl, rfl, -⟩ := passesChecks_cases h <;> rfl

/-- R172: the data a checked operation presents fills its target. -/
theorem dataFits_of_passesChecks (h : passesChecks s.cfg i kind a n) : dataFits s.cfg kind (operationData s i) := by
  obtain ⟨-, rfl, -⟩ | ⟨v, rfl, rfl, -⟩ | ⟨off, rfl, rfl, -⟩ := passesChecks_cases h
  · simp
  · exact fun _ => length_bytesLE32 v
  · exact fun _ => s.length_bufRange _ _

/-- R36, R171: the flash sequence latches the kind and the target beside what the checks have left. -/
theorem checkedSequencer_latched {cfg : Params} (fl : FlashSeq) (st : FlState) (h : passesChecks cfg i kind a n) :
    { checkedSequencer fl i with kind := kind, addr := phys a, state := st }
      = { startedSequencer fl i kind a with state := st } := by
  obtain ⟨rfl, -⟩ | ⟨v, rfl, -⟩ | ⟨off, rfl, -⟩ := passesChecks_cases h <;> rfl

theorem startedSequencer_addr {cfg : Params} (fl : FlashSeq) (h : passesChecks cfg i kind a n) :
    (startedSequencer fl i kind a).addr = phys a := by
  obtain ⟨rfl, -⟩ | ⟨v, rfl, -⟩ | ⟨off, rfl, -⟩ := passesChecks_cases h <;> rfl

theorem startedSequencer_state (fl : FlashSeq) : (startedSequencer fl i kind a).state = fl.state := by
  cases i <;> rfl

theorem countedFailure_state (fl : FlashSeq) (i : Instr) : (countedFailure fl i).state = fl.state := by
  cases i <;> rfl

theorem FlashSeq.with_state {fl : FlashSeq} {st : FlState} (h : fl.state = st) : { fl with state := st } = fl := by
  rw [← h]

/-- R35: an operation that ends leaves the sequencer idle, as it found it. -/
theorem startedSequencer_idle (hf : s.free) :
    { startedSequencer s.fl i kind a with state := .idle } = startedSequencer s.fl i kind a :=
  FlashSeq.with_state ((startedSequencer_state s.fl).trans (State.free_flIdle hf))

/-- R181, R202: so does one that fails. -/
theorem countedFailure_idle (hf : s.free) :
    { countedFailure { startedSequencer s.fl i kind a with state := .idle } i with state := .idle }
      = countedFailure (startedSequencer s.fl i kind a) i := by
  rw [startedSequencer_idle hf]
  exact FlashSeq.with_state ((countedFailure_state _ i).trans ((startedSequencer_state s.fl).trans (State.free_flIdle hf)))

/-- R180, R201, R203: past its checks, an operation is its flash sequence and the end of it. -/
theorem exec_of_passesChecks (hf : s.free) (h : passesChecks s.cfg i kind a n) :
    exec i s = (singleEnd i
      (flashSeq kind a (operationData s i) { s with fl := checkedSequencer s.fl i })).outcome := by
  obtain ⟨rfl, rfl, -, hal, hfit⟩ | ⟨v, rfl, rfl, -, hal, hfit⟩ | ⟨off, rfl, rfl, -, hal, hoff, hbuf, hfit⟩ :=
    passesChecks_cases h
  all_goals refine (runOperation_free hf.1 hf.2).trans (congrArg _ ?_)
  · simp only [flErase, (aligned_eq_true ..).mpr hal, (flashFits_iff_flashRangeFits ..).mpr hfit]
    rfl
  · simp only [flWword, (aligned_eq_true ..).mpr hal, (flashFits_iff_flashRangeFits ..).mpr hfit]
    rfl
  · simp only [flWrow, (aligned_eq_true ..).mpr hal, (aligned_eq_true ..).mpr hoff, (bufFits_eq_true ..).mpr hbuf,
      (flashFits_iff_flashRangeFits ..).mpr hfit]
    rfl

/-! ### The outcomes of the hardware -/

/-- R171, R174: no fault reported. -/
theorem exec_of_good_outcome (hf : s.free) (h : passesChecks s.cfg i kind a n) (ho : s.nextOutcome = .done false false) :
    ∃ array draws, exec i s = .next
        { s with
          fl := startedSequencer s.fl i kind a
          hw :=
            { array := array, done := true, lowVoltage := false, writeError := false
              issued := s.hw.issued ++ [presented s.cfg kind a (operationData s i)], script := s.hw.script.tail }
          draws := draws, port.res := resCode .ok }
      ∧ ArrayAfter s.cfg kind (phys a).toNat (operationData s i) false s.hw.array array := by
  obtain ⟨array, draws, hseq, harray⟩ := flashSeq_ok (addr := a) (data := operationData s i)
    (s := { s with fl := checkedSequencer s.fl i }) ho (dataFits_of_passesChecks h)
  refine ⟨array, draws, ?_, harray⟩
  rw [exec_of_passesChecks hf h, hseq, checkedSequencer_latched s.fl .idle h, startedSequencer_idle hf]
  rfl

/-- R173: the operation does not complete. -/
theorem exec_of_hang (hf : s.free) (h : passesChecks s.cfg i kind a n) (ho : s.nextOutcome = .hang) :
    ∃ draws, exec i s = .next
        { s with
          fl := { startedSequencer s.fl i kind a with state := .wait }
          hw :=
            { s.hw with
              done := false, issued := s.hw.issued ++ [presented s.cfg kind a (operationData s i)]
              script := s.hw.script.tail }
          draws := draws } := by
  obtain ⟨draws, hseq⟩ := flashSeq_hang (addr := a) (kind := kind) (data := operationData s i)
    (s := { s with fl := checkedSequencer s.fl i }) ho
  refine ⟨draws, ?_⟩
  rw [exec_of_passesChecks hf h, hseq, checkedSequencer_latched s.fl .wait h]
  rfl

/-- How an operation that has reported a fault comes out, by what its corrective no-op reports. -/
inductive Corrected (s : State) (i : Instr) (kind : FlashKind) (a : Word) (t : State) : Prop where
  /-- R177: both flags are 0; the operation fails and is counted. -/
  | cleared (only : onlyFlash s t) (res : t.port.res = resCode .errFlash)
    (fl : t.fl = countedFailure (startedSequencer s.fl i kind a) i)
    (done : t.hw.done = true) (flags : (t.hw.lowVoltage || t.hw.writeError) = false)
  /-- R178: a flag is still 1; the block halts. -/
  | halts (only : t = { s with fl := t.fl, hw := t.hw, draws := t.draws, env.status := s.cfg.status.hardwareFailed })
    (fl : t.fl = { startedSequencer s.fl i kind a with state := .halt, halted := true })
    (done : t.hw.done = true) (flags : (t.hw.lowVoltage || t.hw.writeError) = true)
  /-- R173: the no-op does not complete. -/
  | waits (only : t = { s with fl := t.fl, hw := t.hw, draws := t.draws })
    (fl : t.fl = { startedSequencer s.fl i kind a with state := .clrWait })
    (done : t.hw.done = false)

theorem Corrected.cfg {t : State} (h : Corrected s i kind a t) : t.cfg = s.cfg := by
  obtain ⟨only, -⟩ | ⟨only, -⟩ | ⟨only, -⟩ := h <;> rw [only]

/-- R174, R177: a fault reported. -/
theorem exec_of_fault (hf : s.free) (h : passesChecks s.cfg i kind a n) {lv we : Bool}
    (ho : s.nextOutcome = .done lv we) (hbad : (lv || we) = true) :
    ∃ t, exec i s = .next t ∧ Corrected s i kind a t
      ∧ t.hw.issued = s.hw.issued ++ [presented s.cfg kind a (operationData s i), presented s.cfg .nop a []]
      ∧ ArrayAfter s.cfg kind (phys a).toNat (operationData s i) true s.hw.array t.hw.array := by
  obtain ⟨array, draws, hseq, harray⟩ := flashSeq_faulty (addr := a) (data := operationData s i)
    (s := { s with fl := checkedSequencer s.fl i }) ho hbad (dataFits_of_passesChecks h)
  rw [exec_of_passesChecks hf h, hseq, checkedSequencer_latched s.fl .status h]
  have hissued : s.hw.issued ++ [presented s.cfg kind a (operationData s i)]
        ++ [⟨.nop, (startedSequencer s.fl i kind a).addr, [], s.cfg.unlockKey1, s.cfg.unlockKey2⟩]
      = s.hw.issued ++ [presented s.cfg kind a (operationData s i), presented s.cfg .nop a []] := by
    rw [startedSequencer_addr s.fl h, List.append_assoc]
    rfl
  obtain ⟨d, -, hclear⟩ | ⟨d, -, hclear⟩ | ⟨lv', we', d, -, hbad', hclear⟩ := correctiveClear_spec
    { s with
      fl := { startedSequencer s.fl i kind a with state := .status }
      hw :=
        { array := array, done := true, lowVoltage := lv, writeError := we
          issued := s.hw.issued ++ [presented s.cfg kind a (operationData s i)], script := s.hw.script.tail }
      draws := draws }
  · rw [hclear]
    exact ⟨_, rfl, .waits rfl rfl rfl, hissued, harray⟩
  · rw [hclear]
    exact ⟨_, rfl, .cleared rfl rfl (countedFailure_idle hf) rfl rfl, hissued, harray⟩
  · rw [hclear]
    exact ⟨_, rfl, .halts rfl rfl rfl hbad', hissued, harray⟩

end

/-! ### The checks of `FL.ERASE`, and `FL.NOP` -/

section
variable {s : State} {a : Word}

/-- R181: an erase that its checks reject is counted as attempted and as failed, the sequencer idle again. -/
theorem exec_flErase_of_rejected {r : Res} (hf : s.free)
    (h : flErase a s = eraseFailed r { s with fl.eraseAtt := s.fl.eraseAtt + 1#32, fl.state := .check }) :
    exec (.flErase a) s = .next
      { s with
        fl.eraseAtt := s.fl.eraseAtt + 1#32, fl.eraseFail := s.fl.eraseFail + 1#32, port.res := resCode r } := by
  refine (runOperation_of_ends hf h).trans ?_
  simp only [← State.free_flIdle hf]
  rfl

/-- R180: alignment is checked first. -/
theorem flErase_of_misaligned (h : a.toNat % s.cfg.pageSize ≠ 0) :
    flErase a s = eraseFailed .errAlign { s with fl.eraseAtt := s.fl.eraseAtt + 1#32, fl.state := .check } := by
  have hal : aligned s.cfg.pageSize a = false := by rwa [← Bool.not_eq_true, aligned_eq_true]
  simp only [flErase, hal]
  rfl

/-- R180: then the range. -/
theorem flErase_of_not_fits (hal : a.toNat % s.cfg.pageSize = 0) (h : ¬flashRangeFits s.cfg a s.cfg.pageSize) :
    flErase a s = eraseFailed .errRange { s with fl.eraseAtt := s.fl.eraseAtt + 1#32, fl.state := .check } := by
  simp only [flErase, (aligned_eq_true ..).mpr hal, flashFits_eq_false h]
  rfl

/-- R183: a no-op that completes. -/
theorem flNop_of_done {lv we : Bool} (ho : s.nextOutcome = .done lv we) :
    ∃ draws, flNop s = .ends (if (lv || we) = true then .errFlash else .ok)
      { s with
        fl.kind := .nop, fl.state := .idle
        hw :=
          { s.hw with
            done := true, lowVoltage := lv, writeError := we
            issued := s.hw.issued ++ [⟨.nop, s.fl.addr, [], s.cfg.unlockKey1, s.cfg.unlockKey2⟩]
            script := s.hw.script.tail }
        draws := draws } := by
  obtain ⟨array, draws, hop, harray⟩ := flashOp_completes (kind := .nop) (data := [])
    (s := { s with fl.kind := .nop, fl.state := .clrIssue }) ho (by simp)
  obtain rfl : array = s.hw.array := harray.nop rfl
  refine ⟨draws, ?_⟩
  simp only [flNop, hop]
  rfl

/-- R185, R250: while an operation of the sequencer is under way, a step with no event changes nothing, and the Write
command, if one waits, goes on waiting. -/
theorem step_of_sequencer_not_idle (hin : s.inputs = []) (h : s.fl.state ≠ .idle) : step s = .next s := by
  have hfetch : fetch s = .moves (.next s) := by simp [fetch, h]
  have hbusy : s.busy = true := by simp [State.busy, h]
  simp [step, hin, machineStep, hfetch, settle, resumeWrite, hbusy]

end

/-! ### The statements about the operations -/

/-- Settles O22: the two checks in their order, and the outcome with no fault. -/
theorem flEraseChecksThenErases : Obligations.FlEraseChecksThenErases := by
  refine fun s a hf => ⟨fun hal => exec_flErase_of_rejected hf (flErase_of_misaligned hal),
    fun hal hfit => exec_flErase_of_rejected hf (flErase_of_not_fits hal hfit), fun hal hfit ho => ?_⟩
  obtain ⟨array, draws, hexec, harray⟩ :=
    exec_of_good_outcome (i := .flErase a) hf ⟨rfl, rfl, rfl, hal, hfit⟩ ho
  refine ⟨_, hexec, rfl, rfl, rfl, rfl, rfl, rfl, rfl, fun p => ?_⟩
  split
  case isTrue hp => exact harray.erased rfl rfl p hp.1 hp.2
  case isFalse hp => exact harray.outside hp

/-- Settles O25: by what the corrective no-op reports. -/
theorem faultyFlashOperationIsClearedOrHalts : Obligations.FaultyFlashOperationIsClearedOrHalts := by
  intro s i kind a n lv we hf h ho hbad
  obtain ⟨t, hexec, hcorrected, hissued, harray⟩ := exec_of_fault hf h ho hbad
  have hcfg : t.cfg = s.cfg := hcorrected.cfg
  refine ⟨t, hexec, hissued, fun p hp => ?_, ?_⟩
  · rw [← flashSpan_of_passesChecks h] at hp
    simpa only [State.flashByte, hcfg] using harray.outside hp
  · cases hcorrected with
    | cleared only res fl done flags =>
      exact ⟨fun _ _ _ => ⟨only, res, fl⟩, fun _ hflags => absurd hflags (by simp [flags]),
        fun hdone => absurd hdone (by simp [done])⟩
    | halts only fl done flags =>
      exact ⟨fun _ hlv hwe => absurd flags (by simp [hlv, hwe]), fun _ _ => ⟨only, fl, by rw [State.hwFault, fl]⟩,
        fun hdone => absurd hdone (by simp [done])⟩
    | waits only fl done =>
      exact ⟨fun hdone => absurd hdone (by simp [done]), fun hdone => absurd hdone (by simp [done]),
        fun _ => ⟨only, fl⟩⟩

/-- Settles O27: the no-op runs to its end, whatever the flags say. -/
theorem flNopReportsTheFlags : Obligations.FlNopReportsTheFlags := by
  intro s lv we hf ho
  obtain ⟨draws, hnop⟩ := flNop_of_done ho
  refine ⟨_, runOperation_of_ends hf hnop, rfl, ?_, ?_, rfl, rfl, rfl, rfl, rfl⟩
  · simp only [State.setRes, ← State.free_flIdle hf]
  · simp only [State.setRes, apply_ite resCode]

/-- Settles O26: the operation is left in `FL_WAIT`, where a step without an event leaves the machine as it is. -/
theorem uncompletedFlashOperationWaits : Obligations.UncompletedFlashOperationWaits := by
  intro s i kind a n hf h ho
  obtain ⟨draws, hexec⟩ := exec_of_hang hf h ho
  exact ⟨_, hexec, rfl, rfl, rfl, rfl, rfl, fun hin => step_of_sequencer_not_idle hin (by simp)⟩

end Sys2Proof.Machine
end

section
/-! The word and row writes from a block that is free (R201 to R203): what their checks reject. What an operation that
passes them does is `exec_of_good_outcome`. -/

namespace Sys2Proof.Machine

section
variable {s : State} {a : Word}

/-- R202: a write that its checks reject is counted as failed, the sequencer idle again. -/
theorem runOperation_of_writeFailed {op : State → OpResult} {r : Res} (hf : s.free)
    (h : op s = writeFailed r { s with fl.state := .check }) :
    runOperation op s = .next { s with fl.writeFail := s.fl.writeFail + 1#32, port.res := resCode r } := by
  refine (runOperation_of_ends hf h).trans ?_
  simp only [← State.free_flIdle hf]
  rfl

theorem aligned_eq_false {m : Nat} {x : Word} (h : x.toNat % m ≠ 0) : aligned m x = false := by
  rwa [← Bool.not_eq_true, aligned_eq_true]

/-- R201: alignment is checked first. -/
theorem flWword_of_misaligned {v : Word} (h : a.toNat % 4 ≠ 0) :
    flWword a v s = writeFailed .errAlign { s with fl.state := .check } := by
  simp only [flWword, aligned_eq_false h]
  rfl

/-- R201: then the range. -/
theorem flWword_of_not_fits {v : Word} (hal : a.toNat % 4 = 0) (h : ¬flashRangeFits s.cfg a 4) :
    flWword a v s = writeFailed .errRange { s with fl.state := .check } := by
  simp only [flWword, (aligned_eq_true ..).mpr hal, flashFits_eq_false h]
  rfl

/-- R203: both alignments are checked first. -/
theorem flWrow_of_misaligned {off : Word} (h : a.toNat % s.cfg.rowSize ≠ 0 ∨ off.toNat % 4 ≠ 0) :
    flWrow a off s = writeFailed .errAlign { s with fl.state := .check } := by
  have hal : (!aligned s.cfg.rowSize a || !aligned 4 off) = true := by
    obtain h | h := h <;> simp [aligned_eq_false h]
  simp only [flWrow, hal]
  rfl

/-- R203: then both ranges. -/
theorem flWrow_of_not_fits {off : Word} (hal : a.toNat % s.cfg.rowSize = 0) (hoff : off.toNat % 4 = 0)
    (h : s.cfg.bufCap < off.toNat + s.cfg.rowSize ∨ ¬flashRangeFits s.cfg a s.cfg.rowSize) :
    flWrow a off s = writeFailed .errRange { s with fl.state := .check } := by
  have hfit : (!bufFits s.cfg off.toNat s.cfg.rowSize || !flashFits s.cfg a s.cfg.rowSize) = true := by
    obtain h | h := h
    · have hbuf : bufFits s.cfg off.toNat s.cfg.rowSize = false := by rw [← Bool.not_eq_true, bufFits_eq_true]; omega
      simp [hbuf]
    · simp [flashFits_eq_false h]
  simp only [flWrow, (aligned_eq_true ..).mpr hal, (aligned_eq_true ..).mpr hoff, hfit]
  rfl

end

/-- Settles O23: the two checks in their order, and the outcome with no fault. -/
theorem flWwordChecksThenWrites : Obligations.FlWwordChecksThenWrites := by
  refine fun s a v hf => ⟨fun hal => runOperation_of_writeFailed hf (flWword_of_misaligned hal),
    fun hal hfit => runOperation_of_writeFailed hf (flWword_of_not_fits hal hfit), fun hal hfit ho => ?_⟩
  obtain ⟨array, draws, hexec, harray⟩ := exec_of_good_outcome (i := .flWword a v) hf ⟨rfl, rfl, rfl, hal, hfit⟩ ho
  refine ⟨_, hexec, rfl, rfl, rfl, rfl, rfl, rfl, rfl, fun p hp => harray.outside hp, fun herased => ?_⟩
  have byte (i : Nat) (hi : i < 4) := harray.written (.inr rfl) rfl (fun p hlo hhi => herased p ⟨hlo, hhi⟩) i hi
  exact ⟨byte 0 (by decide), byte 1 (by decide), byte 2 (by decide), byte 3 (by decide)⟩

/-- Settles O24: the four checks in their order, and the outcome with no fault. -/
theorem flWrowChecksThenWrites : Obligations.FlWrowChecksThenWrites := by
  refine fun s a off hf => ⟨fun hal => runOperation_of_writeFailed hf (flWrow_of_misaligned hal),
    fun hal hoff hfit => runOperation_of_writeFailed hf (flWrow_of_not_fits hal hoff hfit),
    fun hal hoff hbuf hfit ho => ?_⟩
  obtain ⟨array, draws, hexec, harray⟩ :=
    exec_of_good_outcome (i := .flWrow a off) hf ⟨rfl, rfl, rfl, hal, hoff, hbuf, hfit⟩ ho
  refine ⟨_, hexec, rfl, rfl, rfl, rfl, rfl, rfl, rfl, fun p hp => harray.outside hp, fun herased i hi => ?_⟩
  exact (harray.written (.inl rfl) rfl (fun p hlo hhi => herased p ⟨hlo, hhi⟩) i hi).trans (s.getD_bufRange hi)

end Sys2Proof.Machine
end

section
/-! The range write and the compare from a block that is free (R206 to R210): the checks, the loop to its end over faults
that are cleared, and the loop that stops in one of its sub-operations. -/

namespace Sys2Proof.Machine

section
variable {s u : State} {a n off : Word} {flags : List (Bool × Bool)} {rest stop : List HwOutcome}

/-! ### The checks -/

/-- R206: the range is checked first. -/
theorem flWrange_of_not_fits
    (h : ¬(n.toNat < 2 ^ 16 ∧ off.toNat + n.toNat ≤ s.cfg.bufCap ∧ flashRangeFits s.cfg a n.toNat)) :
    flWrange a n off s = .ends .errRange s := if_pos (rangeFits_eq_false h)

/-- R206: then the size. -/
theorem flWrange_of_not_words
    (h : n.toNat < 2 ^ 16 ∧ off.toNat + n.toNat ≤ s.cfg.bufCap ∧ flashRangeFits s.cfg a n.toNat)
    (hn : n.toNat % 4 ≠ 0) : flWrange a n off s = .ends .errSize s := by
  rw [flWrange, rangeFits_eq_true h, if_neg Bool.false_ne_true, if_pos hn]

/-- R206: then both alignments. -/
theorem flWrange_of_misaligned
    (h : n.toNat < 2 ^ 16 ∧ off.toNat + n.toNat ≤ s.cfg.bufCap ∧ flashRangeFits s.cfg a n.toNat)
    (hn : n.toNat % 4 = 0) (hal : a.toNat % 4 ≠ 0 ∨ off.toNat % 4 ≠ 0) :
    flWrange a n off s = .ends .errAlign s := by
  have hal : (!aligned 4 a || !aligned 4 off) = true := by
    obtain h | h := hal <;> simp [aligned_eq_false h]
  rw [flWrange, rangeFits_eq_true h, if_neg Bool.false_ne_true, if_neg (not_not_intro hn), if_pos hal]

/-- R208: the empty range has no turn of the loop. -/
theorem flWrange_of_empty (h : rangePassesChecks s.cfg a 0#32 off) :
    flWrange a 0#32 off s = .ends .ok { s with fl.first := resCode .ok } :=
  (flWrange_passes h).trans (rangeLoop_done (Nat.le_refl 0))

/-! ### Faults that are cleared -/

/-- R206, R208: the range write runs to its end. -/
theorem exec_flWrange_of_settled (hf : s.free) (hw : s.cfg.wf = true) (hp : rangePassesChecks s.cfg a n off)
    (hlen : flags.length = (chunks s a.toNat n.toNat off.toNat).length)
    (hs : s.hw.script = settledOutcomes flags ++ rest) :
    ∃ u, exec (.flWrange a n off) s = .next (u.setRes (if faults flags = 0 then .ok else .errFlash))
      ∧ RangeProgress a n off { s with fl.first := resCode .ok } u 0 n.toNat (chunks s a.toNat n.toNat off.toNat) flags
          rest := by
  obtain ⟨u, hends, hprog⟩ := flWrange_settled hf hw hp hlen hs
  rw [ite_not] at hends
  exact ⟨u, runOperation_of_ends hf hends, hprog⟩

section
variable {p : Nat} {ps : List FlashCmd}
  (h : RangeProgress a n off { s with fl.first := resCode .ok } u 0 p ps flags rest)
include h

theorem RangeProgress.onlyFlash (r : Res) : onlyFlash s (u.setRes r) := by
  rw [Machine.onlyFlash, State.setRes]
  conv_lhs => rw [h.only]

/-- R202, R206: the counter and the first failure's code, `FL_FIRST` having been cleared before the first turn. -/
theorem RangeProgress.sequencer :
    u.fl =
      { s.fl with
        kind := u.fl.kind, addr := u.fl.addr, data := u.fl.data, src := u.fl.src
        writeFail := s.fl.writeFail + BitVec.ofNat 32 (faults flags)
        first := if faults flags = 0 then resCode .ok else resCode .errFlash } := by
  refine h.fl.trans ?_
  simp only [true_and, ite_not]

theorem RangeProgress.flashByte_outside (hp : p ≤ n.toNat) {x : Nat} (hx : ¬inTarget a n.toNat x) :
    u.flashByte x = s.flashByte x := h.outside x (by omega)

end

/-! ### A sub-operation that never ends -/

/-- How a range write at a turn of its loop is left by a sub-operation that never ends. -/
structure RangeStopped (a n : Word) (stop : List HwOutcome) (s u : State) : Prop where
  only : u = { s with
    fl := u.fl, hw := u.hw, draws := u.draws
    env.status := if leftIn stop = .halt then s.cfg.status.hardwareFailed else s.env.status }
  state : u.fl.state = leftIn stop
  halted : u.fl.halted = if leftIn stop = .halt then true else s.fl.halted
  writeFail : u.fl.writeFail = s.fl.writeFail
  issued : u.hw.issued.length = s.hw.issued.length + stop.length
  outside : ∀ x, ¬inTarget a n.toNat x → u.flashByte x = s.flashByte x

/-- R206, R336, R173: the loop stops in such a sub-operation, whatever turns are left. -/
theorem rangeLoop_stops {cfg : Params} (R : RangeReady cfg a n off) {fuel p : Nat} {worst : Res} (hc : s.cfg = cfg)
    (hp4 : p % 4 = 0) (hp : p < n.toNat) (hstop : neverEnds stop = true) (hs : s.hw.script = stop ++ rest) :
    ∃ u, rangeLoop a off n.toNat (fuel + 1) p worst s = .blocks u ∧ RangeStopped a n stop s u := by
  obtain ⟨kind, data, wdata, src, hop, -, -, hspan, hdata, -⟩ := R.subOperation_eq hc hp hp4
  obtain ⟨hw, draws, hseq, hissued, -, hout⟩ := flashSeq_stops (kind := kind) (addr := a + BitVec.ofNat 32 p)
    (data := data) (s := { s with fl.state := .check, fl.data := wdata, fl.src := src }) hs hstop fun _ => hdata
  have hstep : p + rangeStep s.cfg a.toNat n.toNat p ≤ n.toNat := hc ▸ R.step_le hp hp4
  rw [rangeLoop, if_neg (Nat.not_le.mpr hp), hop, hseq]
  refine ⟨_, rfl, rfl, rfl, rfl, rfl, hissued, fun x hx => hout x ?_⟩
  rw [inTarget, R.phys_target hp, hspan]
  omega

/-- R206: the range write goes on over cleared faults up to the sub-operation that never ends. -/
theorem exec_flWrange_of_stop (hf : s.free) (hw : s.cfg.wf = true) (hp : rangePassesChecks s.cfg a n off)
    (hstop : neverEnds stop = true) (hlen : flags.length < (chunks s a.toNat n.toNat off.toNat).length)
    (hs : s.hw.script = settledOutcomes flags ++ stop ++ rest) :
    ∃ p ps t u, exec (.flWrange a n off) s = .next u ∧ p ≤ n.toNat
      ∧ RangeProgress a n off { s with fl.first := resCode .ok } t 0 p ps flags (stop ++ rest)
      ∧ RangeStopped a n stop t u := by
  obtain ⟨hpos, hwords, hcap⟩ := Params.wf_row hw
  obtain ⟨fuel, p, ps, t, hturns, hchunks, hle, hp4, hfuel, hprog⟩ :=
    flWrange_turns hf hw hp (Nat.le_of_lt hlen) (hs.trans (List.append_assoc ..))
  have hleft : loopPieces s a.toNat n.toNat off.toNat fuel p ≠ [] := by
    intro hnil
    rw [hchunks, hnil, List.append_nil, hprog.length] at hlen
    omega
  cases fuel with
  | zero => exact absurd rfl hleft
  | succ fuel =>
    have hlt : p < n.toNat := Nat.lt_of_not_le fun hn => hleft (if_pos hn)
    obtain ⟨u, hblocks, hstopped⟩ := rangeLoop_stops (fuel := fuel) ⟨hpos, hwords, hcap, hp⟩
      (by rw [hprog.only]) hp4 hlt hstop hprog.script
    refine ⟨p, ps, t, u, (runOperation_free hf.1 hf.2).trans ?_, hle, hprog, hstopped⟩
    rw [hturns, hblocks]
    rfl

/-! ### The compare -/

theorem flashRange_eq_bufRange_iff (s : State) (p off n : Nat) :
    s.flashRange p n = s.bufRange off n ↔ ∀ i, i < n → s.flashByte (p + i) = s.bufByte (off + i) :=
  List.map_inj_left.trans (forall_congr' fun _ => imp_congr_left List.mem_range)

/-- R210: a range that does not fit. -/
theorem flCmp_of_not_fits
    (h : ¬(n.toNat < 2 ^ 16 ∧ off.toNat + n.toNat ≤ s.cfg.bufCap ∧ flashRangeFits s.cfg a n.toNat)) :
    flCmp a n off s = .ends .errRange s := if_pos (rangeFits_eq_false h)

/-- R210: a range that fits. -/
theorem flCmp_of_fits (h : n.toNat < 2 ^ 16 ∧ off.toNat + n.toNat ≤ s.cfg.bufCap ∧ flashRangeFits s.cfg a n.toNat) :
    flCmp a n off s =
      if s.flashRange (phys a).toNat n.toNat = s.bufRange off.toNat n.toNat then .ends .ok s else .ends .errCompare s := by
  rw [flCmp, rangeFits_eq_true h, if_neg Bool.false_ne_true]

end

/-! ### The statements about the operations -/

/-- Settles O28, by the checks in their order. -/
theorem flWrangeChecksFirst : Obligations.FlWrangeChecksFirst := by
  refine fun s a n off hf => ⟨fun h => runOperation_of_ends hf (flWrange_of_not_fits h),
    fun h hn => runOperation_of_ends hf (flWrange_of_not_words h hn),
    fun h hn hal => runOperation_of_ends hf (flWrange_of_misaligned h hn hal), ?_⟩
  rintro ⟨hsize, hbuf, hflash⟩ rfl ha hoff
  exact runOperation_of_ends hf (flWrange_of_empty ⟨hsize, hbuf, hflash, rfl, ha, hoff⟩)

/-- Settles O29: outcomes with no fault are settled outcomes whose flags are all 0. -/
theorem flWrangeWritesItsChunks : Obligations.FlWrangeWritesItsChunks := by
  intro s a n off hf hw hp hgood
  obtain ⟨u, hexec, hprog⟩ :=
    exec_flWrange_of_settled hf hw hp List.length_replicate (goodOutcomes_script hgood)
  have hfl := hprog.sequencer
  have hissued := hprog.issued
  rw [faults_replicate, if_pos rfl] at hexec
  rw [faults_replicate, if_pos rfl, BitVec.add_zero] at hfl
  rw [settledCommands_replicate] at hissued
  exact ⟨_, hexec, hprog.onlyFlash .ok, rfl, hfl, hissued, fun p hx => hprog.flashByte_outside (Nat.le_refl _) hx,
    fun herased i hi => hprog.written (faults_replicate _) (fun x hlo hhi => herased x ⟨hlo, hhi⟩) i (Nat.zero_le i) hi⟩

/-- Settles O30: the loop runs over all of its sub-operations. -/
theorem flWrangeGoesOnAfterFailures : Obligations.FlWrangeGoesOnAfterFailures := by
  intro s a n off flags rest hf hw hp hlen hs
  obtain ⟨u, hexec, hprog⟩ := exec_flWrange_of_settled hf hw hp hlen hs
  exact ⟨_, hexec, hprog.onlyFlash _, apply_ite resCode .., hprog.script, hprog.sequencer, hprog.issued,
    fun p hx => hprog.flashByte_outside (Nat.le_refl _) hx, hprog.piece⟩

/-- Settles O31: the loop over the cleared faults, and then the turn that never ends. -/
theorem flWrangeHaltsWithItsSubOperation : Obligations.FlWrangeHaltsWithItsSubOperation := by
  intro s a n off flags stop rest hf hw hp hstop hlen hs
  obtain ⟨p, ps, t, u, hexec, hle, hprog, hstopped⟩ := exec_flWrange_of_stop hf hw hp hstop hlen hs
  refine ⟨u, hexec, ?_, hstopped.state, ?_, ?_, ?_, fun x hx => ?_⟩
  · rw [hstopped.only, hprog.only]
  · have halted : t.fl.halted = false := (congrArg FlashSeq.halted hprog.sequencer).trans hf.1
    rw [hstopped.halted, halted]
    cases leftIn stop <;> rfl
  · exact hstopped.writeFail.trans (congrArg FlashSeq.writeFail hprog.sequencer)
  · rw [hstopped.issued, hprog.issued, List.length_append, length_settledCommands _ _ hprog.length, ← Nat.add_assoc]
  · exact (hstopped.outside x hx).trans (hprog.flashByte_outside hle hx)

/-- Settles O32: two byte strings of one length are equal when every byte agrees. -/
theorem flCmpComparesEveryByte : Obligations.FlCmpComparesEveryByte := by
  refine fun s a n off hf => ⟨fun h => runOperation_of_ends hf (flCmp_of_not_fits h), fun h hsame => ?_,
    fun h hdiffer => ?_⟩
  · exact runOperation_of_ends hf ((flCmp_of_fits h).trans (if_pos ((flashRange_eq_bufRange_iff ..).mpr hsame)))
  · exact runOperation_of_ends hf ((flCmp_of_fits h).trans (if_neg (mt (flashRange_eq_bufRange_iff ..).mp hdiffer)))

end Sys2Proof.Machine
end

section
/-! The length prefix of a packet and what it announces (R231 to R237), from a block whose frame unit can take a frame:
one law for each way the reception goes on. -/

namespace Sys2Proof.Machine

/-! ### The frame unit takes a frame -/

theorem exec_frRecv {s : State} (hf : s.free) : exec .frRecv s = (frRecv s).outcome := runOperation_free hf.1 hf.2

theorem exec_len {s : State} (hf : s.frameFree) (p : Half) : exec (.len p) s = (frameLength p s).outcome :=
  runFrame_free hf.1 hf.2

theorem exec_pktEnd {s : State} (hf : s.frameFree) : exec .pktEnd s = (frameLength 0#16 s).outcome :=
  runFrame_free hf.1 hf.2

/-- R105: twelve bytes are one packet under either name. -/
theorem exec_packet {s : State} {i : Instr} {payload : List Byte} (hf : s.frameFree)
    (hi : i = .pktWrite payload ∨ ∃ iv checksum, i = .pktIv iv checksum ∧ payload = iv.toList ++ bytesBE32 checksum) :
    exec i s = (framePacket payload s).outcome := by
  obtain rfl | ⟨iv, checksum, rfl, rfl⟩ := hi <;> exact runFrame_free hf.1 hf.2

theorem State.free.frameFree {s : State} (hf : s.free) : s.frameFree := ⟨hf.1, State.free_flIdle hf⟩

theorem State.free_frIdle {s : State} (hf : s.free) : s.fr.state = .idle := by
  have hbusy := hf.2
  simp only [State.busy, Bool.or_eq_false_iff, bne_eq_false_iff_eq] at hbusy
  exact hbusy.2

/-- R234: two bytes are taken, most significant first, and no others. -/
theorem frRecv_of_prefix {s : State} {p : Half} {body : List Byte} (h : s.rx = bytesBE16 p ++ body) :
    frRecv s = frameLength p { s with rx := body } := by
  have hrx : (frStart s).rx = p.extractLsb' 8 8 :: p.extractLsb' 0 8 :: body := h
  rw [frRecv, receiveLength, hrx]
  exact congrArg (afterLength · _) (be16_bytes p)

theorem exec_frRecv_of_prefix {s : State} {p : Half} {body : List Byte} (hf : s.free)
    (h : s.rx = bytesBE16 p ++ body) : exec .frRecv s = (frameLength p { s with rx := body }).outcome :=
  (exec_frRecv hf).trans (congrArg OpResult.outcome (frRecv_of_prefix h))

/-! ### What a length prefix announces -/

/-- The frame registers once a length prefix has been taken. -/
def Frame.announced (fr : Frame) (p : Half) (st : FrState) : Frame :=
  { fr with plen := p, lenHi := p.extractLsb' 8 8, fill := 0#16, cur := 0#16, state := st }

/-- R235. -/
theorem frameLength_zero (s : State) :
    frameLength 0#16 s = .ends .okEnd { s with fr := { s.fr.announced 0#16 .idle with final := true } } := rfl

section
variable {s : State} {p : Half} (hp : p ≠ 0#16)
include hp

/-- R236: too large, and nothing is discarded. -/
theorem frameLength_of_tooLarge (hcap : s.cfg.bufCap < p.toNat) (hdrain : s.cfg.drainOversize = false) :
    frameLength p s = .ends .errTooLarge { s with fr := s.fr.announced p .idle } := by
  have hnot : ¬(frStart s).cfg.drainOversize = true := Bool.eq_false_iff.mp hdrain
  rw [frameLength, afterLength, if_neg hp]
  exact (if_pos hcap).trans (if_neg hnot)

/-- R236: too large, and the body bytes are discarded. -/
theorem frameLength_of_drain (hcap : s.cfg.bufCap < p.toNat) (hdrain : s.cfg.drainOversize = true) :
    frameLength p s = drainBody { s with fr := { s.fr.announced p .drain with toDrain := p } } := by
  rw [frameLength, afterLength, if_neg hp]
  exact (if_pos hcap).trans (if_pos hdrain)

/-- R237: the body is stored. -/
theorem frameLength_of_fits (hcap : p.toNat ≤ s.cfg.bufCap) :
    frameLength p s = receiveBody { s with fr := s.fr.announced p .body } := by
  rw [frameLength, afterLength, if_neg hp]
  exact if_neg (Nat.not_lt.mpr hcap)

end

/-- R236: every byte still to be discarded is there. -/
theorem drainBody_of_enough {s : State} (h : s.fr.toDrain.toNat ≤ s.rx.length) :
    drainBody s = .ends .errTooLarge
      { s with rx := s.rx.drop s.fr.toDrain.toNat, fr.toDrain := 0#16, fr.state := .idle } := by
  have hlen : (s.rx.take s.fr.toDrain.toNat).length = s.fr.toDrain.toNat := List.length_take_of_le h
  simp only [drainBody, hlen, Nat.lt_irrefl, if_false, BitVec.ofNat_toNat, BitVec.setWidth_eq, BitVec.sub_self, frEnds]

/-- R236, R250: some are still to come. -/
theorem drainBody_of_few {s : State} (h : s.rx.length < s.fr.toDrain.toNat) :
    drainBody s = .blocks { s with rx := [], fr.toDrain := s.fr.toDrain - BitVec.ofNat 16 s.rx.length } := by
  have htake : s.rx.take s.fr.toDrain.toNat = s.rx := List.take_of_length_le (Nat.le_of_lt h)
  have hdrop : s.rx.drop s.fr.toDrain.toNat = [] := List.drop_of_length_le (Nat.le_of_lt h)
  simp only [drainBody, htake, hdrop, if_pos h]

/-- R237, R250: a body of which no byte has been stored, and of which some bytes are still to come. -/
theorem receiveBody_of_few {s : State} (hfill : s.fr.fill = 0#16) (h : s.rx.length < s.fr.plen.toNat) :
    receiveBody s = .blocks { s.storeBuf 0 s.rx with rx := [], fr.fill := BitVec.ofNat 16 s.rx.length } := by
  have htake : s.rx.take s.fr.plen.toNat = s.rx := List.take_of_length_le (Nat.le_of_lt h)
  have hdrop : s.rx.drop s.fr.plen.toNat = [] := List.drop_of_length_le (Nat.le_of_lt h)
  simp only [receiveBody, hfill, BitVec.toNat_zero, Nat.sub_zero, htake, hdrop, if_pos h, State.storeBuf_fr_fill,
    BitVec.zero_add]

/-- R237: the packet is its length prefix with its bytes in the channel. -/
theorem framePacket_take {s : State} {p : Half} (h : p.toNat ≤ s.rx.length) :
    framePacket (s.rx.take p.toNat) { s with rx := s.rx.drop p.toNat } = frameLength p s := by
  simp only [framePacket, List.length_take_of_le h, BitVec.ofNat_toNat, BitVec.setWidth_eq, List.take_append_drop]

/-! ### The statements about the length prefix -/

/-- Settles O33. -/
theorem frResetClearsTheSequence : Obligations.FrResetClearsTheSequence := fun s hf =>
  (runOperation_of_ends (op := frReset) hf rfl).trans (by simp only [State.setRes, (State.free_frIdle hf).symm])

/-- Settles O34. -/
theorem zeroLengthIsTheEndMarker : Obligations.ZeroLengthIsTheEndMarker := by
  refine fun s rest => ⟨fun hf hrx => ?_, fun hf => ?_, fun hf hrx => ?_⟩
  · exact (exec_frRecv_of_prefix (p := 0#16) hf hrx).trans (congrArg OpResult.outcome (frameLength_zero _))
  · exact (exec_pktEnd hf).trans (congrArg OpResult.outcome (frameLength_zero _))
  · exact (cmdWrite_eq hf).trans (congrArg finishWrite
      ((frRecv_of_prefix (s := { s with port.op := 0x31#8 }) (p := 0#16) hrx).trans (frameLength_zero _)))

/-- Settles O35, by what the prefix announces and how much of it is there. -/
theorem lengthPrefixAnnouncesTheBody : Obligations.LengthPrefixAnnouncesTheBody := by
  refine fun s p hf hp => ⟨fun hcap hdrain => ?_, fun hcap hdrain hlen => ?_, fun hcap hdrain hlen => ?_,
    fun hcap hlen => ?_, fun hcap hlen => ?_⟩
  · rw [exec_len hf, frameLength_of_tooLarge hp hcap hdrain]; rfl
  · rw [exec_len hf, frameLength_of_drain hp hcap hdrain, drainBody_of_enough hlen]; rfl
  · rw [exec_len hf, frameLength_of_drain hp hcap hdrain, drainBody_of_few hlen]; rfl
  · rw [exec_len hf, ← framePacket_take hlen]
    exact (exec_packet (s := { s with rx := s.rx.drop p.toNat }) hf (.inl rfl)).symm
  · rw [exec_len hf, frameLength_of_fits hp hcap, receiveBody_of_few rfl hlen]
    refine ⟨_, rfl, rfl, fun i => ?_⟩
    refine (State.bufByte_storeBuf { s with fr := s.fr.announced p .body } 0 s.rx i).trans ?_
    simp only [Nat.zero_le, true_and, Nat.zero_add, Nat.sub_zero, State.bufByte, Frame.announced]

/-- Settles O38: each frame is its length prefix with what stands behind it in the channel. -/
theorem frRecvTakesOneFrame : Obligations.FrRecvTakesOneFrame := by
  rintro s i rest hf (rfl | ⟨iv, checksum, rfl⟩ | ⟨payload, rfl, -⟩ | ⟨p, rfl⟩) hrx
  · exact (exec_frRecv_of_prefix (p := 0#16) hf hrx).trans
      (exec_pktEnd (s := { s with rx := rest }) hf.frameFree).symm
  · refine (exec_frRecv_of_prefix (p := 12#16) (body := iv.toList ++ bytesBE32 checksum ++ rest) hf hrx).trans ?_
    rw [exec_packet (s := { s with rx := rest }) hf.frameFree (.inr ⟨iv, checksum, rfl, rfl⟩), framePacket,
      List.length_append, Vector.length_toList, length_bytesBE32]
  · exact (exec_frRecv_of_prefix (body := payload ++ rest) hf hrx).trans
      (exec_packet (s := { s with rx := rest }) hf.frameFree (.inl rfl)).symm
  · exact (exec_frRecv_of_prefix (body := rest) hf hrx).trans
      (exec_len (s := { s with rx := rest }) hf.frameFree p).symm

end Sys2Proof.Machine
end

section
/-! A reception that waits for bytes and goes on (R250, R306): what the next step answers, and how the controller that
issued the reception takes its end up. -/

namespace Sys2Proof.Machine

/-! ### How a reception waits -/

theorem not_idle_of_waiting {st : FrState} (h : st ∈ [FrState.len0, .len1, .body, .drain]) : st ≠ .idle := by
  rintro rfl
  exact absurd h (by decide)

theorem receives_of_blocks {s u : State} (h : frRecv s = .blocks u) : Receives s (.blocks u) := h ▸ frRecv_receives s

theorem frRecv_of_exec_waits {s u : State} (hf : s.free) (h : exec .frRecv s = .next u) (hst : u.fr.state ≠ .idle) :
    frRecv s = .blocks u := by
  obtain ⟨r, v, hends, rfl⟩ | hblocks := frRecv_cases hf h
  · have hr := frRecv_receives s
    rw [hends] at hr
    exact absurd hr.2.1 hst
  · exact hblocks

theorem frIdle_keptFlash : KeptFlash (fun s => s.fr.state = .idle) fun _ _ => True where
  permitted _ _ _ := trivial
  alike _ _ h a := a.fr ▸ h
  res _ _ h := h
  flash _ _ _ h _ _ e := e.1.fr ▸ h
  flashWaits _ _ h _ _ e := e.1.fr ▸ h

/-- R306: the controller's answer to a reception that has ended leaves the frame unit idle, whatever it writes. -/
theorem writeReply_frIdle {s : State} (hf : s.frameFree) (h : s.fr.state = .idle) (r : Res) :
    (writeReply r s).fr.state = .idle :=
  writeReply_keeps frIdle_keptFlash ⟨h, hf.2, hf.1, h⟩ r

theorem frRecv_of_cmdWrite_waits {s u : State} (hf : s.commandFree) (h : exec .cmdWrite s = .next u)
    (hst : u.fr.state ≠ .idle) :
    ∃ v, frRecv { s with port.op := 0x31#8 } = .blocks v ∧ u = { v with env.writing := true } := by
  rw [cmdWrite_eq hf] at h
  have hr := frRecv_receives { s with port.op := 0x31#8 }
  cases hrecv : frRecv { s with port.op := 0x31#8 } with
  | ends r v =>
    rw [hrecv] at h hr
    obtain ⟨only, hidle, -⟩ := hr
    have hv : (v.setRes r).frameFree := by
      rw [State.frameFree, State.setRes_fl, only.fl]
      exact hf.1.frameFree
    rw [← Host.Outcome.next.inj h] at hst
    exact absurd (writeReply_frIdle hv hidle r) hst
  | blocks v =>
    rw [hrecv] at h
    exact ⟨v, rfl, (Host.Outcome.next.inj h).symm⟩
  | noMeaning f =>
    rw [hrecv] at h
    cases h

/-! ### The step that goes on -/

/-- R250: the step over late bytes, whatever the controller does meanwhile. -/
theorem step_of_waiting {s u : State} {early late : List Byte} (hin : s.inputs = []) (hf : s.frameFree)
    (h : frRecv { s with rx := early } = .blocks u) (e : Env) :
    step { u with rx := late, env := e } = settle (frRecv { s with rx := early ++ late, env := e }).outcome := by
  obtain ⟨only, -, hst⟩ := receives_of_blocks h
  have hfree : State.frameFree { u with rx := late, env := e } := by
    rw [State.frameFree, only.fl]
    exact hf
  rw [step_resume (u := { u with rx := late, env := e }) (only.inputs.trans hin) hfree hst (frRecv_waits (u := u) h)]
  refine congrArg (fun r => settle (OpResult.outcome r)) ?_
  calc resume { u with rx := late, env := e }
      = (resume { u with rx := late }).withEnv e := resume_env e { u with rx := late }
    _ = (frRecv { s with rx := early ++ late }).withEnv e := by rw [frRecv_resume h]
    _ = frRecv { s with rx := early ++ late, env := e } := (frRecv_env e { s with rx := early ++ late }).symm

/-- No command waits: the step adds nothing to what the reception does. -/
theorem settle_frRecv_of_not_writing {s : State} (h : s.env.writing = false) :
    settle (frRecv s).outcome = (frRecv s).outcome := by
  have hr := frRecv_receives s
  cases hrecv : frRecv s with
  | ends r u =>
    rw [hrecv] at hr
    exact settle_of_not_writing ((congrArg Env.writing hr.1.env).trans h)
  | blocks u =>
    rw [hrecv] at hr
    exact settle_of_not_writing ((congrArg Env.writing hr.1.env).trans h)
  | noMeaning f => rfl

theorem writeReply_of_writing (r : Res) (s : State) (b : Bool) :
    writeReply r { s with env.writing := b } = writeReply r s := rfl

/-- R306: a Write command that waits takes the value of `RES` up as soon as its reception has ended. -/
theorem resumeWrite_of_ended {s : State} {r : Res} (hf : s.frameFree) (hidle : s.fr.state = .idle) :
    resumeWrite { s.setRes r with env.writing := true } = writeReply r (s.setRes r) := by
  rw [resumeWrite, if_pos (by simp [State.busy, hf.1, hf.2, hidle])]
  simp only [State.setRes_port_res, resCode_roundtrip]
  exact writeReply_of_writing r (s.setRes r) true

theorem resumeWrite_of_waiting {s : State} (hst : s.fr.state ≠ .idle) : resumeWrite s = s := by
  simp [resumeWrite, State.busy, hst]

/-- R306: a Write command that waits for its reception settles it as the command itself does. -/
theorem settle_frRecv_of_writing {s : State} (hf : s.frameFree) :
    settle (frRecv { s with env.writing := true }).outcome = finishWrite (frRecv s) := by
  have henv : frRecv { s with env.writing := true } = (frRecv s).withEnv { s.env with writing := true } :=
    frRecv_env _ s
  have hr := frRecv_receives s
  rw [henv]
  cases hrecv : frRecv s with
  | ends r u =>
    rw [hrecv] at hr
    obtain ⟨only, hidle, -⟩ := hr
    have hu : u.frameFree := by rw [State.frameFree, only.fl]; exact hf
    rw [← only.env]
    exact congrArg Host.Outcome.next (resumeWrite_of_ended hu hidle)
  | blocks u =>
    rw [hrecv] at hr
    obtain ⟨only, -, hst⟩ := hr
    rw [← only.env]
    exact congrArg Host.Outcome.next (resumeWrite_of_waiting (not_idle_of_waiting hst))
  | noMeaning f => rfl

/-- Settles O39: what waits is a reception that has taken every byte; its next move over the late bytes is `FR.RECV`
over all of them. -/
theorem receptionResumesWhereItWaited : Obligations.ReceptionResumesWhereItWaited := by
  refine fun s u early late hin hst => ⟨fun hf hw hexec => ?_, fun hf hexec => ?_⟩
  · have hblocks := frRecv_of_exec_waits (s := { s with rx := early }) hf hexec hst
    obtain ⟨only, hrx, -⟩ := receives_of_blocks hblocks
    refine ⟨hrx, congrArg Port.res only.port, ?_⟩
    calc step { u with rx := late }
        = step { u with rx := late, env := s.env } := by rw [show s.env = u.env from only.env.symm]
      _ = settle (frRecv { s with rx := early ++ late }).outcome := step_of_waiting hin hf.frameFree hblocks s.env
      _ = (frRecv { s with rx := early ++ late }).outcome := settle_frRecv_of_not_writing hw
      _ = exec .frRecv { s with rx := early ++ late } := (exec_frRecv (s := { s with rx := early ++ late }) hf).symm
  · obtain ⟨v, hblocks, rfl⟩ := frRecv_of_cmdWrite_waits (s := { s with rx := early }) hf hexec hst
    obtain ⟨only, hrx, -⟩ := receives_of_blocks hblocks
    refine ⟨hrx, only.tx, ?_⟩
    calc step { v with rx := late, env.writing := true }
        = step { v with rx := late, env := { s.env with writing := true } } := by
          rw [show s.env = v.env from only.env.symm]
      _ = settle (frRecv { s with port.op := 0x31#8, rx := early ++ late, env.writing := true }).outcome :=
          step_of_waiting (s := { s with port.op := 0x31#8 }) hin hf.1.frameFree hblocks _
      _ = finishWrite (frRecv { s with port.op := 0x31#8, rx := early ++ late }) :=
          settle_frRecv_of_writing (s := { s with port.op := 0x31#8, rx := early ++ late }) hf.1.frameFree
      _ = exec .cmdWrite { s with rx := early ++ late } := (cmdWrite_eq (s := { s with rx := early ++ late }) hf).symm

end Sys2Proof.Machine
end

section
/-! A whole packet (R237 to R247): packet #1, which keys the cipher, and a later packet, which is decrypted; what they
share is the verification and how it rejects. -/

namespace Sys2Proof.Machine

/-! ### Rejection -/

/-- R243, R244: the result `r` of a rejected packet of `n` bytes, and what the CRC registers and `CUR` then hold; `sum`
and `got` are the two checksums, `old` and `taken` those registers before the verification, and `extracted` is the `CUR`
of an extraction that rejects. -/
structure PacketRejected (n : Nat) (sum got : Word) (old : Crc) (taken extracted : Half) (r : Res) (crc : Crc)
    (cur : Half) : Prop where
  cur : cur = if n < 4 then taken else if sum = got then extracted else BitVec.ofNat 16 (n - 4)
  short : n < 4 → r = .errSize ∧ crc = old
  recorded : 4 ≤ n → crc = { acc := sum, computed := sum, received := got, matched := decide (sum = got) }
  mismatch : 4 ≤ n → sum ≠ got → r = .errChecksum
  shape : 4 ≤ n → sum = got → r = .errSize

/-- R242 to R244: a packet whose extraction would reject it is rejected, there or before. -/
theorem verifyChecksum_rejects {t : State} {l : List Byte} {n : Nat} {extracted : Half} (first : Bool)
    (hn : t.fr.plen.toNat = n) (hl : l.length = n) (hbuf : ∀ j, j < n → t.bufByte j = l.getD j 0#8) {sum got : Word}
    (hsum : crcBytes t.cfg.crcPoly 0#32 (l.take (n - 4)) = sum)
    (hgot : be32 (l.getD (n - 4) 0#8) (l.getD (n - 3) 0#8) (l.getD (n - 2) 0#8) (l.getD (n - 1) 0#8) = got)
    (hextract : 4 ≤ n → sum = got →
      (if first = true then extractFirst (verified n sum got .extract t)
        else extractWrite (verified n sum got .extract t))
        = frEnds .errSize { verified n sum got .extract t with fr.cur := extracted }) :
    ∃ r crc cur, verifyChecksum first t = .ends r { t with fr.state := .idle, fr.cur := cur, crc := crc }
      ∧ PacketRejected n sum got t.crc t.fr.cur extracted r crc cur := by
  rw [verifyChecksum_eq first hn hl hbuf hsum hgot]
  by_cases hshort : n < 4
  · rw [if_pos hshort]
    exact ⟨_, _, _, rfl, (if_pos hshort).symm, fun _ => ⟨rfl, rfl⟩, fun h => absurd hshort (Nat.not_lt.mpr h),
      fun h => absurd hshort (Nat.not_lt.mpr h), fun h => absurd hshort (Nat.not_lt.mpr h)⟩
  · rw [if_neg hshort]
    by_cases heq : sum = got
    · rw [if_neg (not_not_intro heq), hextract (Nat.le_of_not_lt hshort) heq]
      exact ⟨_, _, _, rfl, ((if_neg hshort).trans (if_pos heq)).symm, fun h => absurd h hshort, fun _ => rfl,
        fun _ h => absurd heq h, fun _ _ => rfl⟩
    · rw [if_pos heq]
      exact ⟨_, _, _, rfl, ((if_neg hshort).trans (if_neg heq)).symm, fun h => absurd h hshort, fun _ => rfl,
        fun _ _ => rfl, fun _ h => absurd h heq⟩

/-! ### Packet #1 -/

theorem extractFirst_of_other_length {t : State} (h : t.fr.plen ≠ 12#16) : extractFirst t = frEnds .errSize t :=
  if_pos h

/-- R245. -/
theorem extractFirst_of_iv {t : State} (h : t.fr.plen = 12#16) :
    extractFirst t = frEnds .okIv
      { keySetup true t.cfg.key.toList (t.bufRange 0 8) t with fr.seq := t.fr.seq + 1#32 } := if_neg (not_not_intro h)

/-- R237: the state in which packet #1 is verified. -/
def stored (payload : List Byte) (s : State) : State :=
  { packed payload s with fr.cur := BitVec.ofNat 16 payload.length }

theorem stored_bufByte (payload : List Byte) (s : State) (j : Nat) :
    (stored payload s).bufByte j = if j < payload.length then payload.getD j 0#8 else s.bufByte j :=
  packed_bufByte payload s j

/-- R238: packet #1 is verified as it came. -/
theorem framePacket_of_first {s : State} {payload : List Byte} (hseq : s.fr.seq = 0#32) (h0 : 0 < payload.length)
    (hcap : payload.length ≤ s.cfg.bufCap) (hlt : payload.length < 65536) :
    framePacket payload s = verifyChecksum true (stored payload s) := by
  rw [framePacket_eq h0 hcap hlt]
  exact if_pos (beq_iff_eq.mpr hseq)

/-! ### A later packet -/

/-- R240, R241: the state in which a later packet is verified; the XOR unit leaves `sc`, `ks` and `buf`. -/
def deciphered (payload : List Byte) (sc : Block) (ks : Vector Byte 64) (buf : Memory) (s : State) : State :=
  { packed payload s with
    fr := { (packed payload s).fr with state := .decrypt, cur := BitVec.ofNat 16 payload.length, buf := buf }
    ciph :=
      { s.ciph with
        x := withCounter s.ciph.x (blockCounter s.ciph.x + BitVec.ofNat 64 ((payload.length + 63) / 64))
        s := sc, ks := ks, cRem := 0#32, cOff := 0#32 } }

@[simp] theorem length_decrypted (rounds : Nat) (x : Block) (payload : List Byte) :
    (decrypted rounds x payload).length = payload.length := by simp [decrypted]

theorem getD_decrypted {rounds : Nat} {x : Block} {payload : List Byte} {j : Nat} (h : j < payload.length) :
    (decrypted rounds x payload).getD j 0#8 = payload.getD j 0#8 ^^^
      (keystreamBlock rounds x (blockCounter x + BitVec.ofNat 64 (j / 64))).toList.getD (j % 64) 0#8 := by
  simp [decrypted, List.getD_eq_getElem?_getD, h]

/-- R238, R240: the whole packet is decrypted before anything in it is looked at. -/
theorem packetComplete_of_later {s : State} (hlater : s.firstPacket = false) (hcap : s.fr.plen.toNat ≤ s.cfg.bufCap)
    (hk : s.ciph.keyed = true) :
    packetComplete s
      = verifyChecksum false (cipherRange 0 s.fr.plen.toNat { s with fr.cur := s.fr.plen, fr.state := .decrypt }) := by
  have hlen : (s.fr.plen.setWidth 32).toNat = s.fr.plen.toNat := by
    rw [BitVec.toNat_setWidth, Nat.mod_eq_of_lt (by have := s.fr.plen.isLt; omega)]
  have hproc := ciphProc_of_fits (s := { s with fr.cur := s.fr.plen, fr.state := .decrypt }) (off := 0#32)
    (n := s.fr.plen.setWidth 32) (by rw [hlen, BitVec.toNat_zero, Nat.zero_add]; exact hcap) (.inr hk)
  rw [hlen] at hproc
  rw [packetComplete]
  refine (if_neg (Bool.eq_false_iff.mp hlater)).trans ?_
  rw [hproc]
  rfl

/-- R238, R240: a later packet, from the state before its reception. -/
theorem framePacket_of_later {s : State} {payload : List Byte} (hseq : s.fr.seq ≠ 0#32) (hk : s.ciph.keyed = true)
    (h0 : 0 < payload.length) (hcap : payload.length ≤ s.cfg.bufCap) (hlt : payload.length < 65536) :
    ∃ sc ks buf, framePacket payload s = verifyChecksum false (deciphered payload sc ks buf s)
      ∧ ∀ j, (deciphered payload sc ks buf s).bufByte j =
          if j < payload.length then (decrypted s.cfg.nDoubleRounds s.ciph.x payload).getD j 0#8 else s.bufByte j := by
  have hn : (packed payload s).fr.plen.toNat = payload.length := Nat.mod_eq_of_lt hlt
  obtain ⟨sc, ks, buf, hrange, hbuf⟩ := cipherRange_eq 0 payload.length
    { packed payload s with fr.cur := (packed payload s).fr.plen, fr.state := .decrypt } (by omega)
  refine ⟨sc, ks, buf, ?_, fun j => ?_⟩
  · have hlater : (packed payload s).firstPacket = false := beq_eq_false_iff_ne.mpr hseq
    rw [framePacket_eq h0 hcap hlt, packetComplete_of_later hlater (hn.trans_le hcap) hk, hn, hrange]
    rfl
  · refine (hbuf j).trans ?_
    simp only [Nat.zero_le, true_and, Nat.zero_add, Nat.sub_zero]
    refine ite_congr rfl (fun hj => ?_) fun hj => (packed_bufByte payload s j).trans (if_neg hj)
    rw [getD_decrypted hj]
    exact congrArg (· ^^^ _) ((packed_bufByte payload s j).trans (if_pos hj))

/-- R244 c, no room for the trailer. -/
theorem extractWrite_of_short {t : State} (h : t.fr.plen.toNat < 10) : extractWrite t = frEnds .errSize t := if_pos h

/-- R247, a payload `l` with room for the trailer: its fields, and R244 c for the data they claim. -/
theorem extractWrite_of_trailer {t : State} {l : List Byte} {n : Nat} (hn : t.fr.plen.toNat = n) (h10 : 10 ≤ n)
    (hbuf : ∀ j, j < n → t.bufByte j = l.getD j 0#8) :
    extractWrite t =
      if n - 10 < (be16 (l.getD (n - 6) 0#8) (l.getD (n - 5) 0#8)).toNat then
        frEnds .errSize { t with fr.cur := BitVec.ofNat 16 (n - 10) }
      else frEnds .okWrite
        { t with
          fr.cur := BitVec.ofNat 16 (n - 10)
          fr.wAddr := be32 (l.getD (n - 10) 0#8) (l.getD (n - 9) 0#8) (l.getD (n - 8) 0#8) (l.getD (n - 7) 0#8)
          fr.wLen := be16 (l.getD (n - 6) 0#8) (l.getD (n - 5) 0#8), fr.seq := t.fr.seq + 1#32 } := by
  have h10' : ¬t.fr.plen.toNat < 10 := by omega
  rw [extractWrite, if_neg h10', hn, hbuf (n - 10) (by omega), hbuf (n - 9) (by omega), hbuf (n - 8) (by omega),
    hbuf (n - 7) (by omega), hbuf (n - 6) (by omega), hbuf (n - 5) (by omega)]

/-! ### The statements about packets -/

/-- R245: the eight payload bytes that key the cipher. -/
theorem bufRange_eight (t : State) :
    t.bufRange 0 8 = (#v[t.bufByte 0, t.bufByte 1, t.bufByte 2, t.bufByte 3, t.bufByte 4, t.bufByte 5, t.bufByte 6,
      t.bufByte 7] : Vector Byte 8).toList := rfl

/-- Settles O36: the packet has the length and the checksum of packet #1, or it is rejected. -/
theorem firstPacketKeysTheCipher : Obligations.FirstPacketKeysTheCipher := by
  intro s i payload hf hseq h0 hcap hlt hi n sum got
  have hexec := (exec_packet hf hi).trans (congrArg OpResult.outcome (framePacket_of_first hseq h0 hcap hlt))
  have hn : (stored payload s).fr.plen.toNat = n := Nat.mod_eq_of_lt hlt
  have hbuf (j : Nat) (hj : j < n) : (stored payload s).bufByte j = payload.getD j 0#8 :=
    (stored_bufByte payload s j).trans (if_pos hj)
  by_cases hok : n = 12 ∧ sum = got
  · obtain ⟨h12, heq⟩ := hok
    have h4 : ¬n < 4 := by omega
    have hplen : (verified n sum got .extract (stored payload s)).fr.plen = 12#16 :=
      BitVec.eq_of_toNat_eq (hn.trans h12)
    have hkey : (stored payload s).bufRange 0 8 = (#v[payload.getD 0 0#8, payload.getD 1 0#8, payload.getD 2 0#8,
        payload.getD 3 0#8, payload.getD 4 0#8, payload.getD 5 0#8, payload.getD 6 0#8, payload.getD 7 0#8] :
        Vector Byte 8).toList := by
      rw [bufRange_eight, hbuf 0 (by omega), hbuf 1 (by omega), hbuf 2 (by omega), hbuf 3 (by omega),
        hbuf 4 (by omega), hbuf 5 (by omega), hbuf 6 (by omega), hbuf 7 (by omega)]
    rw [verifyChecksum_eq (sum := sum) (got := got) true hn rfl hbuf rfl rfl, if_neg h4, if_neg (not_not_intro heq),
      if_pos rfl, extractFirst_of_iv hplen] at hexec
    refine ⟨_, hexec, rfl, ?_, stored_bufByte payload s, fun h => absurd h h4, fun _ => rfl,
      fun _ h => absurd heq h, fun _ _ h => absurd h12 h, fun _ _ => ⟨rfl, congrArg (· + 1#32) hseq, _,
        runOperation_of_ends ⟨hf.1, ?_⟩ (ciphKeysetup_of_supported _ (.inl rfl)), ?_⟩⟩
    · rw [if_neg h4]; rfl
    · simp [State.busy, hf.2]
    · exact congrArg (fun iv => { s.ciph with x := keyedBlock true s.cfg.key.toList iv, keyed := true }) hkey
  · obtain ⟨r, crc, cur, hverify, hrej⟩ := verifyChecksum_rejects (extracted := BitVec.ofNat 16 (n - 4))
      (sum := sum) (got := got) true hn rfl hbuf rfl rfl fun _ heq => by
        refine (if_pos rfl).trans (extractFirst_of_other_length fun hplen => hok ⟨?_, heq⟩)
        exact hn.symm.trans (congrArg BitVec.toNat hplen)
    have hcur : cur = BitVec.ofNat 16 (if n < 4 then n else n - 4) := by
      rw [hrej.cur, ite_self, apply_ite (BitVec.ofNat 16)]
      rfl
    rw [hverify] at hexec
    refine ⟨_, hexec, rfl, ?_, stored_bufByte payload s, fun h => ?_, hrej.recorded, fun h4 hne => ?_,
      fun h4 heq _ => ?_, fun h12 heq => absurd ⟨h12, heq⟩ hok⟩
    · rw [← hcur]; rfl
    · obtain ⟨hr, hcrc⟩ := hrej.short h
      exact ⟨congrArg resCode hr, hcrc, rfl, hseq⟩
    · exact ⟨congrArg resCode (hrej.mismatch h4 hne), rfl, hseq⟩
    · exact ⟨congrArg resCode (hrej.shape h4 heq), rfl, hseq⟩

/-- Settles O37: the plain payload has room for its trailer, the right checksum and all the data it claims, or it is
rejected. -/
theorem laterPacketIsDecryptedCheckedAndRead : Obligations.LaterPacketIsDecryptedCheckedAndRead := by
  intro s i payload hf hseq hk h0 hcap hlt hi n plain sum got l a accepted
  obtain ⟨sc, ks, buf, hframe, hall⟩ := framePacket_of_later hseq hk h0 hcap hlt
  have hexec := (exec_packet hf hi).trans (congrArg OpResult.outcome hframe)
  have hn : (deciphered payload sc ks buf s).fr.plen.toNat = n := Nat.mod_eq_of_lt hlt
  have hlen : plain.length = n := length_decrypted ..
  have hbuf (j : Nat) (hj : j < n) : (deciphered payload sc ks buf s).bufByte j = plain.getD j 0#8 :=
    (hall j).trans (if_pos hj)
  have htrailer (h10 : 10 ≤ n) :=
    extractWrite_of_trailer (t := verified n sum got .extract (deciphered payload sc ks buf s)) hn h10 hbuf
  by_cases hacc : accepted
  · obtain ⟨h10, heq, hl⟩ := id hacc
    have h4 : ¬n < 4 := by omega
    rw [verifyChecksum_eq (sum := sum) (got := got) false hn hlen hbuf rfl rfl, if_neg h4,
      if_neg (not_not_intro heq), if_neg Bool.false_ne_true, htrailer h10, if_neg (Nat.not_lt.mpr hl)] at hexec
    refine ⟨_, hexec, rfl, rfl, ?_, hall, fun h => absurd h h4, fun _ => rfl, fun _ h => absurd heq h,
      fun _ _ h => absurd hacc h, fun _ => ⟨rfl, rfl⟩⟩
    simp only [if_pos hacc]
    rfl
  · obtain ⟨r, crc, cur, hverify, hrej⟩ := verifyChecksum_rejects (sum := sum) (got := got)
      (extracted := BitVec.ofNat 16 (if n < 10 then n - 4 else n - 10)) false hn hlen hbuf rfl rfl fun _ heq => by
        refine (if_neg Bool.false_ne_true).trans ?_
        by_cases h10 : n < 10
        · rw [if_pos h10]
          exact extractWrite_of_short (hn.trans_lt h10)
        · have h10' : 10 ≤ n := Nat.le_of_not_lt h10
          rw [if_neg h10, htrailer h10']
          exact if_pos (Nat.lt_of_not_le fun hl => hacc ⟨h10', heq, hl⟩)
    rw [hverify] at hexec
    refine ⟨_, hexec, rfl, rfl, ?_, hall, fun h => ?_, hrej.recorded, fun h4 hne => ?_, fun h4 heq _ => ?_,
      fun h => absurd h hacc⟩
    · simp only [if_neg hacc]
      rfl
    · obtain ⟨hr, hcrc⟩ := hrej.short h
      exact ⟨congrArg resCode hr, hcrc⟩
    · exact congrArg resCode (hrej.mismatch h4 hne)
    · exact congrArg resCode (hrej.shape h4 heq)

end Sys2Proof.Machine
end

section
/-! What the operation codes and the command bytes stand for (R91, R93, R109), and the system operations (R271, R273): a
reserved code, which does nothing, and `SYS.ZEROISE`. -/

namespace Sys2Proof.Machine

/-! ### Operation codes -/

/-- R93: a reserved code reads no operand. -/
theorem operandsRead_of_not_operationCode {op : Byte} (h : isOperationCode op = false) : operandsRead op = 0 := by
  simp only [isOperationCode, List.contains_eq_mem, decide_eq_false_iff_not, List.mem_cons, List.not_mem_nil, or_false,
    not_or] at h
  simp only [operandsRead, List.mem_cons, List.not_mem_nil, h, or_false, if_false]

/-- R91, R93: each of the seventeen codes decodes to an operation of its own, every other code to the reserved one, which
keeps the code and no operand. -/
theorem decodeOperation_keeps_code (op : Byte) (a b c : Word) :
    operationWords (decodeOperation op a b c)
        = some (op, if 1 ≤ operandsRead op then a else 0#32, if 2 ≤ operandsRead op then b else 0#32,
            if 3 ≤ operandsRead op then c else 0#32)
      ∧ (decodeOperation op a b c = .reserved op ↔ isOperationCode op = false) := by
  cases h : isOperationCode op with
  | true =>
    simp only [isOperationCode, List.contains_eq_mem, decide_eq_true_eq, List.mem_cons, List.not_mem_nil, or_false] at h
    rcases h with
      rfl | rfl | rfl | rfl | rfl | rfl | rfl | rfl | rfl | rfl | rfl | rfl | rfl | rfl | rfl | rfl | rfl <;>
      exact ⟨rfl, iff_of_false nofun nofun⟩
  | false =>
    rw [decodeOperation_of_not_operationCode h, operandsRead_of_not_operationCode h]
    exact ⟨rfl, iff_of_true rfl rfl⟩

/-! ### Command bytes -/

/-- R109, R308: each of the six command bytes names a command of its own, and an unknown command keeps its byte. -/
theorem wireBytes_decodeCommand (b : Byte) : wireBytes (decodeCommand b) = [b] := by
  cases h : isCommandByte b with
  | true =>
    simp only [isCommandByte, List.contains_eq_mem, decide_eq_true_eq, List.mem_cons, List.not_mem_nil, or_false] at h
    rcases h with rfl | rfl | rfl | rfl | rfl | rfl <;> rfl
  | false =>
    rw [decodeCommand_of_not_commandByte h]
    rfl

/-! ### The statements about the codes and the system operations -/

/-- Settles O7: a code is one of the seventeen or reserved, a command byte one of the six or unknown. -/
theorem everyCodeKeepsItsOwnInstruction : Obligations.EveryCodeKeepsItsOwnInstruction :=
  ⟨decodeOperation_keeps_code, wireBytes_decodeCommand, by decide +kernel,
    fun _ code hf => runOperation_of_ends (op := reservedCode code) hf rfl⟩

/-- R271: `BUF` reads as zeros. -/
@[simp] theorem State.bufByte_zeroise (s : State) (p : Nat) : (zeroise s).bufByte p = 0#8 := rfl

/-- Settles O40: a free block runs `zeroise` to its end, and each array of it is a run of zeros. -/
theorem zeroiseClearsTheSession : Obligations.ZeroiseClearsTheSession := by
  intro s hf
  have hexec : exec .sysZeroise s = .next ((zeroise s).setRes .ok) := runOperation_of_ends (op := sysZeroise) hf rfl
  exact ⟨_, hexec, rfl, fun i => ⟨Vector.getElem_replicate i.2, Vector.getElem_replicate i.2⟩,
    fun i => Vector.getElem_replicate i.2, fun i => Vector.getElem_replicate i.2, fun i => Vector.getElem_replicate i.2,
    rfl, rfl, rfl, State.bufByte_zeroise s⟩

end Sys2Proof.Machine
end

section
/-! The Address Guard (R286, R287): its verdict by the ranges that are met, and the configuration words rounded
outward to whole pages. -/

namespace Sys2Proof.Machine

/-! ### The verdict -/

/-- R285, R286: the boot sector is protected, and the interval from `a` on meets it. -/
abbrev meetsProtectedBoot (cfg : Params) (a : Word) (n : Nat) : Prop :=
  cfg.bootProtect = true ∧ hitsBoot cfg (phys a).toNat ((phys a).toNat + n) = true

/-- How the Guard answers: the first test that hits, in the order of R286, names the guard that tripped. -/
inductive GuardAnswer (cfg : Params) (a : Word) (n : Nat) : Prop where
  | engine (hengine : hitsEngine cfg (phys a).toNat ((phys a).toNat + n) = true)
    (answer : isMutationAllowed cfg a n = (false, .engine))
  | boot (hengine : ¬hitsEngine cfg (phys a).toNat ((phys a).toNat + n) = true) (hboot : meetsProtectedBoot cfg a n)
    (answer : isMutationAllowed cfg a n = (false, .boot))
  | config (hengine : ¬hitsEngine cfg (phys a).toNat ((phys a).toNat + n) = true)
    (hboot : ¬meetsProtectedBoot cfg a n)
    (hconfig : hitsConfig cfg (phys a).toNat ((phys a).toNat + n) = true)
    (answer : isMutationAllowed cfg a n = (false, .config))
  | none (hengine : ¬hitsEngine cfg (phys a).toNat ((phys a).toNat + n) = true)
    (hboot : ¬meetsProtectedBoot cfg a n)
    (hconfig : ¬hitsConfig cfg (phys a).toNat ((phys a).toNat + n) = true)
    (answer : isMutationAllowed cfg a n = (true, .none))

theorem isMutationAllowed_answers (cfg : Params) (a : Word) (n : Nat) : GuardAnswer cfg a n := by
  by_cases hengine : hitsEngine cfg (phys a).toNat ((phys a).toNat + n) = true
  · exact .engine hengine (if_pos hengine)
  · by_cases hboot : meetsProtectedBoot cfg a n
    · exact .boot hengine hboot ((if_neg hengine).trans (if_pos (Bool.and_eq_true_iff.mpr hboot)))
    · have hboot' := mt Bool.and_eq_true_iff.mp hboot
      by_cases hconfig : hitsConfig cfg (phys a).toNat ((phys a).toNat + n) = true
      · exact .config hengine hboot hconfig ((if_neg hengine).trans ((if_neg hboot').trans (if_pos hconfig)))
      · exact .none hengine hboot hconfig ((if_neg hengine).trans ((if_neg hboot').trans (if_neg hconfig)))

/-! ### Whole pages -/

/-- The greatest multiple of `n` not above `x`. -/
theorem roundDown_greatest (n x : Nat) :
    n ∣ x / n * n ∧ x / n * n ≤ x ∧ ∀ m, n ∣ m → m ≤ x → m ≤ x / n * n := by
  refine ⟨Nat.dvd_mul_left n _, Nat.div_mul_le_self x n, fun m hdvd hle => ?_⟩
  calc m = m / n * n := (Nat.div_mul_cancel hdvd).symm
    _ ≤ x / n * n := Nat.mul_le_mul_right n (Nat.div_le_div_right hle)

/-- The least multiple of `n` not below `x`. -/
theorem roundUp_least {n : Nat} (hn : 0 < n) (x : Nat) :
    n ∣ (x + n - 1) / n * n ∧ x ≤ (x + n - 1) / n * n ∧ ∀ m, n ∣ m → x ≤ m → (x + n - 1) / n * n ≤ m := by
  refine ⟨Nat.dvd_mul_left n _, ?_, ?_⟩
  · have hdiv := Nat.div_add_mod' (x + n - 1) n
    have hmod := Nat.mod_lt (x + n - 1) hn
    omega
  · rintro m ⟨k, rfl⟩ hle
    have hk : (x + n - 1) / n < k + 1 := Nat.div_lt_of_lt_mul (by rw [Nat.mul_succ]; omega)
    calc (x + n - 1) / n * n ≤ k * n := Nat.mul_le_mul_right n (Nat.le_of_lt_succ hk)
      _ = n * k := Nat.mul_comm ..

/-! ### The statement about the Guard -/

/-- Settles O43: the verdict and the signal by the first test that hits, and each test by the bytes it looks for. -/
theorem guardVetoesExactlyOverlaps : Obligations.GuardVetoesExactlyOverlaps := by
  intro cfg a n
  rw [meets_protected_iff, ← hitsEngine_iff, ← hitsBoot_iff]
  refine ⟨?_, ?_, ?_, ?_, fun hpage => ⟨roundDown_greatest _ _, roundUp_least hpage _⟩⟩
  all_goals cases isMutationAllowed_answers cfg a n with
  | engine hengine answer => simp [answer, hengine]
  | boot hengine hboot answer => simp [answer, hengine, hboot]
  | config hengine hboot hconfig answer => simp +contextual [answer, hengine, not_and.mp hboot, hconfig]
  | none hengine hboot hconfig answer => simp +contextual [answer, hengine, not_and.mp hboot, hconfig]

end Sys2Proof.Machine
end

section
/-! How a session begins and ends (R300 to R303, R307 to R309, R312, R365): the handshake, the commands that issue no
operation of the block, the exit, and the boot after a reset. -/

namespace Sys2Proof.Machine

/-! ### The dispatch of a command byte -/

theorem exec_handshake {s : State} (hf : s.free) : exec .handshake s = handshake s := by
  change runCommand handshake s = _
  simp [runCommand, hf.1, hf.2]

/-- R300, R301: outside `Active` a command of the dispatch loop does nothing. -/
theorem runActive_of_not_active {c : State → Host.Outcome State Fault Refusal} {s : State} (hf : s.free)
    (hl : s.env.loop ≠ .active) : runActive c s = .next s := by simp [runActive, runCommand, hf.1, hf.2, hl]

/-- R300: every byte but the handshake goes to the dispatch loop. -/
theorem exec_decodeCommand {b : Byte} (h : b ≠ 0xFC#8) : ∃ c, exec (decodeCommand b) = runActive c := by
  rw [decodeCommand, if_neg h]
  split_ifs <;> exact ⟨_, rfl⟩

theorem exec_decodeCommand_of_not_active {s : State} {b : Byte} (hf : s.free) (hl : s.env.loop ≠ .active)
    (hb : b ≠ 0xFC#8) : exec (decodeCommand b) s = .next s := by
  obtain ⟨c, hc⟩ := exec_decodeCommand hb
  rw [hc, runActive_of_not_active hf hl]

/-- Settles O44. -/
theorem handshakeStartsTheSession : Obligations.HandshakeStartsTheSession := by
  intro s b hf
  refine ⟨fun hl => ?_, fun hl => ?_, fun hl hb => exec_decodeCommand_of_not_active hf (by simp [hl]) hb,
    fun hl => ?_⟩
  · rw [exec_handshake hf, handshake, hl]
    rfl
  · rw [exec_handshake hf, handshake, hl]
    rfl
  · by_cases hb : b = 0xFC#8
    · subst hb
      change exec .handshake s = _
      rw [exec_handshake hf, handshake, hl]
    · exact exec_decodeCommand_of_not_active hf (by simp [hl]) hb

/-- Settles O46. -/
theorem infoAndUnknownBytesAreAnswered : Obligations.InfoAndUnknownBytesAreAnswered := by
  intro s b ⟨hf, hl⟩
  refine ⟨runActive_active hf.1 hf.2 hl, (runActive_active hf.1 hf.2 hl).trans ?_⟩
  by_cases hb : b = 0xFC#8
  · simp only [unknownCommand, if_pos hb]
    rfl
  · simp only [unknownCommand, if_neg hb]
    rfl

/-! ### The exit -/

/-- R309: the state in which the controller issues the `SYS.ZEROISE` of an exit with the given status. -/
def State.exiting (status : Byte) (s : State) : State :=
  { s with
    env := { s.env with status := status, eraseDone := false, wretry := 0, loop := .exited }
    port.op := 0x40#8 }

theorem leaveLoop_eq (status : Byte) (s : State) :
    leaveLoop status s = .ends .ok ((zeroise (s.exiting status)).setRes .ok) := rfl

/-- R309: what an exit from a free block leaves is what `SYS.ZEROISE` leaves. -/
theorem exec_sysZeroise_exiting {s : State} (hf : s.free) (status : Byte) :
    exec .sysZeroise (s.exiting status) = .next ((zeroise (s.exiting status)).setRes .ok) :=
  runOperation_of_ends (op := sysZeroise) (s := s.exiting status) hf rfl

/-- R301: an `Idle` loop leaves when the handshake window has passed. -/
theorem step_of_windowPassed {s : State} (hin : s.inputs = []) (hf : s.free) (hp : s.port.start = false)
    (hw : s.env.writing = false) (hl : s.env.loop = .idle) (ht : s.cfg.handshakeWindow ≤ s.env.ticks - s.env.t0) :
    step s = .next ((zeroise (s.exiting s.cfg.status.powerExit)).setRes .ok) := by
  have hpassed : windowPassed s = true := decide_eq_true ht
  have hfetch : fetch s = .moves (idleTimeout s) := by
    rw [fetch_of_free hf, hp, fetchLoop, hl, hpassed]
    rfl
  rw [step, hin]
  simp only [machineStep, hfetch]
  exact settle_of_not_writing hw

/-- Settles O45. -/
theorem sessionEndsZeroised : Obligations.SessionEndsZeroised := by
  refine fun s => ⟨fun ⟨hf, hl⟩ => ?_, fun hin hf hp hw hl ht => ?_⟩
  · exact ⟨_, runActive_active hf.1 hf.2 hl, exec_sysZeroise_exiting hf _, rfl, rfl⟩
  · exact ⟨_, step_of_windowPassed hin hf hp hw hl ht, exec_sysZeroise_exiting hf _, rfl, rfl⟩

/-! ### The boot -/

theorem resetFlash_env (s : State) : s.resetFlash.env = s.env := by
  unfold State.resetFlash
  split <;> rfl

/-- R360: no operation has been presented since the reset, and the controller's fields are still to be set. -/
theorem resetBlock_issued_env (s : State) : s.resetBlock.hw.issued = [] ∧ s.resetBlock.env = s.env := by
  obtain ⟨_, _, _, _, _, _, _, _, _, -, he⟩ := resetBlock_eq s
  rw [he]
  exact ⟨rfl, resetFlash_env s⟩

/-- R360: what the boot finds, whatever the cause of the reset. -/
structure AfterReset (s t : State) : Prop where
  tx : t.tx = []
  issued : t.hw.issued = []
  port : t.port = { op := 0x00#8, opa := 0#32, opb := 0#32, opc := 0#32, res := 0x00#8, start := false }
  ticks : t.env.ticks = s.env.ticks
  cfg : t.cfg = s.cfg

theorem afterReset_resetBlock (s : State) (cause : ResetCause) (channel : List Byte) :
    AfterReset s ({ s.resetBlock with rx := channel, tx := [] }.bootStatus cause) := by
  obtain ⟨-, -, hcfg, -, hport, -⟩ := resetBlock_parts s
  obtain ⟨hissued, henv⟩ := resetBlock_issued_env s
  generalize s.resetBlock = t at *
  cases cause <;> exact ⟨rfl, hissued, hport, (congrArg Env.ticks henv :), hcfg⟩

/-- R360: a step that delivers a reset boots from there. -/
theorem step_of_reset {s : State} {cause : ResetCause} {linked shim : Bool} {channel : List Byte} {rest : List Input}
    (hin : s.inputs = .reset cause linked shim channel :: rest) :
    ∃ t, step s = bootLoop cause linked shim t ∧ AfterReset { s with inputs := rest } t :=
  ⟨_, step_of_event hin (by simp), afterReset_resetBlock { s with inputs := rest } cause channel⟩

/-- R302. -/
theorem bootLoop_external (linked shim : Bool) (t : State) :
    bootLoop .external linked shim t
      = .next { t.enterIdle with env.status := t.cfg.status.skipped, env.loop := .exited } := rfl

/-- R312. -/
theorem bootLoop_of_failed_test {linked shim : Bool} (h : (linked && shim) = false) (t : State) :
    bootLoop .powerOn linked shim t
      = .next ((zeroise (t.enterIdle.exiting t.cfg.status.assumptionFailed)).setRes .ok) := by
  rw [bootLoop, h]
  rfl

/-- R301, R365. -/
theorem bootLoop_of_passed_tests (t : State) : bootLoop .powerOn true true t = .next t.enterIdle := rfl

/-- Settles O3, by the three ways the boot goes on. -/
theorem bootEndsAsTheResetReasonSays : Obligations.BootEndsAsTheResetReasonSays := by
  intro s cause linked shim channel rest hin
  obtain ⟨t, hstep, htx, hissued, hport, hticks, hcfg⟩ := step_of_reset hin
  rw [hstep]
  cases cause with
  | external =>
    exact ⟨_, bootLoop_external .., htx, hissued, rfl, rfl, hport,
      fun _ => ⟨congrArg (·.status.skipped) hcfg, rfl⟩, nofun, nofun⟩
  | powerOn =>
    cases htests : linked && shim with
    | false =>
      refine ⟨_, bootLoop_of_failed_test htests _, htx, hissued, rfl, rfl, ?_, nofun,
        fun _ _ => ⟨congrArg (·.status.assumptionFailed) hcfg, rfl⟩, fun _ hlinked hshim => ?_⟩
      · exact congrArg (fun p : Port => { p with op := 0#8, opa := 0#32, opb := 0#32, opc := 0#32, res := 0#8 }) hport
      · simp [hlinked, hshim] at htests
    | true =>
      obtain ⟨rfl, rfl⟩ := Bool.and_eq_true_iff.mp htests
      exact ⟨_, bootLoop_of_passed_tests _, htx, hissued, rfl, rfl, hport, nofun,
        fun _ h => absurd h (by decide), fun _ _ _ => ⟨rfl, hticks⟩⟩

end Sys2Proof.Machine
end

section
/-! The Erase command and the CRC command from a loop that can take a command (R304, R305): the regions they go over,
and how each ends. -/

namespace Sys2Proof.Machine

/-- An operation that ends has its result written to `RES` for the controller that has issued it (R280). -/
theorem issue_of_ends {code : Byte} {a b c : Option Word} {op : State → OpResult} {s t : State} {r : Res}
    (h : op (s.writePort code a b c) = .ends r t) : issue code a b c op s = .ends r (t.setRes r) := by
  rw [issue, h]

/-! ### The CRC command -/

theorem Region.fits {cfg : Params} {base : Word} {size : Nat} (R : Region cfg base size) :
    flashRangeFits cfg base size := ⟨R.lim, R.fl⟩

/-- R282: the size of a region is read back from the operand that carries it. -/
theorem Region.toNat_size {cfg : Params} {base : Word} {size : Nat} (R : Region cfg base size) :
    (BitVec.ofNat 32 size).toNat = size := by
  have hlim := R.lim
  rw [BitVec.toNat_ofNat]
  omega

/-- R125, R305: one region, threaded onto the accumulator. -/
theorem issue_crcMem_of_region {s : State} {base : Word} {size : Nat} (R : Region s.cfg base size) :
    issue 0x03#8 (some base) (some (BitVec.ofNat 32 size)) none (crcMem base (BitVec.ofNat 32 size)) s
      = .ends .ok
        { s with
          crc.acc := crcBytes s.cfg.crcPoly s.crc.acc (s.flashRange (phys base).toNat size)
          port := { s.port with op := 0x03#8, opa := base, opb := BitVec.ofNat 32 size, res := resCode .ok } } := by
  have hfits : flashRangeFits s.cfg base (BitVec.ofNat 32 size).toNat := R.toNat_size.symm ▸ R.fits
  have hends := crcMem_of_fits
    (s := s.writePort 0x03#8 (some base) (some (BitVec.ofNat 32 size)) none) hfits
  rw [issue_of_ends hends, R.toNat_size]
  rfl

/-- R305: one accumulator, from 0 over both regions. -/
theorem crcRegions_ends {s : State} (he : s.cfg.envWf = true) :
    crcRegions s = .ends .ok
      { s with
        crc.acc := crcBytes s.cfg.crcPoly 0#32
          (s.flashRange (phys s.cfg.progBase).toNat s.cfg.progSize
            ++ s.flashRange (phys s.cfg.bootBase).toNat s.cfg.bootSize)
        port :=
          { s.port with
            op := 0x03#8, opa := s.cfg.bootBase, opb := BitVec.ofNat 32 s.cfg.bootSize, res := resCode .ok } } := by
  obtain ⟨hprog, hboot, -⟩ := Params.envWf_regions he
  have hinit : issue 0x00#8 none none none crcInit s
      = .ends .ok { s with crc.acc := 0#32, port := { s.port with op := 0x00#8, res := resCode .ok } } := rfl
  rw [crcRegions, hinit]
  simp only
  rw [issue_crcMem_of_region (by exact hprog)]
  simp only
  rw [issue_crcMem_of_region (by exact hboot), crcBytes_append]
  rfl

/-- Settles O49. -/
theorem crcCommandChecksumsProgramAndBoot : Obligations.CrcCommandChecksumsProgramAndBoot := by
  intro s ⟨hf, hl⟩ _ he
  have hcommand := congrArg
    (OpResult.thenNext · fun s => (s.sendText (s.cfg.crcText s.crc.acc)).reply .genericOk) (crcRegions_ends he)
  exact ⟨_, (runActive_active hf.1 hf.2 hl).trans hcommand, rfl, fun _ => Params.crcText_injective s.cfg⟩

/-! ### The Erase command -/

/-- R304: the state that the Erase command leaves when it has gone over its regions and ends with the reply `r`. -/
def State.eraseFinished (r : Reply) (u : State) : State :=
  { u with
    env.eraseDone := true
    fr := { u.fr with seq := 0#32, final := false, state := .idle, fill := 0#16, cur := 0#16, plen := 0#16 }
    port := { u.port with op := 0x30#8, res := resCode .ok }
    tx := u.tx ++ [u.cfg.resp.get r] }

theorem eraseFinish_ends (before : Word) (u : State) :
    eraseFinish before u
      = .ends .ok (u.eraseFinished (if u.fl.eraseFail - before = 0#32 then .eraseDone else .eraseFailed)) := rfl

theorem exec_cmdErase {s : State} (hf : s.commandFree) : exec .cmdErase s = eraseCommand s :=
  runActive_active hf.1.1 hf.1.2 hf.2

/-- R282: a region has far fewer pages than a counter can hold. -/
theorem length_erasedPages_lt {cfg : Params} (he : cfg.envWf = true) : (erasedPages cfg).length < 2 ^ 32 := by
  obtain ⟨hprog, hboot, -⟩ := Params.envWf_regions he
  have hpages : (commandPages cfg).length = cfg.progSize / cfg.pageSize + cfg.bootSize / cfg.pageSize := by
    simp [commandPages]
  have hkept : (erasedPages cfg).length ≤ (commandPages cfg).length := List.length_filter_le ..
  have hprogPages := Nat.div_le_self cfg.progSize cfg.pageSize
  have hbootPages := Nat.div_le_self cfg.bootSize cfg.pageSize
  have hprogLim := hprog.lim
  have hbootLim := hboot.lim
  omega

/-- R181, R304: the counter of failures is back where it was exactly when no erase has failed. -/
theorem add_faults_sub_eq_zero_iff (before : Word) {flags : List (Bool × Bool)} (h : flags.length < 2 ^ 32) :
    before + BitVec.ofNat 32 (faults flags) - before = 0#32 ↔ faults flags = 0 := by
  have hle : faults flags ≤ flags.length := List.countP_le_length
  rw [add_sub_cancel_left, ← BitVec.toNat_inj, BitVec.toNat_ofNat, Nat.mod_eq_of_lt (by omega)]
  rfl

section
variable {s : State} {flags : List (Bool × Bool)} {stop rest : List HwOutcome}

/-- R304: with every fault cleared, the command visits all its pages and ends. -/
theorem exec_cmdErase_of_settled (hf : s.commandFree) (hw : s.cfg.wf = true) (he : s.cfg.envWf = true)
    (hlen : flags.length = (erasedPages s.cfg).length) (hs : s.hw.script = settledOutcomes flags ++ rest) :
    ∃ u, exec .cmdErase s = .next (u.eraseFinished (if faults flags = 0 then .eraseDone else .eraseFailed))
      ∧ Erased { s with env.eraseDone := false } u (commandPages s.cfg) flags rest := by
  obtain ⟨u, hE, hregions⟩ := eraseRegions_settled hf hw he hlen hs
  have hcount : u.fl.eraseFail - s.fl.eraseFail = 0#32 ↔ faults flags = 0 := by
    rw [hE.fl]
    exact add_faults_sub_eq_zero_iff _ (hlen ▸ length_erasedPages_lt he)
  refine ⟨u, (exec_cmdErase hf).trans ?_, hE⟩
  rw [eraseCommand, hregions]
  simp only [eraseFinish_ends, hcount]
  rfl

/-- R231, R304: beside the sequencer, the flash and the replies, the command changes `ERASE_DONE` and the registers
that `FR.RESET` clears. -/
theorem Erased.eraseFinished_eq {u : State}
    (hE : Erased { s with env.eraseDone := false } u (commandPages s.cfg) flags rest)
    (hidle : s.fr.state = .idle) (r : Reply) :
    u.eraseFinished r = { s with
      port := (u.eraseFinished r).port, fl := u.fl, hw := u.hw, draws := u.draws, env.eraseDone := true
      fr.seq := 0#32, fr.final := false, fr.fill := 0#16, fr.cur := 0#16, fr.plen := 0#16
      tx := s.tx ++ pageReplies s.cfg flags ++ [s.cfg.resp.get r] } := by
  rw [State.eraseFinished, hE.only, ← hidle]
  rfl

/-- R304, R336: an erase that never ends is the last thing the command does. -/
theorem exec_cmdErase_of_stop (hf : s.commandFree) (hw : s.cfg.wf = true) (he : s.cfg.envWf = true)
    (hlen : flags.length < (erasedPages s.cfg).length) (hstop : neverEnds stop = true)
    (hs : s.hw.script = settledOutcomes flags ++ stop ++ rest) :
    ∃ t, exec .cmdErase s = .next t
      ∧ StoppedErase { s with env.eraseDone := false } t (commandPages s.cfg) flags stop := by
  obtain ⟨t, hS, hregions⟩ := eraseRegions_stops hf hw he hlen hstop hs
  refine ⟨t, (exec_cmdErase hf).trans ?_, hS⟩
  rw [eraseCommand, hregions]

end

/-- R185: no operation that never ends leaves the sequencer idle. -/
theorem leftIn_ne_idle (stop : List HwOutcome) : leftIn stop ≠ .idle := by
  unfold leftIn
  split <;> decide

/-- Settles O48: the regions over settled outcomes, to their end or up to the erase that never ends. -/
theorem eraseCommandReportsFailures : Obligations.EraseCommandReportsFailures := by
  refine fun s flags rest hf hw he => ⟨fun hlen hs => ?_, fun stop hstop hlen hs => ?_⟩
  · obtain ⟨u, hexec, hE⟩ := exec_cmdErase_of_settled hf hw he hlen hs
    refine ⟨_, hexec, hE.eraseFinished_eq (State.free_frIdle hf.1) _, rfl, ?_, hE.issued, hE.inside, hE.outside⟩
    rw [← hlen]
    exact hE.fl
  · obtain ⟨t, hexec, hS⟩ := exec_cmdErase_of_stop hf hw he hlen hstop hs
    have hfl := hS.fl
    have hnotIdle : t.fl.state ≠ .idle := by
      rw [hfl]
      exact leftIn_ne_idle stop
    refine ⟨t, hexec, ?_, ?_, hS.issued, hS.outside, fun hin => step_of_sequencer_not_idle ?_ hnotIdle⟩
    · exact hS.only
    · refine hfl.trans ?_
      rw [show s.fl.halted = false from hf.1.1]
      cases leftIn stop <;> rfl
    · rw [hS.only]
      exact hin

theorem zip_replicate_length {α β : Type} (l : List α) (c : β) :
    l.zip (List.replicate l.length c) = l.map (·, c) := by
  induction l with
  | nil => rfl
  | cons x l ih => exact congrArg ((x, c) :: ·) ih

/-- Settles O47: outcomes with no fault are settled outcomes whose flags are all 0. -/
theorem eraseCommandErasesTheUnprotectedPages : Obligations.EraseCommandErasesTheUnprotectedPages := by
  intro s hf hw he hgood
  obtain ⟨t, hexec, honly, hres, hfl, hissued, hinside, houtside⟩ :=
    (eraseCommandReportsFailures s _ _ hf hw he).1 List.length_replicate (goodOutcomes_script hgood)
  rw [faults_replicate] at honly hfl
  rw [← List.length_map (f := fun q => presented s.cfg .erase q []), settledCommands_replicate] at hissued
  refine ⟨t, hexec, honly, hres, ?_, hissued, fun p ⟨q, hq, hp⟩ => hinside p ⟨q, ?_, hp⟩ ?_, houtside⟩
  · rwa [BitVec.add_zero] at hfl
  · rw [zip_replicate_length]
    exact List.mem_map_of_mem hq
  · intro q' f hq' hbad
    obtain rfl : f = (false, false) := List.eq_of_mem_replicate (List.of_mem_zip hq').2
    exact absurd hbad (by decide)

end Sys2Proof.Machine
end

section
/-! The Write command (R290 to R299, R306): its reply by the result of the reception, and, for a packet that carries a
write, the rejections of the orchestrator's pure steps. -/

namespace Sys2Proof.Machine

/-! ### The reply by the result of the reception -/

section
variable {s u : State} {r : Res}

/-- R306: a reception that has ended is answered by its result. -/
theorem exec_cmdWrite_of_received (hf : s.commandFree) (hu : exec .frRecv { s with port.op := 0x31#8 } = .next u)
    (hidle : u.fr.state = .idle) (hres : u.port.res = resCode r) : exec .cmdWrite s = .next (writeReply r u) := by
  obtain ⟨hwaits, -⟩ | ⟨-, r', -, hres', -, -, -, -, -, hexec⟩ := cmdWrite_cases hf hu
  · exact absurd hidle hwaits
  · rwa [resCode_inj (hres.symm.trans hres')]

theorem cfg_of_frRecv (hu : exec .frRecv { s with port.op := 0x31#8 } = .next u) : u.cfg = s.cfg :=
  (exec_withinReach (by simp [operationWords]) hu).cfg

/-- R306: the reception of a packet that carries no write is answered and the command ends. -/
theorem exec_cmdWrite_of_answered {q : Reply} (hf : s.commandFree)
    (hu : exec .frRecv { s with port.op := 0x31#8 } = .next u)
    (hreply : writeReply r u = { u with env.writing := false }.reply q)
    (hidle : u.fr.state = .idle) (hres : u.port.res = resCode r) :
    exec .cmdWrite s = .next { u with env.writing := false, tx := u.tx ++ [s.cfg.resp.get q] } := by
  rw [exec_cmdWrite_of_received hf hu hidle hres, hreply, ← cfg_of_frRecv hu]
  rfl

end

/-- Settles O50. -/
theorem writeCommandAnswersItsReception : Obligations.WriteCommandAnswersItsReception := by
  intro s u hf hu
  refine ⟨fun hidle hres => hres.elim ?_ ?_, ?_, ?_, ?_, fun hwaits => ?_⟩
  · exact exec_cmdWrite_of_answered (r := .okEnd) hf hu rfl hidle
  · exact exec_cmdWrite_of_answered (r := .okIv) hf hu rfl hidle
  · exact exec_cmdWrite_of_answered (r := .errChecksum) hf hu rfl
  · exact exec_cmdWrite_of_answered (r := .errTooLarge) hf hu rfl
  · exact exec_cmdWrite_of_answered (r := .errSize) hf hu rfl
  · obtain ⟨-, hexec⟩ | ⟨hidle, -⟩ := cmdWrite_cases hf hu
    · exact hexec
    · exact absurd hidle hwaits

/-! ### The reply by the end of the write -/

/-- R306: the one reply of a write, by the way its last attempt has ended. -/
def Attempt.answered : Attempt → State
  | .success t => t.reply .genericOk
  | .rejected r t => t.reply r
  | .failed t => t.reply .writesFailed
  | .blocked t => t

theorem writeData_eq (s : State) : writeData s = (writeWithRetry s.fr.wAddr s.fr.wLen s).answered := by
  unfold writeData
  cases writeWithRetry s.fr.wAddr s.fr.wLen s <;> rfl

/-- R299, R306: the state in which the first attempt at a received write begins. -/
def State.attempting (u : State) : State := { u with env.writing := false, env.wretry := 0 }

section
variable {s t : State} {a : Word} {l : Half} {r : Reply}

/-- R299: only an attempt that has failed in the hardware or in the compare is made again. -/
theorem retryWrite_of_not_failed (n : Nat) (h : ∀ t, attemptWrite a l s ≠ .failed t) :
    retryWrite a l n s = attemptWrite a l s := by
  cases n <;>
  · rw [retryWrite]
    split
    · exact absurd ‹_› (h _)
    · rfl

theorem attemptWrite_of_preCheck (h : preCheck s a l = some r) : attemptWrite a l s = .rejected r s := by
  rw [attemptWrite, orchestrate, h]

end

section
variable {s u t : State}

/-- R306: a packet that carries a write is written, with the attempts that R299 gives it. -/
theorem exec_cmdWrite_of_okWrite (hf : s.commandFree) (hu : exec .frRecv { s with port.op := 0x31#8 } = .next u)
    (hidle : u.fr.state = .idle) (hres : u.port.res = resCode .okWrite) :
    exec .cmdWrite s = .next (retryWrite u.fr.wAddr u.fr.wLen s.cfg.maxWriteRetries u.attempting).answered := by
  rw [exec_cmdWrite_of_received hf hu hidle hres, ← cfg_of_frRecv hu]
  exact congrArg Host.Outcome.next (writeData_eq { u with env.writing := false })

/-- R306: the first attempt is the last unless it fails. -/
theorem exec_cmdWrite_of_first {x : Attempt} (hf : s.commandFree)
    (hu : exec .frRecv { s with port.op := 0x31#8 } = .next u) (hidle : u.fr.state = .idle)
    (hres : u.port.res = resCode .okWrite) (h : attemptWrite u.fr.wAddr u.fr.wLen u.attempting = x)
    (hx : ∀ t, x ≠ .failed t) : exec .cmdWrite s = .next x.answered := by
  rw [exec_cmdWrite_of_okWrite hf hu hidle hres, retryWrite_of_not_failed _ (h ▸ hx), h]

/-- R291 to R296: a rejection before any hardware access leaves what the reception has left. -/
theorem exec_cmdWrite_of_rejected {r : Reply} (hf : s.commandFree)
    (hu : exec .frRecv { s with port.op := 0x31#8 } = .next u) (hidle : u.fr.state = .idle)
    (hres : u.port.res = resCode .okWrite)
    (h : attemptWrite u.fr.wAddr u.fr.wLen u.attempting = .rejected r u.attempting) :
    exec .cmdWrite s = .next { u with env.wretry := 0, env.writing := false, tx := u.tx ++ [u.cfg.resp.get r] } :=
  exec_cmdWrite_of_first hf hu hidle hres h (by simp)

end

/-! ### The pure steps -/

section
variable {s : State} {a : Word} {l : Half}

theorem preCheck_of_not_erased (h : s.env.eraseDone = false) : preCheck s a l = some .writeWithoutErase := by
  rw [preCheck, h]
  rfl

theorem preCheck_of_badSize (he : s.env.eraseDone = true)
    (h : l.toNat = 0 ∨ s.cfg.pageSize < l.toNat ∨ l.toNat % 4 ≠ 0) : preCheck s a l = some .sizeError := by
  have hsize : l = 0#16 ∨ s.cfg.pageSize < l.toNat ∨ l.toNat % 4 ≠ 0 := h.imp_left BitVec.eq_of_toNat_eq
  rw [preCheck, he]
  exact if_pos hsize

/-- R295: past steps 1 to 4 only the Guard can reject, and not at the entry page. -/
theorem preCheck_of_acceptedShape (h : acceptedShape s a l.toNat) :
    preCheck s a l =
      if phys a = phys s.cfg.entryPage ∨ (isMutationAllowed s.cfg a l.toNat).1 = true then none
      else some (guardReply (isMutationAllowed s.cfg a l.toNat).2) := by
  obtain ⟨he, hpos, hle, hmod, hal, hwrap, hrange⟩ := h
  rw [preCheck_eq he hpos hle hmod, if_neg (not_not_intro hal), if_neg (Nat.not_lt.mpr hwrap),
    (insideOneRange_iff ..).mpr hrange]
  simp only [atEntryPage, beq_iff_eq, Bool.not_true, Bool.false_eq_true, if_false]
  by_cases hentry : phys a = phys s.cfg.entryPage
  · rw [if_pos hentry, if_pos (.inl hentry)]
  · simp only [hentry, if_false, false_or]

theorem preCheck_of_vetoed {r : Reply} (h : acceptedShape s a l.toNat) (hentry : phys a ≠ phys s.cfg.entryPage)
    (hveto : (isMutationAllowed s.cfg a l.toNat).1 = false ∧ guardReply (isMutationAllowed s.cfg a l.toNat).2 = r) :
    preCheck s a l = some r := by
  rw [preCheck_of_acceptedShape h, if_neg (by simp [hentry, hveto.1]), hveto.2]

/-- R296: step 6, at the entry page. -/
theorem attemptWrite_of_no_shim (h : acceptedShape s a l.toNat) (hentry : phys a = phys s.cfg.entryPage)
    (hshim : ¬carriesShim s l.toNat) : attemptWrite a l s = .rejected .missingShim s := by
  have habsent : shimPresent s l = false := by rwa [← Bool.not_eq_true, shimPresent_iff]
  rw [attemptWrite, orchestrate, preCheck_of_acceptedShape h, if_pos (.inl hentry)]
  simp only [atEntryPage, hentry, beq_self_eq_true, if_true, habsent, Bool.not_false]

end

/-- Settles O51: steps 1 to 6 in their order. -/
theorem rejectedWritesTouchNothing : Obligations.RejectedWritesTouchNothing := by
  intro s u hf hu hidle hres
  rw [← cfg_of_frRecv hu]
  intro a l rejected meets meetsEngineOrBoot
  have reject {r : Reply} (h : attemptWrite a u.fr.wLen u.attempting = .rejected r u.attempting) : rejected r :=
    exec_cmdWrite_of_rejected hf hu hidle hres h
  have check {r : Reply} (h : preCheck u.attempting a u.fr.wLen = some r) : rejected r :=
    reject (attemptWrite_of_preCheck h)
  have hguard : meetsEngineOrBoot ↔
      hitsEngine u.cfg (phys a).toNat ((phys a).toNat + l) = true ∨ meetsProtectedBoot u.cfg a l :=
    or_congr (hitsEngine_iff ..).symm (and_congr_right' (hitsBoot_iff ..).symm)
  refine ⟨fun he => check (preCheck_of_not_erased he), fun he => ⟨fun hsize => check (preCheck_of_badSize he hsize),
    fun hpos hle hmod => ?_⟩, fun hshape => ⟨fun hentry hmeets => ?_, fun hentry hmeets hconfig => ?_,
    fun hentry hshim => reject (attemptWrite_of_no_shim hshape hentry hshim)⟩⟩
  · have hcheck := preCheck_eq (u := u.attempting) (a := a) he hpos hle hmod
    refine ⟨fun hal => check (hcheck.trans (if_pos hal)), fun hal => ?_⟩
    have hcheck := hcheck.trans (if_neg (not_not_intro hal))
    refine ⟨fun hwrap => check (hcheck.trans (if_pos hwrap)), fun hwrap hrange => ?_⟩
    have houtside : (!insideOneRange u.cfg (phys a).toNat l) = true := by
      rwa [Bool.not_eq_true', ← Bool.not_eq_true, insideOneRange_iff]
    exact check (hcheck.trans ((if_neg (Nat.not_lt.mpr hwrap)).trans (if_pos houtside)))
  · exact check (preCheck_of_vetoed hshape hentry (guard_engineOrBoot (hguard.mp hmeets)))
  · exact check (preCheck_of_vetoed hshape hentry
      (guard_config (mt hguard.mpr hmeets) ((hitsConfig_iff ..).mpr hconfig)))

end Sys2Proof.Machine
end

section
/-! The write of a received packet (R296 to R299): an attempt that lands, at the entry page or elsewhere. -/

namespace Sys2Proof.Machine

section
variable {s t u : State} {a : Word} {l : Half}

/-! ### An attempt that lands -/

/-- R298, R299: a write over erased flash has landed and compared well. -/
structure Landed (a : Word) (l : Half) (s t : State) : Prop where
  only : t = { s with
    fl := t.fl, hw := t.hw, draws := t.draws
    port := { s.port with op := 0x24#8, opa := a, opb := l.setWidth 32, opc := 0#32, res := resCode .ok } }
  fl : t.fl =
    { s.fl with kind := t.fl.kind, addr := t.fl.addr, data := t.fl.data, src := t.fl.src, first := resCode .ok }
  issued : t.hw.issued = s.hw.issued ++ chunks s a.toNat l.toNat 0
  written : ∀ i, i < l.toNat → t.flashByte ((phys a).toNat + i) = s.bufByte i
  outside : ∀ p, ¬inTarget a l.toNat p → t.flashByte p = s.flashByte p

/-- R298, R299: steps 7 to 9 and the read-back over erased flash, with no fault reported. -/
theorem writeSteps_readBack_land (W : Writable s a l) (hconfig : overConfig s.cfg a l = false)
    (herased : ∀ p, inTarget a l.toNat p → s.flashByte p = s.cfg.erasedByte)
    (hgood : goodOutcomes (chunks s a.toNat l.toNat 0).length s) :
    ∃ t u, writeSteps a l s = .success t ∧ readBack a l t = .success u ∧ Landed a l s u := by
  obtain ⟨t, hwrite, hport, honly, hfl, -, hissued, houtside, hwritten⟩ :=
    writeSteps_settled W hconfig List.length_replicate (goodOutcomes_script hgood)
  have hnone := faults_replicate (chunks s a.toNat l.toNat 0).length
  rw [if_pos hnone] at hwrite hfl
  rw [hnone, BitVec.add_zero] at hfl
  rw [settledCommands_replicate] at hissued
  have hdata := hwritten hnone herased
  have hcfg : t.cfg = s.cfg := by rw [honly]
  have hfr : t.fr = s.fr := by rw [honly]
  have hback : ∀ i, i < l.toNat → t.flashByte ((phys a).toNat + i) = t.bufByte i := fun i hi => by
    rw [hdata i hi, State.bufByte, State.bufByte, hfr]
  refine ⟨t, _, hwrite, readBack_ok (hcfg ▸ W.passes) hback, ?_, hfl, hissued, hdata, houtside⟩
  rw [hport]
  conv_lhs => rw [honly]

theorem atEntryPage_eq_false {cfg : Params} (h : phys a ≠ phys cfg.entryPage) : atEntryPage cfg a = false :=
  beq_eq_false_iff_ne.mpr h

/-- R290 to R298: away from the entry page, what passes the Guard goes on to steps 7 to 9. -/
theorem orchestrate_of_allowed (W : Writable s a l) (hentry : phys a ≠ phys s.cfg.entryPage)
    (hal : (isMutationAllowed s.cfg a l.toNat).1 = true) : orchestrate a l s = writeSteps a l s := by
  rw [orchestrate, preCheck_none W (.inr hal), atEntryPage_eq_false hentry]
  rfl

/-- R296: at the entry page the page is erased first, whatever the Guard says. -/
theorem orchestrate_of_entry (W : Writable s a l) (hentry : phys a = phys s.cfg.entryPage)
    (hshim : carriesShim s l.toNat)
    (herase : issue 0x20#8 (some s.cfg.entryPage) none none (flErase s.cfg.entryPage) s = .ends .ok t) :
    orchestrate a l s = writeSteps a l t := by
  have hat : atEntryPage s.cfg a = true := beq_iff_eq.mpr hentry
  have hpresent : shimPresent s l = true := (shimPresent_iff ..).mpr hshim
  rw [orchestrate, preCheck_none W (.inl hat), hat, hpresent, herase]
  rfl

theorem attemptWrite_of_success (h : orchestrate a l s = .success t) : attemptWrite a l s = readBack a l t := by
  rw [attemptWrite, h]

theorem attemptWrite_of_rejected {r : Reply} (h : orchestrate a l s = .rejected r t) :
    attemptWrite a l s = .rejected r t := by
  rw [attemptWrite, h]

end

/-! ### The statements about a write that lands -/

/-- R291 to R294: the state in which the attempts begin at a write that passes steps 1 to 4. -/
theorem writable_of_received {s u : State} {a : Word} {l : Half} (hf : s.commandFree) (hw : s.cfg.wf = true)
    (he : s.cfg.envWf = true) (hu : exec .frRecv { s with port.op := 0x31#8 } = .next u) (hidle : u.fr.state = .idle)
    (hshape : acceptedShape u a l.toNat) : Writable u.attempting a l := by
  have hcfg := cfg_of_frRecv hu
  have hfl : u.fl = s.fl := by
    obtain ⟨hwaits, -⟩ | ⟨-, -, -, -, -, -, hfl, -⟩ := cmdWrite_cases hf hu
    · exact absurd hidle hwaits
    · exact hfl
  refine ⟨?_, ?_, hidle, ?_, ?_, hshape⟩
  · exact (congrArg FlashSeq.state hfl).trans (State.free_flIdle hf.1)
  · exact (congrArg FlashSeq.halted hfl).trans hf.1.1
  · exact (congrArg Params.wf hcfg).trans hw
  · exact (congrArg Params.envWf hcfg).trans he

/-- Settles O52: the first attempt lands. -/
theorem acceptedWriteLandsAndIsAcknowledged : Obligations.AcceptedWriteLandsAndIsAcknowledged := by
  intro s u hf hw he hu hidle hres hshape hentry htarget hgood
  have W := writable_of_received hf hw he hu hidle hshape
  rw [← cfg_of_frRecv hu] at hentry htarget ⊢
  obtain ⟨hal, hconfig⟩ := allowed_of_unprotected fun p hp => (htarget p hp).1
  obtain ⟨v, w, hwrite, hback, hland⟩ := writeSteps_readBack_land W hconfig (fun p hp => (htarget p hp).2) hgood
  have hattempt : attemptWrite u.fr.wAddr u.fr.wLen u.attempting = .success w := by
    rw [attemptWrite_of_success ((orchestrate_of_allowed W hentry (congrArg Prod.fst hal)).trans hwrite), hback]
  refine ⟨_, exec_cmdWrite_of_first hf hu hidle hres hattempt (by simp), ?_, hland.fl, hland.issued, hland.written,
    hland.outside⟩
  rw [Attempt.answered, State.reply, hland.only]
  rfl

/-! ### The statement about the entry page -/

/-- The outcomes with no fault, taken one by one. -/
theorem goodOutcomes_succ {s : State} {n : Nat} (h : goodOutcomes (1 + n) s) :
    ∃ rest, s.hw.script = .done false false :: rest ∧ rest.take n = List.replicate n (.done false false) := by
  rw [goodOutcomes, Nat.add_comm, List.replicate_succ] at h
  cases hscript : s.hw.script with
  | nil => simp [hscript] at h
  | cons o rest =>
    rw [hscript, List.take_succ_cons, List.cons.injEq] at h
    exact ⟨rest, by rw [h.1], h.2⟩

/-- R180, R296: the entry page has been erased, and the next `n` outcomes report no fault. -/
structure EntryErased (n : Nat) (s t : State) : Prop where
  only : t = { s with
    port := { s.port with op := 0x20#8, opa := s.cfg.entryPage, res := resCode .ok }
    fl := { s.fl with kind := .erase, addr := phys s.cfg.entryPage, eraseAtt := s.fl.eraseAtt + 1#32 }
    hw := t.hw, draws := t.draws }
  good : goodOutcomes n t
  issued : t.hw.issued = s.hw.issued ++ [presented s.cfg .erase s.cfg.entryPage []]
  bytes : ∀ p, t.flashByte p = if inTarget s.cfg.entryPage s.cfg.pageSize p then s.cfg.erasedByte else s.flashByte p

section
variable {s t : State} {a : Word} {l : Half} {n : Nat}

theorem issue_erase_of_entry (W : Writable s a l) (hentry : phys a = phys s.cfg.entryPage)
    (hgood : goodOutcomes (1 + n) s) :
    ∃ t, issue 0x20#8 (some s.cfg.entryPage) none none (flErase s.cfg.entryPage) s = .ends .ok t
      ∧ EntryErased n s t := by
  obtain ⟨-, hpos, -, -, -, -, hrange⟩ := W.shape
  obtain ⟨hal, hfit⟩ := entry_fits W.wf W.envWf hpos hrange hentry
  obtain ⟨rest, hscript, hrest⟩ := goodOutcomes_succ hgood
  obtain ⟨t, hissue, honly, hleft, hissued, hbytes⟩ := issue_erase hal hfit W.fl hscript
  exact ⟨t, hissue, honly, by rwa [goodOutcomes, hleft], hissued, hbytes⟩

section
variable (E : EntryErased n s t)
include E

theorem EntryErased.cfg : t.cfg = s.cfg := by rw [E.only]

theorem EntryErased.fr : t.fr = s.fr := by rw [E.only]

theorem EntryErased.chunks (a n off : Nat) : chunks t a n off = chunks s a n off := chunks_congr E.cfg E.fr a n off

theorem EntryErased.writable (W : Writable s a l) : Writable t a l := by
  rw [E.only]
  exact ⟨W.fl, W.halted, W.fr, W.wf, W.envWf, W.shape⟩

/-- R282: a write at the entry page stays in that page. -/
theorem EntryErased.target_erased (W : Writable s a l) (hentry : phys a = phys s.cfg.entryPage) {p : Nat}
    (hp : inTarget a l.toNat p) : t.flashByte p = t.cfg.erasedByte := by
  obtain ⟨-, -, hle, -⟩ := W.shape
  obtain ⟨hlo, hhi⟩ := hp
  rw [E.bytes, E.cfg, if_pos ⟨by rwa [← hentry], by rw [← hentry]; omega⟩]

end

end

/-- R297: what step 7 looks for. -/
theorem overConfig_iff (cfg : Params) (a : Word) (l : Half) :
    overConfig cfg a l = true
      ↔ ∃ p, inTarget a l.toNat p ∧ within (configLow cfg) (configHigh cfg - configLow cfg) p = true :=
  hitsConfig_iff ..

/-- Settles O53: the erased page is written over unless step 7 rejects the range. -/
theorem entryPageIsErasedForItsShim : Obligations.EntryPageIsErasedForItsShim := by
  intro s u hf hw he hu hidle hres hshape hentry hshim
  have W := writable_of_received hf hw he hu hidle hshape
  rw [← cfg_of_frRecv hu] at hentry ⊢
  rw [← overConfig_iff]
  intro overlapsConfig hgood
  obtain ⟨t, herase, E⟩ := issue_erase_of_entry W hentry hgood
  have horch := orchestrate_of_entry W hentry hshim herase
  cases hconfig : overConfig u.cfg u.fr.wAddr u.fr.wLen with
  | true =>
    have hreject : writeSteps u.fr.wAddr u.fr.wLen t = .rejected .overConfiguration t :=
      if_pos (by rw [E.cfg]; exact hconfig)
    have hexec := exec_cmdWrite_of_first hf hu hidle hres (attemptWrite_of_rejected (horch.trans hreject)) (by simp)
    refine ⟨_, .overConfiguration, hexec, ?_, ?_, fun _ => ⟨rfl, ?_, E.issued, E.bytes⟩, fun h => absurd hconfig h⟩
    · rw [Attempt.answered, State.reply, E.only]
      rfl
    · exact congrArg (fun t : State => t.port.res) E.only
    · exact congrArg State.fl E.only
  | false =>
    obtain ⟨v, w, hwrite, hback, hland⟩ := writeSteps_readBack_land (E.writable W) (by rw [E.cfg]; exact hconfig)
      (fun p hp => E.target_erased W hentry hp) (by rw [E.chunks]; exact E.good)
    have hattempt : attemptWrite u.fr.wAddr u.fr.wLen u.attempting = .success w := by
      rw [attemptWrite_of_success (horch.trans hwrite), hback]
    have hexec := exec_cmdWrite_of_first hf hu hidle hres hattempt (by simp)
    refine ⟨_, .genericOk, hexec, ?_, ?_, fun h => absurd h (by simp [overlapsConfig, hconfig]),
      fun _ => ⟨rfl, ?_, ?_, fun i hi => ?_, fun p hp => ?_⟩⟩
    · rw [Attempt.answered, State.reply, hland.only, E.only]
      rfl
    · exact congrArg (fun t : State => t.port.res) hland.only
    · refine hland.fl.trans ?_
      rw [congrArg State.fl E.only]
      rfl
    · refine hland.issued.trans ?_
      rw [E.issued, E.chunks]
      rfl
    · refine (hland.written i hi).trans ?_
      rw [State.bufByte, E.fr]
      rfl
    · exact (hland.outside p hp).trans (E.bytes p)

end Sys2Proof.Machine
end

section
/-! The bounded retry of a received write away from the entry page (R299, R310): any chain of attempts, and attempts
that all fail in the hardware. -/

namespace Sys2Proof.Machine

/-- R300, R372: halted or waiting for the flash hardware, with no reception under way, the machine stays as it is. -/
theorem step_of_not_free {s : State} (hin : s.inputs = []) (hfr : s.fr.state = .idle) (hw : s.env.writing = false)
    (hf : ¬s.free) : step s = .next s := by
  have hfetch : fetch s = .moves (.next s) := by
    cases hhalted : s.fl.halted with
    | true => rw [fetch, if_pos hhalted]
    | false =>
      have hbusy : s.fl.state ≠ .idle := fun hidle => hf ⟨hhalted, busy_eq_false_iff.mpr ⟨hidle, hfr⟩⟩
      simp [fetch, hbusy]
  rw [step, hin]
  simp only [machineStep, hfetch]
  exact settle_of_not_writing hw

/-- R290 to R297: a received write to flash that no guard protects passes steps 1 to 7. -/
theorem passes_of_received {s u : State} {a : Word} {l : Half} (hf : s.commandFree) (hw : s.cfg.wf = true)
    (he : s.cfg.envWf = true) (hu : exec .frRecv { s with port.op := 0x31#8 } = .next u) (hidle : u.fr.state = .idle)
    (hshape : acceptedShape u a l.toNat) (hentry : phys a ≠ phys u.cfg.entryPage)
    (htarget : ∀ p, inTarget a l.toNat p → protectedByte u.cfg p = false) : Passes u.attempting a l := by
  obtain ⟨hal, hconfig⟩ := allowed_of_unprotected htarget
  exact ⟨writable_of_received hf hw he hu hidle hshape, congrArg Prod.fst hal, hconfig,
    atEntryPage_eq_false hentry⟩

/-- Settles O54: a chain of attempts is what `retryWrite` makes, and so is one whose outcomes are all faults. -/
theorem failingWriteIsRetriedToTheBound : Obligations.FailingWriteIsRetriedToTheBound := by
  intro s u hf hw he hu hidle hres hshape hentry htarget
  have hcfg := cfg_of_frRecv hu
  have hexec := exec_cmdWrite_of_okWrite hf hu hidle hres
  rw [← hcfg] at hentry htarget hexec ⊢
  have P := passes_of_received hf hw he hu hidle hshape hentry htarget
  refine ⟨fun k left hk hfirst hothers => ?_, fun rest => ?_⟩
  · obtain ⟨hsuccess, hgivesUp, hblocked, honly⟩ :=
      retryWrite_chain k u.cfg.maxWriteRetries 0 u.attempting left P rfl hk hfirst
        (by simpa only [Nat.zero_add] using hothers)
    rw [Nat.zero_add] at honly
    generalize left k = t at *
    have hout (q : Reply) : t.reply q = { t with tx := u.tx ++ [u.cfg.resp.get q] } := by
      rw [State.reply, honly]
      rfl
    refine ⟨fun hfree hok => ?_, fun hfree hbad hlast => ?_, fun hstuck => ⟨?_, ?_, fun hin => ?_⟩, ?_⟩
    · rw [hexec, hsuccess hfree hok, Attempt.answered, hout]
    · rw [hexec, hgivesUp hfree hbad hlast, Attempt.answered, hout]
    · rw [hexec, hblocked hstuck, Attempt.answered]
    · exact (congrArg State.tx honly :)
    · refine step_of_not_free ?_ ?_ ?_ hstuck
      · have hinputs : u.inputs = s.inputs := (exec_withinReach (by simp [operationWords]) hu).inputs
        exact (congrArg State.inputs honly).trans (hinputs.trans hin)
      · exact (congrArg (fun t => t.fr.state) honly).trans hidle
      · exact congrArg (fun t => t.env.writing) honly
    · exact (congrArg State.env honly :)
  · intro pieces attempts hs
    obtain ⟨t, hretry, honly, hfail, hhalted, hissued, houtside⟩ :=
      retry_failing pieces rest u.cfg.maxWriteRetries u.attempting P.toWritable P.allowed P.offConfig P.offEntry rfl
        hs
    rw [hretry] at hexec
    refine ⟨_, hexec, ?_, ?_, hfail, hhalted, hissued, houtside⟩
    · exact congrArg (fun t => t.tx ++ [t.cfg.resp.get .writesFailed]) honly
    · refine (congrArg State.env honly).trans ?_
      change { u.env with wretry := 0 + u.cfg.maxWriteRetries, writing := false } = _
      rw [Nat.zero_add]

end Sys2Proof.Machine
end

section
/-! The fatal halt and the busy block (R92, R336, R372, U11, U12): every instruction runs under one of three runners, each
of which does nothing while the block is halted. -/

namespace Sys2Proof.Machine

/-! ### The runner of each instruction -/

/-- R90, R372: every operation of the command port is run by the port's runner. -/
theorem exec_eq_runOperation {i : Instr} (hi : operationWords i ≠ none) : ∃ op, exec i = runOperation op := by
  cases i with
  | pktEnd | pktIv | pktWrite | len | handshake | cmdInfo | cmdErase | cmdCrc | cmdWrite | cmdQuit | cmdUnknown =>
    exact absurd rfl hi
  | _ => exact ⟨_, rfl⟩

theorem runOperation_of_busy {op : State → OpResult} {s : State} (hh : s.fl.halted = false) (hb : s.busy = true) :
    runOperation op s = .refused .portBusy := by simp [runOperation, hh, hb]

/-! ### The halt is absorbing -/

theorem runCommand_halted {c : State → Host.Outcome State Fault Refusal} {s : State} (h : s.fl.halted = true) :
    runCommand c s = .next s := if_pos h

/-- R92, R336: an operation, a frame and a command each run under a runner that the halt stops. -/
theorem exec_halted (i : Instr) {s : State} (h : s.fl.halted = true) : exec i s = .next s := by
  cases i with
  | pktEnd | pktIv | pktWrite | len => exact runFrame_halted h
  | handshake => exact runCommand_halted h
  | cmdInfo | cmdErase | cmdCrc | cmdWrite | cmdQuit | cmdUnknown => exact runActive_halted h
  | _ => exact runOperation_halted h

/-- R336: a Write command whose reception the halt stopped does not go on. -/
theorem resumeWrite_halted {s : State} (h : s.fl.halted = true) : resumeWrite s = s := by simp [resumeWrite, h]

theorem machineStep_halted {s : State} (h : s.fl.halted = true) : machineStep s = .next s := by
  have hfetch : fetch s = .moves (.next s) := if_pos h
  rw [machineStep, hfetch]
  exact congrArg _ (resumeWrite_halted h)

/-- U12: with no event the halted machine steps to itself. -/
theorem step_halted {s : State} (h : s.fl.halted = true) (hin : s.inputs = []) : step s = .next s := by
  rw [step, hin]
  exact machineStep_halted h

theorem step_quiet_halted {s : State} {rest : List Input} (h : s.fl.halted = true) (hin : s.inputs = .quiet :: rest) :
    step s = .next { s with inputs := rest } := by
  rw [step, hin]
  exact machineStep_halted (s := { s with inputs := rest }) h

/-- R336: a write of the port or of a key register has no effect in the halt. -/
theorem step_portWrite_halted {s : State} {i : Input} {rest : List Input} {w : State → State} (h : s.fl.halted = true)
    (hin : s.inputs = i :: rest) (hi : deliver i = portWrite w) (hq : i ≠ .quiet) :
    step s = .next { s with inputs := rest } := by
  rw [step_of_event hin hq, hi]
  exact if_pos h

/-- Settles O41, by the runner of each instruction and, for the events, by what delivers them. -/
theorem haltAndBusyStopEveryOperation : Obligations.HaltAndBusyStopEveryOperation := by
  refine ⟨fun s h => ⟨fun i => exec_halted i h, step_halted h, fun i rest hin hi => ?_⟩, fun s i hh hb hi => ?_⟩
  · rcases hi with rfl | ⟨op, rfl⟩ | ⟨v, rfl⟩ | ⟨v, rfl⟩ | ⟨v, rfl⟩ | ⟨k, b, rfl⟩ | ⟨k, b, rfl⟩
    case inl => exact step_quiet_halted h hin
    all_goals exact step_portWrite_halted h hin rfl (by simp)
  · obtain ⟨op, hop⟩ := exec_eq_runOperation hi
    rw [hop, runOperation_of_busy hh hb]

end Sys2Proof.Machine
end

section
/-! Protected flash under the machine's own controller (R285, R374): every step stores into the flash array, and leaves
an operation in flight, only where the controller may have its targets. -/

namespace Sys2Proof.Machine

/-- R285, R296: a byte the Address Guard does not protect, or one of the boot-entry page; `Permitted` without the range
check of R97. -/
def Targetable (cfg : Params) (p : Nat) : Prop := protectedByte cfg p = true → entryByte cfg p = true

theorem not_targetable {cfg : Params} {p : Nat} (hp : protectedByte cfg p = true) (he : entryByte cfg p = false) :
    ¬Targetable cfg p := fun h => Bool.false_ne_true (he.symm.trans (h hp))

namespace State.GuardInv

variable {ref : Nat → Byte} {s u : State}

theorem targetable (h : s.GuardInv ref) {p : Nat} (hf : s.inFlight = true)
    (hp : within s.fl.addr.toNat (flashSpan s.cfg s.fl.kind) p = true) : Targetable s.cfg p := h.target hf p hp

/-- Stores at targetable addresses, a targetable target if an operation is in flight afterwards, and no more events. -/
theorem of_reach (h : s.GuardInv ref) (hcfg : u.cfg = s.cfg)
    (harray : ArrayReach s.cfg.erasedByte (Targetable s.cfg) s.hw.array u.hw.array)
    (htarget : u.inFlight = true →
      ∀ p, within u.fl.addr.toNat (flashSpan s.cfg u.fl.kind) p = true → Targetable s.cfg p)
    (hstart : u.port.start = false) (hinputs : u.inputs ⊆ s.inputs) : u.GuardInv ref where
  bytes p hp he := by
    rw [hcfg] at hp he
    rw [State.flashByte, hcfg, harray.outside (not_targetable hp he)]
    exact h.bytes p hp he
  target := by rw [hcfg]; exact htarget
  port := hstart
  inputs op hop := h.inputs op (hinputs hop)

/-- Neither the sequencer nor the flash hardware has changed. -/
theorem of_eq (h : s.GuardInv ref) (hcfg : u.cfg = s.cfg) (hfl : u.fl = s.fl) (hhw : u.hw = s.hw)
    (hstart : u.port.start = false) (hinputs : u.inputs ⊆ s.inputs) : u.GuardInv ref :=
  h.of_reach hcfg (by rw [hhw]; exact ArrayReach.refl _ _ _) (by rw [State.inFlight, hfl]; exact h.target)
    hstart hinputs

/-- An operation that ends leaves nothing in flight. -/
theorem of_ends {r : Res} (h : s.GuardInv ref) (e : FlashEnds (Targetable s.cfg) s (.ends r u)) : u.GuardInv ref := by
  obtain ⟨only, harray, hidle, -, -⟩ := e
  exact h.of_reach only.cfg harray (fun hf => absurd hf (not_inFlight_of_idle hidle)) (by rw [only.port]; exact h.port)
    (by rw [only.inputs]; exact List.Subset.refl _)

/-- One that does not end is in flight only where it waits for its own completion (`FL_WAIT`), over its own target. -/
theorem of_blocks (h : s.GuardInv ref) (e : FlashEnds (Targetable s.cfg) s (.blocks u)) : u.GuardInv ref := by
  obtain ⟨only, harray, hends⟩ := e
  refine h.of_reach only.cfg harray (fun hf => ?_) (by rw [only.port]; exact h.port)
    (by rw [only.inputs]; exact List.Subset.refl _)
  rcases hends with ⟨-, -, hclear | ⟨-, htarget⟩⟩ | ⟨hhalt, -, -⟩
  · simp [State.inFlight, hclear] at hf
  · exact htarget
  · simp [State.inFlight, hhalt] at hf

/-- R360 d: a reset draws the bytes of a target in flight, which is targetable. -/
theorem resetBlock (h : s.GuardInv ref) : s.resetBlock.GuardInv ref := by
  obtain ⟨-, -, hcfg, hinputs, hport, hidle, -, -, -, -, -, -, harray⟩ := resetBlock_parts s
  exact h.of_reach hcfg (harray.mono fun p ⟨hf, hp⟩ => h.targetable hf hp)
    (fun hf => absurd hf (not_inFlight_of_idle hidle)) (by rw [hport]) (by rw [hinputs]; exact List.Subset.refl _)

/-- R374: no operation comes from outside the controller of R280. -/
theorem not_portOp (h : s.GuardInv ref) {op : Byte} {rest : List Input} : s.inputs ≠ .portOp op :: rest :=
  fun hin => h.inputs op (by rw [hin]; exact List.mem_cons_self)

end State.GuardInv

theorem guardInv_kept (ref : Nat → Byte) : Kept (fun s => s.GuardInv ref) Targetable where
  permitted _ _ h := h.2
  alike _ _ h a := h.of_eq a.cfg a.fl a.hw (a.start.trans h.port) (by rw [a.inputs]; exact List.Subset.refl _)
  res _ _ h := h.of_eq rfl rfl rfl h.port (List.Subset.refl _)
  flash _ _ _ h _ _ e := h.of_ends e
  flashWaits _ _ h _ _ e := h.of_blocks e
  recv _ _ h o _ _ _ :=
    h.of_eq o.cfg o.fl o.hw (by rw [o.port]; exact h.port) (by rw [o.inputs]; exact List.Subset.refl _)
  zeroise _ h hidle := ⟨h.bytes, fun hf => absurd hf (not_inFlight_of_idle hidle), h.port, h.inputs⟩
  reset _ h := h.resetBlock
  inputs _ i rest h hin := h.of_eq rfl rfl rfl h.port (by rw [hin]; exact List.subset_cons_self i rest)
  start _ h := h.of_eq rfl rfl rfl rfl (List.Subset.refl _)
  port _ h hstart := absurd (h.port.symm.trans hstart) Bool.false_ne_true
  portOp _ _ _ h hin := absurd hin h.not_portOp
  portKey _ _ _ h := h.of_eq rfl rfl rfl h.port (List.Subset.refl _)
  portIv _ _ _ h := h.of_eq rfl rfl rfl h.port (List.Subset.refl _)

/-- Settles O59: with no operation from outside, each target is one that the Erase command does not skip, one that has
passed the Guard, or the boot-entry page. -/
theorem stepKeepsProtectedFlash : Obligations.StepKeepsProtectedFlash := fun ref _ t h =>
  step_keeps (guardInv_kept ref) h t

end Sys2Proof.Machine
end

section
/-! A reset at any moment (R51, R360): the registers of the block, its flash array, and the boot that leaves both as the
reset has made them. -/

namespace Sys2Proof.Machine

/-- R51: the registers that have a reset value hold it. -/
structure ResetRegisters (t : State) : Prop where
  port : t.port = { op := 0x00#8, opa := 0#32, opb := 0#32, opc := 0#32, res := 0x00#8, start := false }
  crc : t.crc = { acc := 0#32, computed := 0#32, received := 0#32, matched := false }
  cRem : t.ciph.cRem = 0#32
  cOff : t.ciph.cOff = 0#32
  keyed : t.ciph.keyed = false
  fl : t.fl =
    { state := .idle, kind := .nop, addr := 0#32, data := 0#32, src := 0#32, eraseAtt := 0#32, eraseFail := 0#32
      writeFail := 0#32, halted := false, first := 0x00#8 }
  fr : t.fr =
    { state := .idle, buf := t.fr.buf, fill := 0#16, cur := 0#16, plen := 0#16, seq := 0#32, final := false
      wAddr := 0#32, wLen := 0#16, lenHi := t.fr.lenHi, toDrain := t.fr.toDrain }

theorem resetBlock_registers (s : State) : ResetRegisters s.resetBlock := by
  obtain ⟨_, _, _, _, _, _, _, _, _, -, he⟩ := resetBlock_eq s
  rw [he]
  exact ⟨rfl, rfl, rfl, rfl, rfl, rfl, rfl⟩

/-- R360 d: outside a target in flight the flash array stays as it is. -/
theorem flashByte_resetBlock_outside {s : State} {p : Nat}
    (hp : s.inFlight = true → within s.fl.addr.toNat (flashSpan s.cfg s.fl.kind) p = false) :
    s.resetBlock.flashByte p = s.flashByte p := by
  obtain ⟨-, -, hcfg, -, -, -, -, -, -, -, -, -, harray⟩ := resetBlock_parts s
  rw [State.flashByte, hcfg]
  exact harray.outside fun ⟨hf, hin⟩ => Bool.false_ne_true ((hp hf).symm.trans hin)

theorem flashByte_resetBlock (s : State) (p : Nat) : s.resetBlock.flashByte p = s.resetFlash.flashByte p := by
  obtain ⟨_, _, _, _, _, _, _, _, _, -, he⟩ := resetBlock_eq s
  rw [he]
  rfl

/-- R175: a scrambled range holds the drawn bytes in order. -/
theorem flashByte_scramble_inside {s : State} {p n i : Nat} (hi : i < n) :
    (s.scramble p n).flashByte (p + i) = (Draws.take n s.draws).1.getD i 0#8 := by
  have hlen : i < (Draws.take n s.draws).1.length := by rwa [Draws.length_take]
  rw [List.getD_eq_getElem _ _ hlen]
  exact Memory.read_writeRange_inside hlen

/-- R360 d: inside a target in flight the array holds the drawn bytes. -/
theorem flashByte_resetBlock_drawn {s : State} {i : Nat} (hf : s.inFlight = true)
    (hi : i < flashSpan s.cfg s.fl.kind) :
    s.resetBlock.flashByte (s.fl.addr.toNat + i) = (Draws.take (flashSpan s.cfg s.fl.kind) s.draws).1.getD i 0#8 := by
  rw [flashByte_resetBlock, State.resetFlash, if_pos hf]
  exact flashByte_scramble_inside hi

/-- R302, R365: a boot that does not zeroise changes the controller's fields only. -/
theorem bootLoop_of_not_zeroising {cause : ResetCause} {linked shim : Bool}
    (h : cause = .external ∨ (linked = true ∧ shim = true)) (t : State) :
    ∃ env, bootLoop cause linked shim t = .next { t with env := env } := by
  cases cause with
  | external => exact ⟨_, bootLoop_external linked shim t⟩
  | powerOn =>
    obtain ⟨rfl, rfl⟩ := h.resolve_left (by decide)
    exact ⟨_, bootLoop_of_passed_tests t⟩

/-- R362: what the cause of the reset decides is the status byte, which a power cycle draws. -/
theorem bootStatus_eq (cause : ResetCause) (t : State) :
    ∃ env draws, t.bootStatus cause = { t with env := env, draws := draws } := by
  cases cause <;> exact ⟨_, _, rfl⟩

/-- R360: the state that a reset without zeroisation leads to. -/
theorem step_of_reset_not_zeroising {s : State} {cause : ResetCause} {linked shim : Bool} {channel : List Byte}
    {rest : List Input} (hin : s.inputs = .reset cause linked shim channel :: rest)
    (h : cause = .external ∨ (linked = true ∧ shim = true)) :
    ∃ env draws, step s =
      .next { { s with inputs := rest }.resetBlock with rx := channel, tx := [], env := env, draws := draws } := by
  obtain ⟨env, draws, hstatus⟩ :=
    bootStatus_eq cause { { s with inputs := rest }.resetBlock with rx := channel, tx := [] }
  obtain ⟨env', hboot⟩ := bootLoop_of_not_zeroising h
    { { s with inputs := rest }.resetBlock with rx := channel, tx := [], env := env, draws := draws }
  refine ⟨env', draws, ?_⟩
  rw [step_of_event hin (by simp), deliver, applyReset, hstatus, hboot]

/-- Settles O2: neither the boot nor the channels touch the block that the reset has made. -/
theorem resetGivesTheRegistersTheirValues : Obligations.ResetGivesTheRegistersTheirValues := by
  intro s cause linked shim channel rest hin h
  obtain ⟨env, draws, hstep⟩ := step_of_reset_not_zeroising hin h
  obtain ⟨hport, hcrc, hrem, hoff, hkeyed, hfl, hfr⟩ := resetBlock_registers { s with inputs := rest }
  obtain ⟨-, -, hcfg, hinputs, -⟩ := resetBlock_parts { s with inputs := rest }
  have houtside := fun p => flashByte_resetBlock_outside (s := { s with inputs := rest }) (p := p)
  have hdrawn := fun hf i => flashByte_resetBlock_drawn (s := { s with inputs := rest }) (i := i) hf
  generalize { s with inputs := rest }.resetBlock = t at *
  exact ⟨_, hstep, hport, hcrc, hrem, hoff, hkeyed, hfl, hfr, houtside, hdrawn, rfl, rfl, hinputs, hcfg⟩

end Sys2Proof.Machine
end
